-- ==== Sys2Proof/Word.lean ====
section
/-! DEFINITION. The word types of the model (00_scope.md R12). -/

namespace Sys2Proof

/-- One byte of memory. -/
abbrev Byte := BitVec 8
/-- One lane register word (R20). -/
abbrev W32 := BitVec 32
/-- One control register or doubleword (R25). -/
abbrev W64 := BitVec 64

end Sys2Proof
end

