-- ==== Sys2Proof/Syntax.lean ====
section
/-!
DEFINITION. The instruction set of the Kamben KB-W64: one constructor of `Instr` for each row of
the opcode table (03_encoding_and_assembly.md R70, R71, R85 to R87; 10_engine_chains.md R236; the
rows without an encoding are the operations and events that the other chapters describe).
-/

namespace Sys2Proof

/-- The six conditions of R72. -/
inductive Cond where
  | eq | ne | lt | ge | ltu | geu
  deriving DecidableEq, Repr

/-- The conditions of a compare field (R87). -/
inductive LCond where
  | eq | ne | lt | le | gt | ge
  deriving DecidableEq, Repr

/-- The scopes, narrowest first (R17, R72). -/
inductive Scope where
  | grp | blk | dom | wfr | sys
  deriving DecidableEq, Repr

/-- The engine classes (R72, R236). -/
inductive EngClass where
  | copy | gath | alg | coll
  deriving DecidableEq, Repr

/-- The system registers of R74. -/
inductive SysReg where
  | asid | trapen | ltrapvec | ctrapvec | cause | faddr | fmask | epc | elpc | poolbase
  | poolcnt | regentab | lquota | aflags | nplimit
  | bpc (i : BitVec 3) | bpctl | wpa (i : BitVec 2) | wpctl
  deriving DecidableEq, Repr

/-- The orders of `SFILL`, `LDT` and `STT` (R179, R219). -/
inductive TOrder where
  | row | col | ilv
  deriving DecidableEq, Repr

/-- The element widths of `SFILL` (R219). -/
inductive SWidth where
  | x4 | x8 | x8i | x16 | x32
  deriving DecidableEq, Repr

/-- Overflow treatment of `IADD` and `ISUB` (R86). -/
inductive SatMod where
  | wrap | sat | usat
  deriving DecidableEq, Repr

/-- The rounding modes of R56. -/
inductive Rnd where
  | rn | rz | ru | rd
  deriving DecidableEq, Repr

/-- The operations of `PLOP` (R129). -/
inductive PlOp where
  | and | or | xor | andn
  deriving DecidableEq, Repr

/-- The forms of `VOTE` (R132). -/
inductive VoteOp where
  | all | any | eq | ballot
  deriving DecidableEq, Repr

/-- The forms of `SHFL` (R133). -/
inductive ShflOp where
  | idx | up | down | xor
  deriving DecidableEq, Repr

/-- The operations of `IREDUX` (R134). -/
inductive IRedOp where
  | add | min | max | umin | umax | and | or | xor
  deriving DecidableEq, Repr

/-- The operations of `FREDUX`, `ATOMF` and `REDF` (R87, R187). -/
inductive FRedOp where
  | add | min | max | minnum | maxnum
  deriving DecidableEq, Repr

/-- The width of a lane floating-point instruction (R144). -/
inductive FW where
  | f32 | h2 | bh2
  deriving DecidableEq, Repr

/-- The kinds of `FRND` (R152). -/
inductive FrndOp where
  | ne | tr | ce | fl
  deriving DecidableEq, Repr

/-- The format codes of R87 (15 is never assigned). -/
inductive Fmt where
  | f32 | f16 | bf16 | e4m3 | e5m2 | e3m2 | e2m3 | e2m1
  | i8 | ui8 | i16 | i32 | i4 | ui4 | k4
  deriving DecidableEq, Repr

/-- The format codes of `MMA` (R222). -/
inductive MFmt where
  | bf16 | f16 | f32 | e4m3 | e5m2 | we4m3 | we5m2 | we3m2 | we2m3 | k4
  | i8 | ui8 | i16 | i4 | ui4 | we2m1
  deriving DecidableEq, Repr

/-- The access sizes of R87. -/
inductive MSize where
  | b8 | b16 | b32 | b64 | b128
  deriving DecidableEq, Repr

/-- The order forms of R87; on `FENCE`, `plain` is `.ar`. -/
inductive MOrd where
  | plain | acq | rel
  deriving DecidableEq, Repr

/-- The placement hints of R177. -/
inductive Hint where
  | none | keep | stream
  deriving DecidableEq, Repr

/-- The integer atomic operations of R187. -/
inductive AOp where
  | add | min | max | umin | umax | and | or | xor | exch | cas
  deriving DecidableEq, Repr

/-- The encoding that a long lane instruction came in (R77, R78). -/
inductive LForm where
  | l64
  | lit (k : W32)
  | r96 (c : BitVec 11) (ha hb hc : Bool)
  deriving DecidableEq, Repr

/-- The fields that every long lane instruction has (R77, R78). A field whose bits an opcode lays
out otherwise stands in the constructor's own arguments and is 0 here. -/
structure LaneEnc where
  /-- Run boundary bit B (R75). -/
  run : Bool
  /-- Guard predicate G. -/
  g : BitVec 5
  /-- Guard negate GN. -/
  gn : Bool
  /-- Uniform bit U. -/
  u : Bool
  /-- Destination field. -/
  dst : BitVec 11
  /-- Operand a. -/
  a : BitVec 11
  /-- Operand b. -/
  b : BitVec 11
  /-- Lookahead LA (R81). -/
  la : BitVec 4
  /-- Scoreboard slot to set (R82). -/
  sbs : BitVec 3
  /-- Scoreboard slot to wait on (R82). -/
  sbw : BitVec 3
  /-- L64, L96K or L96R. -/
  form : LForm
  deriving DecidableEq, Repr

/-- A compare field of `ISET` or `FSET` (R87). -/
structure CmpField where
  x : Bool
  cond : LCond
  pd : BitVec 5
  deriving DecidableEq, Repr

/-- The conversion fields of R87. -/
structure ConvMod where
  sfmt : Fmt
  mg : Bool
  mag : BitVec 2
  sat : Bool
  nf : Bool
  dfmt : Fmt
  deriving DecidableEq, Repr

/-- The memory fields of R87 for the loads, stores and atomics. -/
structure MemMod where
  xb : BitVec 3
  size : MSize
  sx : Bool
  ord : MOrd
  scope : Scope
  hint : Hint
  deriving DecidableEq, Repr

/-- The fields of `LDT` and `STT` (R164). -/
structure TileMod where
  size : MSize
  order : TOrder
  /-- log₂ d. -/
  dim : BitVec 2
  deriving DecidableEq, Repr

/-- The fields of `MMA` (R87, R222). -/
structure MmaMod where
  sel : BitVec 2
  zc : Bool
  nb : Bool
  na : Bool
  fmt : MFmt
  handle : BitVec 2
  sa : BitVec 6
  sb : BitVec 6
  tab : BitVec 3
  deriving DecidableEq, Repr

/-- The four doublewords of an engine entry after its kind (R240): PROG, ARG, FLG, Q1, Q2, Q3. -/
structure EntryEnc where
  prog : W32
  arg : BitVec 16
  flg : BitVec 8
  q1 : W64
  q2 : W64
  q3 : W64
  deriving DecidableEq, Repr

/-- An admin command of the host (R410): the function it came through, the tag of D0 and D1 to D7. -/
structure AdminCmd where
  fn : Nat
  tag : BitVec 16
  d1 : W64
  d2 : W64
  d3 : W64
  d4 : W64
  d5 : W64
  d6 : W64
  d7 : W64
  deriving DecidableEq, Repr

/-- The units of a core beside its strands (R428): its control unit, algebra array and L1, and its SRAMs. -/
inductive CoreUnit where
  | control | array | l1 | registers | scratchpad | accumulators | operands
  deriving DecidableEq, Repr
/-- The units of a domain that are only marked for service (R428). -/
inductive DomUnit where
  | directory | syncEngine | walker | distributor
  deriving DecidableEq, Repr
/-- The units whose corrected errors firmware counts (R428). -/
inductive FaultUnit where
  /-- A strand of a core site. -/
  | strand (site k : Nat)
  /-- Another unit of a core site. -/
  | core (site : Nat) (u : CoreUnit)
  /-- The stitched link of a domain: 0 north, 1 east, 2 south, 3 west (R423). -/
  | link (dom dir : Nat)
  /-- A Corrie core. -/
  | corrie (dom core : Nat)
  /-- An L2 slice. -/
  | slice (dom k : Nat)
  /-- A DRAM channel. -/
  | channel (dom k : Nat)
  /-- Another unit of a domain. -/
  | domain (dom : Nat) (u : DomUnit)
  deriving DecidableEq, Repr

/-- A stage of the boot image (R416): its bytes, its security version number, and the signature (r, s) over its digest. -/
structure BootStage where
  code : List Byte
  version : W32
  sig : List Byte
  deriving DecidableEq, Repr

/-- The signed image that the boot ROM reads from flash (R8, R415 to R417): its signing key, its stages, the certificate's
key, the security configuration and the defect map; and what the self-test of this start finds (R421). -/
structure BootImage where
  /-- The signing public key. -/
  key : List Byte
  loader : BootStage
  ridge : BootStage
  defects : BootStage
  monitor : BootStage
  /-- The debug enables of the security configuration (R415). -/
  debugOn : W64
  /-- The image has the form of one; the manual does not give its layout (R416). -/
  formOk : Bool
  /-- The identity public key of the certificate (R417). -/
  certKey : BitVec 512
  /-- Limit in 1/16 °C above which the module stops (R414). -/
  shutdown : Nat
  /-- Limit and hysteresis in 1/16 °C of the hot mark (R370). -/
  hotLimit : Nat
  hotHyst : Nat
  /-- Sites that are not compute cores: site, 0 absent or 2 memory-only (R424). -/
  sites : List (Nat × Nat)
  /-- Sites with an unsound strand: site and the 16-bit mask of sound strands (R424). -/
  strands : List (Nat × BitVec 16)
  /-- Absent Corrie cores, domain × 28 + core. -/
  corrieOff : List Nat
  /-- Stitched links that are down, by domain and direction (R423). -/
  linksDown : List (Nat × Nat)
  /-- Retired L2 slices and their surviving replacements, (domain × 128 + slice, slice) (R322). -/
  sliceMap : List (Nat × Nat)
  /-- Retired DRAM channels and their replacements, (domain × 32 + channel, channel) (R322). -/
  chanMap : List (Nat × Nat)
  /-- The units that the self-test of this start finds faulty (R421, R428). -/
  found : List FaultUnit
  deriving DecidableEq, Repr

/-- The kinds of host atomic operation on BAR 2 (R393). -/
inductive HostAtom where
  | fetchAdd | swap | cas
  deriving DecidableEq, Repr

/-- What a translated access needs (R328). -/
inductive Access where
  | laneFetch | ctlFetch | load | store | atomic | bindXb | range
  deriving DecidableEq, Repr

/-- An event that reaches a trigger sequencer (R454): its source code, value and context. -/
structure SeqEvent where
  src : Nat
  value : W64
  asid : Nat
  deriving DecidableEq, Repr

/-- The instructions, operations and events of the opcode table, one constructor a row. -/
inductive Instr where
  -- scalar ALU group, R71
  | sadd (d a b : BitVec 6) | ssub (d a b : BitVec 6) | smul (d a b : BitVec 6)
  | smulh (d a b : BitVec 6) (uns : Bool) | sdiv (d a b : BitVec 6) (uns : Bool)
  | srem (d a b : BitVec 6) (uns : Bool)
  | sand (d a b : BitVec 6) | sor (d a b : BitVec 6) | sxor (d a b : BitVec 6)
  | sshl (d a b : BitVec 6) | sshr (d a b : BitVec 6) | ssra (d a b : BitVec 6)
  | smin (d a b : BitVec 6) (uns : Bool) | smax (d a b : BitVec 6) (uns : Bool)
  | ssel (d a b : BitVec 6)
  -- the other control instructions, R70
  | scmp (d a b : BitVec 6) (c : Cond)
  | saddi (d a : BitVec 6) (imm : BitVec 14) | sandi (d a : BitVec 6) (imm : BitVec 14)
  | sori (d a : BitVec 6) (imm : BitVec 14)
  | smovw (d : BitVec 6) (idx : BitVec 2) (imm : BitVec 16)
  | smovwZ (d : BitVec 6) (idx : BitVec 2) (imm : BitVec 16)
  | sldB64 (d a : BitVec 6) (imm : BitVec 14) | sldB32 (d a : BitVec 6) (imm : BitVec 14)
  | sstB64 (d a : BitVec 6) (imm : BitVec 14) | sstB32 (d a : BitVec 6) (imm : BitVec 14)
  | br (off : BitVec 26) | call (off : BitVec 26)
  | bcmp (a b : BitVec 6) (c : Cond) (off : BitVec 11)
  | ret (a : BitVec 6) | run (a : BitVec 6) (imm : BitVec 14) | lsync
  | xlat (x : BitVec 3) (a : BitVec 6) | xclr (x : BitVec 3)
  | waitcnt (c : EngClass) (n : BitVec 8)
  | yield (c : EngClass) (n : BitVec 8) (off : BitVec 16)
  | launch (d a : BitVec 6) | waitchild (d : BitVec 6)
  | sreadFlags (d : BitVec 6) | sreadHandle (d : BitVec 6) | sreadStamp (d : BitVec 6)
  | sreadCycle (d : BitVec 6)
  | nopreBegin | nopreEnd | exit | nop
  | engchain (a : BitVec 6) (c : EngClass)
  | cbinit (d a : BitVec 6) | cbadvProd (d a : BitVec 6) | cbadvCons (d a : BitVec 6)
  | waitcmp (d a b : BitVec 6) (t : Bool) (s : Scope) (c : Cond)
  | binit (a b : BitVec 6) | barv (a b : BitVec 6) | bwait (d a : BitVec 6) (t : Bool)
  | bexp (a b : BitVec 6) | dbar (id : BitVec 4) | wbar (d : BitVec 6)
  | mbxsend (d a b : BitVec 6) | mbxrecv (d a b : BitVec 6) | mbxstat (d a : BitVec 6)
  | vstat (d : BitVec 6) (up : Bool)
  | atab (t : BitVec 3) (a : BitVec 6)
  | sclm (d : BitVec 6) | sclmNw (d : BitVec 6) | srel (a : BitVec 6)
  | sfill (d a b : BitVec 6) (w : SWidth) (dim : BitVec 2) (conj : Bool) (o : TOrder)
  | aqry (d : BitVec 6) (h : BitVec 2)
  | trap (code : BitVec 8) | tret
  | sysrd (d : BitVec 6) (r : SysReg) | syswr (a : BitVec 6) (r : SysReg)
  | tlbinvRange (a b : BitVec 6) | tlbinvAsid
  | ckpt (d : BitVec 6) | bkpt (code : BitVec 8) | sample (a : BitVec 6)
  | trig (tag : BitVec 8) | park
  -- L32 forms, R85
  | movL32 (run : Bool) (d s : BitVec 11) (u : Bool) | notL32 (run : Bool) (d s : BitVec 11) (u : Bool)
  | iabsL32 (run : Bool) (d s : BitVec 11) (u : Bool) | popcL32 (run : Bool) (d s : BitVec 11) (u : Bool)
  | clzL32 (run : Bool) (d s : BitVec 11) (u : Bool) | brevL32 (run : Bool) (d s : BitVec 11) (u : Bool)
  | tileL32 (run : Bool) (s : BitVec 11)
  | joinL32 (run : Bool) | lstopL32 (run : Bool) | lexitL32 (run : Bool)
  -- lane integer, predicate and flow, R121
  | iadd (e : LaneEnc) (m : SatMod) | isub (e : LaneEnc) (m : SatMod)
  | imul (e : LaneEnc) | imulh (e : LaneEnc) (uns : Bool) | imad (e : LaneEnc)
  | iaddw (e : LaneEnc) (uns : Bool)
  | idiv (e : LaneEnc) (uns : Bool) | irem (e : LaneEnc) (uns : Bool)
  | imin (e : LaneEnc) (uns : Bool) | imax (e : LaneEnc) (uns : Bool)
  | iabs (e : LaneEnc) (sat : Bool)
  | and (e : LaneEnc) | or (e : LaneEnc) | xor (e : LaneEnc) | not (e : LaneEnc)
  | shl (e : LaneEnc) (clamp : Bool) | shr (e : LaneEnc) (clamp : Bool)
  | sra (e : LaneEnc) (clamp : Bool)
  | fshf (e : LaneEnc) (right : Bool) | bfx (e : LaneEnc) (uns : Bool) | bfi (e : LaneEnc)
  | popc (e : LaneEnc) | clz (e : LaneEnc) | brev (e : LaneEnc) | perm (e : LaneEnc)
  | iset (e : LaneEnc) (f : CmpField)
  | plop (e : LaneEnc) (op : PlOp) | pmov (e : LaneEnc) (tov : Bool) | sel (e : LaneEnc)
  | mov (e : LaneEnc) | movk (e : LaneEnc) (hi : Bool) (imm : BitVec 16)
  | vote (e : LaneEnc) (op : VoteOp) | shfl (e : LaneEnc) (op : ShflOp)
  | iredux (e : LaneEnc) (op : IRedOp)
  | tile (e : LaneEnc) | lbra (e : LaneEnc) (off : BitVec 22)
  | join (e : LaneEnc) | lstop (e : LaneEnc) | lexit (e : LaneEnc)
  -- lane floating point, R144
  | fadd (e : LaneEnc) (w : FW) (m : Rnd) | fsub (e : LaneEnc) (w : FW) (m : Rnd)
  | fmul (e : LaneEnc) (w : FW) (m : Rnd) | ffma (e : LaneEnc) (w : FW) (m : Rnd)
  | fmin (e : LaneEnc) (w : FW) (num : Bool) | fmax (e : LaneEnc) (w : FW) (num : Bool)
  | fset (e : LaneEnc) (f : CmpField) | fclass (e : LaneEnc)
  | frcp (e : LaneEnc) (w : FW) | frsq (e : LaneEnc) (w : FW) | fsqrt (e : LaneEnc) (w : FW)
  | fdiv (e : LaneEnc)
  | fex2 (e : LaneEnc) (w : FW) | flg2 (e : LaneEnc) (w : FW) | fsin (e : LaneEnc) (w : FW)
  | fcos (e : LaneEnc) (w : FW) | ftanh (e : LaneEnc) (w : FW)
  | frnd (e : LaneEnc) (w : FW) (k : FrndOp) | fredux (e : LaneEnc) (w : FW) (op : FRedOp)
  | cvtfi (e : LaneEnc) (m : ConvMod) | cvtif (e : LaneEnc) (m : ConvMod)
  | cvtff (e : LaneEnc) (m : ConvMod) (kt : BitVec 2) | cvtn (e : LaneEnc) (m : ConvMod)
  | cvtk4 (e : LaneEnc) (m : ConvMod) (kt : BitVec 2) | cvtw (e : LaneEnc) (m : ConvMod)
  | magrd (e : LaneEnc) (mag : BitVec 2) | magclr (e : LaneEnc) (mag : BitVec 2)
  | amul (e : LaneEnc) (w : FW) (tab : BitVec 3) | amad (e : LaneEnc) (w : FW) (tab : BitVec 3)
  | aconj (e : LaneEnc) (w : FW) (tab : BitVec 3) | anorm (e : LaneEnc) (w : FW) (tab : BitVec 3)
  | ainv (e : LaneEnc) (w : FW) (tab : BitVec 3)
  -- lane memory, R164 and R187
  | ldg (e : LaneEnc) (m : MemMod) | stg (e : LaneEnc) (m : MemMod)
  | lds (e : LaneEnc) (m : MemMod) | sts (e : LaneEnc) (m : MemMod)
  | ldt (e : LaneEnc) (m : TileMod) | stt (e : LaneEnc) (m : TileMod)
  | pfg (e : LaneEnc) (m : MemMod) | wbr (e : LaneEnc) (m : MemMod) | invr (e : LaneEnc) (m : MemMod)
  | fence (e : LaneEnc) (ord : MOrd) (s : Scope)
  | atom (e : LaneEnc) (m : MemMod) (op : AOp) | red (e : LaneEnc) (m : MemMod) (op : AOp)
  | atomf (e : LaneEnc) (m : MemMod) (op : FRedOp) (ra : Bool)
  | redf (e : LaneEnc) (m : MemMod) (op : FRedOp) (ra : Bool)
  | atoms (e : LaneEnc) (m : MemMod) (op : AOp)
  -- array, FIFOs and system in the lane stream, R86
  | mma (e : LaneEnc) (m : MmaMod) | accz (e : LaneEnc) (h : BitVec 2)
  | accrd (e : LaneEnc) (h : BitVec 2) (n : BitVec 6) (mg : Bool) (mag : BitVec 2) (dfmt : Fmt)
  | accwr (e : LaneEnc) (h : BitVec 2)
  | vpush (e : LaneEnc) (half : Bool) | vpop (e : LaneEnc) (half : Bool)
  | trapLane (e : LaneEnc) (code : BitVec 8) | tretLane (e : LaneEnc)
  | sysrdLane (e : LaneEnc) (r : SysReg) | syswrLane (e : LaneEnc) (r : SysReg)
  | mapf (e : LaneEnc) | bkptLane (e : LaneEnc) (code : BitVec 8)
  -- events of the streams of one group; the argument names the group
  | laneEntryStart (g : Nat) | strandRunStart (core strand : Nat) | joinMerge (g : Nat)
  | loadDataArrival (g k : Nat) | laneInstructionComplete (g k : Nat) | yieldReactivate (g : Nat)
  | trapEntryLane (g : Nat) | trapEntryControl (g : Nat) | nonpreemptOverrun (g : Nat)
  | engineFaultDelivery (g : Nat)
  -- monitors and barriers
  | monitorWake (g : Nat) | monitorReread (g : Nat) | waitcmpTimeout (g : Nat) | barrierTimeout (g : Nat)
  | domainBarrierCompletion (asid dom : Nat) (id : BitVec 4) | waferBarrierCompletion | heartbeatBarrier
  -- engine chains: the entries run in the chain that the step has chosen
  | chainStart (core : Nat) (c : EngClass) | chainGiveUp (chain : Nat)
  | copy (q : EntryEnc) | mcast (q : EntryEnc) | conv (q : EntryEnc) | gather (q : EntryEnc)
  | scatter (q : EntryEnc) | reduce (q : EntryEnc) | algop (q : EntryEnc) | loop (q : EntryEnc)
  | cond (q : EntryEnc) | signal (q : EntryEnc) | endEntry (q : EntryEnc)
  -- the array
  | mmaStart (core : Nat) | mmaChunk (core : Nat) | sfillComplete (core : Nat) | sclmGrant (core : Nat)
  -- paging
  | pageWalk (core : Nat) (asid : Nat) (va : W64) (acc : Access) | regenerationEnd (dom entry : Nat)
  -- scheduling
  | gridActivation | aggregatorMerge (dom : Nat) | freeCountReport (dom : Nat) | blockPlacement
  | gangReservation | gangStart | blockSwapOut | blockResume
  | domainHotMark (dom temp : Nat) | blockMigration (dom : Nat) | gridCompletion (grid : Nat)
  -- coherence
  | dirReadRequest (line q : Nat) | dirWriteRequest (line q : Nat) | dirEvictionNotice (line q : Nat)
  | dirHold (line : Nat) | dirHoldRelease (line : Nat)
  -- health and start
  | scrubUncorrectable (pa : Nat) | correctedError (u : FaultUnit) | rebuild
  | periodicCheckpoint (asid : Nat) | checkpointCommit (asid : Nat)
  | moduleStart (selfTest : BitVec 4) (img : BootImage) | coolantThrottle (inlet : Nat)
  | thermalStop (temp : Nat)
  -- host interface
  | bar2Read (fn addr n : Nat) | bar2Write (fn addr : Nat) (bytes : List Byte)
  | peerWrite (peer addr : Nat) (bytes : List Byte)
  | sqtail (fn q : Nat) (v : W64) | cqhead (fn q : Nat) (v : W64)
  | queueEnable (fn q : Nat) (v : W64) | queueDisable (fn q : Nat) (v : W64)
  | qstatClear (fn q : Nat) (v : W64) | coal (fn v : Nat) (w : W64)
  | registerWrite (fn off : Nat) (w : W64)
  | functionLevelReset (fn : Nat) | linkDown (fn : Nat) | completionWrite
  | interruptMessage (fn v : Nat) | coalescingTimerExpiry (fn v : Nat)
  | createContext (c : AdminCmd) | destroyContext (c : AdminCmd) | bindEpisode (c : AdminCmd)
  | quote (c : AdminCmd) | traverseQuote (peer : Nat) (nonce : BitVec 256)
  | readLog (c : AdminCmd) | readTopology (c : AdminCmd)
  | debugAttach (c : AdminCmd) | debugStop (c : AdminCmd) | debugResume (c : AdminCmd)
  | debugDump (c : AdminCmd) | debugPoke (c : AdminCmd) | debugDetach (c : AdminCmd)
  | traceConfig (c : AdminCmd) | seqLoad (c : AdminCmd)
  | traverseLinkChange (port : Nat) (up : Bool) (peer peerPort : Nat)
  | cairnReceive (dom : Nat) | sequencerRuleTaken (dom : Nat) (evs : List SeqEvent)
  -- the Corrie; `h` is domain × 28 + core
  | take (h slot : Nat) (v : W64) | post (h slot : Nat) (v : W64)
  | openEp (h : Nat) (v : W64) | closeEp (h : Nat) (v : W64)
  | stepWatchdogExpiry (h slot : Nat) | watchdogHardwareClose (h slot : Nat)
  | pop (h col : Nat) | push (h col : Nat) | fstatClear (h col : Nat) (v : W64)
  | gateRequest (h : Nat) | gateComplete (h : Nat) | gateCancel (h : Nat)
  | corrieHartStart (h : Nat) (image : List Byte)
  -- the remaining rows of the table
  | controlAccessComplete (g : Nat) | domainClockStep (dom : Nat)
  | victimRemoval (asid : Nat) | evictedPageReturn (asid : Nat) (va : W64)
  | attributeChange (asid : Nat) (va : W64) (coh : BitVec 2) | powerLoss
  | bar2Atomicop (fn addr n : Nat) (op : HostAtom) (x y : W64) | vectorUnmask (fn v : Nat)
  | speculativeAccess (core asid : Nat) (va : W64) | platformInterrupt (h : Nat)
  deriving DecidableEq, Repr

end Sys2Proof
end

