-- ==== Sys2Proof/WellFormed.lean ====
section
/-!
DEFINITION. Which instructions are well formed: the conditions of 03_encoding_and_assembly.md R79, R86 to R88
and of the chapters on each family whose failure traps ILLEGAL_INSTR and which no field type of
`Instr` already rules out. `Decode` refuses every word that would give an ill-formed instruction.
-/

namespace Sys2Proof

/-- The base format of an L64 opcode (R79): L64; L96K when the b field holds an operand; L96R with
C = 0, used to set HA or HB. -/
def LaneEnc.baseL64 (e : LaneEnc) (bOperand : Bool) : Bool :=
  match e.form with
  | .l64 => true
  | .lit _ => bOperand && e.b == 2047#11
  | .r96 c _ _ _ => c == 0#11 && e.b != 2047#11

/-- The base format L96R (R79). -/
def LaneEnc.baseL96R (e : LaneEnc) : Bool :=
  match e.form with
  | .r96 _ _ _ _ => true
  | _ => false

/-- The C field of the third word, 0 where there is none (R78). -/
def LaneEnc.c (e : LaneEnc) : BitVec 11 :=
  match e.form with
  | .r96 c _ _ _ => c
  | _ => 0#11

/-- Unguarded: G = p0 with GN = 0 (R77). -/
def LaneEnc.unguarded (e : LaneEnc) : Bool := e.g == 0#5 && !e.gn

/-- A field that holds a predicate number in [4:0] with [10:5] RES0 (R121). -/
def predField (x : BitVec 11) : Bool := x.toNat < 32

/-- Every field but B is 0 (R86: JOIN, LSTOP, LEXIT). -/
def LaneEnc.bare (e : LaneEnc) : Bool :=
  e.unguarded && !e.u && e.dst == 0#11 && e.a == 0#11 && e.b == 0#11 && e.la == 0#4 && e.sbs == 0#3 &&
  e.sbw == 0#3 && (e.form == .l64 || e.form == .r96 0#11 false false false)

/-- The single-source form "(b)": base L64 with A RES0 (R86). -/
def LaneEnc.single (e : LaneEnc) : Bool := e.baseL64 true && e.a == 0#11

/-- An instruction of two operands in base L64. -/
def LaneEnc.double (e : LaneEnc) : Bool := e.baseL64 true

/-- The floating-point formats of 16 bits or more. -/
def Fmt.wideFloat : Fmt → Bool
  | .f32 | .f16 | .bf16 => true
  | _ => false

/-- The floating-point formats of 8 bits or fewer. -/
def Fmt.narrowFloat : Fmt → Bool
  | .e4m3 | .e5m2 | .e3m2 | .e2m3 | .e2m1 => true
  | _ => false

/-- The integer formats. -/
def Fmt.isInt : Fmt → Bool
  | .i8 | .ui8 | .i16 | .i32 | .i4 | .ui4 => true
  | _ => false

/-- Storage width in bits (R155). -/
def Fmt.width : Fmt → Nat
  | .f32 | .i32 => 32
  | .f16 | .bf16 | .i16 => 16
  | .e4m3 | .e5m2 | .e3m2 | .e2m3 | .i8 | .ui8 => 8
  | .e2m1 | .i4 | .ui4 | .k4 => 4

/-- The signed integer formats that CVTN narrows from (R156). -/
def Fmt.signedInt : Fmt → Bool
  | .i8 | .i16 | .i32 => true
  | _ => false

/-- SAT only with E5M2 or E4M3 (R156). -/
def ConvMod.satOk (m : ConvMod) : Bool := !m.sat || m.dfmt == .e5m2 || m.dfmt == .e4m3

/-- The legal pairs of CVTFI (R156). -/
def cvtfiOk (m : ConvMod) : Bool := m.sfmt.wideFloat && m.dfmt.isInt && !m.nf && !m.sat
/-- The legal pairs of CVTIF (R156). -/
def cvtifOk (m : ConvMod) : Bool := m.sfmt.isInt && m.dfmt.wideFloat && !m.nf && !m.sat
/-- The legal pairs of CVTFF (R156); the K4 type is 0 unless the source is K4 (R145). -/
def cvtffOk (m : ConvMod) (kt : BitVec 2) : Bool :=
  !m.sat && (kt == 0#2 || m.sfmt == .k4) && m.dfmt.wideFloat &&
  ((m.sfmt == .f32 && m.dfmt != .f32) ||
   (!m.nf && m.sfmt != .f32 && m.sfmt.wideFloat && m.sfmt != m.dfmt) ||
   (!m.nf && (m.sfmt.narrowFloat || m.sfmt == .k4)))
/-- The legal pairs of CVTN (R156). -/
def cvtnOk (m : ConvMod) : Bool :=
  m.satOk &&
  ((m.sfmt.wideFloat && (m.dfmt.narrowFloat || (m.dfmt.isInt && m.dfmt.width ≤ 8))) ||
   (!m.nf && m.sfmt.signedInt && m.dfmt.isInt && m.dfmt.width < m.sfmt.width))
/-- The legal pairs of CVTK4 (R156). -/
def cvtk4Ok (m : ConvMod) : Bool := m.sfmt.wideFloat && m.dfmt == .k4 && !m.sat
/-- The legal pairs of CVTW (R156). -/
def cvtwOk (m : ConvMod) : Bool := m.sfmt.wideFloat && m.dfmt.narrowFloat && m.satOk

/-- The formats of MMA with block scales (R222). -/
def MFmt.scaled : MFmt → Bool
  | .we4m3 | .we5m2 | .we3m2 | .we2m3 | .k4 | .we2m1 => true
  | _ => false

/-- ORD and SCOPE of a memory access (R165): a plain access has scope code 0. -/
def MemMod.ordOk (m : MemMod) (acq rel : Bool) : Bool :=
  match m.ord with
  | .plain => m.scope == .grp
  | .acq => acq
  | .rel => rel

/-- SX only with `.b8` or `.b16` (R165). -/
def MemMod.sxOk (m : MemMod) : Bool := !m.sx || m.size == .b8 || m.size == .b16

/-- SIZE `.b32` or `.b64` (R187). -/
def MSize.atomic (z : MSize) : Bool := z == .b32 || z == .b64

/-- The modifier values of PFG, WBR and INVR (R164). -/
def MemMod.rangeOk (m : MemMod) (hint : Bool) : Bool :=
  m.size == .b8 && !m.sx && m.ord == .plain && m.scope == .grp && (hint || m.hint == .none)

/-- The modifier values of an atomic (R187). -/
def MemMod.atomOk (m : MemMod) (acq : Bool) : Bool :=
  m.hint == .none && !m.sx && m.ordOk acq true

/-- The modifier values of LDT and STT (R165). -/
def TileMod.ok (m : TileMod) : Bool :=
  (m.size == .b8 || m.size == .b16 || m.size == .b32) &&
  (if m.order == .ilv then m.size != .b8 else m.dim == 0#2)

/-- The `.rn`, `.rz`, `.ru`, `.rd` modifiers exist for `.f32` only (R87). -/
def rndOk (w : FW) (m : Rnd) : Bool := w == .f32 || m == .rn

/-- Core sites of the module are numbered 112 × domain + site (R3). -/
def coreOk (c : Nat) : Bool := c < 7168
/-- Domains (R3). -/
def domOk (d : Nat) : Bool := d < 64
/-- Corrie harts, 28 × domain + core (R373). -/
def hartOk (h : Nat) : Bool := h < 1792
/-- PCIe functions 0 to 7 (R393). -/
def fnOk (f : Nat) : Bool := f < 8

/-- Well-formed instructions. For an instruction with an encoding this says that the encoding is
legal up to cause 2 of R89; for an event it bounds the numbers of the units it names. -/
def WellFormed : Instr → Bool
  | .smulh .. | .sdiv .. | .srem .. | .smin .. | .smax .. => true
  | .sadd .. | .ssub .. | .smul .. | .sand .. | .sor .. | .sxor .. | .sshl .. | .sshr .. | .ssra .. | .ssel .. => true
  | .scmp .. | .saddi .. | .sandi .. | .sori .. | .smovw .. | .smovwZ .. => true
  | .sldB64 .. | .sldB32 .. | .sstB64 .. | .sstB32 .. | .br .. | .call .. | .bcmp .. | .ret .. | .run .. | .lsync => true
  | .xlat .. | .xclr .. | .waitcnt .. | .yield .. | .launch .. | .waitchild .. => true
  | .sreadFlags .. | .sreadHandle .. | .sreadStamp .. | .sreadCycle .. | .nopreBegin | .nopreEnd | .exit | .nop => true
  | .engchain .. | .cbinit .. | .cbadvProd .. | .cbadvCons .. => true
  -- R194, R202: with T = 0 the timeout register field is RES0
  | .waitcmp d _ _ t _ _ => t || d == 0#6
  | .binit .. | .barv .. => true
  | .bwait d _ t => t || d == 0#6
  | .bexp .. | .dbar .. | .wbar .. => true
  -- R206: b names an even pair
  | .mbxsend _ _ b => b.getLsbD 0 == false
  | .mbxrecv _ _ b => b.getLsbD 0 == false
  | .mbxstat .. | .vstat .. | .atab .. | .sclm .. | .sclmNw .. | .srel .. => true
  -- R219
  | .sfill _ _ _ w dim cj o =>
    (dim == 0#2 || o == .ilv || cj) && !((o == .ilv || cj) && w == .x4)
  | .aqry .. | .trap .. | .tret | .sysrd .. | .syswr .. | .tlbinvRange .. | .tlbinvAsid => true
  | .ckpt .. | .bkpt .. | .sample .. | .trig .. | .park => true
  | .movL32 .. | .notL32 .. | .iabsL32 .. | .popcL32 .. | .clzL32 .. | .brevL32 .. | .tileL32 .. => true
  | .joinL32 .. | .lstopL32 .. | .lexitL32 .. => true
  | .iadd e _ | .isub e _ | .imul e | .imulh e _ | .iaddw e _ | .idiv e _ | .irem e _ | .imin e _ | .imax e _ => e.double
  | .imad e | .fshf e _ | .bfi e | .perm e => e.baseL96R
  | .iabs e _ | .not e | .popc e | .clz e | .brev e | .mov e => e.single
  | .and e | .or e | .xor e | .shl e _ | .shr e _ | .sra e _ | .bfx e _ => e.double
  | .iset e _ => e.double && e.dst == 0#11
  | .plop e _ => e.baseL64 false && predField e.dst && predField e.a && predField e.b
  | .pmov e tov =>
    if tov then e.baseL64 false && predField e.a && e.b == 0#11 else e.single && predField e.dst
  | .sel e => e.baseL96R && predField e.c
  | .movk e _ _ => e.form == .l64 && e.a == 0#11 && e.b == 0#11
  | .vote e op =>
    e.baseL64 false && !e.u && e.a == 0#11 && predField e.b && (op == .ballot || predField e.dst)
  | .shfl e _ => e.double && !e.u
  | .iredux e _ => e.baseL96R && !e.u && e.b == 0#11 && e.c == 0#11
  | .tile e => e.single && !e.u && e.unguarded && e.dst == 0#11
  | .lbra e _ =>
    e.form == .l64 && !e.u && e.dst == 0#11 && e.a == 0#11 && e.b == 0#11 && e.la == 0#4 && e.sbs == 0#3
  | .join e | .lstop e | .lexit e => e.bare
  | .fadd e w m | .fsub e w m | .fmul e w m => e.double && rndOk w m
  | .ffma e w m => e.baseL96R && rndOk w m
  | .fmin e _ _ | .fmax e _ _ => e.double
  | .fset e _ => e.double && e.dst == 0#11
  | .fclass e | .frcp e _ | .frsq e _ | .fsqrt e _ | .fex2 e _ | .flg2 e _ | .fsin e _ | .fcos e _ | .ftanh e _
  | .frnd e _ _ => e.single
  | .fdiv e => e.double
  | .fredux e _ _ => e.baseL96R && !e.u && e.b == 0#11 && e.c == 0#11
  | .cvtfi e m => e.baseL96R && e.b == 0#11 && e.c == 0#11 && cvtfiOk m
  | .cvtif e m => e.baseL96R && e.b == 0#11 && e.c == 0#11 && cvtifOk m
  | .cvtff e m kt => e.baseL96R && e.b == 0#11 && e.c == 0#11 && cvtffOk m kt
  | .cvtn e m => e.baseL96R && e.b == 0#11 && e.c == 0#11 && cvtnOk m
  | .cvtk4 e m _ => e.baseL96R && !e.u && e.b == 0#11 && cvtk4Ok m
  | .cvtw e m => e.baseL96R && !e.u && e.b == 0#11 && cvtwOk m
  | .magrd e _ => e.baseL64 false && e.a == 0#11 && e.b == 0#11
  | .magclr e _ => e.baseL64 false && !e.u && e.dst == 0#11 && e.a == 0#11 && e.b == 0#11
  | .amul e _ _ => e.baseL96R && e.c == 0#11
  | .amad e _ _ => e.baseL96R
  | .aconj e _ _ | .anorm e _ _ | .ainv e _ _ => e.baseL96R && e.b == 0#11 && e.c == 0#11
  | .ldg e m => e.baseL96R && m.sxOk && m.ordOk true false
  | .stg e m => e.baseL96R && !m.sx && m.ordOk false true
  | .lds e m => e.baseL96R && m.xb == 0#3 && m.hint == .none && m.sxOk && m.ordOk true false
  | .sts e m => e.baseL96R && m.xb == 0#3 && m.hint == .none && !m.sx && m.ordOk false true
  | .ldt e m | .stt e m => e.baseL96R && !e.u && m.ok
  | .pfg e m => e.baseL96R && !e.u && m.rangeOk true
  | .wbr e m | .invr e m => e.baseL96R && !e.u && m.rangeOk false
  | .fence e _ _ => e.baseL96R && !e.u && e.unguarded
  | .atom e m _ => e.baseL96R && m.size.atomic && m.atomOk true
  | .red e m op => e.baseL96R && m.size.atomic && m.atomOk false && op != .cas
  | .atomf e m _ _ => e.baseL96R && m.size == .b32 && m.atomOk true
  | .redf e m _ _ => e.baseL96R && m.size == .b32 && m.atomOk false
  | .atoms e m _ => e.baseL96R && m.xb == 0#3 && m.size.atomic && m.atomOk true
  | .mma e m => e.baseL96R && !e.u && e.dst == 0#11 && e.c == 0#11 && (m.fmt.scaled || m.sel == 0#2)
  | .accz e _ => e.baseL64 false && !e.u && e.dst == 0#11 && e.a == 0#11 && e.b == 0#11
  | .accrd e _ _ _ _ _ => e.baseL96R && !e.u && e.b == 0#11 && e.c == 0#11
  | .accwr e _ => e.double && !e.u && e.dst == 0#11
  | .vpush e _ => e.single && !e.u && e.dst == 0#11
  | .vpop e _ => e.baseL64 false && !e.u && e.a == 0#11 && e.b == 0#11
  | .trapLane e _ | .bkptLane e _ | .tretLane e =>
    e.baseL64 false && !e.u && e.dst == 0#11 && e.a == 0#11 && e.b == 0#11
  | .sysrdLane e _ => e.baseL64 false && e.a == 0#11 && e.b == 0#11
  | .syswrLane e _ => e.baseL64 false && e.dst == 0#11 && e.b == 0#11
  | .mapf e => e.baseL64 false && e.b == 0#11
  | .laneEntryStart _ | .joinMerge _ | .loadDataArrival _ _ | .laneInstructionComplete _ _
  | .yieldReactivate _ | .trapEntryLane _ | .trapEntryControl _ | .nonpreemptOverrun _
  | .engineFaultDelivery _ => true
  | .strandRunStart c k => coreOk c && k < 16
  | .monitorWake _ | .monitorReread _ | .waitcmpTimeout _ | .barrierTimeout _ => true
  | .domainBarrierCompletion a d _ => a < 65536 && domOk d
  | .waferBarrierCompletion | .heartbeatBarrier => true
  | .chainStart c _ => coreOk c
  | .chainGiveUp _ => true
  | .copy _ | .mcast _ | .conv _ | .gather _ | .scatter _ | .reduce _ | .algop _ | .loop _ | .cond _
  | .signal _ | .endEntry _ => true
  | .mmaStart c | .mmaChunk c | .sfillComplete c | .sclmGrant c => coreOk c
  | .pageWalk c a _ _ => coreOk c && a < 65536
  | .regenerationEnd d k => domOk d && k < 64
  | .gridActivation | .blockPlacement | .gangReservation | .gangStart | .blockSwapOut | .blockResume => true
  | .aggregatorMerge d | .freeCountReport d | .blockMigration d => domOk d
  | .domainHotMark d _ => domOk d
  | .gridCompletion _ => true
  | .dirReadRequest _ q | .dirWriteRequest _ q | .dirEvictionNotice _ q => domOk q
  | .dirHold _ | .dirHoldRelease _ | .scrubUncorrectable _ | .correctedError _ | .rebuild => true
  | .periodicCheckpoint a | .checkpointCommit a => a < 65536
  | .moduleStart .. | .coolantThrottle _ | .thermalStop _ => true
  | .bar2Read f .. | .bar2Write f .. | .sqtail f .. | .cqhead f .. | .queueEnable f .. | .queueDisable f ..
  | .qstatClear f .. | .coal f .. | .registerWrite f .. | .functionLevelReset f | .linkDown f => fnOk f
  | .peerWrite p .. => p < 65536
  | .completionWrite => true
  | .interruptMessage f _ | .coalescingTimerExpiry f _ | .vectorUnmask f _ | .bar2Atomicop f .. => fnOk f
  | .createContext c | .destroyContext c | .bindEpisode c | .quote c | .readLog c | .readTopology c
  | .debugAttach c | .debugStop c | .debugResume c | .debugDump c | .debugPoke c | .debugDetach c
  | .traceConfig c | .seqLoad c => fnOk c.fn
  | .traverseQuote .. => true
  | .traverseLinkChange p .. => p < 288
  | .cairnReceive d | .sequencerRuleTaken d _ | .domainClockStep d => domOk d
  | .take h s _ | .post h s _ => hartOk h && s < 8
  | .openEp h _ | .closeEp h _ | .corrieHartStart h _ | .platformInterrupt h => hartOk h
  | .stepWatchdogExpiry h s | .watchdogHardwareClose h s => hartOk h && s < 8
  | .pop h c | .push h c | .fstatClear h c _ => hartOk h && c < 4
  | .gateRequest h | .gateComplete h | .gateCancel h => hartOk h
  | .controlAccessComplete _ | .powerLoss => true
  | .victimRemoval a | .evictedPageReturn a _ | .attributeChange a _ _ => a < 65536
  | .speculativeAccess c a _ => coreOk c && a < 65536

end Sys2Proof
end

