-- ==== Sys2Proof/Decode.lean ====
section
/-!
DEFINITION. Decoding and encoding (03_encoding_and_assembly.md R69 to R79 and R85 to R88, with the
field rules of the chapters on each family). Decoding is total: a word list gives an instruction or
the name of the cause of R89 that refuses it. The encoder stands after it.
-/

namespace Sys2Proof

/-- Why a word is refused (causes 1 and 2 of R89). Cause 3, ILLEGAL_OPERAND, is judged by the
instruction's meaning, because it depends on the group's allocation and claims. -/
inductive DecodeErr where
  | illegalLength
  | illegalInstr
  deriving DecidableEq, Repr

/-! ## Codes of the enumerated fields -/

/-- R72. -/
def Cond.code : Cond → BitVec 3
  | .eq => 0#3 | .ne => 1#3 | .lt => 2#3 | .ge => 3#3 | .ltu => 4#3 | .geu => 5#3
/-- R72; codes 110 and 111 are unassigned. -/
def Cond.ofCode (x : BitVec 3) : Option Cond :=
  match x.toNat with
  | 0 => some .eq | 1 => some .ne | 2 => some .lt | 3 => some .ge | 4 => some .ltu | 5 => some .geu
  | _ => none

/-- R87. -/
def LCond.code : LCond → BitVec 3
  | .eq => 0#3 | .ne => 1#3 | .lt => 2#3 | .le => 3#3 | .gt => 4#3 | .ge => 5#3
/-- R87; codes 110 and 111 are unassigned. -/
def LCond.ofCode (x : BitVec 3) : Option LCond :=
  match x.toNat with
  | 0 => some .eq | 1 => some .ne | 2 => some .lt | 3 => some .le | 4 => some .gt | 5 => some .ge
  | _ => none

/-- R72. -/
def Scope.code : Scope → BitVec 3
  | .grp => 0#3 | .blk => 1#3 | .dom => 2#3 | .wfr => 3#3 | .sys => 4#3
/-- R72; codes 101 to 111 are unassigned. -/
def Scope.ofCode (x : BitVec 3) : Option Scope :=
  match x.toNat with
  | 0 => some .grp | 1 => some .blk | 2 => some .dom | 3 => some .wfr | 4 => some .sys
  | _ => none

/-- R72. -/
def EngClass.code : EngClass → BitVec 2
  | .copy => 0#2 | .gath => 1#2 | .alg => 2#2 | .coll => 3#2
/-- R72. -/
def EngClass.ofCode (x : BitVec 2) : EngClass :=
  match x.toNat with
  | 0 => .copy | 1 => .gath | 2 => .alg | _ => .coll

/-- The numbers of R74. -/
def SysReg.code : SysReg → BitVec 6
  | .asid => 0x00#6 | .trapen => 0x01#6 | .ltrapvec => 0x02#6 | .ctrapvec => 0x03#6 | .cause => 0x04#6
  | .faddr => 0x05#6 | .fmask => 0x06#6 | .epc => 0x07#6 | .elpc => 0x08#6 | .poolbase => 0x09#6
  | .poolcnt => 0x0A#6 | .regentab => 0x0B#6 | .lquota => 0x0C#6 | .aflags => 0x0D#6 | .nplimit => 0x0E#6
  | .bpc i => 2#3 ++ i | .bpctl => 0x18#6 | .wpa i => 7#4 ++ i | .wpctl => 0x20#6
/-- The numbers of R74; a number not listed is unassigned. -/
def SysReg.ofCode (x : BitVec 6) : Option SysReg :=
  match x.toNat with
  | 0x00 => some .asid | 0x01 => some .trapen | 0x02 => some .ltrapvec | 0x03 => some .ctrapvec
  | 0x04 => some .cause | 0x05 => some .faddr | 0x06 => some .fmask | 0x07 => some .epc
  | 0x08 => some .elpc | 0x09 => some .poolbase | 0x0A => some .poolcnt | 0x0B => some .regentab
  | 0x0C => some .lquota | 0x0D => some .aflags | 0x0E => some .nplimit
  | 0x10 => some (.bpc 0) | 0x11 => some (.bpc 1) | 0x12 => some (.bpc 2) | 0x13 => some (.bpc 3)
  | 0x14 => some (.bpc 4) | 0x15 => some (.bpc 5) | 0x16 => some (.bpc 6) | 0x17 => some (.bpc 7)
  | 0x18 => some .bpctl
  | 0x1C => some (.wpa 0) | 0x1D => some (.wpa 1) | 0x1E => some (.wpa 2) | 0x1F => some (.wpa 3)
  | 0x20 => some .wpctl
  | _ => none

/-- R219. -/
def TOrder.code : TOrder → BitVec 2
  | .row => 0#2 | .col => 1#2 | .ilv => 2#2
/-- R219 and R87; 11 is unassigned. -/
def TOrder.ofCode (x : BitVec 2) : Option TOrder :=
  match x.toNat with
  | 0 => some .row | 1 => some .col | 2 => some .ilv | _ => none

/-- R219. -/
def SWidth.code : SWidth → BitVec 3
  | .x4 => 0#3 | .x8 => 1#3 | .x8i => 2#3 | .x16 => 3#3 | .x32 => 4#3
/-- R219; codes 101 to 111 are unassigned. -/
def SWidth.ofCode (x : BitVec 3) : Option SWidth :=
  match x.toNat with
  | 0 => some .x4 | 1 => some .x8 | 2 => some .x8i | 3 => some .x16 | 4 => some .x32 | _ => none

/-- R86. -/
def SatMod.code : SatMod → BitVec 2
  | .wrap => 0#2 | .sat => 1#2 | .usat => 2#2
/-- R86. -/
def SatMod.ofCode (x : BitVec 2) : Option SatMod :=
  match x.toNat with
  | 0 => some .wrap | 1 => some .sat | 2 => some .usat | _ => none

/-- R87. -/
def Rnd.code : Rnd → BitVec 2
  | .rn => 0#2 | .rz => 1#2 | .ru => 2#2 | .rd => 3#2
/-- R87. -/
def Rnd.ofCode (x : BitVec 2) : Rnd :=
  match x.toNat with
  | 0 => .rn | 1 => .rz | 2 => .ru | _ => .rd

/-- R86. -/
def PlOp.code : PlOp → BitVec 2
  | .and => 0#2 | .or => 1#2 | .xor => 2#2 | .andn => 3#2
/-- R86. -/
def PlOp.ofCode (x : BitVec 2) : PlOp :=
  match x.toNat with
  | 0 => .and | 1 => .or | 2 => .xor | _ => .andn

/-- R86. -/
def VoteOp.code : VoteOp → BitVec 2
  | .all => 0#2 | .any => 1#2 | .eq => 2#2 | .ballot => 3#2
/-- R86. -/
def VoteOp.ofCode (x : BitVec 2) : VoteOp :=
  match x.toNat with
  | 0 => .all | 1 => .any | 2 => .eq | _ => .ballot

/-- R86. -/
def ShflOp.code : ShflOp → BitVec 2
  | .idx => 0#2 | .up => 1#2 | .down => 2#2 | .xor => 3#2
/-- R86. -/
def ShflOp.ofCode (x : BitVec 2) : ShflOp :=
  match x.toNat with
  | 0 => .idx | 1 => .up | 2 => .down | _ => .xor

/-- R87. -/
def IRedOp.code : IRedOp → BitVec 3
  | .add => 0#3 | .min => 1#3 | .max => 2#3 | .umin => 3#3 | .umax => 4#3 | .and => 5#3 | .or => 6#3 | .xor => 7#3
/-- R87. -/
def IRedOp.ofCode (x : BitVec 3) : IRedOp :=
  match x.toNat with
  | 0 => .add | 1 => .min | 2 => .max | 3 => .umin | 4 => .umax | 5 => .and | 6 => .or | _ => .xor

/-- R87 and R187. -/
def FRedOp.code : FRedOp → BitVec 3
  | .add => 0#3 | .min => 1#3 | .max => 2#3 | .minnum => 3#3 | .maxnum => 4#3
/-- R87 and R187; codes 101 to 111 are unassigned. -/
def FRedOp.ofCode (x : BitVec 3) : Option FRedOp :=
  match x.toNat with
  | 0 => some .add | 1 => some .min | 2 => some .max | 3 => some .minnum | 4 => some .maxnum | _ => none

/-- R86. -/
def FrndOp.code : FrndOp → BitVec 2
  | .ne => 0#2 | .tr => 1#2 | .ce => 2#2 | .fl => 3#2
/-- R87. -/
def FrndOp.ofCode (x : BitVec 2) : FrndOp :=
  match x.toNat with
  | 0 => .ne | 1 => .tr | 2 => .ce | _ => .fl

/-- The width codes of the algebra instructions (R86). -/
def FW.code : FW → BitVec 2
  | .f32 => 0#2 | .h2 => 1#2 | .bh2 => 2#2
/-- R86; 11 is unassigned. -/
def FW.ofCode (x : BitVec 2) : Option FW :=
  match x.toNat with
  | 0 => some .f32 | 1 => some .h2 | 2 => some .bh2 | _ => none

/-- R87. -/
def Fmt.code : Fmt → BitVec 4
  | .f32 => 0#4 | .f16 => 1#4 | .bf16 => 2#4 | .e4m3 => 3#4 | .e5m2 => 4#4 | .e3m2 => 5#4 | .e2m3 => 6#4
  | .e2m1 => 7#4 | .i8 => 8#4 | .ui8 => 9#4 | .i16 => 10#4 | .i32 => 11#4 | .i4 => 12#4 | .ui4 => 13#4
  | .k4 => 14#4
/-- R87; 15 is unassigned. -/
def Fmt.ofCode (x : BitVec 4) : Option Fmt :=
  match x.toNat with
  | 0 => some .f32 | 1 => some .f16 | 2 => some .bf16 | 3 => some .e4m3 | 4 => some .e5m2 | 5 => some .e3m2
  | 6 => some .e2m3 | 7 => some .e2m1 | 8 => some .i8 | 9 => some .ui8 | 10 => some .i16 | 11 => some .i32
  | 12 => some .i4 | 13 => some .ui4 | 14 => some .k4 | _ => none

/-- R222. -/
def MFmt.code : MFmt → BitVec 4
  | .bf16 => 0#4 | .f16 => 1#4 | .f32 => 2#4 | .e4m3 => 3#4 | .e5m2 => 4#4 | .we4m3 => 5#4 | .we5m2 => 6#4
  | .we3m2 => 7#4 | .we2m3 => 8#4 | .k4 => 9#4 | .i8 => 10#4 | .ui8 => 11#4 | .i16 => 12#4 | .i4 => 13#4
  | .ui4 => 14#4 | .we2m1 => 15#4
/-- R222. -/
def MFmt.ofCode (x : BitVec 4) : MFmt :=
  match x.toNat with
  | 0 => .bf16 | 1 => .f16 | 2 => .f32 | 3 => .e4m3 | 4 => .e5m2 | 5 => .we4m3 | 6 => .we5m2 | 7 => .we3m2
  | 8 => .we2m3 | 9 => .k4 | 10 => .i8 | 11 => .ui8 | 12 => .i16 | 13 => .i4 | 14 => .ui4 | _ => .we2m1

/-- R87. -/
def MSize.code : MSize → BitVec 3
  | .b8 => 0#3 | .b16 => 1#3 | .b32 => 2#3 | .b64 => 3#3 | .b128 => 4#3
/-- R87; codes 101 to 111 are unassigned. -/
def MSize.ofCode (x : BitVec 3) : Option MSize :=
  match x.toNat with
  | 0 => some .b8 | 1 => some .b16 | 2 => some .b32 | 3 => some .b64 | 4 => some .b128 | _ => none

/-- R87. -/
def MOrd.code : MOrd → BitVec 2
  | .plain => 0#2 | .acq => 1#2 | .rel => 2#2
/-- R87; 11 is unassigned (R165). -/
def MOrd.ofCode (x : BitVec 2) : Option MOrd :=
  match x.toNat with
  | 0 => some .plain | 1 => some .acq | 2 => some .rel | _ => none

/-- R87. -/
def Hint.code : Hint → BitVec 2
  | .none => 0#2 | .keep => 1#2 | .stream => 2#2
/-- R87; 11 is unassigned (R165). -/
def Hint.ofCode (x : BitVec 2) : Option Hint :=
  match x.toNat with
  | 0 => some .none | 1 => some .keep | 2 => some .stream | _ => Option.none

/-- R187. -/
def AOp.code : AOp → BitVec 4
  | .add => 0#4 | .min => 1#4 | .max => 2#4 | .umin => 3#4 | .umax => 4#4 | .and => 5#4 | .or => 6#4
  | .xor => 7#4 | .exch => 8#4 | .cas => 9#4
/-- R187; codes 1010 to 1111 are unassigned. -/
def AOp.ofCode (x : BitVec 4) : Option AOp :=
  match x.toNat with
  | 0 => some .add | 1 => some .min | 2 => some .max | 3 => some .umin | 4 => some .umax | 5 => some .and
  | 6 => some .or | 7 => some .xor | 8 => some .exch | 9 => some .cas | _ => none

/-- One bit of a field. -/
def bit (b : Bool) : BitVec 1 := BitVec.ofBool b

/-! ## Control words (R69 to R74) -/

/-- A control word by its fields: every layout of R69 is a regrouping of these. -/
structure CtlWord where
  op : BitVec 6
  d : BitVec 6
  a : BitVec 6
  b : BitVec 6
  func : BitVec 8
  deriving DecidableEq, Repr

/-- The fields of the R layout of a word. -/
def CtlWord.of (w : W32) : CtlWord :=
  { op := w.extractLsb' 26 6, d := w.extractLsb' 20 6, a := w.extractLsb' 14 6,
    b := w.extractLsb' 8 6, func := w.extractLsb' 0 8 }

/-- imm14 of the I layout. -/
def CtlWord.imm14 (c : CtlWord) : BitVec 14 := c.b ++ c.func
/-- off26 of the J layout. -/
def CtlWord.off26 (c : CtlWord) : BitVec 26 := c.d ++ c.a ++ c.b ++ c.func

/-- The scalar ALU group (R71). -/
def decodeAlu (c : CtlWord) : Option Instr :=
  let u := c.func.getLsbD 5
  let plain (i : Instr) : Option Instr := if u then none else some i
  if c.func.extractLsb' 6 2 != 0#2 then none
  else match (c.func.extractLsb' 0 5).toNat with
    | 0x00 => plain (.sadd c.d c.a c.b) | 0x01 => plain (.ssub c.d c.a c.b)
    | 0x02 => plain (.smul c.d c.a c.b) | 0x03 => some (.smulh c.d c.a c.b u)
    | 0x04 => some (.sdiv c.d c.a c.b u) | 0x05 => some (.srem c.d c.a c.b u)
    | 0x08 => plain (.sand c.d c.a c.b) | 0x09 => plain (.sor c.d c.a c.b)
    | 0x0A => plain (.sxor c.d c.a c.b) | 0x0C => plain (.sshl c.d c.a c.b)
    | 0x0D => plain (.sshr c.d c.a c.b) | 0x0E => plain (.ssra c.d c.a c.b)
    | 0x10 => some (.smin c.d c.a c.b u) | 0x11 => some (.smax c.d c.a c.b u)
    | 0x14 => plain (.ssel c.d c.a c.b)
    | _ => none

/-- The major opcodes 0x02 to 0x1A of R70. -/
def decodeCtlLow (c : CtlWord) : Option Instr :=
  let dz := c.d == 0#6
  let az := c.a == 0#6
  let bz := c.b == 0#6
  let fz := c.func == 0#8
  match c.op.toNat with
  | 0x01 => decodeAlu c
  | 0x02 => if c.func.extractLsb' 3 5 != 0#5 then none
            else (Cond.ofCode (c.func.extractLsb' 0 3)).map (.scmp c.d c.a c.b)
  | 0x03 => some (.saddi c.d c.a c.imm14)
  | 0x04 => some (.sandi c.d c.a c.imm14)
  | 0x05 => some (.sori c.d c.a c.imm14)
  | 0x06 =>
    let imm := (c.a.extractLsb' 0 2 ++ c.b ++ c.func : BitVec 16)
    if c.a.getLsbD 4 then none
    else if c.a.getLsbD 5 then some (.smovwZ c.d (c.a.extractLsb' 2 2) imm)
    else some (.smovw c.d (c.a.extractLsb' 2 2) imm)
  | 0x07 => some (.sldB64 c.d c.a c.imm14)
  | 0x08 => some (.sldB32 c.d c.a c.imm14)
  | 0x09 => some (.sstB64 c.d c.a c.imm14)
  | 0x0A => some (.sstB32 c.d c.a c.imm14)
  | 0x0B => some (.br c.off26)
  | 0x0C => some (.call c.off26)
  | 0x0D => (Cond.ofCode (c.b.extractLsb' 3 3)).map
              fun k => .bcmp c.d c.a k (c.b.extractLsb' 0 3 ++ c.func)
  | 0x0E => if dz && bz && fz then some (.ret c.a) else none
  | 0x0F => if dz then some (.run c.a c.imm14) else none
  | 0x10 => if dz && az && bz && fz then some .lsync else none
  | 0x11 => if c.d.extractLsb' 3 3 == 0#3 && bz && fz then some (.xlat (c.d.extractLsb' 0 3) c.a) else none
  | 0x12 => if c.d.extractLsb' 3 3 == 0#3 && az && bz && fz then some (.xclr (c.d.extractLsb' 0 3)) else none
  | 0x13 => if dz && az && c.b.extractLsb' 4 2 == 0#2 && c.b.extractLsb' 0 2 == 0#2
            then some (.waitcnt (EngClass.ofCode (c.b.extractLsb' 2 2)) c.func) else none
  | 0x14 => some (.yield (EngClass.ofCode (c.d.extractLsb' 4 2)) (c.d.extractLsb' 0 4 ++ c.a.extractLsb' 2 4)
              (c.a.extractLsb' 0 2 ++ c.b ++ c.func))
  | 0x15 => if bz && fz then some (.launch c.d c.a) else none
  | 0x16 => if az && bz && fz then some (.waitchild c.d) else none
  | 0x17 => if az && bz then
              match c.func.toNat with
              | 0 => some (.sreadFlags c.d) | 1 => some (.sreadHandle c.d)
              | 2 => some (.sreadStamp c.d) | 3 => some (.sreadCycle c.d)
              | _ => none
            else none
  | 0x18 => if dz && az && bz then
              match c.func.toNat with
              | 0 => some .nopreEnd | 1 => some .nopreBegin | _ => none
            else none
  | 0x19 => if dz && az && bz && fz then some .exit else none
  | 0x1A => if dz && az && bz && fz then some .nop else none
  | _ => none

/-- The major opcodes 0x1B to 0x37 of R70. -/
def decodeCtlHigh (c : CtlWord) : Option Instr :=
  let dz := c.d == 0#6
  let az := c.a == 0#6
  let bz := c.b == 0#6
  let fz := c.func == 0#8
  match c.op.toNat with
  | 0x1B => if dz && bz && c.func.extractLsb' 2 6 == 0#6
            then some (.engchain c.a (EngClass.ofCode (c.func.extractLsb' 0 2))) else none
  | 0x1C => if bz && fz then some (.cbinit c.d c.a) else none
  | 0x1D => if bz then
              match c.func.toNat with
              | 0 => some (.cbadvProd c.d c.a) | 1 => some (.cbadvCons c.d c.a) | _ => none
            else none
  | 0x1E => if c.func.getLsbD 3 then none else
              match Cond.ofCode (c.func.extractLsb' 0 3), Scope.ofCode (c.func.extractLsb' 4 3) with
              | some k, some sc => some (.waitcmp c.d c.a c.b (c.func.getLsbD 7) sc k)
              | _, _ => none
  | 0x1F => if dz && fz then some (.binit c.a c.b) else none
  | 0x20 => if dz && fz then some (.barv c.a c.b) else none
  | 0x21 => if bz && c.func.extractLsb' 0 7 == 0#7 then some (.bwait c.d c.a (c.func.getLsbD 7)) else none
  | 0x22 => if dz && fz then some (.bexp c.a c.b) else none
  | 0x23 => if dz && az && bz && c.func.extractLsb' 4 4 == 0#4 then some (.dbar (c.func.extractLsb' 0 4)) else none
  | 0x24 => if az && bz && fz then some (.wbar c.d) else none
  | 0x25 => if fz then some (.mbxsend c.d c.a c.b) else none
  | 0x26 => if fz then some (.mbxrecv c.d c.a c.b) else none
  | 0x27 => if bz && fz then some (.mbxstat c.d c.a) else none
  | 0x28 => if az && bz && c.func.extractLsb' 1 7 == 0#7 then some (.vstat c.d (c.func.getLsbD 0)) else none
  | 0x29 => if c.d.extractLsb' 3 3 == 0#3 && bz && fz then some (.atab (c.d.extractLsb' 0 3) c.a) else none
  | 0x2A => if az && bz then
              match c.func.toNat with
              | 0 => some (.sclm c.d) | 1 => some (.sclmNw c.d) | _ => none
            else none
  | 0x2B => if dz && bz && fz then some (.srel c.a) else none
  | 0x2C => match SWidth.ofCode (c.func.extractLsb' 5 3), TOrder.ofCode (c.func.extractLsb' 0 2) with
            | some w, some o => some (.sfill c.d c.a c.b w (c.func.extractLsb' 3 2) (c.func.getLsbD 2) o)
            | _, _ => none
  | 0x2D => if az && bz && c.func.extractLsb' 2 6 == 0#6 then some (.aqry c.d (c.func.extractLsb' 0 2)) else none
  | 0x2E => if dz && az && bz then some (.trap c.func) else none
  | 0x2F => if dz && az && bz && fz then some .tret else none
  | 0x30 => if az && bz && c.func.extractLsb' 6 2 == 0#2
            then (SysReg.ofCode (c.func.extractLsb' 0 6)).map (.sysrd c.d) else none
  | 0x31 => if dz && bz && c.func.extractLsb' 6 2 == 0#2
            then (SysReg.ofCode (c.func.extractLsb' 0 6)).map (.syswr c.a) else none
  | 0x32 => if dz then
              match c.func.toNat with
              | 0 => some (.tlbinvRange c.a c.b)
              | 1 => if az && bz then some .tlbinvAsid else none
              | _ => none
            else none
  | 0x33 => if az && bz && fz then some (.ckpt c.d) else none
  | 0x34 => if dz && az && bz then some (.bkpt c.func) else none
  | 0x35 => if dz && bz && fz then some (.sample c.a) else none
  | 0x36 => if dz && az && bz then some (.trig c.func) else none
  | 0x37 => if dz && az && bz && fz then some .park else none
  | _ => none

/-- The control instruction of a word, before the checks of `WellFormed`. -/
def parseCtl (c : CtlWord) : Option Instr :=
  if c.op.toNat < 0x1B then decodeCtlLow c else decodeCtlHigh c

/-- Decoding one control word (R70): a refusal traps ILLEGAL_INSTR. -/
def decodeCtl (w : W32) : Except DecodeErr Instr :=
  match parseCtl (CtlWord.of w) with
  | some i => if WellFormed i then .ok i else .error .illegalInstr
  | none => .error .illegalInstr

/-! ## Lane words (R75 to R79, R85 to R88) -/

/-- Number of words of a lane instruction, from its first word (R75). -/
def laneLen (w0 : W32) : Except DecodeErr Nat :=
  match (w0.extractLsb' 30 2).toNat with
  | 0 => .ok 1
  | 1 => .ok 2
  | 2 => .ok 3
  | _ => .error .illegalLength

/-- An L32 word (R76, R85). -/
def parseL32 (w : W32) : Option Instr :=
  let run := w.getLsbD 29
  let d : BitVec 11 := w.extractLsb' 12 11
  let s : BitVec 11 := w.extractLsb' 1 11
  let u := w.getLsbD 0
  match (w.extractLsb' 23 6).toNat with
  | 0x01 => some (.movL32 run d s u) | 0x02 => some (.notL32 run d s u)
  | 0x03 => some (.iabsL32 run d s u) | 0x04 => some (.popcL32 run d s u)
  | 0x05 => some (.clzL32 run d s u) | 0x06 => some (.brevL32 run d s u)
  | 0x07 => if d == 0#11 && !u then some (.tileL32 run s) else none
  | 0x08 => if d == 0#11 && s == 0#11 && !u then some (.joinL32 run) else none
  | 0x09 => if d == 0#11 && s == 0#11 && !u then some (.lstopL32 run) else none
  | 0x0A => if d == 0#11 && s == 0#11 && !u then some (.lexitL32 run) else none
  | _ => none

/-- The fields of a long lane instruction (R77, R78). -/
structure LongWord where
  l96 : Bool
  run : Bool
  op9 : BitVec 9
  g : BitVec 5
  gn : Bool
  u : Bool
  mod2 : BitVec 2
  dst : BitVec 11
  w1 : W32
  w2 : W32
  deriving DecidableEq, Repr

/-- The fields of words 0 to 2; an L64 instruction has no word 2. -/
def LongWord.of (w0 w1 w2 : W32) : LongWord :=
  { l96 := w0.getLsbD 31, run := w0.getLsbD 29, op9 := w0.extractLsb' 20 9, g := w0.extractLsb' 15 5,
    gn := w0.getLsbD 14, u := w0.getLsbD 13, mod2 := w0.extractLsb' 11 2, dst := w0.extractLsb' 0 11,
    w1 := w1, w2 := w2 }

/-- Operand field A. -/
def LongWord.a (r : LongWord) : BitVec 11 := r.w1.extractLsb' 21 11
/-- Operand field B. -/
def LongWord.b (r : LongWord) : BitVec 11 := r.w1.extractLsb' 10 11
/-- Lookahead. -/
def LongWord.la (r : LongWord) : BitVec 4 := r.w1.extractLsb' 6 4
/-- Scoreboard slot set. -/
def LongWord.sbs (r : LongWord) : BitVec 3 := r.w1.extractLsb' 3 3
/-- Scoreboard slot waited on. -/
def LongWord.sbw (r : LongWord) : BitVec 3 := r.w1.extractLsb' 0 3
/-- Operand field C of an L96R word. -/
def LongWord.c (r : LongWord) : BitVec 11 := r.w2.extractLsb' 21 11
/-- MOD18 of an L96R word. -/
def LongWord.mod18 (r : LongWord) : BitVec 18 := r.w2.extractLsb' 0 18

/-- The L96R form of the third word. -/
def LongWord.r96 (r : LongWord) : LForm :=
  .r96 r.c (r.w2.getLsbD 20) (r.w2.getLsbD 19) (r.w2.getLsbD 18)

/-- The form of an instruction of base L64 (R79). -/
def LongWord.form64 (r : LongWord) (bOperand : Bool) : Option LForm :=
  if !r.l96 then some .l64
  else if r.b == 2047#11 then (if bOperand then some (.lit r.w2) else none)
  else if r.c == 0#11 && r.mod18 == 0#18 then some r.r96 else none

/-- The form of an instruction of base L96R (R79). A word with B = 2047 is read in this layout too, not as a literal (R78), so that its
reserved bits come before its field 2047 (DEDUCED, log entry 136). -/
def LongWord.form96 (r : LongWord) : Option LForm :=
  if r.l96 then some r.r96 else none

/-- The fields in their places. -/
def LongWord.enc (r : LongWord) (f : LForm) : LaneEnc :=
  { run := r.run, g := r.g, gn := r.gn, u := r.u, dst := r.dst, a := r.a, b := r.b, la := r.la,
    sbs := r.sbs, sbw := r.sbw, form := f }

/-- An instruction of base L64 whose b field holds an operand. -/
def LongWord.e64 (r : LongWord) : Option LaneEnc := (r.form64 true).map r.enc
/-- An instruction of base L64 without an operand in b. -/
def LongWord.e64n (r : LongWord) : Option LaneEnc := (r.form64 false).map r.enc
/-- An instruction of base L96R. -/
def LongWord.e96 (r : LongWord) : Option LaneEnc := r.form96.map r.enc

/-- MOD2 must be 00. -/
def LongWord.m0 (r : LongWord) (x : Option α) : Option α := if r.mod2 == 0#2 then x else none
/-- MOD2[1] must be 0, and MOD2[0] is the modifier. -/
def LongWord.m1 (r : LongWord) (f : Bool → Option α) : Option α :=
  if r.mod2.getLsbD 1 then none else f (r.mod2.getLsbD 0)

/-- The compare field of ISET and FSET (R87); the DST field of the syntax is then 0. -/
def LongWord.cmp (r : LongWord) (f : LaneEnc → CmpField → Instr) : Option Instr :=
  if r.dst.extractLsb' 9 2 != 0#2 then none else
  match r.e64, LCond.ofCode (r.dst.extractLsb' 5 3) with
  | some e, some k => some (f { e with dst := 0#11 } { x := r.dst.getLsbD 8, cond := k, pd := r.dst.extractLsb' 0 5 })
  | _, _ => none

/-- The conversion fields (R87). -/
def LongWord.conv (r : LongWord) : Option ConvMod :=
  let m := r.mod18
  if m.extractLsb' 13 5 != 0#5 then none else
  match Fmt.ofCode (m.extractLsb' 9 4), Fmt.ofCode (m.extractLsb' 0 4) with
  | some sf, some df => some { sfmt := sf, mg := m.getLsbD 8, mag := m.extractLsb' 6 2, sat := m.getLsbD 5,
                               nf := m.getLsbD 4, dfmt := df }
  | _, _ => none

/-- The memory fields (R87); SUB is left to the caller. -/
def LongWord.mem (r : LongWord) : Option MemMod :=
  let m := r.mod18
  match MSize.ofCode (m.extractLsb' 12 3), MOrd.ofCode (m.extractLsb' 9 2), Scope.ofCode (m.extractLsb' 6 3),
      Hint.ofCode (m.extractLsb' 4 2) with
  | some z, some o, some sc, some h =>
    some { xb := m.extractLsb' 15 3, size := z, sx := m.getLsbD 11, ord := o, scope := sc, hint := h }
  | _, _, _, _ => none

/-- SUB of the memory fields. -/
def LongWord.sub (r : LongWord) : BitVec 4 := r.mod18.extractLsb' 0 4

/-- A memory form with SUB = 0. -/
def LongWord.mem0 (r : LongWord) (f : LaneEnc → MemMod → Instr) : Option Instr :=
  r.m0 (if r.sub != 0#4 then none else
    match r.e96, r.mem with
    | some e, some m => some (f e m)
    | _, _ => none)

/-- LDT and STT: XB, SX, ORD, SCOPE and HINT are 0 (R164). -/
def LongWord.tileMem (r : LongWord) (f : LaneEnc → TileMod → Instr) : Option Instr :=
  r.m0 (if r.mod18.extractLsb' 15 3 != 0#3 || r.mod18.extractLsb' 4 8 != 0#8 then none else
    match r.e96, MSize.ofCode (r.mod18.extractLsb' 12 3), TOrder.ofCode (r.mod18.extractLsb' 0 2) with
    | some e, some z, some o => some (f e { size := z, order := o, dim := r.mod18.extractLsb' 2 2 })
    | _, _, _ => none)

/-- An integer atomic (R187). -/
def LongWord.atomI (r : LongWord) (f : LaneEnc → MemMod → AOp → Instr) : Option Instr :=
  r.m0 (match r.e96, r.mem, AOp.ofCode r.sub with
    | some e, some m, some o => some (f e m o)
    | _, _, _ => none)

/-- A floating-point atomic (R187). -/
def LongWord.atomF (r : LongWord) (f : LaneEnc → MemMod → FRedOp → Bool → Instr) : Option Instr :=
  r.m0 (match r.e96, r.mem, FRedOp.ofCode (r.sub.extractLsb' 0 3) with
    | some e, some m, some o => some (f e m o (r.sub.getLsbD 3))
    | _, _, _ => none)

/-- The 8-bit code in B of TRAP and BKPT (R266); the B field of the syntax is then 0. -/
def LongWord.codeB (r : LongWord) (f : LaneEnc → BitVec 8 → Instr) : Option Instr :=
  r.m0 (if r.b.extractLsb' 8 3 != 0#3 then none
    else r.e64n.map fun e => f { e with b := 0#11 } (r.b.extractLsb' 0 8))

/-- The system register number in B of SYSRD and SYSWR (R266). -/
def LongWord.sysB (r : LongWord) (f : LaneEnc → SysReg → Instr) : Option Instr :=
  r.m0 (if r.b.extractLsb' 6 5 != 0#5 then none else
    match r.e64n, SysReg.ofCode (r.b.extractLsb' 0 6) with
    | some e, some x => some (f { e with b := 0#11 } x)
    | _, _ => none)

/-- The accumulator handle in DST[1:0] of ACCZ and ACCWR (R229, R230). -/
def LongWord.handleDst (r : LongWord) (e : Option LaneEnc) (f : LaneEnc → BitVec 2 → Instr) : Option Instr :=
  r.m0 (if r.dst.extractLsb' 2 9 != 0#9 then none
    else e.map fun e => f { e with dst := 0#11 } (r.dst.extractLsb' 0 2))

/-- The table number in MOD18[2:0] of the algebra instructions (R86, R144). -/
def LongWord.alg (r : LongWord) (f : LaneEnc → FW → BitVec 3 → Instr) : Option Instr :=
  if r.mod18.extractLsb' 3 15 != 0#15 then none else
  match r.e96, FW.ofCode r.mod2 with
  | some e, some w => some (f e w (r.mod18.extractLsb' 0 3))
  | _, _ => none

/-- A third word with MOD18 = 0 (IMAD, FSHF, BFI, PERM, SEL, FFMA). -/
def LongWord.e96z (r : LongWord) : Option LaneEnc := if r.mod18 == 0#18 then r.e96 else none

/-- Opcodes 0x000 to 0x019 (R86). -/
def parseInt (r : LongWord) : Option Instr :=
  match r.op9.toNat with
  | 0x000 => (SatMod.ofCode r.mod2).bind fun m => r.e64.map (.iadd · m)
  | 0x001 => (SatMod.ofCode r.mod2).bind fun m => r.e64.map (.isub · m)
  | 0x002 => r.m0 (r.e64.map .imul)
  | 0x003 => r.m1 fun u => r.e64.map (.imulh · u)
  | 0x004 => r.m0 (r.e96z.map .imad)
  | 0x005 => r.m1 fun u => r.e64.map (.iaddw · u)
  | 0x006 => r.m1 fun u => r.e64.map (.idiv · u)
  | 0x007 => r.m1 fun u => r.e64.map (.irem · u)
  | 0x008 => r.m1 fun u => r.e64.map (.imin · u)
  | 0x009 => r.m1 fun u => r.e64.map (.imax · u)
  | 0x00A => r.m1 fun u => r.e64.map (.iabs · u)
  | 0x00B => r.m0 (r.e64.map .and)
  | 0x00C => r.m0 (r.e64.map .or)
  | 0x00D => r.m0 (r.e64.map .xor)
  | 0x00E => r.m0 (r.e64.map .not)
  | 0x00F => r.m1 fun u => r.e64.map (.shl · u)
  | 0x010 => r.m1 fun u => r.e64.map (.shr · u)
  | 0x011 => r.m1 fun u => r.e64.map (.sra · u)
  | 0x012 => r.m1 fun u => r.e96z.map (.fshf · u)
  | 0x013 => r.m1 fun u => r.e64.map (.bfx · u)
  | 0x014 => r.m0 (r.e96z.map .bfi)
  | 0x015 => r.m0 (r.e64.map .popc)
  | 0x016 => r.m0 (r.e64.map .clz)
  | 0x017 => r.m0 (r.e64.map .brev)
  | 0x018 => r.m0 (r.e96z.map .perm)
  | 0x019 => r.m0 (r.cmp .iset)
  | _ => none

/-- Opcodes 0x040 to 0x04C (R86). -/
def parseFlow (r : LongWord) : Option Instr :=
  match r.op9.toNat with
  | 0x040 => r.e64n.map (.plop · (PlOp.ofCode r.mod2))
  | 0x041 => r.m1 fun t => (if t then r.e64n else r.e64).map (.pmov · t)
  | 0x042 => r.m0 (r.e96z.map .sel)
  | 0x043 => r.m0 (r.e64.map .mov)
  | 0x044 => if r.l96 || r.w1.extractLsb' 10 6 != 0#6 then none
             else r.m1 fun h => some (.movk { r.enc .l64 with a := 0#11, b := 0#11 } h (r.w1.extractLsb' 16 16))
  | 0x045 => r.e64n.map (.vote · (VoteOp.ofCode r.mod2))
  | 0x046 => r.e64.map (.shfl · (ShflOp.ofCode r.mod2))
  | 0x047 => r.m0 (if r.mod18.extractLsb' 3 15 != 0#15 then none
               else r.e96.map (.iredux · (IRedOp.ofCode (r.mod18.extractLsb' 0 3))))
  | 0x048 => r.m0 (r.e64.map .tile)
  | 0x049 => if r.l96 then none
             else r.m0 (some (.lbra { r.enc .l64 with a := 0#11, b := 0#11 } (r.w1.extractLsb' 10 22)))
  | 0x04A => r.m0 (r.e64n.map .join)
  | 0x04B => r.m0 (r.e64n.map .lstop)
  | 0x04C => r.m0 (r.e64n.map .lexit)
  | _ => none

/-- The floating-point function f of R87 in the width w. -/
def parseFp (r : LongWord) (w : FW) (f : Nat) : Option Instr :=
  match f with
  | 0x00 => r.e64.map (.fadd · w (Rnd.ofCode r.mod2))
  | 0x01 => r.e64.map (.fsub · w (Rnd.ofCode r.mod2))
  | 0x02 => r.e64.map (.fmul · w (Rnd.ofCode r.mod2))
  | 0x03 => r.e96z.map (.ffma · w (Rnd.ofCode r.mod2))
  | 0x04 => r.m1 fun n => r.e64.map (.fmin · w n)
  | 0x05 => r.m1 fun n => r.e64.map (.fmax · w n)
  | 0x06 => if w == .f32 then r.m0 (r.cmp .fset) else none
  | 0x07 => if w == .f32 then r.m0 (r.e64.map .fclass) else none
  | 0x08 => r.m0 (r.e64.map (.frcp · w))
  | 0x09 => r.m0 (r.e64.map (.frsq · w))
  | 0x0A => r.m0 (r.e64.map (.fsqrt · w))
  | 0x0B => if w == .f32 then r.m0 (r.e64.map .fdiv) else none
  | 0x0C => r.m0 (r.e64.map (.fex2 · w))
  | 0x0D => r.m0 (r.e64.map (.flg2 · w))
  | 0x0E => r.m0 (r.e64.map (.fsin · w))
  | 0x0F => r.m0 (r.e64.map (.fcos · w))
  | 0x10 => r.m0 (r.e64.map (.ftanh · w))
  | 0x11 => r.e64.map (.frnd · w (FrndOp.ofCode r.mod2))
  | 0x12 => r.m0 (if r.mod18.extractLsb' 3 15 != 0#15 then none else
              match r.e96, FRedOp.ofCode (r.mod18.extractLsb' 0 3) with
              | some e, some o => some (.fredux e w o)
              | _, _ => none)
  | _ => none

/-- Opcodes 0x140 to 0x14C (R86). -/
def parseCvt (r : LongWord) : Option Instr :=
  let cv (f : LaneEnc → ConvMod → Instr) : Option Instr :=
    match r.e96, r.conv with
    | some e, some m => some (f e m)
    | _, _ => none
  match r.op9.toNat with
  | 0x140 => r.m0 (cv .cvtfi)
  | 0x141 => r.m0 (cv .cvtif)
  | 0x142 => cv (.cvtff · · r.mod2)
  | 0x143 => r.m0 (cv .cvtn)
  | 0x144 => cv (.cvtk4 · · r.mod2)
  | 0x145 => r.m0 (cv .cvtw)
  | 0x146 => r.e64n.map (.magrd · r.mod2)
  | 0x147 => r.e64n.map (.magclr · r.mod2)
  | 0x148 => r.alg .amul
  | 0x149 => r.alg .amad
  | 0x14A => r.alg .aconj
  | 0x14B => r.alg .anorm
  | 0x14C => r.alg .ainv
  | _ => none

/-- Opcodes 0x180 to 0x18E (R164, R187). -/
def parseMem (r : LongWord) : Option Instr :=
  match r.op9.toNat with
  | 0x180 => r.mem0 .ldg
  | 0x181 => r.mem0 .stg
  | 0x182 => r.mem0 .lds
  | 0x183 => r.mem0 .sts
  | 0x184 => r.tileMem .ldt
  | 0x185 => r.tileMem .stt
  | 0x186 => r.mem0 .pfg
  | 0x187 => r.mem0 .wbr
  | 0x188 => r.mem0 .invr
  | 0x189 => r.m0 (if r.mod18.extractLsb' 11 7 != 0#7 || r.mod18.extractLsb' 0 6 != 0#6 then none else
      match r.e96, MOrd.ofCode (r.mod18.extractLsb' 9 2), Scope.ofCode (r.mod18.extractLsb' 6 3) with
      | some e, some o, some sc => some (.fence e o sc)
      | _, _, _ => none)
  | 0x18A => r.atomI .atom
  | 0x18B => r.atomI .red
  | 0x18C => r.atomF .atomf
  | 0x18D => r.atomF .redf
  | 0x18E => r.atomI .atoms
  | _ => none

/-- Opcodes 0x1C0 to 0x1CB (R86). -/
def parseSys (r : LongWord) : Option Instr :=
  match r.op9.toNat with
  | 0x1C0 => r.m0 (if r.mod18.extractLsb' 0 3 != 0#3 then none else
      r.e96.map fun e => .mma { e with dst := 0#11 }
        { sel := r.dst.extractLsb' 9 2, zc := r.dst.getLsbD 8, nb := r.dst.getLsbD 7, na := r.dst.getLsbD 6,
          fmt := MFmt.ofCode (r.dst.extractLsb' 2 4), handle := r.dst.extractLsb' 0 2,
          sa := r.mod18.extractLsb' 12 6, sb := r.mod18.extractLsb' 6 6, tab := r.mod18.extractLsb' 3 3 })
  | 0x1C1 => r.handleDst r.e64n .accz
  | 0x1C2 => r.m0 (if r.mod18.extractLsb' 9 7 != 0#7 || r.mod18.extractLsb' 4 2 != 0#2 || r.c.extractLsb' 6 5 != 0#5
      then none else
      match r.e96, Fmt.ofCode (r.mod18.extractLsb' 0 4) with
      | some e, some df =>
        some (.accrd { e with form := .r96 0#11 (r.w2.getLsbD 20) (r.w2.getLsbD 19) (r.w2.getLsbD 18) }
          (r.mod18.extractLsb' 16 2) (r.c.extractLsb' 0 6) (r.mod18.getLsbD 8) (r.mod18.extractLsb' 6 2) df)
      | _, _ => none)
  | 0x1C3 => r.handleDst r.e64 .accwr
  | 0x1C4 => r.m1 fun h => r.e64.map (.vpush · h)
  | 0x1C5 => r.m1 fun h => r.e64n.map (.vpop · h)
  | 0x1C6 => r.codeB .trapLane
  | 0x1C7 => r.m0 (r.e64n.map .tretLane)
  | 0x1C8 => r.sysB .sysrdLane
  | 0x1C9 => r.sysB .syswrLane
  | 0x1CA => r.m0 (r.e64n.map .mapf)
  | 0x1CB => r.codeB .bkptLane
  | _ => none

/-- A long lane instruction (R86, R87). -/
def parseLong (r : LongWord) : Option Instr :=
  let n := r.op9.toNat
  if n < 0x040 then parseInt r
  else if n < 0x080 then parseFlow r
  else if n < 0x0C0 then parseFp r .f32 (n - 0x080)
  else if n < 0x100 then parseFp r .h2 (n - 0x0C0)
  else if n < 0x140 then parseFp r .bh2 (n - 0x100)
  else if n < 0x180 then parseCvt r
  else if n < 0x1C0 then parseMem r
  else parseSys r

/-- A lane instruction from its first word and the two words after it, of which an instruction of
one or two words reads only its own. -/
def decodeLane (w0 w1 w2 : W32) : Except DecodeErr Instr :=
  match laneLen w0 with
  | .error x => .error x
  | .ok n =>
    match (if n == 1 then parseL32 w0 else parseLong (LongWord.of w0 w1 (if n == 2 then 0#32 else w2))) with
    | some i => if WellFormed i then .ok i else .error .illegalInstr
    | none => .error .illegalInstr

/-! ## Engine entries (R236, R240) -/

/-- Why an engine refuses an entry before it looks at the kind's own fields (R236, R240). -/
inductive EntryErr where
  | badKind
  | badField
  deriving DecidableEq, Repr

/-- The entry of four doublewords (R240). -/
def decodeEntry (q0 q1 q2 q3 : W64) : Except EntryErr Instr :=
  let q : EntryEnc := { prog := q0.extractLsb' 32 32, arg := q0.extractLsb' 16 16, flg := q0.extractLsb' 8 8,
                        q1 := q1, q2 := q2, q3 := q3 }
  let ok (i : Instr) : Except EntryErr Instr :=
    if q0.extractLsb' 4 4 == 0#4 then .ok i else .error .badField
  match (q0.extractLsb' 0 4).toNat with
  | 0 => ok (.endEntry q) | 1 => ok (.copy q) | 2 => ok (.mcast q) | 3 => ok (.conv q) | 4 => ok (.gather q)
  | 5 => ok (.scatter q) | 6 => ok (.reduce q) | 7 => ok (.algop q) | 8 => ok (.loop q) | 9 => ok (.cond q)
  | 10 => ok (.signal q)
  | _ => .error .badKind

/-! ## Encoding -/

/-- The word of a control instruction's fields (R69). -/
def CtlWord.word (c : CtlWord) : W32 := c.op ++ c.d ++ c.a ++ c.b ++ c.func

/-- R layout. -/
def rWord (op : BitVec 6) (d a b : BitVec 6) (func : BitVec 8) : CtlWord :=
  { op := op, d := d, a := a, b := b, func := func }
/-- I layout. -/
def iWord (op : BitVec 6) (d a : BitVec 6) (imm : BitVec 14) : CtlWord :=
  { op := op, d := d, a := a, b := imm.extractLsb' 8 6, func := imm.extractLsb' 0 8 }
/-- J layout. -/
def jWord (op : BitVec 6) (off : BitVec 26) : CtlWord :=
  { op := op, d := off.extractLsb' 20 6, a := off.extractLsb' 14 6, b := off.extractLsb' 8 6,
    func := off.extractLsb' 0 8 }
/-- W layout, with Z in bit 19. -/
def wWord (op d : BitVec 6) (z : Bool) (idx : BitVec 2) (imm : BitVec 16) : CtlWord :=
  { op := op, d := d, a := bit z ++ 0#1 ++ idx ++ imm.extractLsb' 14 2, b := imm.extractLsb' 8 6,
    func := imm.extractLsb' 0 8 }
/-- The func field of the scalar ALU group (R71). -/
def aluWord (f : BitVec 5) (uns : Bool) (d a b : BitVec 6) : CtlWord :=
  rWord 1#6 d a b (0#2 ++ bit uns ++ f)

/-- The fields of a control instruction. -/
def ctlWordOf : Instr → Option CtlWord
  | .sadd d a b => some (aluWord 0x00#5 false d a b)
  | .ssub d a b => some (aluWord 0x01#5 false d a b)
  | .smul d a b => some (aluWord 0x02#5 false d a b)
  | .smulh d a b u => some (aluWord 0x03#5 u d a b)
  | .sdiv d a b u => some (aluWord 0x04#5 u d a b)
  | .srem d a b u => some (aluWord 0x05#5 u d a b)
  | .sand d a b => some (aluWord 0x08#5 false d a b)
  | .sor d a b => some (aluWord 0x09#5 false d a b)
  | .sxor d a b => some (aluWord 0x0A#5 false d a b)
  | .sshl d a b => some (aluWord 0x0C#5 false d a b)
  | .sshr d a b => some (aluWord 0x0D#5 false d a b)
  | .ssra d a b => some (aluWord 0x0E#5 false d a b)
  | .smin d a b u => some (aluWord 0x10#5 u d a b)
  | .smax d a b u => some (aluWord 0x11#5 u d a b)
  | .ssel d a b => some (aluWord 0x14#5 false d a b)
  | .scmp d a b c => some (rWord 0x02#6 d a b (0#5 ++ c.code))
  | .saddi d a imm => some (iWord 0x03#6 d a imm)
  | .sandi d a imm => some (iWord 0x04#6 d a imm)
  | .sori d a imm => some (iWord 0x05#6 d a imm)
  | .smovw d idx imm => some (wWord 0x06#6 d false idx imm)
  | .smovwZ d idx imm => some (wWord 0x06#6 d true idx imm)
  | .sldB64 d a imm => some (iWord 0x07#6 d a imm)
  | .sldB32 d a imm => some (iWord 0x08#6 d a imm)
  | .sstB64 d a imm => some (iWord 0x09#6 d a imm)
  | .sstB32 d a imm => some (iWord 0x0A#6 d a imm)
  | .br off => some (jWord 0x0B#6 off)
  | .call off => some (jWord 0x0C#6 off)
  | .bcmp a b c off => some { op := 0x0D#6, d := a, a := b, b := c.code ++ off.extractLsb' 8 3, func := off.extractLsb' 0 8 }
  | .ret a => some (rWord 0x0E#6 0 a 0 0)
  | .run a imm => some (iWord 0x0F#6 0 a imm)
  | .lsync => some (rWord 0x10#6 0 0 0 0)
  | .xlat x a => some (rWord 0x11#6 (0#3 ++ x) a 0 0)
  | .xclr x => some (rWord 0x12#6 (0#3 ++ x) 0 0 0)
  | .waitcnt c n => some (rWord 0x13#6 0 0 (0#2 ++ c.code ++ 0#2) n)
  | .yield c n off =>
    some { op := 0x14#6, d := c.code ++ n.extractLsb' 4 4, a := n.extractLsb' 0 4 ++ off.extractLsb' 14 2,
           b := off.extractLsb' 8 6, func := off.extractLsb' 0 8 }
  | .launch d a => some (rWord 0x15#6 d a 0 0)
  | .waitchild d => some (rWord 0x16#6 d 0 0 0)
  | .sreadFlags d => some (rWord 0x17#6 d 0 0 0)
  | .sreadHandle d => some (rWord 0x17#6 d 0 0 1)
  | .sreadStamp d => some (rWord 0x17#6 d 0 0 2)
  | .sreadCycle d => some (rWord 0x17#6 d 0 0 3)
  | .nopreEnd => some (rWord 0x18#6 0 0 0 0)
  | .nopreBegin => some (rWord 0x18#6 0 0 0 1)
  | .exit => some (rWord 0x19#6 0 0 0 0)
  | .nop => some (rWord 0x1A#6 0 0 0 0)
  | .engchain a c => some (rWord 0x1B#6 0 a 0 (0#6 ++ c.code))
  | .cbinit d a => some (rWord 0x1C#6 d a 0 0)
  | .cbadvProd d a => some (rWord 0x1D#6 d a 0 0)
  | .cbadvCons d a => some (rWord 0x1D#6 d a 0 1)
  | .waitcmp d a b t sc c => some (rWord 0x1E#6 d a b (bit t ++ sc.code ++ 0#1 ++ c.code))
  | .binit a b => some (rWord 0x1F#6 0 a b 0)
  | .barv a b => some (rWord 0x20#6 0 a b 0)
  | .bwait d a t => some (rWord 0x21#6 d a 0 (bit t ++ 0#7))
  | .bexp a b => some (rWord 0x22#6 0 a b 0)
  | .dbar id => some (rWord 0x23#6 0 0 0 (0#4 ++ id))
  | .wbar d => some (rWord 0x24#6 d 0 0 0)
  | .mbxsend d a b => some (rWord 0x25#6 d a b 0)
  | .mbxrecv d a b => some (rWord 0x26#6 d a b 0)
  | .mbxstat d a => some (rWord 0x27#6 d a 0 0)
  | .vstat d up => some (rWord 0x28#6 d 0 0 (0#7 ++ bit up))
  | .atab t a => some (rWord 0x29#6 (0#3 ++ t) a 0 0)
  | .sclm d => some (rWord 0x2A#6 d 0 0 0)
  | .sclmNw d => some (rWord 0x2A#6 d 0 0 1)
  | .srel a => some (rWord 0x2B#6 0 a 0 0)
  | .sfill d a b w dim conj o => some (rWord 0x2C#6 d a b (w.code ++ dim ++ bit conj ++ o.code))
  | .aqry d h => some (rWord 0x2D#6 d 0 0 (0#6 ++ h))
  | .trap code => some (rWord 0x2E#6 0 0 0 code)
  | .tret => some (rWord 0x2F#6 0 0 0 0)
  | .sysrd d r => some (rWord 0x30#6 d 0 0 (0#2 ++ r.code))
  | .syswr a r => some (rWord 0x31#6 0 a 0 (0#2 ++ r.code))
  | .tlbinvRange a b => some (rWord 0x32#6 0 a b 0)
  | .tlbinvAsid => some (rWord 0x32#6 0 0 0 1)
  | .ckpt d => some (rWord 0x33#6 d 0 0 0)
  | .bkpt code => some (rWord 0x34#6 0 0 0 code)
  | .sample a => some (rWord 0x35#6 0 a 0 0)
  | .trig tag => some (rWord 0x36#6 0 0 0 tag)
  | .park => some (rWord 0x37#6 0 0 0 0)
  | _ => none

/-- An L32 word (R76). -/
def l32Word (run : Bool) (op : BitVec 6) (d s : BitVec 11) (u : Bool) : W32 :=
  0#2 ++ bit run ++ op ++ d ++ s ++ bit u

/-- The word of an L32 instruction (R85). -/
def l32WordOf : Instr → Option W32
  | .movL32 r d s u => some (l32Word r 0x01#6 d s u)
  | .notL32 r d s u => some (l32Word r 0x02#6 d s u)
  | .iabsL32 r d s u => some (l32Word r 0x03#6 d s u)
  | .popcL32 r d s u => some (l32Word r 0x04#6 d s u)
  | .clzL32 r d s u => some (l32Word r 0x05#6 d s u)
  | .brevL32 r d s u => some (l32Word r 0x06#6 d s u)
  | .tileL32 r s => some (l32Word r 0x07#6 0 s false)
  | .joinL32 r => some (l32Word r 0x08#6 0 0 false)
  | .lstopL32 r => some (l32Word r 0x09#6 0 0 false)
  | .lexitL32 r => some (l32Word r 0x0A#6 0 0 false)
  | _ => none

/-- A long lane instruction with its opcode, MOD2, MOD18 and the fields of words 0 and 1. -/
structure LongEnc where
  e : LaneEnc
  op9 : BitVec 9
  mod2 : BitVec 2 := 0#2
  mod18 : BitVec 18 := 0#18
  deriving DecidableEq, Repr

/-- The words of a long lane instruction (R77, R78). -/
def LongEnc.words (x : LongEnc) : List W32 :=
  let e := x.e
  let w0 (len : BitVec 2) : W32 :=
    len ++ bit e.run ++ x.op9 ++ e.g ++ bit e.gn ++ bit e.u ++ x.mod2 ++ e.dst
  let w1 : W32 := e.a ++ e.b ++ e.la ++ e.sbs ++ e.sbw
  match e.form with
  | .l64 => [w0 1#2, w1]
  | .lit k => [w0 2#2, w1, k]
  | .r96 c ha hb hc => [w0 2#2, w1, c ++ bit ha ++ bit hb ++ bit hc ++ x.mod18]

/-- The DST field of a compare (R87). -/
def CmpField.code (f : CmpField) : BitVec 11 := 0#2 ++ bit f.x ++ f.cond.code ++ f.pd
/-- MOD18 of a conversion (R87). -/
def ConvMod.code (m : ConvMod) : BitVec 18 :=
  0#5 ++ m.sfmt.code ++ bit m.mg ++ m.mag ++ bit m.sat ++ bit m.nf ++ m.dfmt.code
/-- MOD18 of a memory access (R87). -/
def MemMod.code (m : MemMod) (sub : BitVec 4) : BitVec 18 :=
  m.xb ++ m.size.code ++ bit m.sx ++ m.ord.code ++ m.scope.code ++ m.hint.code ++ sub
/-- MOD18 of LDT and STT (R164). -/
def TileMod.code (m : TileMod) : BitVec 18 := 0#3 ++ m.size.code ++ 0#8 ++ m.dim ++ m.order.code
/-- The DST field of MMA (R87). -/
def MmaMod.dst (m : MmaMod) : BitVec 11 := m.sel ++ bit m.zc ++ bit m.nb ++ bit m.na ++ m.fmt.code ++ m.handle

/-- A MOVK or LBRA word 1 holds its operand where other instructions hold A and B: bits 31 to 10. -/
def LaneEnc.setAB (e : LaneEnc) (x : BitVec 22) : LaneEnc :=
  { e with a := x.extractLsb' 11 11, b := x.extractLsb' 0 11 }

/-- The OP9 of function f in width w (R87). -/
def fpOp (w : FW) (f : BitVec 9) : BitVec 9 :=
  match w with
  | .f32 => 0x080#9 + f
  | .h2 => 0x0C0#9 + f
  | .bh2 => 0x100#9 + f

/-- MOD2 of a one-bit modifier. -/
def mod1 (b : Bool) : BitVec 2 := 0#1 ++ bit b

/-- The encoding of a long lane instruction (R86, R87). -/
def longEncOf : Instr → Option LongEnc
  | .iadd e m => some ⟨e, 0x000#9, m.code, 0⟩ | .isub e m => some ⟨e, 0x001#9, m.code, 0⟩
  | .imul e => some ⟨e, 0x002#9, 0, 0⟩ | .imulh e u => some ⟨e, 0x003#9, mod1 u, 0⟩
  | .imad e => some ⟨e, 0x004#9, 0, 0⟩ | .iaddw e u => some ⟨e, 0x005#9, mod1 u, 0⟩
  | .idiv e u => some ⟨e, 0x006#9, mod1 u, 0⟩ | .irem e u => some ⟨e, 0x007#9, mod1 u, 0⟩
  | .imin e u => some ⟨e, 0x008#9, mod1 u, 0⟩ | .imax e u => some ⟨e, 0x009#9, mod1 u, 0⟩
  | .iabs e u => some ⟨e, 0x00A#9, mod1 u, 0⟩ | .and e => some ⟨e, 0x00B#9, 0, 0⟩
  | .or e => some ⟨e, 0x00C#9, 0, 0⟩ | .xor e => some ⟨e, 0x00D#9, 0, 0⟩ | .not e => some ⟨e, 0x00E#9, 0, 0⟩
  | .shl e c => some ⟨e, 0x00F#9, mod1 c, 0⟩ | .shr e c => some ⟨e, 0x010#9, mod1 c, 0⟩
  | .sra e c => some ⟨e, 0x011#9, mod1 c, 0⟩ | .fshf e r => some ⟨e, 0x012#9, mod1 r, 0⟩
  | .bfx e u => some ⟨e, 0x013#9, mod1 u, 0⟩ | .bfi e => some ⟨e, 0x014#9, 0, 0⟩
  | .popc e => some ⟨e, 0x015#9, 0, 0⟩ | .clz e => some ⟨e, 0x016#9, 0, 0⟩ | .brev e => some ⟨e, 0x017#9, 0, 0⟩
  | .perm e => some ⟨e, 0x018#9, 0, 0⟩ | .iset e f => some ⟨{ e with dst := f.code }, 0x019#9, 0, 0⟩
  | .plop e o => some ⟨e, 0x040#9, o.code, 0⟩ | .pmov e t => some ⟨e, 0x041#9, mod1 t, 0⟩
  | .sel e => some ⟨e, 0x042#9, 0, 0⟩ | .mov e => some ⟨e, 0x043#9, 0, 0⟩
  | .movk e h imm => some ⟨e.setAB (imm ++ 0#6), 0x044#9, mod1 h, 0⟩
  | .vote e o => some ⟨e, 0x045#9, o.code, 0⟩ | .shfl e o => some ⟨e, 0x046#9, o.code, 0⟩
  | .iredux e o => some ⟨e, 0x047#9, 0, 0#15 ++ o.code⟩ | .tile e => some ⟨e, 0x048#9, 0, 0⟩
  | .lbra e off => some ⟨e.setAB off, 0x049#9, 0, 0⟩
  | .join e => some ⟨e, 0x04A#9, 0, 0⟩ | .lstop e => some ⟨e, 0x04B#9, 0, 0⟩ | .lexit e => some ⟨e, 0x04C#9, 0, 0⟩
  | .fadd e w m => some ⟨e, fpOp w 0x00#9, m.code, 0⟩ | .fsub e w m => some ⟨e, fpOp w 0x01#9, m.code, 0⟩
  | .fmul e w m => some ⟨e, fpOp w 0x02#9, m.code, 0⟩ | .ffma e w m => some ⟨e, fpOp w 0x03#9, m.code, 0⟩
  | .fmin e w n => some ⟨e, fpOp w 0x04#9, mod1 n, 0⟩ | .fmax e w n => some ⟨e, fpOp w 0x05#9, mod1 n, 0⟩
  | .fset e f => some ⟨{ e with dst := f.code }, 0x086#9, 0, 0⟩ | .fclass e => some ⟨e, 0x087#9, 0, 0⟩
  | .frcp e w => some ⟨e, fpOp w 0x08#9, 0, 0⟩ | .frsq e w => some ⟨e, fpOp w 0x09#9, 0, 0⟩
  | .fsqrt e w => some ⟨e, fpOp w 0x0A#9, 0, 0⟩ | .fdiv e => some ⟨e, 0x08B#9, 0, 0⟩
  | .fex2 e w => some ⟨e, fpOp w 0x0C#9, 0, 0⟩ | .flg2 e w => some ⟨e, fpOp w 0x0D#9, 0, 0⟩
  | .fsin e w => some ⟨e, fpOp w 0x0E#9, 0, 0⟩ | .fcos e w => some ⟨e, fpOp w 0x0F#9, 0, 0⟩
  | .ftanh e w => some ⟨e, fpOp w 0x10#9, 0, 0⟩ | .frnd e w k => some ⟨e, fpOp w 0x11#9, k.code, 0⟩
  | .fredux e w o => some ⟨e, fpOp w 0x12#9, 0, 0#15 ++ o.code⟩
  | .cvtfi e m => some ⟨e, 0x140#9, 0, m.code⟩ | .cvtif e m => some ⟨e, 0x141#9, 0, m.code⟩
  | .cvtff e m kt => some ⟨e, 0x142#9, kt, m.code⟩ | .cvtn e m => some ⟨e, 0x143#9, 0, m.code⟩
  | .cvtk4 e m kt => some ⟨e, 0x144#9, kt, m.code⟩ | .cvtw e m => some ⟨e, 0x145#9, 0, m.code⟩
  | .magrd e n => some ⟨e, 0x146#9, n, 0⟩ | .magclr e n => some ⟨e, 0x147#9, n, 0⟩
  | .amul e w t => some ⟨e, 0x148#9, w.code, 0#15 ++ t⟩ | .amad e w t => some ⟨e, 0x149#9, w.code, 0#15 ++ t⟩
  | .aconj e w t => some ⟨e, 0x14A#9, w.code, 0#15 ++ t⟩ | .anorm e w t => some ⟨e, 0x14B#9, w.code, 0#15 ++ t⟩
  | .ainv e w t => some ⟨e, 0x14C#9, w.code, 0#15 ++ t⟩
  | .ldg e m => some ⟨e, 0x180#9, 0, m.code 0⟩ | .stg e m => some ⟨e, 0x181#9, 0, m.code 0⟩
  | .lds e m => some ⟨e, 0x182#9, 0, m.code 0⟩ | .sts e m => some ⟨e, 0x183#9, 0, m.code 0⟩
  | .ldt e m => some ⟨e, 0x184#9, 0, m.code⟩ | .stt e m => some ⟨e, 0x185#9, 0, m.code⟩
  | .pfg e m => some ⟨e, 0x186#9, 0, m.code 0⟩ | .wbr e m => some ⟨e, 0x187#9, 0, m.code 0⟩
  | .invr e m => some ⟨e, 0x188#9, 0, m.code 0⟩
  | .fence e o sc => some ⟨e, 0x189#9, 0, 0#7 ++ o.code ++ sc.code ++ 0#6⟩
  | .atom e m o => some ⟨e, 0x18A#9, 0, m.code o.code⟩ | .red e m o => some ⟨e, 0x18B#9, 0, m.code o.code⟩
  | .atomf e m o ra => some ⟨e, 0x18C#9, 0, m.code (bit ra ++ o.code)⟩
  | .redf e m o ra => some ⟨e, 0x18D#9, 0, m.code (bit ra ++ o.code)⟩
  | .atoms e m o => some ⟨e, 0x18E#9, 0, m.code o.code⟩
  | .mma e m => some ⟨{ e with dst := m.dst }, 0x1C0#9, 0, m.sa ++ m.sb ++ m.tab ++ 0#3⟩
  | .accz e h => some ⟨{ e with dst := 0#9 ++ h }, 0x1C1#9, 0, 0⟩
  | .accrd e h n mg mag df =>
    let f : LForm := match e.form with
      | .r96 _ ha hb hc => .r96 (0#5 ++ n) ha hb hc
      | x => x
    some ⟨{ e with form := f }, 0x1C2#9, 0, h ++ 0#7 ++ bit mg ++ mag ++ 0#2 ++ df.code⟩
  | .accwr e h => some ⟨{ e with dst := 0#9 ++ h }, 0x1C3#9, 0, 0⟩
  | .vpush e h => some ⟨e, 0x1C4#9, mod1 h, 0⟩ | .vpop e h => some ⟨e, 0x1C5#9, mod1 h, 0⟩
  | .trapLane e k => some ⟨{ e with b := 0#3 ++ k }, 0x1C6#9, 0, 0⟩
  | .tretLane e => some ⟨e, 0x1C7#9, 0, 0⟩
  | .sysrdLane e r => some ⟨{ e with b := 0#5 ++ r.code }, 0x1C8#9, 0, 0⟩
  | .syswrLane e r => some ⟨{ e with b := 0#5 ++ r.code }, 0x1C9#9, 0, 0⟩
  | .mapf e => some ⟨e, 0x1CA#9, 0, 0⟩
  | .bkptLane e k => some ⟨{ e with b := 0#3 ++ k }, 0x1CB#9, 0, 0⟩
  | _ => none

/-- The words of an instruction of the control or the lane stream; an engine entry and an event have
none. -/
def encode (i : Instr) : List W32 :=
  match ctlWordOf i with
  | some c => [c.word]
  | none =>
    match l32WordOf i with
    | some w => [w]
    | none =>
      match longEncOf i with
      | some x => x.words
      | none => []

/-- The four doublewords of an engine entry (R236, R240). -/
def encodeEntry (i : Instr) : Option (W64 × W64 × W64 × W64) :=
  let q (kind : BitVec 4) (q : EntryEnc) : Option (W64 × W64 × W64 × W64) :=
    some (q.prog ++ q.arg ++ q.flg ++ 0#4 ++ kind, q.q1, q.q2, q.q3)
  match i with
  | .endEntry e => q 0#4 e | .copy e => q 1#4 e | .mcast e => q 2#4 e | .conv e => q 3#4 e
  | .gather e => q 4#4 e | .scatter e => q 5#4 e | .reduce e => q 6#4 e | .algop e => q 7#4 e
  | .loop e => q 8#4 e | .cond e => q 9#4 e | .signal e => q 10#4 e
  | _ => none

/-- The lane instruction of a word list of at least its own length. -/
def decodeLaneWords : List W32 → Except DecodeErr Instr
  | [] => .error .illegalLength
  | [w0] => decodeLane w0 0 0
  | [w0, w1] => decodeLane w0 w1 0
  | w0 :: w1 :: w2 :: _ => decodeLane w0 w1 w2

/-! ## The words of the opcode table -/

/-- The stream that a table row's words are read for. A word belongs to the control stream or to the lane stream
by where it stands and not by its bits (R68): a single word is taken for a control word first, and for an L32 lane
word where the control decoder refuses it, except for the words of LSTOP and LEXIT in L32 form, whose control
readings are the words of other rows. -/
def tableLane (nbits w : Nat) : Bool :=
  let w0 : W32 := BitVec.ofNat 32 w
  32 < nbits || w0 == 0x04800000#32 || w0 == 0x05000000#32 ||
  (match decodeCtl w0 with
   | .ok _ => false
   | .error _ => true)

/-- The instruction that the decoder reads from the bits of an opcode-table row, each 32-bit word
little-endian and the first at the lowest address. -/
def decodeTableWord (nbits w : Nat) : Option Instr :=
  let word (k : Nat) : W32 := BitVec.ofNat 32 (w % 2 ^ nbits / 2 ^ (32 * k))
  match (if tableLane nbits (w % 2 ^ nbits) then decodeLaneWords [word 0, word 1, word 2] else decodeCtl (word 0)) with
  | .ok i => some i
  | .error _ => none

end Sys2Proof
end

