-- ==== Sys2Proof/Config.lean ====
section
/-!
DEFINITION. The free values: what the manual leaves to the implementation, to firmware keys or to
the outside world. None has a body, so nothing can be proved about a particular value.
-/

namespace Sys2Proof.Config

/-- A permutation of 64-bit values that keeps 0: different values have different images. -/
structure HandlePerm where
  f : W64 → W64 := id
  inj : ∀ x y, f x = f y → x = y := by intros; assumption
  zero : f 0#64 = 0#64 := by rfl
  deriving Inhabited

/-- The keyed permutation that firmware derives core handles through (18_wafer_health_and_time.md R426). -/
opaque handlePerm : HandlePerm

/-- The module serial number (17_host_ridge_firmware.md R395). -/
opaque serial : W64

/-- The identity public key, x then y (R418). -/
opaque publicKey : BitVec 512

/-- The SM2 signature by the identity key over a report (R418); the second argument is a fresh
number, because a signature is not a function of its message. -/
opaque signature : List Byte → Nat → BitVec 512

/-- SM3 and SM2, which the manual only names, with the key whose digest the boot ROM holds (R415, R416): that key's signature over a
digest verifies, some other value does not, and some other key has another digest. -/
structure Standards where
  digest : List Byte → BitVec 256 := fun l => BitVec.ofNat 256 l.length
  verify : List Byte → BitVec 256 → List Byte → Bool := fun _ _ s => s.isEmpty
  sign : BitVec 256 → List Byte := fun _ => []
  romKey : List Byte := []
  strangeKey : List Byte := [0#8]
  forged : List Byte := [0#8]
  signed : ∀ d, verify romKey d (sign d) = true := by intros; rfl
  unsigned : ∀ d, verify romKey d forged = false := by intros; rfl
  strange : digest strangeKey ≠ digest romKey := by decide
  deriving Inhabited

/-- The standards of this module's boot. -/
opaque standards : Standards

/-- The SM3 digest of a message (R415). -/
def sm3 (l : List Byte) : BitVec 256 := standards.digest l

/-- A fresh value the manual leaves open, numbered by a counter of the state. -/
opaque fresh : Nat → Nat

/-- The context that a host queue's packets belong to, by owning function and queue: no field of a queue or
a packet names it (15_scheduling.md R345, 17_host_ridge_firmware.md R399). -/
opaque queueContext : Nat → Nat → Nat

/-- The page number at which firmware maps the first 8 KiB of an episode's window into the bound context
(16_corrie.md R377), by episode and ASID. -/
opaque windowPage : Nat → Nat → Nat

/-- Bytes of a checkpoint image that holds n bytes of memory, and the bytes of the k-th image: its format is firmware's
(18_wafer_health_and_time.md R430). -/
opaque imageBytes : Nat → Nat
opaque imageCode : Nat → List Byte

end Sys2Proof.Config
end

