-- ==== Sys2Proof/Machine/State.lean ====
section
/-!
DEFINITION. The state of the module as plain data: every register, memory, queue and record that
the manual names, the reasons a step can stop, and the module right after its start. A record that
exists only after something creates it (a context, a grid, a block, a group, a chain) is kept in a
table keyed by number; a table entry that is absent stands for the record's default value.
-/

namespace Sys2Proof.Machine

/-- A sparse table by number: strictly rising keys. What an unlisted key holds is said where the
table is read. -/
abbrev Tab (α : Type) := List (Nat × α)

/-- The bytes of an address space: strictly rising addresses, and no byte equal to 0, which is what
an unlisted address reads as (assumption 3). -/
abbrev Memory := List Host.Cell

/-- Strictly rising keys above a bound. -/
def Tab.sortedFrom {α : Type} : Nat → Tab α → Bool
  | _, [] => true
  | lo, (k, _) :: t => lo ≤ k && Tab.sortedFrom (k + 1) t

/-- The keys rise strictly. -/
def Tab.wf {α : Type} (t : Tab α) : Bool := Tab.sortedFrom 0 t

/-- The canonical form of a memory. -/
def Memory.wf (m : Memory) : Bool := Tab.sortedFrom 0 m && m.all fun c => c.2 != 0#8

/-! ## The array (R28, R29, R37) -/

/-- A structure-constant table as its 128 bytes (09_algebra_array.md R213). -/
abbrev AlgTable := List Byte

/-- An accumulator tile (R28): header and words, key 64·row + word, unlisted 0. -/
structure AccTile where
  header : W32 := 0#32
  words : Tab W32 := []
  /-- Words with an uncorrectable error, by the same key (R321). -/
  bad : List Nat := []
  deriving DecidableEq, Repr

/-- An operand slot: its holder, its bytes (unlisted 0), and whether SREL has removed it (R218). -/
structure OpSlot where
  holder : Nat
  released : Bool := false
  bytes : Tab Byte := []
  /-- Some of its bytes have an uncorrectable error (R321). -/
  bad : Bool := false
  deriving DecidableEq, Repr

/-- An array queue entry (R225, R226). -/
structure ArrEntry where
  id : Nat
  g : Nat
  /-- The LaneOp of a lane MMA, or the chain of an ALGOP. -/
  op : Option Nat
  chain : Option Nat
  fmt : MFmt
  na : Bool
  nb : Bool
  zc : Bool
  tile : Nat
  sa : Nat
  sb : Nat
  table : AlgTable
  rows : W32
  /-- Captured scale bytes of A and of B by lane (R63). -/
  ascale : List Nat
  bscale : List Nat
  started : Bool := false
  chunk : Nat := 0
  deriving DecidableEq, Repr

/-- An SFILL issued and not complete (R221). -/
structure PendFill where
  g : Nat
  slot : Nat
  bytes : List Byte
  /-- Array entries issued earlier that name the slot. -/
  after : List Nat
  cnt : Nat
  /-- The row read met an uncorrectable error at this address (R219). -/
  bad : Option W64 := none
  epc : W64 := 0#64
  deriving DecidableEq, Repr

/-! ## One group -/

/-- A translation register (01_machine_state.md R27). -/
structure XbReg where
  v : Bool := false
  coh : BitVec 2 := 0#2
  w : Bool := false
  q : Bool := false
  /-- Byte limit, at most 2^33. -/
  limit : Nat := 0
  pbase : BitVec 56 := 0#56
  vbase : BitVec 53 := 0#53
  /-- The core that owns a core-private page (R166, R325); 0 for the others. -/
  owner : Nat := 0
  /-- Low bit of the page number of the leaf that it is bound in (R271, R323). -/
  page : Nat := 13
  deriving DecidableEq, Repr

/-- What a split waits for (05_lane_integer_and_flow.md R136, R138, R139). -/
inductive SplitWait where
  /-- Ready, or waiting only for the conditions of its next instruction. -/
  | ready
  /-- At a JOIN. -/
  | join
  /-- At an LSTOP. -/
  | stop
  /-- For load data (R174). -/
  | data
  /-- At a rejoin point, for the other members of its family (R138). -/
  | family
  /-- Until the down→up FIFO has room, the up→down FIFO an entry, or the array queue room (R211, R226). -/
  | fifoPush
  | fifoPop
  | arrayRoom
  /-- For the data or acknowledgements of global accesses, of the split's own lanes or in whole (20_timing_and_arbitration.md
  R457, R458). -/
  | ack (ops : List Nat) (whole : Bool)
  /-- At a TILE, or an LBRA that finds the split table full, until every data split of the group has rejoined (R135, R142). -/
  | others
  deriving DecidableEq, Repr

/-- A split of the split table (R35). -/
structure Split where
  id : Nat := 0
  mask : W32 := 0#32
  pc : W64 := 0#64
  /-- The JOIN address at which the split waits. -/
  joinPc : W64 := 0#64
  wait : SplitWait := .ready
  /-- Splits that descend from one split through data splits share this number (R138). -/
  family : Nat := 0
  /-- The split resumes from a breakpoint-register stop: one issue without matching (R442). -/
  noBreak : Bool := false
  deriving DecidableEq, Repr

/-- A waiting lane entry (R36) and the PC of its RUN (R441). -/
structure LaneEntry where
  pc : W64
  runPc : W64
  deriving DecidableEq, Repr

/-- What sampling notes of a tagged issue (19_debug_trace_profiling.md R448, R449): OP9, its cycle, the sectors requested, the levels
that supply data or take acknowledgements, and the lanes whose data may arrive last. -/
structure SampleTag where
  op9 : Nat
  since : Nat
  sectors : Nat
  lvl : Nat := 0
  lasts : List Nat := []
  deriving DecidableEq, Repr

/-- An issued lane instruction whose completion or window is still open (R81, R82). -/
structure LaneOp where
  id : Nat
  /-- Its lanes. -/
  mask : W32 := 0#32
  /-- For each split that carries the instruction's window: instructions of the window left. -/
  windows : List (Nat × Nat) := []
  /-- n = 15 with SBS ≠ 0: the claims end at a wait on the slot. -/
  openEnded : Bool := false
  vclaims : List Nat := []
  pclaims : List Nat := []
  sbs : Nat := 0
  /-- Flags it raises at completion. -/
  flags : BitVec 5 := 0#5
  done : Bool := false
  /-- Completed by the array and not by the strand (R225). -/
  array : Bool := false
  /-- A memory access; a global one whose data or acknowledgement does not come from L1 (R458). -/
  mem : Bool := false
  far : Bool := false
  /-- Its issue was tagged by sampling (R448). -/
  tag : Option SampleTag := none
  /-- The max-magnitude register it names (R159). -/
  mag : Option Nat := none
  pc : W64 := 0#64
  deriving DecidableEq, Repr

/-- A naturally aligned piece of an access (R168): physical address, offset in the access, bytes, and
the coherence attribute of its page. -/
structure Piece where
  pa : Nat
  off : Nat
  n : Nat
  coh : Nat
  deriving DecidableEq, Repr

/-- A load whose missing lanes still wait for data (R174). -/
structure PendLoad where
  id : Nat
  /-- The LaneOp it belongs to. -/
  op : Nat
  split : Nat
  mask : W32
  dst : Nat
  size : MSize
  sx : Bool
  /-- Pieces by lane. -/
  addrs : List (Nat × Piece)
  /-- Virtual addresses by lane. -/
  vas : List (Nat × W64) := []
  /-- What L1 gave its lanes when the load passed (R171). -/
  got : List (Nat × Nat) := []
  hint : Hint := .none
  deriving DecidableEq, Repr

/-- What a plain access that returns nothing does at its place: a store, or a reduction with its operand and swap value. -/
inductive LateKind where
  | store
  | red (op : AOp) (swp : Nat)
  | redf (op : FRedOp)
  deriving DecidableEq, Repr

/-- A piece of a plain access that is performed later than its instruction issued, which R282 leaves unordered. A control store has
the lane number 32. -/
structure LateAcc where
  /-- The number of its instruction. -/
  op : Nat
  lane : Nat
  p : Piece
  v : Nat
  kind : LateKind
  hint : Hint
  deriving DecidableEq, Repr

/-- Where an SLD that reads later than it issues will read (R282): its address and PC, the place, the bytes and the attribute. -/
structure SldSrc where
  va : W64
  pc : W64
  pa : Nat
  n : Nat
  coh : Nat
  deriving DecidableEq, Repr

/-- An outstanding SLD (04_control_stream.md R95): its register, and the value read, or where it is still to read. -/
structure PendSld where
  d : Nat
  value : W64
  src : Option SldSrc := none
  deriving DecidableEq, Repr

/-- What a waiting control instruction waits for. -/
inductive WaitKind where
  | lsync | waitcnt | yield | waitchild | waitcmp | bwait | dbar | wbar | sclm | held | ckpt | launch
  | mailbox | exit | run | engine
  /-- An ENGCHAIN that has counted its chain and waits for room in the queue (R237). -/
  | append
  deriving DecidableEq, Repr

/-- A waiting control instruction (R275) or a parked YIELD (R111). -/
structure CtlWait where
  kind : WaitKind
  /-- cc counted towards the timeout. -/
  age : Nat := 0
  /-- Timeout in cc, 0 for none (R197, R202). -/
  limit : Nat := 0
  /-- The condition has been met (R195). -/
  woken : Bool := false
  /-- WAITCMP: a monitor is armed (R194). -/
  armed : Bool := false
  /-- Its monitor has found an uncorrectable error in the word (R11). -/
  recheck : Bool := false
  /-- cc since the last reread (R195). -/
  reread : Nat := 0
  /-- WAITCMP: virtual and physical address, and the attribute of the page. -/
  va : W64 := 0#64
  pa : Nat := 0
  coh : Nat := 0
  /-- Barrier object address, id, YIELD class, or the order of issue of an SCLM. -/
  obj : Nat := 0
  /-- BWAIT: the phase P (R201). -/
  phase : Nat := 0
  /-- WAITCMP: the condition, the value it compares with, and the scope. -/
  cond : Cond := .eq
  val : W64 := 0#64
  scope : Scope := .grp
  /-- YIELD: the counter bound and the continuation. -/
  n : Nat := 0
  cont : W64 := 0#64
  deriving DecidableEq, Repr

/-- A trap raised and not yet taken (11_system_and_traps.md R262, R263, R275). -/
structure PendTrap where
  code : Nat
  detail : Nat := 0
  opnd : Nat := 0
  flags : BitVec 5 := 0#5
  faddr : W64 := 0#64
  fmask : W32 := 0#32
  /-- PC of the trapping instruction, and the resume point. -/
  pc : W64 := 0#64
  resume : W64 := 0#64
  /-- Lane stream: the trapping split. -/
  split : Nat := 0
  /-- Raised by a breakpoint register (R442). -/
  viaBreakReg : Bool := false
  /-- STOP reason (R452). -/
  reason : Nat := 0
  /-- The physical address of an uncorrectable error, where the address of the trap does not give it (R412). -/
  pa : Nat := 0
  deriving DecidableEq, Repr

/-- The lane shadow (R263). -/
structure LaneShadow where
  v : Tab W32
  p : Tab W32
  splits : List Split
  tile : Nat
  flags : BitVec 5
  resPc : W64
  resSplit : Nat
  viaBreakReg : Bool
  deriving DecidableEq, Repr

/-- The control shadow (R264). -/
structure CtlShadow where
  s : Tab W64
  resPc : W64
  viaBreakReg : Bool
  deriving DecidableEq, Repr

/-- A group parked by debug (19_debug_trace_profiling.md R444). -/
structure Parked where
  reason : Nat
  /-- The stream that stopped: true for the control stream. -/
  ctl : Bool
  /-- The trap that stopped it. -/
  trap : PendTrap
  deriving DecidableEq, Repr

/-- A group (R16, R20 to R36, R38, R39). -/
structure Group where
  live : Bool := false
  grid : Nat := 0
  block : Nat := 0
  /-- Index within the block. -/
  gidx : Nat := 0
  /-- Core, 112 × domain + site, and group slot. -/
  core : Nat := 0
  slot : Nat := 0
  resident : Bool := true
  exited : Bool := false
  /-- Lanes present and lanes exited (R18, R141). -/
  present : W32 := 0#32
  gone : W32 := 0#32
  /-- Rounded `.regs` (R20). -/
  nregs : Nat := 96
  /-- v registers: key 32·r + lane, unlisted is the marker of R22. -/
  v : Tab W32 := []
  /-- Those of them with an uncorrectable error, by the same key (R321). -/
  badV : List Nat := []
  /-- p1 to p31 as lane masks, unlisted 0 (R23). -/
  p : Tab W32 := []
  /-- s0 to s63, unlisted 0 (R25, R26). -/
  s : Tab W64 := []
  xb : Tab XbReg := []
  /-- Tiles bound to acc0 to acc(n−1) (R28). -/
  accs : List Nat := []
  /-- Operand slots held, and the quota (R29). -/
  slots : List Nat := []
  quota : Nat := 0
  mag : Tab W32 := []
  sb : Tab Nat := []
  /-- cnt.copy, cnt.gath, cnt.alg, cnt.coll by class number (R32). -/
  cnt : Tab Nat := []
  tile : Nat := 5
  flags : BitVec 5 := 0#5
  splits : List Split := []
  laneq : List LaneEntry := []
  /-- A lane entry is running, and the PC of its RUN. -/
  laneBusy : Bool := false
  runPc : W64 := 0#64
  /-- The split of the run in progress and the instructions it has issued (R80, R136). -/
  run : Option (Nat × Nat) := none
  nextSplit : Nat := 1
  ops : List LaneOp := []
  nextOp : Nat := 0
  loads : List PendLoad := []
  /-- The next plain access of a stream of the group is performed later than it issues (R282), and those not yet performed. -/
  late : Bool := false
  lates : List LateAcc := []
  slds : List PendSld := []
  cpc : W64 := 0#64
  wait : Option CtlWait := none
  /-- One issue of the control stream without breakpoint matching (R442). -/
  noBreak : Bool := false
  laneSup : Bool := false
  ctlSup : Bool := false
  cause : W64 := 0#64
  faddr : W64 := 0#64
  fmask : W64 := 0#64
  epc : W64 := 0#64
  elpc : W64 := 0#64
  lshadow : Option LaneShadow := none
  cshadow : Option CtlShadow := none
  lpend : Option PendTrap := none
  cpend : Option PendTrap := none
  /-- Non-pre-emptible region and its count (R117, R118). -/
  region : Bool := false
  regionCnt : Nat := 0
  /-- Arrival record: object and phase, most recently used first (R201). -/
  arrivals : List (Nat × Nat) := []
  /-- Children outstanding, and completed and trapped since the last WAITCHILD (R115). -/
  childOut : Nat := 0
  childDone : Nat := 0
  childTrap : Nat := 0
  pass : Nat := 0
  parked : Option Parked := none
  /-- Its latest STOP record (R447). -/
  stopRec : List W64 := []
  /-- The lane stream waits on an access held under R336: its virtual address. -/
  laneHeld : Option W64 := none
  /-- While the lane stream holds an access, the other addresses that hold the same instruction. -/
  laneHolds : List W64 := []
  /-- The access of the control stream held under R336. -/
  ctlHeld : Option W64 := none
  /-- A held access of a stream whose regeneration failed, by page: it traps REGEN_WAIT when it executes
  again (R340). -/
  laneRegen : Option Nat := none
  ctlRegen : Option Nat := none
  /-- What the swap record holds of the array (R276): tiles of acc0 onward, operand slots by number, queue
  entries and fills. -/
  savedTiles : List AccTile := []
  savedSlots : Tab OpSlot := []
  savedArr : List ArrEntry := []
  savedFills : List PendFill := []
  /-- Its lane instruction failed its residue check on replay: it delivers no result (R429). -/
  noResult : Bool := false
  /-- The numbers of its register chunks, in order (R301). -/
  chunkNos : List Nat := []
  deriving DecidableEq, Repr

/-! ## Work -/

/-- A kernel launch packet (15_scheduling.md R345). -/
structure Packet where
  d0 : W64 := 0#64
  d1 : W64 := 0#64
  d2 : W64 := 0#64
  cbase : W64 := 0#64
  lbase : W64 := 0#64
  args : W64 := 0#64
  sig : W64 := 0#64
  d7 : W64 := 0#64
  deriving DecidableEq, Repr

/-- Where a packet came from. -/
inductive Origin where
  /-- A host queue: function, queue, slot. -/
  | host (fn q slot : Nat)
  /-- A LAUNCH of a group, and its order of acceptance. -/
  | device (g order : Nat)
  /-- A regeneration: domain and reserved entry (R338). -/
  | regen (dom entry : Nat)
  /-- A part of a gang. -/
  | part (gang k : Nat)
  deriving DecidableEq, Repr

/-- A child launch accepted from a group (R113, R353). -/
structure Child where
  pkt : Packet := {}
  depth : Nat := 0
  dlim : Nat := 8
  /-- The issuing group. -/
  g : Nat := 0
  /-- Order in which the master distributor accepted the LAUNCH. -/
  order : Nat := 0
  /-- The issuing group's grid, block and number in the block (R432). -/
  key : Nat × Nat × Nat := (0, 0, 0)
  deriving DecidableEq, Repr

/-- A pending-launch pool entry (R353, R354): one child, or merged children in order of arrival. -/
structure PoolEntry where
  asid : Nat
  first : Child
  rest : List Child := []
  /-- Merge window: cc left plus 1; 0 when it is closed or was never opened. -/
  window : Nat := 0
  deriving DecidableEq, Repr

/-- An active grid (R348 to R352). -/
structure Grid where
  /-- Launch sequence number. -/
  seq : Nat := 0
  asid : Nat := 0
  /-- Grid identifier of s0. -/
  ident : Nat := 0
  pkt : Packet := {}
  prio : Nat := 0
  depth : Nat := 0
  dlim : Nat := 8
  origin : Origin := .host 0 0 0
  /-- Next unstarted block in linear order, and blocks not ended. -/
  nextBlock : Nat := 0
  live : Nat := 0
  status : Nat := 0
  cause : Nat := 0
  cause2 : Nat := 0
  /-- The grid-table entry: the sequence number of the first of its merged children (R354). -/
  lead : Nat := 0
  /-- Massif of a gang part: row, column, height and width (R346). -/
  massif : Option (Nat × Nat × Nat × Nat) := none
  /-- Last swapped block resumed (R366). -/
  lastResumed : Nat := 0
  deriving DecidableEq, Repr

/-- A gang (R346, R362). -/
structure Gang where
  seq : Nat
  asid : Nat
  fn : Nat
  q : Nat
  slot : Nat
  sig : W64
  prio : Nat
  /-- Per massif: row, column, height, width, packet address. -/
  parts : List (Nat × Nat × Nat × Nat × W64)
  /-- 0 taken, 1 committed and waiting for the heartbeat channel, 2 waiting for the start cycle of round T,
  3 started or failed (R362, R363). -/
  phase : Nat := 0
  round : Nat := 0
  /-- The sequence numbers of its parts, once they have been reserved (R432). -/
  seqs : List Nat := []
  /-- Parts not completed and the largest status so far. -/
  left : Nat
  status : Nat := 0
  cause : Nat := 0
  cause2 : Nat := 0
  deriving DecidableEq, Repr

/-- A placed block. -/
structure Block where
  grid : Nat := 0
  num : Nat := 0
  /-- Quad, 28 × domain + quad. -/
  quad : Nat := 0
  /-- Scratchpad base SB and share q in bytes (R167, R303). -/
  sbase : Nat := 0
  share : Nat := 0
  /-- `.algebra` count and the tables reserved on each core: core and first to last (R37). -/
  nalg : Nat := 0
  tables : List (Nat × List Nat) := []
  groups : List Nat := []
  resident : Bool := true
  /-- Cores the block is pinned to (R277): cores on which it has executed VPUSH or VPOP. -/
  fifoCores : List Nat := []
  /-- cc since one of its groups was last not waiting (R364). -/
  waitTime : Nat := 0
  /-- Order in which the block woke, 0 for not woken (R366). -/
  woken : Nat := 0
  /-- The saved scratchpad shares and tables of a swapped block (R276): key is a window offset
  above 2^23 × column, and the tables by the core that held them. -/
  savedScr : Tab Byte := []
  savedTabs : List (Nat × List AlgTable) := []
  /-- A committed gang's block that has not begun (R363). -/
  waits : Bool := false
  /-- A block of an image that has not been placed since the rollback (R432). -/
  fresh : Bool := false
  /-- The block is next to leave its hot domain: its groups stop at their boundaries (R275, R370). -/
  moving : Bool := false
  /-- Its migration was held by a region or a pin: at that boundary it is the next to migrate (R371). -/
  heldMove : Bool := false
  deriving DecidableEq, Repr

/-- What firmware keeps of a page that it has evicted (R342): the system address of its copy, and the owner of a core-private one. -/
structure Evicted where
  pa : Nat := 0
  owner : Nat := 0
  deriving DecidableEq, Repr

/-- A context (R19, R39, 17_host_ridge_firmware.md R411). -/
structure Context where
  live : Bool := false
  gen : Nat := 0
  /-- Physical address of the level-0 table (14_address_translation.md R324). -/
  root : Nat := 0
  trapen : W64 := 1#64
  ltrapvec : W64 := 0#64
  ctrapvec : W64 := 0#64
  poolbase : W64 := 0#64
  poolcnt : W64 := 0#64
  regentab : W64 := 0#64
  lquota : W64 := 256#64
  aflags : BitVec 5 := 0#5
  nplimit : W64 := 65536#64
  bpc : Tab W64 := []
  bpctl : W64 := 0#64
  wpa : Tab W64 := []
  wpctl : W64 := 0#64
  /-- Device-side launches outstanding (R113). -/
  launches : Nat := 0
  nextIdent : Nat := 1
  attached : Bool := false
  /-- A context switch has taken the context off the module: its blocks are swapped out and stay so (R277). -/
  switched : Bool := false
  /-- Placement epoch (R427). -/
  epoch : Nat := 0
  /-- Checkpoint storage (R411). -/
  ckptAddr : Nat := 0
  ckptSize : Nat := 0
  /-- The link of the command that named the storage. -/
  ckptFn : Nat := 0
  /-- cc since the last commit, and since a periodic checkpoint was last skipped (R411, R430). -/
  sinceCommit : Nat := 0
  sinceTry : Nat := 0
  /-- A checkpoint is being taken. -/
  ckptBusy : Bool := false
  /-- Sequence numbers posted since the commit (R433). -/
  posted : List Nat := []
  /-- Packets activated since the commit (R430), and the record number at the commit. -/
  kept : List Grid := []
  keptGangs : List Gang := []
  /-- The children launched and activated since the commit, by their group's grid, block and number, packet and sequence number; and
  those of before a rollback, whose launch runs again (R432). -/
  children : List ((Nat × Nat × Nat) × Packet × Nat) := []
  again : List ((Nat × Nat × Nat) × Packet × Nat) := []
  /-- Packets of before a rollback that are to be activated again, in their order (R432). -/
  replay : List (Grid ⊕ Gang) := []
  commitMark : Nat := 0
  /-- Frames the context owns: frame base and size. -/
  frames : List (Nat × Nat) := []
  /-- Clock sweep position (R341): page number. -/
  sweep : Nat := 0
  /-- Pages made present by a regeneration, with their regenerable entries, by page number (R341). -/
  regened : Tab W64 := []
  /-- The copies of evicted pages, by page number (R342). -/
  evicted : Tab Evicted := []
  deriving DecidableEq, Repr

/-- A pointer advance of an entry whose bytes have moved (R254): the descriptor by its two addresses, its side, the count, the
pointer that the entry checked, and the entry's kind. -/
structure Advance where
  va : W64
  pa : Nat
  prod : Bool
  n : Nat
  checked : Nat
  kind : Nat
  deriving DecidableEq, Repr

/-- What waits for a free entry of an array queue (R226, R249): a split at an MMA, or a chain at an ALGOP. -/
inductive ArrWaiter where
  | lane (g split : Nat)
  | chain (k : Nat)
  deriving DecidableEq, Repr

/-- Bytes that follow one another in an operand: the address that a fault reports, the physical address,
the count, and the attribute of the page. -/
structure Seg where
  va : W64
  pa : Nat
  n : Nat
  coh : Nat
  deriving DecidableEq, Repr

/-- An operand in place: memory in order, or registers of a group (R241, R244). -/
inductive Ep where
  | mem (l : List Seg)
  | regs (g r : Nat)
  deriving DecidableEq, Repr

/-- Where a byte goes: to memory, or to an offset in the registers of a group. -/
inductive ByteAt where
  | mem (x : Seg)
  | reg (g r o : Nat)
  deriving DecidableEq, Repr

/-- A data entry that moves its bytes one by one (R243, R292): its kind and doublewords, its operands in place, the advances that it
owes, the source bytes not yet read, with their places in the whole, those read, and the bytes not yet written. -/
structure SlowEntry where
  kind : Nat
  q : EntryEnc
  eps : List Ep
  owed : List Advance
  gets : List (Nat × Seg) := []
  got : Tab Byte := []
  puts : List (ByteAt × Byte) := []
  deriving DecidableEq, Repr

/-- A chain (10_engine_chains.md R237, R256, R259). -/
structure Chain where
  g : Nat
  cls : Nat
  core : Nat
  block : Nat
  grid : Nat
  /-- PC of its ENGCHAIN. -/
  epc : W64
  /-- Scratchpad address of the next entry. -/
  entry : Nat
  seq : Nat := 0
  /-- 0 queued, 1 holds a context, 2 held at a fault until the handler returns, 3 ended by a fault not
  yet delivered. -/
  phase : Nat := 0
  /-- cc its entry has not fired (R256). -/
  idle : Nat := 0
  /-- Fault to deliver (R257, R258): cause, reason, kind, faulting address. -/
  fault : Option (Nat × Nat × Nat × W64) := none
  /-- The physical address of an uncorrectable error that it found (R412). -/
  badPa : Nat := 0
  /-- ALGOP: its array entry; REDUCE: its contribution is deposited (0). -/
  busy : Option Nat := none
  /-- The entry has moved its bytes, and its buffers' pointers are still to advance (R254). -/
  adv : List Advance := []
  /-- Its next data entry moves its bytes one by one, and the entry that does so (R292). -/
  apart : Bool := false
  slow : Option SlowEntry := none
  /-- The context that it holds, by number (R256). -/
  ctx : Nat := 0
  /-- Its place among the chains of its engine when its group was swapped out (R259). -/
  place : Nat := 0
  /-- Waits on an access held under R336. -/
  held : Option W64 := none
  /-- As `laneRegen` of a group. -/
  regen : Option Nat := none
  deriving DecidableEq, Repr

/-- An operation counted by an engine counter (R239): class, order, done, and its number. -/
structure CntOp where
  cls : Nat
  id : Nat
  done : Bool := false
  deriving DecidableEq, Repr

/-- A contribution to a REDUCE instance (R248). -/
structure Contribution where
  rank : Nat
  chain : Nat
  /-- Its destination as an address doubleword, steps applied. -/
  dst : W64
  bytes : List Byte
  deriving DecidableEq, Repr

/-- A REDUCE instance. -/
structure Collective where
  grid : Nat
  scope : Nat
  inst : Nat
  id : Nat
  npart : Nat
  len : Nat
  op : Nat
  ty : Nat
  parts : List Contribution := []
  /-- The combined bytes, while participants still wait for them (R259). -/
  result : Option (List Byte) := none
  deriving DecidableEq, Repr

/-! ## One core, one domain -/

/-- A cache line of L1 or L2 (13_memory_hierarchy.md R306, R308). -/
structure Line where
  /-- Physical address / 128. -/
  line : Nat
  /-- Valid sectors. -/
  sectors : BitVec 4 := 0#4
  /-- Dirty bytes. -/
  dirty : BitVec 128 := 0#128
  /-- Bytes of this copy with an uncorrectable error (R321). -/
  bad : BitVec 128 := 0#128
  data : BitVec 1024 := 0#1024
  coh : Nat := 0
  keep : Bool := false
  /-- L2 recency: larger is more recent. -/
  use : Nat := 0
  /-- L2 quad presence vector (R307). -/
  quads : BitVec 28 := 0#28
  deriving DecidableEq, Repr

/-- A TLB entry (R331). -/
structure TlbEntry where
  asid : Nat
  gen : Nat
  /-- Level of the leaf, 1 to 3, and the virtual address without its page offset. -/
  level : Nat
  vpn : Nat
  leaf : W64
  /-- Physical address of the entry that the leaf was read from, where A and D are set (R329). -/
  addr : Nat := 0
  use : Nat := 0
  deriving DecidableEq, Repr

/-- A walk-cache entry (R333): the table below a pointer of levels 0 to 2. -/
structure WalkEntry where
  asid : Nat
  gen : Nat
  level : Nat
  tag : Nat
  next : Nat
  use : Nat := 0
  deriving DecidableEq, Repr

/-- A line of a code cache (20_timing_and_arbitration.md R460): context, generation, virtual address / 128, bytes. -/
structure CodeLine where
  asid : Nat
  gen : Nat
  line : Nat
  data : BitVec 1024
  deriving DecidableEq, Repr

/-- The sampling set-up of a context on a core (R273, R448). -/
structure Sampling where
  en : Bool := false
  period : Nat := 6
  count : Nat := 0
  deriving DecidableEq, Repr

/-- A register chunk that no group holds (13_memory_hierarchy.md R301): the first register number of its last group, whose unlisted
registers hold their markers, and its words. -/
structure SpareChunk where
  base : Option Nat := none
  words : Tab W32 := []
  deriving DecidableEq, Repr

/-- A core site. -/
structure Core where
  /-- Group slot to group. -/
  slots : Tab Nat := []
  chunks : Nat := 0
  spare : Tab SpareChunk := []
  tilesUsed : List Nat := []
  tablesUsed : List Nat := []
  tiles : Tab AccTile := []
  opslots : Tab OpSlot := []
  /-- Structure-constant tables; unlisted is the real algebra. -/
  tables : Tab AlgTable := []
  /-- down→up and up→down FIFOs, oldest first, entries of 64 bytes (16_corrie.md R388). -/
  down : List (List Byte) := []
  up : List (List Byte) := []
  arrayQ : List ArrEntry := []
  fills : List PendFill := []
  /-- What waits for an entry of the array queue, in arrival order (R226, R249). -/
  arrWait : List ArrWaiter := []
  /-- Groups waiting in SCLM, in issue order (R217). -/
  sclmQ : List Nat := []
  /-- Chain queues and contexts by class 0 to 2 (R256). -/
  chainQ : Tab (List Nat) := []
  chainCtx : Tab (List Nat) := []
  /-- The context of each engine that started an entry last, and the cc (R256). -/
  lastCtx : Tab Nat := []
  startAt : Tab Nat := []
  sampling : Tab Sampling := []
  /-- Discarded speculative translations (R343). -/
  dspec : W32 := 0#32
  /-- L1: key 8·set + way; tree pseudo-LRU bits by set. -/
  l1 : Tab Line := []
  l1plru : Tab Nat := []
  /-- Lane-code and control-code caches: key 4·set + way. -/
  lcode : Tab CodeLine := []
  ccode : Tab CodeLine := []
  tlb : Tab TlbEntry := []
  tlbPlru : Nat := 0
  /-- Group slot that the control unit served last, and the cc in which it issued (R96). -/
  lastCtl : Nat := 63
  ctlAt : Option Nat := none
  /-- Slot each strand runs. -/
  running : Tab Nat := []
  /-- The array's chunk failed its residue check on replay: it delivers no result (R429). -/
  arrayStuck : Bool := false
  /-- The slots whose control streams have given up their places (R111, n = 255), with the slots that have issued since. -/
  given : Tab (List Nat) := []
  deriving DecidableEq, Repr

/-- State of a line at its home directory (R312). -/
inductive DirState where
  | s | m | h
  deriving DecidableEq, Repr

/-- A directory entry; an absent one is state I. -/
structure DirEntry where
  st : DirState
  doms : List Nat
  use : Nat := 0
  /-- Monitors armed on the line, and whether the sync engine holds it. -/
  mons : Nat := 0
  taken : Bool := false
  deriving DecidableEq, Repr

/-- The state of one id of the domain barrier network for a context (R204). -/
structure DomBarrier where
  grid : Nat
  arrived : List Nat := []
  phase : Nat := 0
  deriving DecidableEq, Repr

/-- A trace ring (R450). -/
structure Ring where
  base : Nat
  log2 : Nat
  /-- Records dropped since the last LOST record. -/
  pending : Nat := 0
  deriving DecidableEq, Repr

/-- A trigger sequencer (R454). -/
structure Sequencer where
  prog : List Byte := []
  st : Nat := 0
  counters : List Nat := [0, 0, 0, 0]
  recording : Bool := false
  /-- The cycle in which it acts next, at the earliest, and the rule that it takes then, with the counters as they stood (R455). -/
  due : Nat := 0
  taken : Option (Nat × List Nat) := none
  deriving DecidableEq, Repr

/-- A trace record on its way to its ring (R451): the cc of its event, its unit (a site, or one after the sites), and its
doublewords. -/
structure TraceRec where
  cc : Nat
  unit : Nat
  words : List W64
  deriving DecidableEq, Repr

/-- A Cairn message (R453): tag, origin, stamp. -/
structure Cairn where
  tag : Nat
  origin : Nat
  stamp : W64
  deriving DecidableEq, Repr

/-- A window-table entry (R376). -/
structure Window where
  asid : Nat
  gen : Nat
  psize : Nat
  size : Nat
  base : Nat
  /-- The page at which firmware has mapped its first 8 KiB into the context (R377). -/
  page : Nat := 0
  deriving DecidableEq, Repr

/-- A regeneration in progress (R338). -/
structure Regen where
  asid : Nat
  va : W64
  /-- Physical address of the leaf, its saved bits and kind word, and the popped frame. -/
  leaf : Nat
  old : W64
  frame : Nat
  record : W64
  pkt : Packet := {}
  /-- Sequence number of the regenerator grid. -/
  grid : Nat := 0
  order : Nat := 0
  failed : Bool := false
  ended : Bool := false
  deriving DecidableEq, Repr

/-- A fault that has claimed a regenerable entry and waits for a free reserved entry of its domain (R338): the context, the address,
the core of the requester unless the distributor is it, and the physical address of the entry. -/
structure Claim where
  asid : Nat
  va : W64
  core : Option Nat := none
  leaf : Nat
  deriving DecidableEq, Repr

/-- Resources of a quad or a core as the master distributor's shadow sees them (R355). -/
structure Shadow where
  chunks : Nat := 0
  slots : List Nat := []
  tiles : Nat := 0
  tables : Nat := 0
  /-- Scratchpad runs in use, base and length; kept at column 0 of the quad. -/
  runs : List (Nat × Nat) := []
  deriving DecidableEq, Repr

/-- A request to a domain's mailbox arbiter (R384): a monitor command for a slot of a hart, a port write of a hart's slot, or a
mailbox instruction of a group. -/
inductive ArbOp where
  | command (h sel : Nat) (v : W64)
  | take (h slot : Nat)
  | post (h slot : Nat) (v : W64)
  | mbx (g port : Nat)
  deriving DecidableEq, Repr

/-- A request and the cc in which it reaches the arbiter (R384, R392). -/
structure ArbReq where
  due : Nat
  op : ArbOp
  deriving DecidableEq, Repr

/-- A domain. -/
structure Domain where
  pool : Tab PoolEntry := []
  regens : Tab Regen := []
  /-- Faults that wait for a reserved entry, in order of arrival (R338). -/
  regenWait : List Claim := []
  /-- Domain barriers, by 16 × ASID + id (R204). -/
  dbars : Tab DomBarrier := []
  hot : Bool := false
  /-- Clock step k: the clock is (16 − k)/16 of 1.3 GHz (R371). -/
  clock : Nat := 0
  /-- Cycles of the domain's clock since the start of the module, in 1/16: the cycle counter of its cores (R24, R371). -/
  cyc16 : Nat := 0
  /-- cc of the domain since its distributor's last free-count report (R355). -/
  sinceReport : Nat := 0
  /-- Stamp cycles since the round advance, in 1/16 of a cc (R440). -/
  stamp16 : Nat := 0
  ring : Option Ring := none
  /-- Records that wait to be written, in their order, and the cc up to which the trace unit has written (R451). -/
  traceQ : List TraceRec := []
  traceAt : Nat := 0
  seqr : Sequencer := {}
  /-- Events on their way to the sequencer, with their arrival times (R454). -/
  seqIn : List (Nat × SeqEvent) := []
  /-- Cairn messages waiting to be sent, and received and not yet presented. -/
  cairnOut : List Cairn := []
  cairnIn : List Cairn := []
  windows : Tab Window := []
  /-- The requests to its mailbox arbiter that have not been performed, and the cc in which it performed one last (R384). -/
  arb : List ArbReq := []
  arbAt : Option Nat := none
  l2 : Tab Line := []
  dir : Tab DirEntry := []
  walk : List WalkEntry := []
  /-- Condition monitors by slice: counts in use (R317). -/
  monitors : Tab Nat := []
  /-- The lines that the sync engine holds in its store, the most recently used first (R316). -/
  sync : List Nat := []
  /-- Collective engine: chain queue and contexts (R256). -/
  chainQ : List Nat := []
  chainCtx : List Nat := []
  /-- The context that started an entry last, and the cc (R256). -/
  lastCtx : Nat := 31
  startAt : Option Nat := none
  /-- Scratchpad runs in use by quad: base and length. -/
  runs : Tab (List (Nat × Nat)) := []
  temp : Nat := 0
  deriving DecidableEq, Repr

/-! ## The Corrie -/

/-- The step of an episode slot (R381, R386). -/
structure StepRec where
  active : Bool := false
  step : W64 := 0#64
  version : W32 := 0#32
  cyc : Nat := 0
  ins : Nat := 0
  /-- A budget has expired and the slot is not yet closed: cc since the expiry; the counts have stopped (R387). -/
  expired : Option Nat := none
  stopped : Bool := false
  /-- A count reached its budget before the present cycle: no request of this cycle comes first any more (R386). -/
  late : Bool := false
  pstat : Nat := 0
  /-- `minsbud` and `mcycbud` of the slot (R385). -/
  insBud : Nat := 2 ^ 28
  cycBud : Nat := 2 ^ 32
  deriving DecidableEq, Repr

/-- Modes of a Corrie hart (R373); a Ridge core has the first and the last (R409). -/
inductive HartMode where
  | machine | supervisor | user
  deriving DecidableEq, Repr

/-- A Corrie hart (R373 to R375, R385, R388, R390), or a Ridge core without what is the Corrie's (R409). -/
structure Hart where
  started : Bool := false
  gated : Bool := false
  mode : HartMode := .machine
  pc : W64 := 0#64
  x : Tab W64 := []
  f : Tab W64 := []
  /-- The standard CSRs by address, unlisted 0. -/
  csr : Tab W64 := []
  mepsel : Nat := 0
  gateReq : Bool := false
  gateWait : Nat := 0
  park : Bool := false
  wfi : Bool := false
  /-- Cycles of a `pause` left (R373). -/
  stall : Nat := 0
  /-- The reservation of `lr`: physical address, bytes, and the value read. -/
  res : Option (Nat × Nat × Nat) := none
  /-- The hart's next store to a window will be performed later than it executes; and such stores, oldest first: address, bytes and
  value (R296). -/
  late : Bool := false
  stores : List (Nat × Nat × Nat) := []
  scurslot : Nat := 0
  scurValid : Bool := false
  sevie : BitVec 16 := 0#16
  steps : Tab StepRec := []
  /-- PUSHBUF and FSTAT by column. -/
  pushbuf : Tab (List Byte) := []
  fstat : Tab (BitVec 2) := []
  sram : Memory := []
  /-- The last gating record (R390): code and cc waited. -/
  gateRec : Option (Nat × Nat) := none
  deriving DecidableEq, Repr

/-! ## The host side -/

/-- A queue block (R399, R404). -/
structure Queue where
  owner : Option Nat := none
  sqbase : W64 := 0#64
  cqbase : W64 := 0#64
  sqlog : Nat := 0
  cqlog : Nat := 0
  vector : Nat := 0
  enabled : Bool := false
  sqhead : Nat := 0
  sqtail : Nat := 0
  cqtail : Nat := 0
  cqhead : Nat := 0
  used : Nat := 0
  phase : Bool := true
  err : Bool := false
  /-- Grids and gangs of the queue not yet completed. -/
  active : Nat := 0
  /-- The slots of the candidate at its head, as the device read them (R400). -/
  slots : List (List W64) := []
  deriving DecidableEq, Repr

/-- A completion on its way to the writer (R405): function, queue (256 for the admin queue), entry. The
writes of R406 that it follows are performed as they issue. -/
structure Completion where
  fn : Nat
  q : Nat
  entry : BitVec 128
  /-- The cc in which it reached the writer. -/
  arrived : Nat := 0
  deriving DecidableEq, Repr

/-- A vector (R407, R408). -/
structure Vector where
  /-- Message address and data of its MSI-X table entry (R393). -/
  addr : W64 := 0#64
  data : W32 := 0#32
  count : Nat := 1
  timer : Nat := 1
  seen : Nat := 0
  /-- cc since the first entry counted. -/
  age : Nat := 0
  masked : Bool := true
  pending : Bool := false
  deriving DecidableEq, Repr

/-- An MSI-X message or another posted write that left the module, for the log of what the outside
world has seen: function and vector. -/
structure Msi where
  fn : Nat
  vector : Nat
  deriving DecidableEq, Repr

/-- An error-log record (R412). -/
structure LogRec where
  seq : Nat := 0
  cause : W64 := 0#64
  faddr : W64 := 0#64
  epc : W64 := 0#64
  elpc : W64 := 0#64
  pa : Nat := 0
  stamp : W64 := 0#64
  handle : W64 := 0#64
  deriving DecidableEq, Repr

/-- A Traverse port (R419). -/
structure Tport where
  up : Bool := false
  peer : Nat := 0
  peerPort : Nat := 0
  deriving DecidableEq, Repr

/-- The topology: sites that are not sound compute cores and units that are absent (18_wafer_health_and_time.md
R423, R424, R428). -/
structure Topology where
  gen : Nat := 0
  round : Nat := 0
  /-- Site to 0 absent or 2 memory-only; unlisted is 1, compute. -/
  sites : Tab Nat := []
  /-- Site to sound strands; unlisted is all sixteen. -/
  strands : Tab (BitVec 16) := []
  corrieOff : List Nat := []
  /-- Links down: 4 × domain + direction. -/
  linksDown : List Nat := []
  sliceMap : List (Nat × Nat) := []
  chanMap : List (Nat × Nat) := []
  /-- Unit marked for retirement at the next start, or for service. -/
  marked : List FaultUnit := []
  deriving DecidableEq, Repr

/-- A checkpoint image (R430): the context's records, its memory, its grids and packets; its blocks are held
as swapped-out ones, with their shares, tables and what the array held. -/
structure Image where
  ctx : Context
  groups : Tab Group
  blocks : Tab Block
  grids : Tab Grid
  gangs : Tab Gang
  /-- Pool entries with their domains. -/
  pool : List (Nat × PoolEntry)
  chains : Tab Chain
  cntOps : Tab (List CntOp)
  colls : List Collective
  mem : Memory
  deriving DecidableEq, Repr

/-- The states of DEVSTAT (R395). -/
inductive DevState where
  | rom | loader | firmware | ready | thermalStop | bootFail
  deriving DecidableEq, Repr

/-- The Ridge complex and the host interface. -/
structure Ridge where
  state : DevState := .rom
  crest : Nat := 27
  reason : Nat := 0
  power : Nat := 0
  inlet : Nat := 0
  outlet : Nat := 0
  certOk : Bool := true
  shutdown : Nat := 0
  hotLimit : Nat := 0
  hotHyst : Nat := 0
  queues : Tab Queue := []
  admin : Tab Queue := []
  vectors : Tab Vector := []
  linksUp : BitVec 8 := 0xFF#8
  /-- 8 KiB pages of system addresses whose targets answer with an error status (R398). -/
  errPages : List Nat := []
  completions : List Completion := []
  /-- The cc from which the writer can take a completion (R405). -/
  writerAt : Nat := 0
  /-- The bytes that the latest host or peer read returned; none for a Completer Abort (R394). -/
  lastRead : Option (List Byte) := none
  msi : List Msi := []
  errlog : List LogRec := []
  tports : Tab Tport := []
  /-- MV0 to MV15, unlisted 0 (R415). -/
  mv : Tab (BitVec 256) := []
  /-- The RISC-V cores of the complex (R409). -/
  cores : Tab Hart := []
  /-- Mailboxes between the Ridge cores: key 8 × from + to (R409). -/
  mailboxes : Tab (List (BitVec 512)) := []
  /-- Corrected errors of each unit in the current window (R428), and the window. -/
  errors : List (FaultUnit × Nat) := []
  errWindow : Nat := 0
  /-- Lasting faults that wait for the rebuild (R431). -/
  rebuildUnits : List FaultUnit := []
  /-- Jobs to roll back, by ASID, and the cause: 19 for an uncorrectable error, 0 for a rebuild (R435). -/
  rebuildJobs : List (Nat × Nat) := []
  images : Tab Image := []
  /-- Quote reports sent to Traverse peers (R418). -/
  peerQuotes : List (Nat × List Byte) := []
  /-- Free device frames of each domain are taken upward from this offset; frames given back, base and size. -/
  nextFrame : Tab Nat := []
  /-- The offset that firmware has chosen for the next episode window (R376). -/
  windowAt : Option Nat := none
  /-- Where the next corrected error lies (R428). -/
  errPa : Nat := 0
  /-- Pages that the memory manager has copied to host memory (R342). -/
  pagesOut : Nat := 0
  freeFrames : List (Nat × Nat) := []
  /-- The image slot each context's next checkpoint is written to. -/
  ckptSlot : Tab Nat := []
  /-- cc since the last clock step for coolant (R414). -/
  coolAge : Nat := 0
  deriving DecidableEq, Repr

/-! ## The module -/

/-- Where an error arises in the module's memories (R321): an uncorrectable one in a byte at its place, in a byte of a domain's own L2
copy of a line, in a register of a group's lane, in a word of an accumulator tile or in an operand slot; a parity error in a
sector of L1, by the key of its way; or an uncorrectable one in the directory entry of a line. -/
inductive ErrAt where
  | byte (pa : Nat)
  | copy (dom line k : Nat)
  | reg (g r lane : Nat)
  | acc (core tile row word : Nat)
  | operand (core slot : Nat)
  | parity (core key sector : Nat)
  | entry (line : Nat)
  deriving DecidableEq, Repr

/-- What acts next: the model's own plan of agents and inputs. -/
inductive Act where
  /-- The control stream of a group issues. -/
  | ctl (g : Nat)
  /-- The lane stream of a group issues one instruction. -/
  | lane (g : Nat)
  /-- A chain executes its entry. -/
  | chain (c : Nat)
  /-- The next plain access of a stream of a group will be performed later than it issues, and one that was left for later is
  performed (R282). -/
  | late (g : Nat)
  | perform (g k : Nat)
  /-- The next data entry of a chain will move its bytes one by one, and the one at a place among those left moves (R292). -/
  | apart (c : Nat)
  | move (c k : Nat)
  /-- An event of the opcode table. -/
  | ev (i : Instr)
  /-- n cc pass. -/
  | tick (n : Nat)
  /-- A Corrie hart, or a Ridge core, runs its next instruction or takes an interrupt (R373, R409). -/
  | hart (h : Nat)
  /-- The next store of a hart to a window will be performed later than it executes, and one that was left for later is performed
  (R296). -/
  | hartLate (h : Nat)
  | hartStore (h k : Nat)
  | ridgeCore (k : Nat)
  /-- The mailbox arbiter of a domain performs the request that comes first (R384). -/
  | arbiter (d : Nat)
  /-- A Ridge core sends to, or takes from, the mailbox of a pair (R409). -/
  | ridgeSend (src dst : Nat) (m : BitVec 512)
  | ridgeTake (src dst : Nat)
  /-- An agent outside the module stores bytes into host or peer memory, at its system address (R397). -/
  | outside (pa : Nat) (bytes : List Byte)
  /-- A result whose residue does not agree on its replay (R429). -/
  | residue (u : FaultUnit)
  /-- An error arises, which its consumer or a scrub will find (R321). -/
  | softError (e : ErrAt)
  /-- A wrong-path fetch of a core after an LBRA (R343). -/
  | wrongPath (core asid : Nat) (va : W64)
  /-- A context switch takes a context off the module, or back (R277). -/
  | contextSwitch (asid : Nat) (out : Bool)
  /-- Core 1 takes the next command of a function's admin queue (R410). -/
  | adminTake (fn : Nat)
  /-- The host reads a BAR 0 register, or masks a vector in BAR 4 (R395, R408). -/
  | bar0Read (fn off : Nat)
  | vectorMask (fn v : Nat)
  /-- A Traverse peer reads device DRAM (R420). -/
  | peerRead (peer addr n : Nat)
  /-- A link comes up. -/
  | linkUp (fn : Nat)
  /-- The target of an 8 KiB page of system addresses begins or ceases to answer with an error status (R398). -/
  | targetError (page : Nat) (on : Bool)
  /-- The host writes, or reads, a doubleword of the MSI-X table or the pending-bit array in BAR 4 (R393). -/
  | bar4Write (fn off : Nat) (v : W32)
  | bar4Read (fn off : Nat)
  /-- A start goes as far as the stage-1 loader, or the firmware, that runs (R395, R413). -/
  | bootStage (selfTest : BitVec 4) (img : BootImage) (firmware : Bool)
  /-- Power in W, and inlet and outlet temperature in 1/16 °C (R395). -/
  | telemetry (power inlet outlet : Nat)
  /-- Firmware's choice of the offset in its domain at which the next episode window begins (R376). -/
  | windowAt (off : Nat)
  /-- Where the next corrected error lies, for the record of a lasting fault (R412, R428). -/
  | errorAt (pa : Nat)
  deriving DecidableEq, Repr

/-- The agent that the step has chosen. -/
structure Cur where
  g : Nat := 0
  split : Nat := 0
  chain : Nat := 0
  deriving DecidableEq, Repr

/-- The module. -/
structure State where
  /-- The agents and inputs that act next, in order; when it is empty the built-in schedule acts. -/
  agenda : List Act := []
  cur : Cur := {}
  /-- Fresh free values are numbered from here (the model's own). -/
  free : Nat := 0
  /-- cc at 1.3 GHz since the start of the module. -/
  now : Nat := 0
  round : W32 := 0#32
  /-- Crest-domain cycles since the last round advance, and the heartbeat in progress (R439). -/
  sinceRound : Nat := 0
  heartbeat : Option Nat := none
  /-- Grid granted the program channel, its arrivals (R205). -/
  wbarGrid : Option Nat := none
  wbarArrived : List Nat := []
  mem : Memory := []
  /-- Physical addresses whose byte has an uncorrectable error (R321). -/
  bad : List Nat := []
  /-- Reservations of harts and Ridge cores that no store has ended since (R296): the core, the address and the bytes. -/
  resv : List (Nat × Nat × Nat) := []
  ctxs : Tab Context := []
  grids : Tab Grid := []
  gangs : Tab Gang := []
  blocks : Tab Block := []
  groups : Tab Group := []
  chains : Tab Chain := []
  /-- Operations counted by each group's engine counters, in issue order: key is the group (R239). -/
  cntOps : Tab (List CntOp) := []
  colls : List Collective := []
  cores : Tab Core := []
  doms : Tab Domain := []
  /-- L2 TLB by quad (R331). -/
  quadTlb : Tab (List TlbEntry) := []
  shadow : Tab Shadow := []
  harts : Tab Hart := []
  ridge : Ridge := {}
  topo : Topology := {}
  nextSeq : Nat := 1
  nextId : Nat := 1
  /-- Source of recency stamps of the L2, directory and TLB (the model's own). -/
  use : Nat := 0
  /-- Host queue served last (R350). -/
  lastQueue : Nat := 256
  /-- The cc of the latest placement (R356). -/
  placedAt : Option Nat := none
  /-- Words on which the master distributor holds a monitor for a dependence (R351), by the candidate's place in the ring; those of
  the pool are 256 + priority. -/
  depMon : Tab Nat := []
  deriving DecidableEq, Repr

/-- Why a step can stop. Nothing of this machine stops: every trap of the spec is taken, and an agent that is not there
does nothing. So no fault has a name, and no step can end in one. -/
inductive Fault where
  deriving DecidableEq, Repr

/-- Why a step can be refused. -/
inductive Refusal where
  /-- Raised by the arm of an instruction that has no meaning yet, by its mnemonic. Safe. -/
  | notModelled (mnemonic : String)
  deriving DecidableEq, Repr

/-- The module at the start of its boot (R10, R413): nothing is kept from before. -/
def State.reset : State := {}

end Sys2Proof.Machine
end

