-- ==== Sys2Proof/Machine/Tab.lean ====
section
/-!
DEFINITION. Reading and writing sparse tables and memories, and small list and number helpers that
the other files share.
-/

namespace Sys2Proof.Machine

/-- The entry of a key. -/
def Tab.get? {α : Type} : Tab α → Nat → Option α
  | [], _ => none
  | (j, x) :: t, k => if k = j then some x else Tab.get? t k

/-- The entry of a key, or a default. -/
def Tab.getD {α : Type} (t : Tab α) (k : Nat) (d : α) : α :=
  match t.get? k with
  | some x => x
  | none => d

/-- The table with the entry of a key written. -/
def Tab.set {α : Type} : Tab α → Nat → α → Tab α
  | [], k, x => [(k, x)]
  | (j, y) :: t, k, x => if k < j then (k, x) :: (j, y) :: t else if k = j then (k, x) :: t else (j, y) :: Tab.set t k x

/-- The table without a key. -/
def Tab.erase {α : Type} : Tab α → Nat → Tab α
  | [], _ => []
  | (j, y) :: t, k => if k = j then Tab.erase t k else (j, y) :: Tab.erase t k

/-- Writing an entry of a table whose unlisted keys hold `d`: the default is not listed. -/
def Tab.put {α : Type} [DecidableEq α] (t : Tab α) (k : Nat) (x d : α) : Tab α :=
  if x = d then t.erase k else t.set k x

/-- Changing an entry, absent entries being `d`. -/
def Tab.upd {α : Type} (t : Tab α) (k : Nat) (d : α) (f : α → α) : Tab α := t.set k (f (t.getD k d))

/-- Changing every entry. -/
def Tab.mapVal {α β : Type} (t : Tab α) (f : Nat → α → β) : Tab β := t.map fun c => (c.1, f c.1 c.2)

/-- The entries of another table written over a table's. -/
def Tab.merge {α : Type} (t u : Tab α) : Tab α := u.foldl (fun (t : Tab α) (x : Nat × α) => t.set x.1 x.2) t

/-- The keys. -/
def Tab.keys {α : Type} (t : Tab α) : List Nat := t.map (·.1)

/-- The entries whose key and value pass a test. -/
def Tab.keep {α : Type} (t : Tab α) (f : Nat → α → Bool) : Tab α := t.filter fun c => f c.1 c.2

/-- The byte at an address; an unlisted byte is 0 (assumption 3). -/
def Memory.byte (m : Memory) (a : Nat) : Byte := Tab.getD (α := Byte) m a 0#8

/-- The memory with one byte written. -/
def Memory.setByte (m : Memory) (a : Nat) (b : Byte) : Memory := Tab.put (α := Byte) m a b 0#8

/-- n bytes at an address as a little-endian number (00_scope.md R12). -/
def Memory.read (m : Memory) (a : Nat) : Nat → Nat
  | 0 => 0
  | n + 1 => (m.byte a).toNat + 256 * Memory.read m (a + 1) n

/-- n bytes of a number written at an address, little-endian. -/
def Memory.write (m : Memory) (a : Nat) : Nat → Nat → Memory
  | 0, _ => m
  | n + 1, v => Memory.write (m.setByte a (BitVec.ofNat 8 v)) (a + 1) n (v / 256)

/-- n bytes at an address. -/
def Memory.bytes (m : Memory) (a : Nat) : Nat → List Byte
  | 0 => []
  | n + 1 => m.byte a :: Memory.bytes m (a + 1) n

/-- Bytes written at an address. -/
def Memory.setBytes (m : Memory) (a : Nat) : List Byte → Memory
  | [] => m
  | b :: t => Memory.setBytes (m.setByte a b) (a + 1) t

/-- The number of a list of bytes, little-endian. -/
def natOfBytes : List Byte → Nat
  | [] => 0
  | b :: t => b.toNat + 256 * natOfBytes t

/-- n bytes of a number, little-endian. -/
def bytesOfNat : Nat → Nat → List Byte
  | 0, _ => []
  | n + 1, v => BitVec.ofNat 8 v :: bytesOfNat n (v / 256)

/-- Bits hi down to lo of a number. -/
def bitsOf (x hi lo : Nat) : Nat := x / 2 ^ lo % 2 ^ (hi + 1 - lo)

/-- One bit of a number. -/
def bitOf (x k : Nat) : Bool := x / 2 ^ k % 2 == 1

/-- The signed value of the low n bits of a number. -/
def signedOf (n x : Nat) : Int :=
  let y := x % 2 ^ n
  if y < 2 ^ (n - 1) then (y : Int) else (y : Int) - (2 : Int) ^ n

/-- The residue of an integer modulo 2^n. -/
def wrapTo (n : Nat) (x : Int) : Nat := (x % (2 : Int) ^ n).toNat

/-- A number rounded up to a multiple. -/
def roundUp (x m : Nat) : Nat := (x + m - 1) / m * m

/-- The least element by a measure, the earliest of equals. -/
def minBy {α : Type} (f : α → Nat) : List α → Option α
  | [] => none
  | x :: t =>
    match minBy f t with
    | none => some x
    | some y => if f y < f x then some y else some x

/-- Inserting an element before the greater ones of a list. -/
def insertBy {α : Type} (f : α → Nat) (x : α) : List α → List α
  | [] => [x]
  | y :: t => if f x ≤ f y then x :: y :: t else y :: insertBy f x t
/-- A list in rising order of a measure. -/
def sortBy {α : Type} (f : α → Nat) : List α → List α
  | [] => []
  | x :: t => insertBy f x (sortBy f t)

/-- The first n numbers from a start. -/
def fromTo (a n : Nat) : List Nat := (List.range n).map (a + ·)

/-- The numbers of the lanes. -/
def lanes : List Nat := List.range 32

/-- The lanes of a mask, ascending. -/
def maskLanes (m : W32) : List Nat := lanes.filter fun l => m.getLsbD l

/-- The mask of a list of lanes. -/
def laneMask (l : List Nat) : W32 := l.foldl (fun m k => m ||| (1#32 <<< k)) 0#32

/-- The lowest lane of a mask. -/
def lowLane (m : W32) : Option Nat := lanes.find? fun l => m.getLsbD l

/-- Appending n copies of an action. -/
def iterN {α : Type} (f : α → α) : Nat → α → α
  | 0, x => x
  | n + 1, x => iterN f n (f x)

/-- A running fold that carries a state over a list. -/
def foldState {σ α : Type} (f : σ → α → σ) : List α → σ → σ
  | [], s => s
  | x :: t, s => foldState f t (f s x)

end Sys2Proof.Machine
end

