-- ==== Sys2Proof/Machine/Access.lean ====
section
/-!
DEFINITION. The accessors of the state: every record through its number, the registers of a group,
the group that the step has chosen, and the numbering of cores, quads, domains and sites.
-/

namespace Sys2Proof.Machine

/-! ## Causes (11_system_and_traps.md R261) -/

def cIllegalInstr : Nat := 1
def cIllegalLength : Nat := 2
def cIllegalOperand : Nat := 3
def cIllegalFormat : Nat := 4
def cUninitReg : Nat := 5
def cPageFault : Nat := 6
def cFirstTouch : Nat := 7
def cRegenWait : Nat := 8
def cPermFault : Nat := 9
def cAddrFault : Nat := 10
def cAlign : Nat := 11
def cBarrierOverrun : Nat := 12
def cBarrierTimeout : Nat := 13
def cBarrierUninit : Nat := 14
def cSlotExhausted : Nat := 15
def cAlgTable : Nat := 16
def cEngineFault : Nat := 17
def cFpTrap : Nat := 18
def cUncorrectable : Nat := 19
def cNonpreempt : Nat := 20
def cMbxFault : Nat := 21
def cDebugBreak : Nat := 22
def cDebugWatch : Nat := 23
def cSoftTrap : Nat := 24

/-! ## Records by number -/

/-- A group; an unknown number reads as a group that is not live. -/
def State.grp (s : State) (g : Nat) : Group := s.groups.getD g {}
/-- Writing a group. -/
def State.setGrp (s : State) (g : Nat) (x : Group) : State := { s with groups := s.groups.set g x }
/-- Changing a group. -/
def State.updGrp (s : State) (g : Nat) (f : Group → Group) : State := s.setGrp g (f (s.grp g))
/-- The group that the step has chosen. -/
def State.cg (s : State) : Group := s.grp s.cur.g
/-- Writing the chosen group. -/
def State.setCg (s : State) (x : Group) : State := s.setGrp s.cur.g x
/-- Changing the chosen group. -/
def State.updCg (s : State) (f : Group → Group) : State := s.setCg (f s.cg)
/-- A core site. -/
def State.core (s : State) (c : Nat) : Core := s.cores.getD c {}
/-- Changing a core. -/
def State.updCore (s : State) (c : Nat) (f : Core → Core) : State := { s with cores := s.cores.set c (f (s.core c)) }
/-- A domain. -/
def State.dom (s : State) (d : Nat) : Domain := s.doms.getD d {}
/-- Changing a domain. -/
def State.updDom (s : State) (d : Nat) (f : Domain → Domain) : State := { s with doms := s.doms.set d (f (s.dom d)) }
/-- A context. -/
def State.ctx (s : State) (a : Nat) : Context := s.ctxs.getD a {}
/-- Changing a context. -/
def State.updCtx (s : State) (a : Nat) (f : Context → Context) : State := { s with ctxs := s.ctxs.set a (f (s.ctx a)) }
/-- A grid. -/
def State.gridOf (s : State) (n : Nat) : Grid := s.grids.getD n {}
/-- Changing a grid. -/
def State.updGrid (s : State) (n : Nat) (f : Grid → Grid) : State := { s with grids := s.grids.set n (f (s.gridOf n)) }
/-- A block. -/
def State.blk (s : State) (b : Nat) : Block := s.blocks.getD b {}
/-- Changing a block. -/
def State.updBlk (s : State) (b : Nat) (f : Block → Block) : State := { s with blocks := s.blocks.set b (f (s.blk b)) }
/-- A Corrie hart. -/
def State.hart (s : State) (h : Nat) : Hart := s.harts.getD h {}
/-- Changing a hart. -/
def State.updHart (s : State) (h : Nat) (f : Hart → Hart) : State := { s with harts := s.harts.set h (f (s.hart h)) }
/-- Changing the Ridge complex. -/
def State.updRidge (s : State) (f : Ridge → Ridge) : State := { s with ridge := f s.ridge }
/-- Changing a chain that exists. -/
def State.updChain (s : State) (c : Nat) (f : Chain → Chain) : State :=
  match s.chains.get? c with
  | some x => { s with chains := s.chains.set c (f x) }
  | none => s

/-- The ASID of a group's context. -/
def State.asidOf (s : State) (g : Nat) : Nat := (s.gridOf (s.grp g).grid).asid
/-- The ASID of the chosen group. -/
def State.casid (s : State) : Nat := s.asidOf s.cur.g
/-- The context of the chosen group. -/
def State.cctx (s : State) : Context := s.ctx s.casid
/-- The block of the chosen group. -/
def State.cblk (s : State) : Block := s.blk s.cg.block

/-- A fresh free value, and the state that has used it. -/
def State.fresh (s : State) : Nat × State := (Config.fresh s.free, { s with free := s.free + 1 })
/-- A fresh record number. -/
def State.newId (s : State) : Nat × State := (s.nextId, { s with nextId := s.nextId + 1 })

/-! ## Places (R3, R373) -/

/-- The domain of a core. -/
def coreDom (c : Nat) : Nat := c / 112
/-- The site of a core in its domain. -/
def coreSite (c : Nat) : Nat := c % 112
/-- The quad of a core, 28 × domain + quad. -/
def coreQuad (c : Nat) : Nat := c / 4
/-- The column of a core in its quad. -/
def coreCol (c : Nat) : Nat := c % 4
/-- The core of a column of a quad. -/
def quadCore (q col : Nat) : Nat := 4 * q + col
/-- The domain of a quad, and of a Corrie hart. -/
def quadDom (q : Nat) : Nat := q / 28
/-- Hops between two domains (R358). -/
def hops (d e : Nat) : Nat :=
  let diff (a b : Nat) : Nat := if a < b then b - a else a - b
  diff (d / 8) (e / 8) + diff (d % 8) (e % 8)

/-- State of a site (R424): 0 absent or retired, 1 compute, 2 memory-only. -/
def State.siteState (s : State) (c : Nat) : Nat := s.topo.sites.getD c 1
/-- Sound strands of a site. -/
def State.strandsOf (s : State) (c : Nat) : BitVec 16 := s.topo.strands.getD c 0xFFFF#16
/-- The column of a site is present (R424, R436). -/
def State.columnPresent (s : State) (c : Nat) : Bool := s.siteState c != 0
/-- A Corrie core is present. -/
def State.corriePresent (s : State) (h : Nat) : Bool := !s.topo.corrieOff.contains h

/-- The stamp of a domain (R440): the round and the saturating local cycles. -/
def State.stamp (s : State) (d : Nat) : W64 :=
  s.round ++ BitVec.ofNat 32 (min ((s.dom d).stamp16 / 16) (2 ^ 32 - 1))

/-- The cycle counter of a domain's cores, which counts at the domain's clock (R24, R371). -/
def Domain.cycles (m : Domain) : Nat := m.cyc16 / 16
/-- The cycles of the domain's clock that n cc at 1.3 GHz hold (R371). -/
def Domain.passed (m : Domain) (n : Nat) : Nat := (m.cyc16 + n * (16 - m.clock)) / 16 - m.cycles
/-- The cycle counter of a core. -/
def State.cyclesOf (s : State) (core : Nat) : Nat := (s.dom (coreDom core)).cycles

/-- The context, its generation and placement epoch and the core in one value, which is not 0. -/
def State.handleKey (s : State) (asid core : Nat) : W64 :=
  BitVec.ofNat 64 (2 ^ 63 + (s.ctx asid).epoch % 2 ^ 30 * 2 ^ 33 + asid % 2 ^ 16 * 2 ^ 17 + (s.ctx asid).gen % 16 * 2 ^ 13 + core % 2 ^ 13)
/-- The handle of a core in a context (R116, R426): nonzero, and another for every other core, context and epoch. -/
def State.handle (s : State) (asid core : Nat) : W64 := Config.handlePerm.f (s.handleKey asid core)

/-! ## Registers of a group -/

/-- `V[r][lane]`: an unlisted register holds the marker of R22. -/
def Group.rv (g : Group) (r lane : Nat) : W32 := g.v.getD (32 * r + lane) (0x7FB00000#32 ||| BitVec.ofNat 32 r)
/-- Writing `V[r][lane]`. -/
def Group.setv (g : Group) (r lane : Nat) (x : W32) : Group :=
  { g with v := g.v.put (32 * r + lane) x (0x7FB00000#32 ||| BitVec.ofNat 32 r), badV := g.badV.filter (· ≠ 32 * r + lane) }
/-- `V64[r][lane]`, the low word in `vr` (R43). -/
def Group.rv64 (g : Group) (r lane : Nat) : W64 := g.rv (r + 1) lane ++ g.rv r lane
/-- Writing `V64[r][lane]`. -/
def Group.setv64 (g : Group) (r lane : Nat) (x : W64) : Group :=
  (g.setv r lane (x.extractLsb' 0 32)).setv (r + 1) lane (x.extractLsb' 32 32)
/-- A predicate as a lane mask; p0 always reads 1 (R23). -/
def Group.pmask (g : Group) (n : Nat) : W32 := if n = 0 then 0xFFFFFFFF#32 else g.p.getD n 0#32
/-- `P[n][lane]`. -/
def Group.rp (g : Group) (n lane : Nat) : Bool := (g.pmask n).getLsbD lane
/-- Writing a predicate in the lanes of a mask; a write to p0 is discarded (R23). -/
def Group.setp (g : Group) (n : Nat) (m val : W32) : Group :=
  if n = 0 then g else { g with p := g.p.put n ((g.pmask n &&& ~~~ m) ||| (val &&& m)) 0#32 }
/-- `S[n]`. -/
def Group.rs (g : Group) (n : Nat) : W64 := g.s.getD n 0#64
/-- Writing `S[n]`. -/
def Group.sets (g : Group) (n : Nat) (x : W64) : Group := { g with s := g.s.put n x 0#64 }
/-- A translation register; at launch it is 0 (R27). -/
def Group.rxb (g : Group) (n : Nat) : XbReg := g.xb.getD n {}
/-- Writing a translation register. -/
def Group.setxb (g : Group) (n : Nat) (x : XbReg) : Group := { g with xb := g.xb.put n x {} }
/-- A max-magnitude register. -/
def Group.rmag (g : Group) (n : Nat) : W32 := g.mag.getD n 0#32
/-- Writing a max-magnitude register. -/
def Group.setmag (g : Group) (n : Nat) (x : W32) : Group := { g with mag := g.mag.put n x 0#32 }
/-- The count of a scoreboard slot; slot 0 is none (R31). -/
def Group.rsb (g : Group) (n : Nat) : Nat := g.sb.getD n 0
/-- Writing the count of a scoreboard slot. -/
def Group.setsb (g : Group) (n x : Nat) : Group := { g with sb := g.sb.put n x 0 }
/-- An engine counter by class number (R32). -/
def Group.rcnt (g : Group) (c : Nat) : Nat := g.cnt.getD c 0
/-- Writing an engine counter. -/
def Group.setcnt (g : Group) (c x : Nat) : Group := { g with cnt := g.cnt.put c x 0 }
/-- Lanes present and not exited (R18, R141). -/
def Group.livelanes (g : Group) : W32 := g.present &&& ~~~ g.gone
/-- Tile width (R43). -/
def Group.tileW (g : Group) : Nat := 2 ^ g.tile
/-- The lane stream is idle (R106): no entry runs, none waits, and no handler runs. -/
def Group.laneIdle (g : Group) : Bool := !g.laneBusy && g.laneq.isEmpty && !g.laneSup && g.lpend.isNone
/-- The number of an engine class. -/
def clsNum (c : EngClass) : Nat :=
  match c with
  | .copy => 0 | .gath => 1 | .alg => 2 | .coll => 3

/-- The split that the step has chosen. -/
def State.csplit (s : State) : Split :=
  match s.cg.splits.find? (·.id = s.cur.split) with
  | some x => x
  | none => {}
/-- Changing one split of a group. -/
def Group.updSplit (g : Group) (id : Nat) (f : Split → Split) : Group :=
  { g with splits := g.splits.map fun x => if x.id = id then f x else x }
/-- Setting the PC of the chosen split. -/
def State.setLanePc (s : State) (pc : W64) : State :=
  s.updCg fun g => g.updSplit s.cur.split fun x => { x with pc := pc }
/-- Setting the control PC. -/
def State.setPc (s : State) (pc : W64) : State := s.updCg fun g => { g with cpc := pc }
/-- A held access of the page whose regeneration failed (R340). -/
def regenFailed (r : Option Nat) (va : W64) : Bool := r == some (va.toNat / 2 ^ 13)

/-- The control stream of the group is in a region (R117); leaving it. -/
def Group.endRegion (g : Group) : Group := { g with region := false, regionCnt := 0 }

end Sys2Proof.Machine
end

