-- ==== Sys2Proof/Machine/Mem.lean ====
section
/-!
DEFINITION. The physical map, the L1 and L2 caches, the sparse directory and the accesses that
cores, engines, the sync engine, the walkers and the host make to them (13_memory_hierarchy.md
R299 to R317; 12_memory_model.md R283, R286; 08_atomics_and_synchronisation.md R190, R195). The bytes of hardware-coherent
lines, and of every line in its home domain, are kept in `State.mem`; the caches of other domains
hold bytes of their own only for software-coherent and core-private lines, and L1 copies hold the
bytes they were filled with.
-/

namespace Sys2Proof.Machine

/-! ## The physical map (R299, R397) -/

/-- What a physical address names. -/
inductive Place where
  | dram (dom off : Nat)
  | scratch (core off : Nat)
  | regs (core off : Nat)
  | accs (core off : Nat)
  | control (core off : Nat)
  | host (link addr : Nat)
  | peer (id addr : Nat)
  | none
  deriving DecidableEq, Repr

/-- Populated DRAM of a domain: 48 GiB. -/
def dramSize : Nat := 48 * 2 ^ 30

/-- Decoding a physical address (R299, R302, R397). The windows of an absent site, and the register
store and accumulator windows of a memory-only node, are not there (R436). -/
def State.place (s : State) (pa : Nat) : Place :=
  if pa < 2 ^ 42 then
    if pa % 2 ^ 36 < dramSize then .dram (pa / 2 ^ 36) (pa % 2 ^ 36) else .none
  else if pa < 2 ^ 47 then .none
  else if pa < 2 ^ 48 then
    let core := 112 * bitsOf pa 46 41 + bitsOf pa 40 34
    let off := pa % 2 ^ 32
    if bitsOf pa 40 34 ≥ 112 || s.siteState core == 0 then .none
    else match bitsOf pa 33 32 with
      | 1 => if off < 2 ^ 23 then .scratch core off else .none
      | 0 => if s.siteState core == 1 && off < 512 * 12288 then .regs core off else .none
      | 2 => if s.siteState core == 1 && off < 0x80100 then .accs core off else .none
      | _ => if off < 2 ^ 16 then .control core off else .none
  else if pa < 2 ^ 56 then
    let sel := pa / 2 ^ 48
    let a := pa % 2 ^ 48
    if 1 ≤ sel && sel ≤ 8 then .host (sel - 1) a
    else if 0x40 ≤ sel && sel ≤ 0xBF then (if a < 2 ^ 42 then .peer (sel - 0x40) a else .none)
    else .none
  else .none

/-- A user access reaches only DRAM, scratchpad windows and system addresses (R299, R300). -/
def State.userPlace (s : State) (pa : Nat) : Bool :=
  match s.place pa with
  | .dram _ _ | .scratch _ _ | .host _ _ | .peer _ _ => true
  | _ => false
/-- Every byte of an access is such a place: no range of one page meets two of them with a gap between. -/
def State.userRange (s : State) (pa n : Nat) : Bool := s.userPlace pa && s.userPlace (pa + (n - 1))
/-- A frame in a window that only firmware, the swap path and space 11 reach: every access through a leaf that names it
traps (R300). -/
def closedFrame (frame : Nat) : Bool := 2 ^ 47 ≤ frame && frame < 2 ^ 48 && bitsOf frame 33 32 != 1

/-- The physical address of a byte of a core's window: 0 registers, 1 scratchpad, 2 accumulators (R299). -/
def windowPa (core t off : Nat) : Nat := 2 ^ 47 + coreDom core * 2 ^ 41 + coreSite core * 2 ^ 34 + t * 2 ^ 32 + off
/-- The physical address of a group's register in a lane (R301). -/
def Group.regPa (g : Group) (r lane : Nat) : Nat := windowPa g.core 0 (12288 * g.chunkNos.getD (r / 96) 0 + 128 * (r % 96) + 4 * lane)
/-- The physical address of a byte of a scratchpad column. -/
def scratchPa (core off : Nat) : Nat :=
  2 ^ 47 + coreDom core * 2 ^ 41 + coreSite core * 2 ^ 34 + 2 ^ 32 + off

/-- The home domain of a DRAM address. -/
def homeOf (pa : Nat) : Nat := pa / 2 ^ 36

/-- The L2 slice of an address before remapping (R308). -/
def sliceOf (pa : Nat) : Nat := bitsOf pa 13 7 ^^^ bitsOf pa 20 14 ^^^ bitsOf pa 27 21 ^^^ bitsOf pa 34 28
/-- The slice that serves it (R322). -/
def State.slice (s : State) (d pa : Nat) : Nat :=
  let k := sliceOf pa
  match s.topo.sliceMap.find? (·.1 = 128 * d + k) with
  | some x => x.2
  | none => k
/-- The DRAM channel of an address (R315), remapped (R322). -/
def State.channel (s : State) (pa : Nat) : Nat :=
  let k := bitsOf pa 12 8 ^^^ bitsOf pa 17 13 ^^^ bitsOf pa 22 18
  match s.topo.chanMap.find? (·.1 = 32 * homeOf pa + k) with
  | some x => x.2
  | none => k

/-! ## Writing memory, and the monitors (R195) -/

/-- Memory without a range. -/
def Memory.clear (m : Memory) (a n : Nat) : Memory := m.filter fun (c : Host.Cell) => c.1 < a || a + n ≤ c.1
/-- The listed bytes of a range, from 0. -/
def Memory.slice (m : Memory) (a n : Nat) : Memory :=
  (m.filter fun (c : Host.Cell) => a ≤ c.1 && c.1 < a + n).map fun (c : Host.Cell) => (c.1 - a, c.2)

/-- The condition of R72. -/
def condHolds (c : Cond) (a b : W64) : Bool :=
  match c with
  | .eq => a == b
  | .ne => a != b
  | .lt => a.slt b
  | .ge => !a.slt b
  | .ltu => a.ult b
  | .geu => !a.ult b

/-- Two byte ranges overlap. -/
def overlap (a n b m : Nat) : Bool := a < b + m && b < a + n

/-- An armed monitor of a group re-evaluates after a write to its word (R195); where the word has an uncorrectable error, its group
consumes it (R11). -/
def Group.notify (m : Memory) (bad : List Nat) (pa n : Nat) (g : Group) : Group :=
  match g.wait with
  | some w =>
    if w.kind == .waitcmp && w.armed && overlap pa n w.pa 8 && bad.any (fun a => w.pa ≤ a && a < w.pa + 8)
    then { g with wait := some { w with recheck := true, reread := 256 } }
    else if w.kind == .waitcmp && w.armed && overlap pa n w.pa 8 &&
        condHolds w.cond (BitVec.ofNat 64 (m.read w.pa 8)) w.val
    then { g with wait := some { w with woken := true } } else g
  | none => g

/-- Writing n bytes at their place of serialisation: the bytes lose any uncorrectable error, reservations on them end, and the
monitors on them re-evaluate. -/
def State.poke (s : State) (pa n v : Nat) : State :=
  let m := s.mem.write pa n v
  let bad := s.bad.filter fun a => a < pa || pa + n ≤ a
  { s with mem := m, bad := bad, resv := s.resv.filter (fun r => !overlap pa n r.2.1 r.2.2),
           groups := s.groups.mapVal fun _ g => g.notify m bad pa n }
/-- Writing several bytes at once, which the monitors see together. -/
def State.pokeBytes (s : State) (l : List (Nat × Byte)) : State :=
  let m := l.foldl (fun (m : Memory) c => m.setByte c.1 c.2) s.mem
  let bad := s.bad.filter fun a => !l.any fun c => c.1 == a
  { s with mem := m, bad := bad,
           resv := s.resv.filter (fun r => !l.any fun c => overlap c.1 1 r.2.1 r.2.2),
           groups := s.groups.mapVal fun _ g => l.foldl (fun g c => g.notify m bad c.1 1) g }
/-- Reading n bytes at their place of serialisation. -/
def State.peek (s : State) (pa n : Nat) : Nat := s.mem.read pa n
/-- A byte of the range has an uncorrectable error (R321). -/
def State.badIn (s : State) (pa n : Nat) : Bool := s.bad.any fun a => pa ≤ a && a < pa + n

/-! ## System addresses (R398, R420) -/

/-- The link or some port to the peer of a system address is up; other places are always reached. -/
def State.sysUp (s : State) (pa : Nat) : Bool :=
  match s.place pa with
  | .host l _ => s.ridge.linksUp.getLsbD l && !s.ridge.errPages.contains (pa / 2 ^ 13)
  | .peer id _ => (s.ridge.tports.any fun p => p.2.up && p.2.peer == id) && !s.ridge.errPages.contains (pa / 2 ^ 13)
  | _ => true
/-- An error-log record (R412): the newest 256 are kept. -/
def State.logErr (s : State) (r : LogRec) : State :=
  s.updRidge fun x => { x with errlog := (x.errlog ++ [r]).drop ((x.errlog.length + 1) - 256) }
/-- A write outside the caches: a posted write that fails is logged and dropped (R398, R420). -/
def State.pokeOut (s : State) (pa n v : Nat) : State :=
  if s.sysUp pa then s.poke pa n v else s.logErr { pa := pa, stamp := s.stamp 0 }

/-! ## Table entries (R323 to R327) -/

/-- Low bit of the page offset of a leaf at a level: 8 GiB, 8 MiB, 8 KiB (R323). -/
def pageBits (level : Nat) : Nat := 43 - 10 * level
/-- The table index of an address at a level. -/
def tableIndex (va : W64) (level : Nat) : Nat := bitsOf va.toNat (pageBits level + 9) (pageBits level)

/-- The fields of an entry word. -/
def pteP (e : Nat) : Bool := bitOf e 0
def pteL (e : Nat) : Bool := bitOf e 1
def pteKind (e : Nat) : Nat := bitsOf e 3 1
def pteQ (e : Nat) : Bool := bitOf e 4
def pteW (e : Nat) : Bool := bitOf e 5
def pteXC (e : Nat) : Bool := bitOf e 6
def pteXL (e : Nat) : Bool := bitOf e 7
def pteCoh (e : Nat) : Nat := bitsOf e 9 8
def pteA (e : Nat) : Bool := bitOf e 10
def pteD (e : Nat) : Bool := bitOf e 11
/-- The physical address of a pointer's table. -/
def pteTable (e : Nat) : Nat := bitsOf e 55 13 * 2 ^ 13
/-- The frame of a leaf; a core-private leaf names its owner in the high bits (R325). -/
def pteFrame (e : Nat) : Nat := if pteCoh e == 2 then bitsOf e 41 13 * 2 ^ 13 else bitsOf e 55 13 * 2 ^ 13
/-- The owner core of a core-private leaf. -/
def pteOwner (e : Nat) : Nat := 112 * bitsOf e 47 42 + bitsOf e 54 48
/-- A core may use a leaf: a core-private one is for its owner alone, and a SITE of 112 or more names no core (R299, R328). -/
def pteOwned (e core : Nat) : Bool := pteCoh e != 2 || (bitsOf e 54 48 < 112 && pteOwner e == core)

/-- A present leaf at a level is well made (R325, R327). -/
def leafOk (level e : Nat) : Bool :=
  pteP e && pteL e && 1 ≤ level && pteCoh e != 3 && pteFrame e % 2 ^ pageBits level == 0

/-! ## Errors that no access consumes (R321) -/

/-- Some leaf below a table maps a byte of a page. -/
def tableMaps (m : Memory) (page : Nat) : Nat → Nat → Nat → Bool
  | 0, _, _ => false
  | fuel + 1, level, table => (List.range 1024).any fun k =>
    let e := m.read (table + 8 * k) 8
    if !pteP e then false
    else if pteL e then leafOk level e && overlap page (2 ^ 13) (pteFrame e) (2 ^ pageBits level)
    else level < 3 && tableMaps m page fuel (level + 1) (pteTable e)
/-- A resident block's scratchpad shares hold a byte. -/
def State.inShare (s : State) (b : Block) (pa : Nat) : Bool :=
  match s.place pa with
  | .scratch c off => b.resident && b.quad == coreQuad c && b.sbase ≤ off && off < b.sbase + b.share
  | _ => false
/-- The contexts that have the page of a byte: theirs by a frame, a leaf of their tables or a block's share. -/
def State.mappers (s : State) (pa : Nat) : List Nat :=
  let page := pa / 2 ^ 13 * 2 ^ 13
  (s.ctxs.keep fun a c => c.live && (c.frames.any (fun f => overlap page (2 ^ 13) f.1 f.2) || tableMaps s.mem page 4 0 c.root ||
    s.blocks.any fun b => (s.gridOf b.2.grid).asid == a && s.inShare b.2 pa)).keys
/-- An uncorrectable error that no access consumes: every job that maps the page is handed to core 4 (R321). -/
def State.reportBad (s : State) (pa : Nat) : State :=
  (s.logErr { pa := pa, stamp := s.stamp s.ridge.crest }).updRidge fun r =>
    { r with rebuildJobs := r.rebuildJobs ++ (s.mappers pa).map fun a => (a, cUncorrectable) }
/-- As `reportBad`, for a byte, which stays bad. -/
def State.foundBad (s : State) (pa : Nat) : State := ({ s with bad := s.bad.filter (· != pa) ++ [pa] }).reportBad pa

/-! ## Tree pseudo-LRU (R306, R331) -/

/-- Writing one bit of a number. -/
def putBit (x k : Nat) (b : Bool) : Nat :=
  if bitOf x k == b then x else if b then x + 2 ^ k else x - 2 ^ k

/-- The node bits after an access to a way: every node on its path points to the other side. -/
def plruTouch (w : Nat) : Nat → Nat → Nat → Nat
  | 0, _, bits => bits
  | k + 1, leaf, bits => plruTouch w k (leaf / 2) (putBit bits (leaf / 2) (leaf % 2 == 0))

/-- The way the node bits lead to, entering a subtree only where it holds an allowed way. -/
def plruVictim (ways : Nat) (allowed : Nat → Bool) (bits : Nat) : Nat → Nat → Nat
  | 0, node => node
  | k + 1, node =>
    let d := if bitOf bits node then 1 else 0
    let child := 2 * node + d
    let span := 2 ^ k
    let first := child * span - ways
    if (List.range span).any (fun i => allowed (first + i)) then plruVictim ways allowed bits k child
    else plruVictim ways allowed bits k (2 * node + (1 - d))

/-! ## L1 (R306) -/

/-- The sectors that a range of bytes of one line touches. -/
def sectorMask (off n : Nat) : BitVec 4 :=
  (List.range 4).foldl (fun m k => if overlap off n (32 * k) 32 then m ||| (1#4 <<< k) else m) 0#4
/-- A mask of n bytes from an offset. -/
def byteMask (off n : Nat) : BitVec 128 := BitVec.ofNat 128 ((2 ^ n - 1) * 2 ^ off)
/-- n bytes of line data. -/
def Line.read (x : Line) (off n : Nat) : Nat := x.data.toNat / 2 ^ (8 * off) % 2 ^ (8 * n)
/-- Line data with n bytes written. -/
def Line.write (x : Line) (off n v : Nat) : Line :=
  let m := (2 ^ (8 * n) - 1) * 2 ^ (8 * off)
  { x with data := (x.data &&& ~~~ BitVec.ofNat 1024 m) ||| BitVec.ofNat 1024 (v % 2 ^ (8 * n) * 2 ^ (8 * off)),
           bad := x.bad &&& ~~~ byteMask off n }

/-- The bytes of a mask of sectors. -/
def sectorBytes (sec : BitVec 4) : BitVec 128 :=
  (List.range 4).foldl (fun m k => if sec.getLsbD k then m ||| byteMask (32 * k) 32 else m) 0#128
/-- A copy takes missing sectors from the home's bytes; its dirty bytes stay. -/
def Line.take (x : Line) (sec : BitVec 4) (data : BitVec 1024) (bad : BitVec 128 := 0#128) : Line :=
  let put (x : Line) (off n : Nat) : Line := x.write off n (({ line := x.line, data := data } : Line).read off n)
  let miss := sec &&& ~~~x.sectors
  let y := (List.range 4).foldl (fun y k =>
    if !miss.getLsbD k then y
    else if x.dirty &&& byteMask (32 * k) 32 == 0#128 then put y (32 * k) 32
    else (fromTo (32 * k) 32).foldl (fun y b => if x.dirty.getLsbD b then y else put y b 1) y) x
  { y with sectors := x.sectors ||| sec, bad := x.bad ||| (bad &&& sectorBytes miss &&& ~~~x.dirty) }
/-- The sectors of which some byte is dirty. -/
def Line.dirtySectors (x : Line) : BitVec 4 :=
  (List.range 4).foldl (fun m k => if x.dirty &&& byteMask (32 * k) 32 == 0#128 then m else m ||| (1#4 <<< k)) 0#4

/-- The way of a line in a core's L1. -/
def Core.l1Way (c : Core) (line : Nat) : Option Nat :=
  (List.range 8).find? fun w =>
    match c.l1.get? (8 * (line % 128) + w) with
    | some x => x.line = line
    | none => false
/-- The L1 copy of a line. -/
def Core.l1Line (c : Core) (line : Nat) : Option Line :=
  (c.l1Way line).bind fun w => c.l1.get? (8 * (line % 128) + w)
/-- Marking a way as most recently used. -/
def Core.l1Touch (c : Core) (set w : Nat) : Core :=
  { c with l1plru := c.l1plru.put set (plruTouch w 3 (8 + w) (c.l1plru.getD set 0)) 0 }
/-- Dropping the lines that pass a test. -/
def Core.l1Drop (c : Core) (f : Line → Bool) : Core := { c with l1 := c.l1.keep fun _ x => !f x }

/-- Filling sectors of a line: at the most-recently-used position, replacing as R306 gives. -/
def Core.l1Fill (c : Core) (line coh : Nat) (keep : Bool) (sec : BitVec 4) (data : BitVec 1024) : Core :=
  let set := line % 128
  match c.l1Way line with
  | some w =>
    let old := c.l1.getD (8 * set + w) { line := line }
    ({ c with l1 := c.l1.set (8 * set + w) { old.take sec data with keep := old.keep || keep } }).l1Touch set w
  | none =>
    let free := (List.range 8).find? fun w => (c.l1.get? (8 * set + w)).isNone
    let unmarked (w : Nat) : Bool := match c.l1.get? (8 * set + w) with
      | some x => !x.keep
      | none => true
    let among (w : Nat) : Bool := unmarked w || !(List.range 8).any unmarked
    let w := match free with
      | some w => w
      | none => plruVictim 8 among (c.l1plru.getD set 0) 3 1 - 8
    ({ c with l1 := c.l1.set (8 * set + w) { line := line, sectors := sec, data := data, coh := coh, keep := keep } }).l1Touch set w

/-- Marking a present line, which `.keep` does (R177). -/
def Core.l1Keep (c : Core) (line : Nat) : Core :=
  match c.l1Way line with
  | some w => { c with l1 := c.l1.upd (8 * (line % 128) + w) { line := line } fun x => { x with keep := true } }
  | none => c
/-- A store updates a present line and never allocates one. -/
def Core.l1Store (c : Core) (pa n v : Nat) : Core :=
  match c.l1Way (pa / 128) with
  | some w =>
    let k := 8 * (pa / 128 % 128) + w
    ({ c with l1 := c.l1.upd k { line := pa / 128 } fun x => x.write (pa % 128) n v }).l1Touch (pa / 128 % 128) w
  | none => c
/-- A sector with a parity error is dropped (R306); its next reader fetches it again. -/
def Core.l1DropSector (c : Core) (key sector : Nat) : Core :=
  match c.l1.get? key with
  | some x => { c with l1 := c.l1.set key { x with sectors := x.sectors &&& ~~~ (1#4 <<< sector) } }
  | none => c

/-- The home invalidates the L1 copies of every marked quad (R307). -/
def State.dropQuads (s : State) (d line : Nat) (quads : BitVec 28) : State :=
  { s with cores := s.cores.mapVal fun k c =>
      if coreDom k = d && quads.getLsbD (coreSite k / 4) then c.l1Drop (·.line = line) else c }

/-! ## L2 and the directory (R308 to R314) -/

/-- The key of a way of the L2 set of a line. -/
def State.l2Key (s : State) (d line w : Nat) : Nat :=
  (128 * s.slice d (128 * line) + bitsOf (128 * line) 20 14) * 16 + w
/-- The way of a line in a domain's L2. -/
def State.l2Way (s : State) (d line : Nat) : Option Nat :=
  (List.range 16).find? fun w =>
    match (s.dom d).l2.get? (s.l2Key d line w) with
    | some x => x.line = line
    | none => false
/-- The L2 copy of a line. -/
def State.l2Line (s : State) (d line : Nat) : Option Line :=
  (s.l2Way d line).bind fun w => (s.dom d).l2.get? (s.l2Key d line w)
/-- Writing an L2 line in its place. -/
def State.l2Set (s : State) (d line : Nat) (x : Line) : State :=
  match s.l2Way d line with
  | some w => s.updDom d fun m => { m with l2 := m.l2.set (s.l2Key d line w) x }
  | none => s
/-- Removing an L2 line. -/
def State.l2Remove (s : State) (d line : Nat) : State :=
  match s.l2Way d line with
  | some w => s.updDom d fun m => { m with l2 := m.l2.erase (s.l2Key d line w) }
  | none => s

/-- The bytes of a copy that go home: the dirty ones, or of a core-private line the dirty sectors whole (R309, R319). -/
def Line.homeward (x : Line) : BitVec 128 := if x.coh = 2 then sectorBytes x.dirtySectors else x.dirty
/-- Merging them at the home, byte by byte (R183). A byte with an uncorrectable error has no consumer here: its error goes
with it, and is reported (R321). -/
def State.writeBack (s : State) (x : Line) : State :=
  foldState (fun s k =>
    if !x.homeward.getLsbD k then s
    else if x.bad.getLsbD k then s.foundBad (128 * x.line + k)
    else s.poke (128 * x.line + k) 1 (x.read k 1)) (List.range 128) s

/-- The directory entry of a line at its home. -/
def State.dirEntry (s : State) (line : Nat) : Option DirEntry := (s.dom (homeOf (128 * line))).dir.get? line
/-- Writing a directory entry; state S with no sharer, and H with nothing to hold it, are written as
R312 gives. -/
def State.setDir (s : State) (line : Nat) (e : Option DirEntry) : State :=
  s.updDom (homeOf (128 * line)) fun m =>
    match e with
    | some x => { m with dir := m.dir.set line x }
    | none => { m with dir := m.dir.erase line }

/-- The home's own tracked L1 copies are invalidated and the vector cleared (R307). -/
def State.dropTracked (s : State) (line : Nat) : State :=
  let h := homeOf (128 * line)
  match s.l2Line h line with
  | some x => (s.l2Set h line { x with quads := 0#28 }).dropQuads h line x.quads
  | none => s

/-- Invalidating the L2 copies of a set of domains. -/
def State.dropCopies (s : State) (line : Nat) (doms : List Nat) : State := foldState (fun s d => s.l2Remove d line) doms s

/-- Directory entries that compete with a line: same home slice and directory set (R311). -/
def State.dirSet (s : State) (line : Nat) : List (Nat × DirEntry) :=
  let h := homeOf (128 * line)
  (s.dom h).dir.filter fun c =>
    s.slice h (128 * c.1) == s.slice h (128 * line) && bitsOf (128 * c.1) 23 15 == bitsOf (128 * line) 23 15

/-- A new entry in a full set evicts the least recently used entry that is not in state H (R314). -/
def State.dirRoom (s : State) (line : Nat) : State :=
  let set := s.dirSet line
  if (s.dirEntry line).isSome || set.length < 16 then s
  else match minBy (fun c => c.2.use) (set.filter fun c => c.2.st != .h) with
    | some (l, e) => (s.dropCopies l e.doms).setDir l none
    | none => s

/-- A domain without the line asks to read it (R312, row by row). The reader is not the home. -/
def State.dirRead (s0 : State) (line q : Nat) : State :=
  let s := { s0.dirRoom line with use := s0.use + 1 }
  let add (l : List Nat) : List Nat := if l.contains q then l else l ++ [q]
  match s.dirEntry line with
  | none => s.setDir line (some { st := .s, doms := [q], use := s.use })
  | some e =>
    match e.st with
    | .s => s.setDir line (some { e with doms := add e.doms, use := s.use })
    | .m => s.setDir line (some { e with st := .s, doms := add e.doms, use := s.use })
    | .h => s.setDir line (some { e with doms := add e.doms, use := s.use })

/-- A read by the home domain (R312). -/
def State.dirHomeRead (s : State) (line : Nat) : State :=
  match s.dirEntry line with
  | some e => if e.st == .m then s.setDir line (some { e with st := .s }) else s
  | none => s

/-- The line enters state H: a monitor is armed or the sync engine takes it (R312). -/
def State.dirHold (s0 : State) (line : Nat) (monitor : Bool) : State :=
  let s := { s0.dirRoom line with use := s0.use + 1 }
  let mark (e : DirEntry) : DirEntry :=
    if monitor then { e with mons := e.mons + 1, use := s.use } else { e with taken := true, use := s.use }
  match s.dirEntry line with
  | none => s.setDir line (some (mark { st := .h, doms := [] }))
  | some e =>
    match e.st with
    | .m => (s.dropCopies line e.doms).setDir line (some (mark { e with st := .h, doms := [] }))
    | _ => s.setDir line (some (mark { e with st := .h }))

/-- The last monitor is freed and the sync engine releases (R312). -/
def State.dirRelease (s : State) (line : Nat) (monitor : Bool) : State :=
  match s.dirEntry line with
  | none => s
  | some e =>
    if e.st != .h then s
    else
      let e := if monitor then { e with mons := e.mons - 1 } else { e with taken := false }
      if e.mons = 0 && !e.taken then s.setDir line (if e.doms.isEmpty then none else some { e with st := .s })
      else s.setDir line (some e)

/-- Ways of the directory set of a line in state H (R314). -/
def State.heldWays (s : State) (line : Nat) : Nat := ((s.dirSet line).filter fun c => c.2.st == .h).length
/-- The line is in state H at its home (R312). -/
def State.lineHeld (s : State) (line : Nat) : Bool :=
  match s.dirEntry line with
  | some e => e.st == .h
  | none => false
/-- The line can be held in H: it is, or fewer than eight ways of its set are (R314). -/
def State.mayHold (s : State) (line : Nat) : Bool := s.lineHeld line || s.heldWays line < 8

/-- Lines that the sync store of a domain holds: 4 MiB (R316). -/
def syncLines : Nat := 2 ^ 15
/-- The sync engine releases a line: it is at home, and H ends where no monitor remains (R312, R316). -/
def State.syncRelease (s : State) (line : Nat) : State :=
  (s.updDom (homeOf (128 * line)) fun m => { m with sync := m.sync.filter (· ≠ line) }).dirRelease line false
/-- The sync engine takes a line into its store, which releases its least recently used line where it is full (R316). -/
def State.syncTake (s : State) (line : Nat) : State :=
  let d := homeOf (128 * line)
  let s := s.dirHold line false
  let l := line :: (s.dom d).sync.filter (· ≠ line)
  foldState State.syncRelease (l.drop syncLines) (s.updDom d fun m => { m with sync := l.take syncLines })
/-- The sync engine performs a store to a line in state H (R312, R316). -/
def State.syncStore (s : State) (line : Nat) : State := if s.lineHeld line then s.syncTake line else s
/-- The sync engine takes a hardware-coherent line for an atomic: every copy goes, and the line stays in its store where its set may
hold it (R312, R314, R316). -/
def State.syncAtom (s : State) (line : Nat) : State :=
  let stays := s.mayHold line
  let s := (s.syncTake line).dropTracked line
  let s := match s.dirEntry line with
    | some e => (s.dropCopies line e.doms).setDir line (some { e with doms := [] })
    | none => s
  if stays then s else s.syncRelease line

/-- A write by a domain other than the home (R312): the domain holds the line in M afterwards, except
in state H, where the store is forwarded to the home's sync engine and every copy is invalidated. -/
def State.dirWrite (s0 : State) (line q : Nat) : State :=
  let s := ({ s0.dirRoom line with use := s0.use + 1 }).dropTracked line
  match s.dirEntry line with
  | none => s.setDir line (some { st := .m, doms := [q], use := s.use })
  | some e =>
    match e.st with
    | .h => ((s.dropCopies line e.doms).setDir line (some { e with doms := [], use := s.use })).syncTake line
    | _ => (s.dropCopies line (e.doms.filter (· ≠ q))).setDir line (some { e with st := .m, doms := [q], use := s.use })

/-- A write by the home domain (R312). -/
def State.dirHomeWrite (s : State) (line : Nat) : State :=
  let s := s.dropTracked line
  match s.dirEntry line with
  | none => s
  | some e =>
    let s := s.dropCopies line e.doms
    if e.st == .h then (s.setDir line (some { e with doms := [] })).syncTake line else s.setDir line none

/-- An eviction notice (R312). -/
def State.dirEvict (s : State) (line q : Nat) : State :=
  match s.dirEntry line with
  | none => s
  | some e =>
    match e.st with
    | .m => if e.doms = [q] then s.setDir line none else s
    | .s =>
      let v := e.doms.filter (· ≠ q)
      s.setDir line (if v.isEmpty then none else some { e with doms := v })
    | .h => s.setDir line (some { e with doms := e.doms.filter (· ≠ q) })

/-- Evicting an L2 line (R309): dirty bytes of software-coherent and core-private copies go home, the
directory is notified of a hardware-coherent one, and the home's own line drops the L1 copies that
its vector tracks. -/
def State.l2Evict (s : State) (d : Nat) (x : Line) : State :=
  let s := s.l2Remove d x.line
  if homeOf (128 * x.line) = d then s.dropQuads d x.line x.quads
  else if x.coh = 0 then s.dirEvict x.line d
  else s.writeBack x

/-- The home's bytes of a line with an uncorrectable error. -/
def State.badBytes (s : State) (line : Nat) : BitVec 128 :=
  s.bad.foldl (fun m a => if a / 128 = line then m ||| (1#128 <<< (a % 128)) else m) 0#128
/-- Bringing sectors of a line into a domain's L2: allocation, LRU replacement with `.keep` and `.stream` (R177,
R308). The bytes of a new copy are the home's. -/
def State.l2Alloc (s0 : State) (d line coh : Nat) (hint : Hint) (need : BitVec 4) : State :=
  let s := { s0 with use := s0.use + 1 }
  let stamp := if hint == .stream then 0 else s.use
  let data := BitVec.ofNat 1024 (s.mem.read (128 * line) 128)
  match s.l2Line d line with
  | some x => s.l2Set d line
      { x.take need data (s.badBytes line) with use := if hint == .stream then x.use else s.use, keep := x.keep || hint == .keep }
  | none =>
    let ways := (List.range 16).map fun w => (w, (s.dom d).l2.get? (s.l2Key d line w))
    let s1 := match ways.find? (·.2.isNone) with
      | some _ => s
      | none =>
        let held := ways.filterMap fun c => c.2
        let cand := held.filter fun x => !x.keep
        match minBy (·.use) (if cand.isEmpty then held else cand) with
        | some x => s.l2Evict d x
        | none => s
    let data := BitVec.ofNat 1024 (s1.mem.read (128 * line) 128)
    match (List.range 16).find? fun w => ((s1.dom d).l2.get? (s1.l2Key d line w)).isNone with
    | some w =>
      let x : Line := { line := line, sectors := need, bad := s1.badBytes line &&& sectorBytes need, data := data, coh := coh,
                        keep := hint == .keep, use := stamp }
      s1.updDom d fun m => { m with l2 := m.l2.set (s1.l2Key d line w) x }
    | none => s1

/-- The domain keeps its own bytes of the line: software-coherent or core-private, homed elsewhere. -/
def ownCopy (d line coh : Nat) : Bool := coh != 0 && homeOf (128 * line) != d

/-- A read of sectors of a DRAM line by an agent of a domain through its L2, and the line's bytes as the domain sees
them (R309, R312). -/
def State.l2Read (s : State) (d line coh : Nat) (hint : Hint) (need : BitVec 4) : State × BitVec 1024 :=
  if ownCopy d line coh then
    let s := s.l2Alloc d line coh hint need
    let home := BitVec.ofNat 1024 (s.mem.read (128 * line) 128)
    match s.l2Line d line with
    | some x => (s, (x.take 0xF#4 home).data)
    | none => (s, home)
  else
    let s := if coh != 0 then s
      else if d = homeOf (128 * line) then s.dirHomeRead line
      else if (s.l2Line d line).isSome then s else s.dirRead line d
    let s := s.l2Alloc d line coh hint need
    (s, BitVec.ofNat 1024 (s.mem.read (128 * line) 128))
/-- The bytes of a line that a read through a domain's L2 would consume with an uncorrectable error (R321). -/
def State.l2Bad (s : State) (d line coh : Nat) : BitVec 128 :=
  if !ownCopy d line coh then s.badBytes line
  else match s.l2Line d line with
    | some x => x.bad ||| (s.badBytes line &&& ~~~ (sectorBytes x.sectors ||| x.dirty))
    | none => s.badBytes line

/-- The domain holds a hardware-coherent line in M. -/
def State.ownsLine (s : State) (d line : Nat) : Bool :=
  match s.dirEntry line with
  | some e => e.st == .m && e.doms == [d]
  | none => false
/-- The dirty bytes of a domain's own copy of a line go home, and it stays as a clean copy (R181, R312). -/
def State.cleanOwn (s : State) (d line : Nat) : State :=
  match s.l2Line d line with
  | some x => (s.writeBack x).l2Set d line { x with dirty := 0#128 }
  | none => s
/-- A domain's own copy of a line goes home and ends (R190, R312). -/
def State.recallOwn (s : State) (d line : Nat) : State :=
  match s.l2Line d line with
  | some x => (s.writeBack x).l2Remove d line
  | none => s

/-- A write by an agent of a domain stays in the domain's own copy of the line. A store to a core-private line in state H goes to the
home (R317). -/
def State.staysOwn (s : State) (d line coh : Nat) : Bool := ownCopy d line coh && !(coh == 2 && s.lineHeld line)
/-- The sectors of which every byte is dirty: their bytes are whole, so they are valid. -/
def Line.filled (x : Line) : BitVec 4 :=
  (List.range 4).foldl (fun m k => if x.dirty &&& byteMask (32 * k) 32 == byteMask (32 * k) 32 then m ||| (1#4 <<< k) else m) 0#4
/-- n bytes written into an own copy become dirty. -/
def Line.stain (x : Line) (off n v : Nat) : Line :=
  let y := { x.write off n v with dirty := x.dirty ||| byteMask off n }
  { y with sectors := y.sectors ||| y.filled }
/-- Before an agent of a domain writes bytes in sectors of a DRAM line through its L2: the domain obtains the line as R309 and R312
give, or, where the write goes home, its copies have gone. -/
def State.l2Take (s : State) (d line coh : Nat) (hint : Hint) (need : BitVec 4) : State :=
  if ownCopy d line coh then
    if coh == 2 && s.lineHeld line then (s.recallOwn d line).syncTake line
    else s.l2Alloc d line coh hint (if coh == 2 then need else 0#4)
  else
    let s := if coh == 1 then (s.dropTracked line).syncStore line
      else if coh != 0 then s.syncStore line
      else if d = homeOf (128 * line) then s.dirHomeWrite line
      else if s.ownsLine d line then s else s.dirWrite line d
    if coh == 0 && d != homeOf (128 * line) && !s.ownsLine d line then s else s.l2Alloc d line coh hint need
/-- A write of DRAM by an agent of a domain through its L2 (R309, R312, R317). -/
def State.l2Write (s : State) (d pa n v coh : Nat) (hint : Hint) : State :=
  let line := pa / 128
  let t := s.l2Take d line coh hint (sectorMask (pa % 128) n)
  if s.staysOwn d line coh then
    match t.l2Line d line with
    | some x => t.l2Set d line (x.stain (pa % 128) n v)
    | none => t
  else t.poke pa n v
/-- One write of bytes of a line (R464). -/
def State.l2WriteLine (s : State) (d line coh : Nat) (hint : Hint) (l : List (Nat × Byte)) : State :=
  let t := s.l2Take d line coh hint (l.foldl (fun m c => m ||| sectorMask (c.1 % 128) 1) 0#4)
  if s.staysOwn d line coh then
    match t.l2Line d line with
    | some x => t.l2Set d line (l.foldl (fun x c => x.stain (c.1 % 128) 1 c.2.toNat) x)
    | none => t
  else t.pokeBytes l

/-! ## Accesses of cores, engines and others -/

/-- The places L1 and L2 cache: DRAM. A scratchpad window and a system address are reached directly
(R300, R397). -/
def State.cached (s : State) (pa : Nat) : Bool :=
  match s.place pa with
  | .dram _ _ => true
  | _ => false

/-- Every byte of the access is in the core's L1 (R174). -/
def State.l1Hits (s : State) (core pa n : Nat) : Bool :=
  s.cached pa && match (s.core core).l1Line (pa / 128) with
    | some x => x.sectors &&& sectorMask (pa % 128) n == sectorMask (pa % 128) n
    | none => false

/-- The home's line records the quad of a core that fills it (R307). A software-coherent line is tracked as well, since within its
home's domain it behaves as a hardware-coherent one does (R289; DEDUCED, log entry 112). -/
def State.track (s : State) (core line coh : Nat) : State :=
  if coh == 2 || homeOf (128 * line) != coreDom core then s
  else match s.l2Line (coreDom core) line with
    | some x => s.l2Set (coreDom core) line { x with quads := x.quads ||| (1#28 <<< (coreSite core / 4)) }
    | none => s
/-- A core's request for sectors of a DRAM line (R464), which fills L1 unless it is a `.stream` one: the line's bytes. A sector
with an uncorrectable error fills nothing. -/
def State.lineFetch (s : State) (core line coh : Nat) (hint : Hint) (need : BitVec 4) : State × BitVec 1024 :=
  let d := coreDom core
  let (s, data) := s.l2Read d line coh hint need
  let bad := s.l2Bad d line coh
  let sec := if bad == 0#128 then need
    else (List.range 4).foldl (fun m k => if bad &&& byteMask (32 * k) 32 == 0#128 then m else m &&& ~~~ (1#4 <<< k)) need
  (if hint == .stream || sec == 0#4 then s
   else (s.updCore core fun c => c.l1Fill line coh (hint == .keep) sec data).track core line coh, data)
/-- An L1 hit: the line becomes the most recently used, and `.keep` marks it in L1 and L2 (R177). -/
def State.l1Use (s : State) (core line : Nat) (hint : Hint) : State :=
  let s := match (s.core core).l1Way line with
    | some w => s.updCore core fun c => c.l1Touch (line % 128) w
    | none => s
  if hint != .keep then s
  else
    let s := s.updCore core fun c => c.l1Keep line
    match s.l2Line (coreDom core) line with
    | some x => s.l2Set (coreDom core) line { x with keep := true }
    | none => s
/-- The bytes that L1 holds of a line. -/
def State.l1Read (s : State) (core pa n : Nat) : Nat := (((s.core core).l1Line (pa / 128)).getD { line := pa / 128 }).read (pa % 128) n

/-- A load by a core of n bytes within one line, and the value. `wide` is an acquire at `.wfr` or
`.sys`, which L1 never serves (R286). -/
def State.coreRead (s : State) (core pa n coh : Nat) (hint : Hint) (wide : Bool) : State × Nat :=
  if !s.cached pa then (s, s.peek pa n)
  else if !wide && s.l1Hits core pa n then (s.l1Use core (pa / 128) hint, s.l1Read core pa n)
  else
    let (s, data) := s.lineFetch core (pa / 128) coh hint (sectorMask (pa % 128) n)
    (s, ({ line := pa / 128, data := data } : Line).read (pa % 128) n)
/-- The load of an access would consume an uncorrectable error (R185, R321): L1 holds none. -/
def State.badLoad (s : State) (core pa n coh : Nat) (wide : Bool) : Bool :=
  if !s.cached pa then s.badIn pa n
  else !(!wide && s.l1Hits core pa n) && s.l2Bad (coreDom core) (pa / 128) coh &&& byteMask (pa % 128) n != 0#128

/-- n bytes that an agent of a core reads past its L1 hold one with an uncorrectable error. -/
def State.badRead (s : State) (core pa n coh : Nat) : Bool :=
  if !s.cached pa then s.badIn pa n
  else (List.range ((pa % 128 + n + 127) / 128)).any fun k =>
    let lo := if k == 0 then pa % 128 else 0
    let hi := min 128 (pa % 128 + n - 128 * k)
    s.l2Bad (coreDom core) (pa / 128 + k) coh &&& byteMask lo (hi - lo) != 0#128

/-- A store by a core of n bytes within one line. -/
def State.coreWrite (s : State) (core pa n v coh : Nat) (hint : Hint) : State :=
  if !s.cached pa then s.pokeOut pa n v
  else
    let s := s.updCore core fun c =>
      let c := c.l1Store pa n v
      if hint == .keep then c.l1Keep (pa / 128) else c
    s.l2Write (coreDom core) pa n v coh hint

/-- One write by a core of bytes of a DRAM line (R464). -/
def State.lineStore (s : State) (core line coh : Nat) (hint : Hint) (l : List (Nat × Byte)) : State :=
  let s := s.updCore core fun c =>
    let c := l.foldl (fun c x => c.l1Store x.1 1 x.2.toNat) c
    if hint == .keep then c.l1Keep line else c
  s.l2WriteLine (coreDom core) line coh hint l

/-- The naturally aligned pieces of an access (R168): address and size, ascending. -/
def pieces (a : Nat) : Nat → Nat → List (Nat × Nat)
  | 0, _ => []
  | _, 0 => []
  | fuel + 1, n =>
    let z := if a % 16 == 0 && n ≥ 16 then 16 else if a % 8 == 0 && n ≥ 8 then 8
      else if a % 4 == 0 && n ≥ 4 then 4 else if a % 2 == 0 && n ≥ 2 then 2 else 1
    (a, z) :: pieces (a + z) fuel (n - z)

/-- A load of up to 16 bytes, in its naturally aligned pieces. -/
def State.coreLoad (s : State) (core pa n coh : Nat) (hint : Hint) (wide : Bool) : State × Nat :=
  (pieces pa 16 n).foldl (fun (acc : State × Nat) c =>
    let (s, v) := acc.1.coreRead core c.1 c.2 coh hint wide
    (s, acc.2 + v * 2 ^ (8 * (c.1 - pa)))) (s, 0)
/-- A store of up to 16 bytes, in its naturally aligned pieces. -/
def State.coreStore (s : State) (core pa n v coh : Nat) (hint : Hint) : State :=
  foldState (fun s c => s.coreWrite core c.1 c.2 (v / 2 ^ (8 * (c.1 - pa)) % 2 ^ (8 * c.2)) coh hint) (pieces pa 16 n) s

/-- A read of one byte by an engine of a core, through the domain's L2 and not its L1 (R241). -/
def State.engRead (s : State) (core pa coh : Nat) : State × Byte :=
  if !s.cached pa then (s, s.mem.byte pa)
  else
    let (s, data) := s.l2Read (coreDom core) (pa / 128) coh .none (sectorMask (pa % 128) 1)
    (s, BitVec.ofNat 8 (({ line := pa / 128, data := data } : Line).read (pa % 128) 1))
/-- A write of one byte by an engine of a core; the core's L1 copy of the line is invalidated (R241). -/
def State.engWrite (s : State) (core pa coh : Nat) (b : Byte) : State :=
  if !s.cached pa then s.pokeOut pa 1 b.toNat
  else (s.updCore core fun c => c.l1Drop (·.line = pa / 128)).l2Write (coreDom core) pa 1 b.toNat coh .none

/-- A hardware-coherent read at the home by the host, a peer, a walker, a monitor or firmware. -/
def State.homeRead (s : State) (pa n : Nat) : State × Nat :=
  if s.cached pa then let s := s.dirHomeRead (pa / 128); (s, s.peek pa n) else (s, s.peek pa n)
/-- A hardware-coherent write at the home. -/
def State.homeWrite (s : State) (pa n v : Nat) : State :=
  if s.cached pa then (s.dirHomeWrite (pa / 128)).poke pa n v else s.pokeOut pa n v

/-- An atomic at the home of n bytes that the host, a hart or the device makes (R190, R316): the sync engine writes their new value. -/
def State.homeAtom (s : State) (pa n v : Nat) : State :=
  if s.cached pa then (s.syncAtom (pa / 128)).poke pa n v else s.pokeOut pa n v

/-- What an atomic does to the caches before it is performed (R190): the issuing core's L1 copy goes;
the issuing domain's copy of a software-coherent or core-private line is written back and goes, and with that of the line's home the L1
copies that it tracks (R289);
the sync engine takes a hardware-coherent line through its directory, and keeps it in its store where its set may hold it (R314,
R316). -/
def State.atomPrep (s : State) (core pa coh : Nat) : State :=
  if !s.cached pa then s
  else
    let line := pa / 128
    let d := coreDom core
    let s := s.updCore core fun c => c.l1Drop (·.line = line)
    if coh == 0 then s.syncAtom line
    else if ownCopy d line coh then s.recallOwn d line
    else if coh == 1 then (s.dropTracked line).recallOwn d line
    else s

/-- Every copy of n lines from `line` on goes, and every directory entry and sync-store line. -/
def State.dropLines (s : State) (line n : Nat) : State :=
  let here (l : Nat) : Bool := line ≤ l && l < line + n
  { s with
    cores := s.cores.mapVal fun _ c => { c with l1 := c.l1.keep fun _ x => !here x.line }
    doms := s.doms.mapVal fun _ d =>
      { d with l2 := d.l2.keep fun _ x => !here x.line, dir := d.dir.keep fun l _ => !here l, sync := d.sync.filter fun l => !here l } }
/-- Steps 2 and 3 of R319 for n lines from `line` on: every domain's dirty bytes go home, and every copy and directory entry goes. -/
def State.flushLines (s : State) (line n : Nat) : State :=
  (foldState (fun s d => foldState (fun s (x : Nat × Line) =>
      if line ≤ x.2.line && x.2.line < line + n && ownCopy d x.2.line x.2.coh then s.writeBack x.2 else s) (s.dom d).l2 s) s.doms.keys s).dropLines
    line n

/-- The dirty bytes of n lines from `line` on go home, and their copies stay clean. -/
def State.cleanLines (s : State) (line n : Nat) : State :=
  foldState (fun s d => foldState (fun s (x : Nat × Line) =>
      if line ≤ x.2.line && x.2.line < line + n && ownCopy d x.2.line x.2.coh then s.cleanOwn d x.2.line else s) (s.dom d).l2 s) s.doms.keys s

/-- A domain's own copies of software-coherent lines go home and end, as evictions do (R309). -/
def State.evictSoft (s : State) (d : Nat) : State :=
  foldState (fun s (x : Nat × Line) => if x.2.coh == 1 && ownCopy d x.2.line 1 then (s.writeBack x.2).l2Remove d x.2.line else s) (s.dom d).l2 s
/-- The L1 lines an acquire drops (R175). -/
def acquireDrops (sc : Scope) (d : Nat) (x : Line) : Bool :=
  match sc with
  | .grp => false
  | .blk | .dom => x.coh != 2 && homeOf (128 * x.line) != d
  | .wfr | .sys => x.coh != 2
/-- An acquire by a core at a scope (R175). -/
def State.acquire (s : State) (core : Nat) (sc : Scope) : State :=
  s.updCore core fun c => c.l1Drop (acquireDrops sc (coreDom core))

end Sys2Proof.Machine
end

