-- ==== Sys2Proof/Machine/Paging.lean ====
section
/-!
DEFINITION. Address translation (14_address_translation.md R323 to R343): table entries, the TLBs,
the walk cache, the walker, permissions, the accessed and dirty bits, the frame list, the start of a
regeneration and speculative translation.
-/

namespace Sys2Proof.Machine

/-! ## Entries (R323 to R327) -/

/-- A virtual address is canonical (R323). -/
def canonical (va : W64) : Bool :=
  va.extractLsb' 53 11 == (if va.getLsbD 52 then 0x7FF#11 else 0#11)
/-- A 53-bit address sign-extended. -/
def canon53 (x : Nat) : W64 := (BitVec.ofNat 53 x).signExtend 64

/-- What a walk finds. -/
inductive WalkRes where
  /-- A present leaf: level, word, and the address of the entry. -/
  | leaf (level e addr : Nat)
  /-- A not-present entry, as its kind acts at its level (R326), 0 for invalid or malformed; 6 for a word with an uncorrectable
  error (R321). -/
  | absent (kind e addr : Nat)
  deriving DecidableEq, Repr

/-- The kind as it acts at a level (R326). -/
def kindAt (level k : Nat) : Nat :=
  if k == 5 then 5
  else if k == 4 then (if 1 ≤ level then 4 else 0)
  else if 1 ≤ k && k ≤ 3 then (if level == 3 then k else 0)
  else 0

/-- Reading the tables from a level down (R323, R333); each entry is one hardware-coherent read at
its home. The list holds the pointers passed, with their levels. -/
def State.walkFrom (s : State) (va : W64) : Nat → Nat → Nat → List (Nat × Nat) → WalkRes × List (Nat × Nat)
  | 0, _, _, ps => (.absent 0 0 0, ps)
  | fuel + 1, level, table, ps =>
    let a := table + 8 * tableIndex va level
    let e := s.mem.read a 8
    if s.badIn a 8 then (.absent 6 0 a, ps)
    else if !pteP e then (.absent (kindAt level (pteKind e)) e a, ps)
    else if level == 0 && pteL e || level == 3 && !pteL e then (.absent 0 e a, ps)
    else if pteL e then (if leafOk level e then (.leaf level e a, ps) else (.absent 0 e a, ps))
    else match s.place (pteTable e) with
      | .dram _ _ => s.walkFrom va fuel (level + 1) (pteTable e) (ps ++ [(level, pteTable e)])
      | _ => (.absent 0 e a, ps)

/-- A walk from level 0, with the level that it ends at. -/
def State.walkLevel (s : State) (asid : Nat) (va : W64) : Nat × WalkRes :=
  let (r, ptrs) := s.walkFrom va 4 0 (s.ctx asid).root []
  (ptrs.length, r)
/-- A walk from level 0. -/
def State.walk (s : State) (asid : Nat) (va : W64) : WalkRes := (s.walkFrom va 4 0 (s.ctx asid).root []).1

/-! ## TLBs and walk cache (R331, R333) -/

/-- An entry matches an access. -/
def TlbEntry.hits (t : TlbEntry) (asid gen : Nat) (va : W64) : Bool :=
  t.asid == asid && t.gen == gen && t.vpn == va.toNat / 2 ^ pageBits t.level

/-- The L1 TLB entry of an access, and its place. -/
def Core.tlbFind (c : Core) (asid gen : Nat) (va : W64) : Option (Nat × TlbEntry) :=
  c.tlb.find? fun e => e.2.hits asid gen va

/-- Filling the L1 TLB: 64 entries, tree pseudo-LRU. -/
def Core.tlbFill (c : Core) (t : TlbEntry) : Core :=
  let k := match c.tlb.find? fun e => e.2.asid == t.asid && e.2.gen == t.gen && e.2.level == t.level && e.2.vpn == t.vpn with
    | some e => e.1
    | none =>
      match (List.range 64).find? fun k => (c.tlb.get? k).isNone with
      | some k => k
      | none => plruVictim 64 (fun _ => true) c.tlbPlru 6 1 - 64
  { c with tlb := c.tlb.set k t, tlbPlru := plruTouch k 6 (64 + k) c.tlbPlru }

/-- Filling the quad's L2 TLB: 128 sets of 8 ways, LRU. -/
def quadTlbFill (l : List TlbEntry) (t : TlbEntry) : List TlbEntry :=
  let l := l.filter fun e => !(e.asid == t.asid && e.gen == t.gen && e.level == t.level && e.vpn == t.vpn)
  let set := l.filter fun e => e.vpn % 128 == t.vpn % 128
  if set.length < 8 then t :: l
  else match minBy (·.use) set with
    | some x => t :: l.filter fun e => e != x
    | none => t :: l

/-- Filling the walk cache of a domain, or using an entry of it: 4,096 pointers, LRU. -/
def walkFill (l : List WalkEntry) (t : WalkEntry) : List WalkEntry :=
  let l := l.filter fun e => !(e.asid == t.asid && e.gen == t.gen && e.level == t.level && e.tag == t.tag)
  if l.length < 4096 then t :: l
  else match minBy (·.use) l with
    | some x => t :: l.filter fun e => e != x
    | none => t :: l

/-- The deepest cached pointer of an address. -/
def State.walkHit (s : State) (d asid : Nat) (va : W64) : Option WalkEntry :=
  let gen := (s.ctx asid).gen
  let hit (level : Nat) : Option WalkEntry :=
    (s.dom d).walk.find? fun e => e.asid == asid && e.gen == gen && e.level == level && e.tag == va.toNat / 2 ^ pageBits level
  ((hit 2).or (hit 1)).or (hit 0)
/-- Where a walk starts: the level of the table below that pointer, and the table. -/
def State.walkStart (s : State) (d asid : Nat) (va : W64) : Nat × Nat :=
  match s.walkHit d asid va with
  | some e => (e.level + 1, e.next)
  | none => (0, (s.ctx asid).root)
/-- The walk of an address by a domain's walker, below its deepest cached pointer unless it is to start afresh, and the pointers that
it passes. -/
def State.walkPath (s : State) (d asid : Nat) (va : W64) (fresh : Bool := false) : WalkRes × List (Nat × Nat) :=
  let start := if fresh then (0, (s.ctx asid).root) else s.walkStart d asid va
  s.walkFrom va 4 start.1 start.2 []
/-- What that walk finds. -/
def State.walkAt (s : State) (d asid : Nat) (va : W64) : WalkRes := (s.walkPath d asid va).1
/-- Pointers of an address enter a domain's walk cache, or are used in it. -/
def State.walkKeep (s : State) (d asid : Nat) (va : W64) (ptrs : List (Nat × Nat)) : State :=
  let s := { s with use := s.use + 1 }
  s.updDom d fun m => { m with walk := ptrs.foldl (fun l p =>
    walkFill l { asid := asid, gen := (s.ctx asid).gen, level := p.1, tag := va.toNat / 2 ^ pageBits p.1, next := p.2, use := s.use }) m.walk }
/-- Every walk reads its entries at their homes, and uses the cached pointer it starts from (R312, R333). -/
def State.walkSeen (s : State) (d asid : Nat) (va : W64) (fresh : Bool := false) : State :=
  let start := if fresh then (0, (s.ctx asid).root) else s.walkStart d asid va
  let read := start :: ((s.walkPath d asid va fresh).2.map fun p => (p.1 + 1, p.2))
  let t := foldState (fun s (p : Nat × Nat) => s.dirHomeRead ((p.2 + 8 * tableIndex va p.1) / 128)) read s
  if start.1 == 0 then t else t.walkKeep d asid va [(start.1 - 1, start.2)]

/-- What the TLB path found a leaf in (R331). -/
inductive TlbSrc where
  | l1 | l2 | walk
  deriving DecidableEq, Repr
/-- The TLBs on the path of a core, in order: the first that holds the address, the leaf's level, its word and its entry's address. -/
def State.tlbLook (s : State) (core asid : Nat) (va : W64) : Option (TlbSrc × Nat × Nat × Nat) :=
  let gen := (s.ctx asid).gen
  match (s.core core).tlbFind asid gen va with
  | some (_, t) => some (.l1, t.level, t.leaf.toNat, t.addr)
  | none =>
    ((s.quadTlb.getD (coreQuad core) []).find? fun t => t.hits asid gen va).map fun t => (.l2, t.level, t.leaf.toNat, t.addr)
/-- The leaf that the TLB path gives, with the address of its entry. -/
def State.lookLeaf (s : State) (core asid : Nat) (va : W64) : Option (TlbSrc × Nat × Nat × Nat) :=
  if !canonical va then none
  else match s.tlbLook core asid va with
    | some x => some x
    | none =>
      match s.walkAt (coreDom core) asid va with
      | .leaf level e addr => some (.walk, level, e, addr)
      | .absent _ _ _ => none
/-- The TLBs after the path has supplied a leaf: an L1 hit is used, an L2 hit fills L1 as well, and a walk fills both. -/
def State.tlbKeep (s : State) (core asid : Nat) (va : W64) (level e addr : Nat) (src : TlbSrc) : State :=
  let s := { s with use := s.use + 1 }
  let t : TlbEntry := { asid := asid, gen := (s.ctx asid).gen, level := level, vpn := va.toNat / 2 ^ pageBits level,
                        leaf := BitVec.ofNat 64 e, addr := addr, use := s.use }
  let s := if src = .l1 then s else { s with quadTlb := s.quadTlb.upd (coreQuad core) [] fun l => quadTlbFill l t }
  s.updCore core fun c => c.tlbFill t
/-- As `tlbKeep`, and after a walk its reads and its pointers. -/
def State.pathKeep (s : State) (core asid : Nat) (va : W64) (level e addr : Nat) (src : TlbSrc) : State :=
  let d := coreDom core
  let s := if src = .walk then (s.walkSeen d asid va).walkKeep d asid va (s.walkPath d asid va).2 else s
  s.tlbKeep core asid va level e addr src
/-- The physical address of a byte in a leaf, where a user access may reach it (R299, R300). -/
def State.leafPlace (s : State) (va : W64) (level e : Nat) : Option Nat :=
  let pa := pteFrame e + va.toNat % 2 ^ pageBits level
  if closedFrame (pteFrame e) || !s.userPlace pa then none else some pa

/-- Removing from every TLB, walk cache and code cache what a shootdown names (R271, R460): a whole context, or
the pages that meet a range. -/
def State.shootTlb (s : State) (asid : Nat) (range : Option (Nat × Nat)) : State :=
  let gen := (s.ctx asid).gen
  let meets (level vpn : Nat) : Bool := match range with
    | none => true
    | some (a, n) => overlap (vpn * 2 ^ pageBits level) (2 ^ pageBits level) a n
  let hit (t : TlbEntry) : Bool := t.asid == asid && t.gen == gen && meets t.level t.vpn
  let code (l : Tab CodeLine) : Tab CodeLine := l.keep fun _ x => !(x.asid == asid && x.gen == gen && meets 3 (x.line / 64))
  { s with
    cores := s.cores.mapVal fun _ c => { c with tlb := c.tlb.keep fun _ t => !hit t, lcode := code c.lcode, ccode := code c.ccode }
    quadTlb := s.quadTlb.mapVal fun _ l => l.filter fun t => !hit t
    doms := s.doms.mapVal fun _ d => { d with walk := d.walk.filter fun w => !(w.asid == asid && w.gen == gen && meets w.level w.tag) } }

/-- The groups of a context lose the translation registers whose span meets the target: the pages that overlap the range, so those
bound in such a page (R271). -/
def State.shootXb (s : State) (asid : Nat) (range : Option (Nat × Nat)) : State :=
  let hit (x : XbReg) : Bool := match range with
    | none => true
    | some (a, n) => overlap (x.vbase.toNat / 2 ^ x.page * 2 ^ x.page) (2 ^ x.page) (a % 2 ^ 53) n
  { s with groups := s.groups.mapVal fun _ g =>
      if (s.gridOf g.grid).asid == asid then { g with xb := g.xb.keep fun _ x => !hit x } else g }

/-- An access of the context that a shootdown has to wait for is in flight (R271). -/
def State.inFlight (s : State) (asid : Nat) : Bool :=
  s.groups.any fun g => (s.gridOf g.2.grid).asid == asid && !(g.2.loads.isEmpty && g.2.lates.isEmpty && g.2.slds.all fun p => p.src.isNone)
/-- A shootdown (R271). -/
def State.shootdown (s : State) (asid : Nat) (range : Option (Nat × Nat)) : State :=
  (s.shootTlb asid range).shootXb asid range

/-! ## What an access needs, and the accessed and dirty bits (R328, R329) -/

/-- The permissions an access needs (R328). -/
def permits (acc : Access) (e : Nat) : Bool :=
  match acc with
  | .laneFetch => pteXL e
  | .ctlFetch => pteXC e
  | .load => pteQ e
  | .store => pteW e
  | .atomic => pteQ e && pteW e
  | .bindXb | .range => true

/-- The access writes, so that D is set (R329); XLAT sets D when W is 1 (R108). -/
def dirties (acc : Access) (e : Nat) : Bool :=
  match acc with
  | .store | .atomic => true
  | .bindXb => pteW e
  | _ => false

/-- The accessed and dirty bits that an access sets in a leaf (R329). -/
def usedBits (acc : Access) (e : Nat) : Nat :=
  (if acc != .range && !pteA e then 2 ^ 10 else 0) + (if dirties acc e && !pteD e then 2 ^ 11 else 0)
/-- The entry of a leaf is still present with the same frame (R329). -/
def State.entryStands (s : State) (level e addr : Nat) : Bool :=
  let now := s.mem.read addr 8
  leafOk level now && pteFrame now == pteFrame e
/-- The OR of bits in an entry, an atomic of its home's sync engine (R316, R329). -/
def State.orEntry (s : State) (addr bits : Nat) : State :=
  if bits == 0 then s else s.homeAtom addr 8 (s.mem.read addr 8 ||| bits)

/-! ## Accesses of the device for a context (R337 to R340) -/

/-- The leaf of an address for a supervisor access of the device that cannot trap: the TLB path of the core it acts for, or else the
walker of the crest domain (DESIGN CHOICE, log entry 129). -/
def State.ctxLeaf (s : State) (asid : Nat) (va : W64) (write : Bool) (core : Option Nat) : Option (TlbSrc × Nat × Nat × Nat) :=
  let walked (r : WalkRes) : Option (TlbSrc × Nat × Nat × Nat) := match r with
    | .leaf level e addr => some (.walk, level, e, addr)
    | .absent _ _ _ => none
  match core with
  | none => if canonical va then walked (s.walkAt s.ridge.crest asid va) else none
  | some c => ((s.lookLeaf c asid va).bind fun x =>
      if x.1 = .walk || usedBits (if write then .store else .load) x.2.2.1 == 0 || s.entryStands x.2.1 x.2.2.1 x.2.2.2 then some x
      else walked (s.walk asid va)).filter fun x => pteOwned x.2.2.1 c
/-- The physical address of that access, in a present page that grants it. -/
def State.ctxAddr (s : State) (asid : Nat) (va : W64) (write : Bool) (core : Option Nat := none) : Option Nat :=
  (s.ctxLeaf asid va write core).bind fun x => if if write then pteW x.2.2.1 else pteQ x.2.2.1 then s.leafPlace va x.2.1 x.2.2.1 else none
/-- What the translation of that access leaves: the reads of a walk, and where the access is granted the pointers, the accessed and
dirty bits and the TLB entries. -/
def State.ctxUse (s : State) (asid : Nat) (va : W64) (write : Bool) (core : Option Nat := none) : State :=
  let d := core.elim s.ridge.crest coreDom
  if !canonical va then s
  else match s.ctxLeaf asid va write core with
    | none => match s.walkAt d asid va with
      | .absent 6 _ a => (s.walkSeen d asid va).reportBad a
      | _ => s.walkSeen d asid va
    | some (src, level, e, addr) =>
      let t := if src = .walk then s.walkSeen d asid va else s
      if (s.ctxAddr asid va write core).isNone then t
      else
        let bits := usedBits (if write then .store else .load) e
        let t := (if src = .walk then t.walkKeep d asid va (s.walkPath d asid va).2 else t).orEntry addr bits
        match core with
        | some c => t.tlbKeep c asid va level (e ||| bits) addr src
        | none => t
/-- Reading n bytes of a context (R312): none where the access is not granted, or finds an uncorrectable error, which is reported
(R321). -/
def State.ctxRead (s : State) (asid : Nat) (va : W64) (n : Nat) (core : Option Nat := none) : State × Option Nat :=
  let t := s.ctxUse asid va false core
  match s.ctxAddr asid va false core with
  | none => (t, none)
  | some a => if t.badIn a n then (t.reportBad a, none) else (let (t, x) := t.homeRead a n; (t, some x))
/-- Writing 8 bytes of a context, where the access is granted. -/
def State.ctxWrite (s : State) (asid : Nat) (va : W64) (x : Nat) (core : Option Nat := none) : State :=
  let t := s.ctxUse asid va true core
  match s.ctxAddr asid va true core with
  | none => t
  | some a => t.homeWrite a 8 x

/-! ## The frame list (R337) -/

/-- The address of the top entry of the frame list. -/
def State.poolVa (s : State) (asid : Nat) : W64 := (s.ctx asid).poolbase + 8#64 * ((s.ctx asid).poolcnt - 1#64)

/-- A word of the frame list: the populated DRAM frame that it names. -/
def State.poolFrame (s : State) (x : Nat) : Option Nat :=
  if x / 2 ^ 56 != 0 || x % 2 ^ 13 != 0 then none
  else match s.place x with
    | .dram _ _ => some x
    | _ => none
/-- The top of the frame list: the frame, or none when the list is empty or the entry cannot be read or names no
populated DRAM frame. -/
def State.poolTop (s : State) (asid : Nat) (core : Option Nat := none) : State × Option Nat :=
  if (s.ctx asid).poolcnt == 0#64 then (s, none)
  else
    let (s, x) := s.ctxRead asid (s.poolVa asid) 8 core
    (s, x.bind s.poolFrame)

/-- A pop (R337). -/
def State.poolPop (s : State) (asid : Nat) : State := s.updCtx asid fun c => { c with poolcnt := c.poolcnt - 1#64 }
/-- Pushing a frame back (R340). A frame whose entry cannot be written does not join the list. -/
def State.poolPush (s : State) (asid frame : Nat) : State :=
  let c := s.ctx asid
  let va := c.poolbase + 8#64 * c.poolcnt
  let t := s.ctxWrite asid va frame
  if (s.ctxAddr asid va true).isSome then t.updCtx asid fun c => { c with poolcnt := c.poolcnt + 1#64 } else t

/-! ## Regeneration (R338) -/

/-- The packet of 64 bytes at a physical address (R345). -/
def State.readPacket (s : State) (pa : Nat) : Packet :=
  let d (k : Nat) : W64 := BitVec.ofNat 64 (s.mem.read (pa + 8 * k) 8)
  let sx (k : Nat) : W64 := canon53 ((d k).toNat % 2 ^ 53)
  { d0 := d 0, d1 := d 1, d2 := d 2, cbase := sx 3, lbase := sx 4, args := sx 5, sig := sx 6, d7 := d 7 }

/-- A fault has claimed the entry at an address (R338). -/
def State.claimed (s : State) (addr : Nat) : Bool := s.doms.any fun d => d.2.regenWait.any fun x => x.leaf == addr
/-- The lowest free reserved entry of a domain. -/
def State.freeRegen (s : State) (d : Nat) : Option Nat := (List.range 64).find? fun n => ((s.dom d).regens.get? n).isNone
/-- A claimed fault takes the free reserved entry n of domain d for the regenerable entry e. False: the regeneration fails (R340). -/
def State.beginRegen (s : State) (x : Claim) (d n e : Nat) : State × Bool :=
  let c := s.ctx x.asid
  let idx := bitsOf e 19 10
  let tab := c.regentab + BitVec.ofNat 64 (16 * idx)
  if c.regentab == 0#64 then (s, false)
  else
    let (s, p) := s.ctxRead x.asid tab 8 x.core
    let (s, r) := s.ctxRead x.asid (tab + 8#64) 8 x.core
    match p, r with
    | some p, some r =>
      let record := BitVec.ofNat 64 r + BitVec.ofNat 64 (32 * (64 * d + n))
      let pva := BitVec.ofNat 64 p
      let (s, word) := s.ctxRead x.asid pva 64 x.core
      let (s, frame) := s.poolTop x.asid x.core
      match word, s.ctxAddr x.asid pva false x.core, s.ctxAddr x.asid record true x.core, frame with
      | some _, some pp, some ra, some frame =>
        let page := x.va.toNat / 2 ^ 13 * 2 ^ 13
        let pkt : Packet := { (s.readPacket pp) with args := record }
        let s := (s.poolPop x.asid).ctxUse x.asid record true x.core
        let s := ((s.homeWrite ra 8 page).homeWrite (ra + 8) 8 (e / 2 ^ 32 + idx * 2 ^ 32)).homeWrite (ra + 16) 8 0
        let s := s.homeWrite (ra + 24) 8 0
        let s := s.homeWrite x.leaf 8 (e % 2 ^ 10 / 2 ^ 4 * 2 ^ 4 + 3 * 2 + d * 2 ^ 22 + n * 2 ^ 10)
        let s := { s with use := s.use + 1 }
        let y : Regen := { asid := x.asid, va := BitVec.ofNat 64 page, leaf := x.leaf, old := BitVec.ofNat 64 e,
                           frame := frame, record := record, pkt := pkt, order := s.use }
        (s.updDom d fun m => { m with regens := m.regens.set n y }, true)
      | _, _, _, _ => (s, false)
    | _, _ => (s, false)
/-- A fault of domain d on a regenerable entry e at an address (R338): where another has claimed it, it waits for that; else it claims
it, and takes a free reserved entry, or waits for one in order of arrival. True: the requester is held. False: it failed, and the
requester traps REGEN_WAIT (R340). -/
def State.startRegen (s : State) (d asid : Nat) (core : Option Nat) (va : W64) (addr e : Nat) : State × Bool :=
  let x : Claim := { asid := asid, va := va, core := core, leaf := addr }
  if s.claimed addr then (s, true)
  else match (if (s.dom d).regenWait.isEmpty then s.freeRegen d else none) with
    | some n => s.beginRegen x d n e
    | none => (s.updDom d fun m => { m with regenWait := m.regenWait ++ [x] }, true)
/-- A requester of the context stays held on an address (R336): its entry is regenerating, evicted, changing or claimed. -/
def State.holdsOn (s : State) (d asid : Nat) (va : W64) : Bool :=
  match s.walkAt d asid va with
  | .leaf _ _ _ => false
  | .absent k _ addr => 3 ≤ k && k ≤ 5 || k == 2 && s.claimed addr

/-! ## The TLB path -/

/-- The outcome of a translation. -/
inductive TrRes where
  /-- Physical address, attribute, Q, W, bytes to the end of the page, and whether an L1 TLB hit
  resolved it. -/
  | ok (pa coh : Nat) (q w : Bool) (left : Nat) (tlb : Bool)
  /-- The cause. -/
  | trap (cause : Nat)
  /-- The requester is held (R336). -/
  | held
  deriving DecidableEq, Repr

/-- An access that a leaf serves (R169, R328, R329, R331): its place, its owner and permission, then the OR of A and D in the entry
at its home, and the TLBs. -/
def State.serveLeaf (s : State) (core asid : Nat) (va : W64) (acc : Access) (level e addr : Nat) (src : TlbSrc) : State × TrRes :=
  match s.leafPlace va level e with
  | none => (s, .trap cAddrFault)
  | some pa =>
    if !pteOwned e core || !permits acc e then (s, .trap cPermFault)
    else
      let bits := usedBits acc e
      ((s.orEntry addr bits).tlbKeep core asid va level (e ||| bits) addr src,
       .ok pa (pteCoh e) (pteQ e) (pteW e) (2 ^ pageBits level - va.toNat % 2 ^ pageBits level) (src = .l1))

/-- The grid that regenerates an entry (R340). -/
def State.regenOf (s : State) (e : Nat) : Option Regen := (s.dom (bitsOf e 27 22)).regens.get? (bitsOf e 21 10)

/-- The walk of an access that missed both TLBs, or whose TLB entry no longer agrees with the table. A walk that ends in a fault fills
nothing; one that reads a word with an uncorrectable error consumes it (R321). -/
def State.walkAccess (s : State) (core asid grid : Nat) (va : W64) (acc : Access) (fresh : Bool) : State × TrRes :=
  let d := coreDom core
  let (r, ptrs) := s.walkPath d asid va fresh
  let s := s.walkSeen d asid va fresh
  match r with
  | .leaf level e addr =>
    match s.serveLeaf core asid va acc level e addr .walk with
    | (s, .trap c) => (s, .trap c)
    | (s, r) => (s.walkKeep d asid va ptrs, r)
  | .absent 1 _ _ => (s, .trap cFirstTouch)
  | .absent 2 e addr =>
    match s.startRegen d asid (some core) va addr e with
    | (s, true) => (s, .held)
    | (s, false) => (s, .trap cRegenWait)
  | .absent 3 e _ =>
    match s.regenOf e with
    | some x =>
      if acc == .bindXb && x.grid == grid && grid != 0
      then (s, .ok (x.frame + va.toNat % 2 ^ 13) (pteCoh e) true true (2 ^ 13 - va.toNat % 2 ^ 13) false)
      else (s, .held)
    | none => (s, .held)
  | .absent 4 _ _ => (s, .held)
  | .absent 5 _ _ => (s, .held)
  | .absent 6 _ _ => (s, .trap cUncorrectable)
  | .absent _ _ _ => (s, .trap cPageFault)

/-- Translating an access on the TLB path (R331). One that hits an entry and has A or D to set does so first, in the entry at its
home where that is still present with the same frame; otherwise the walk starts again from level 0 (R329). -/
def State.translate (s : State) (core asid grid : Nat) (va : W64) (acc : Access) : State × TrRes :=
  if !canonical va then (s, .trap cAddrFault)
  else match s.tlbLook core asid va with
    | none => s.walkAccess core asid grid va acc false
    | some (src, level, e, addr) =>
      if usedBits acc e == 0 || !pteOwned e core || !permits acc e || (s.leafPlace va level e).isNone
      then s.serveLeaf core asid va acc level e addr src
      else if s.badIn addr 8 then (s, .trap cUncorrectable)
      else if s.entryStands level e addr then s.serveLeaf core asid va acc level e addr src
      else s.walkAccess core asid grid va acc true

/-- A speculative translation (R343): it uses TLB entries and reads tables, changes nothing in them,
and is dropped where the access would fault or the leaf has A = 0. What it finds: where, level, leaf, and the physical address. -/
def State.specTranslate (s : State) (core asid : Nat) (va : W64) (acc : Access) : Option ((TlbSrc × Nat × Nat × Nat) × Nat) :=
  (s.lookLeaf core asid va).bind fun x =>
    (s.leafPlace va x.2.1 x.2.2.1).bind fun pa =>
      if pteA x.2.2.1 && permits acc x.2.2.1 && pteOwned x.2.2.1 core then some (x, pa) else none
/-- What a speculative translation leaves in the path (R343). -/
def State.specKeep (s : State) (core asid : Nat) (va : W64) (x : TlbSrc × Nat × Nat × Nat) : State :=
  s.pathKeep core asid va x.2.1 x.2.2.1 x.2.2.2 x.1

/-- Counting a dropped speculative access (R343). -/
def State.dropSpec (s : State) (core : Nat) : State := s.updCore core fun c => { c with dspec := c.dspec + 1#32 }

end Sys2Proof.Machine
end

