-- ==== Sys2Proof/Machine/Trace.lean ====
section
/-!
DEFINITION. Trace rings and records, and the events that reach a trigger sequencer
(19_debug_trace_profiling.md R441, R450 to R455).
-/

namespace Sys2Proof.Machine

/-- Eight doublewords written at an address, each by its own write at the home. -/
def State.writeDwords (s : State) (pa : Nat) : List W64 → State
  | [] => s
  | x :: t => (s.homeWrite pa 8 x.toNat).writeDwords (pa + 8) t

/-- Writing one record where there is room (R450): the record, then WRITE with a release. -/
def State.ringPut (s : State) (r : Ring) (rec' : List W64) : State :=
  let w := s.peek r.base 8
  let s := s.writeDwords (r.base + 64 + 64 * (w % 2 ^ r.log2)) rec'
  s.homeWrite r.base 8 ((w + 1) % 2 ^ 64)

/-- A ring is full. -/
def State.ringFull (s : State) (r : Ring) : Bool := (s.peek r.base 8 + 2 ^ 64 - s.peek (r.base + 8) 8) % 2 ^ 64 ≥ 2 ^ r.log2

/-- Counting a dropped record (R450). -/
def State.ringDrop (s : State) (d : Nat) (r : Ring) : State :=
  let s := s.homeWrite (r.base + 16) 8 ((s.peek (r.base + 16) 8 + 1) % 2 ^ 64)
  s.updDom d fun m => { m with ring := some { r with pending := r.pending + 1 } }

/-- The unit of the sequencer's records, after every site and the Corrie (R451). -/
def seqUnit : Nat := 113
/-- A record of an event of the present cycle takes its place among those that wait: after those of earlier cycles, and in its cycle by
unit (R451). A domain without a ring keeps none. -/
def State.traceRecord (s : State) (d unit : Nat) (words : List W64) : State :=
  if (s.dom d).ring.isNone then s
  else s.updDom d fun m =>
    let first (x : TraceRec) : Bool := x.cc < s.now || x.unit ≤ unit
    { m with traceQ := m.traceQ.filter first ++ [{ cc := s.now, unit := unit, words := words }] ++ m.traceQ.filter fun x => !first x }
/-- One cycle of a domain's trace unit (R450, R451): where records were dropped and there is room, a LOST record; else the first
record whose cycle is over, which is dropped and counted where there is no room. -/
def State.traceWrite (s : State) (d : Nat) : State :=
  match (s.dom d).ring with
  | none => s
  | some r =>
    let due := (s.dom d).traceQ.filter fun x => x.cc < s.now
    let pop (s : State) : State := s.updDom d fun m => { m with traceQ := m.traceQ.tail }
    if s.ringFull r then (if due.isEmpty then s else (pop s).ringDrop d r)
    else if r.pending != 0 then
      let lost : List W64 := [s.stamp d, 0, 5#4 ++ 0#60, 0xFFFFFFFF#32 ++ 0#32, BitVec.ofNat 64 r.pending, 0, 0, 0]
      (s.ringPut r lost).updDom d fun m => { m with ring := some { r with pending := 0 } }
    else match due with
      | [] => s
      | x :: _ => (pop s).ringPut r x.words
/-- The trace unit of a domain writes one record in each cycle since it wrote last. -/
def State.traceWrites (s : State) (d : Nat) : State :=
  let m := s.dom d
  let s := foldState (fun s _ => s.traceWrite d) (List.range (min (s.now - m.traceAt) (m.traceQ.length + 1))) s
  s.updDom d fun m => { m with traceAt := s.now }

/-- Q0 to Q3 of a record that names a group (R452). -/
def State.recordHead (s : State) (g : Nat) (kind : BitVec 4) (cpc : W64) (seq : W32) : List W64 :=
  let x := s.grp g
  let a := s.asidOf g
  [s.stamp (coreDom x.core), s.handle a x.core, kind ++ 0#7 ++ cpc.extractLsb' 0 53,
   seq ++ BitVec.ofNat 16 a ++ 0#10 ++ BitVec.ofNat 6 x.slot]

/-- An event of a domain that its sequencer may watch (R454): it arrives 8 cc later. Only the events
of sources that a loaded program names are kept. -/
def State.seqEvent (s : State) (d src : Nat) (value : W64) (asid : Nat) : State :=
  let q := (s.dom d).seqr
  let named := (List.range 8).any fun c => (q.prog.getD (32 * c) 0#8).toNat % 16 == src
  if named then s.updDom d fun m => { m with seqIn := m.seqIn ++ [(s.now + 8, { src := src, value := value, asid := asid })] }
  else s

/-- An instruction of the chosen group issues at an address: source 1 for the control stream, 2 for a split. -/
def State.issued (s : State) (src : Nat) (pc : W64) : State := s.seqEvent (coreDom s.cg.core) src pc s.casid
/-- Kinds of wait in which a control instruction stands before its issue: it has done nothing yet. -/
def WaitKind.passive (k : WaitKind) : Bool :=
  match k with
  | .lsync | .waitcnt | .waitchild | .exit | .run | .launch | .mailbox | .engine | .held => true
  | .yield | .waitcmp | .bwait | .dbar | .wbar | .sclm | .ckpt | .append => false
/-- The control stream issues its instruction; one that waits after its issue has done so already (R454). -/
def State.issuedCtl (s : State) : State :=
  if s.cg.wait.any fun w => !w.kind.passive then s else s.issued 1 s.cg.cpc
/-- The control stream issues its instruction and goes on at an address; a wait is over, and so is the one issue
without breakpoint matching (R442). -/
def State.jump (s : State) (pc : W64) : State := s.issuedCtl.updCg fun g => { g with cpc := pc, wait := none, noBreak := false }
/-- The control stream goes on past its instruction. -/
def State.advance (s : State) : State := s.jump (s.cg.cpc + 4#64)

/-- Sending a Cairn message from a domain (R453): the sender's queue of 16, and the sent record where recording is on. A message that
finds the queue full is dropped without a record, and counted in LOST. -/
def State.sendCairn (s : State) (d unit tag : Nat) (head : List W64) : State :=
  let st := s.stamp d
  if 16 ≤ (s.dom d).cairnOut.length then
    match (s.dom d).ring with
    | some r => s.ringDrop d r
    | none => s
  else
    let s := if (s.dom d).seqr.recording
      then s.traceRecord d unit (head ++ [BitVec.ofNat 64 (tag % 256 + 256 * d + 2 ^ 14), st, 0, 0]) else s
    s.updDom d fun m => { m with cairnOut := m.cairnOut ++ [{ tag := tag, origin := d, stamp := st }] }

end Sys2Proof.Machine
end

