-- ==== Sys2Proof/Machine/Ops.lean ====
section
/-!
DEFINITION. The shared operations on groups: engine counters, barrier phases and rounds, the end of
a group, a block and a grid, parking, and taking and returning from a trap in either stream
(11_system_and_traps.md R262 to R268).
-/

namespace Sys2Proof.Machine

/-! ## Packets (15_scheduling.md R345) -/

def Packet.ty (p : Packet) : Nat := bitsOf p.d0.toNat 7 0
def Packet.prio (p : Packet) : Nat := bitsOf p.d0.toNat 9 8
def Packet.rel (p : Packet) : Nat := bitsOf p.d0.toNat 12 10
def Packet.cor (p : Packet) : Nat := bitsOf p.d0.toNat 14 13
def Packet.noagg (p : Packet) : Bool := bitOf p.d0.toNat 15
def Packet.dlimField (p : Packet) : Nat := bitsOf p.d0.toNat 19 16
def Packet.hmode (p : Packet) : Nat := bitsOf p.d0.toNat 21 20
def Packet.ndep (p : Packet) : Nat := bitsOf p.d0.toNat 23 22
def Packet.lanes (p : Packet) : Nat := bitsOf p.d0.toNat 33 24 + 1
def Packet.groups (p : Packet) : Nat := (p.lanes + 31) / 32
def Packet.chunks (p : Packet) : Nat := bitsOf p.d0.toNat 37 34 + 1
def Packet.nslots (p : Packet) : Nat := bitsOf p.d0.toNat 42 38
def Packet.naccs (p : Packet) : Nat := bitsOf p.d0.toNat 45 43
def Packet.nalg (p : Packet) : Nat := bitsOf p.d0.toNat 49 46
def Packet.bto (p : Packet) : Nat := bitsOf p.d0.toNat 63 50 * 4096
def Packet.gx (p : Packet) : Nat := bitsOf p.d1.toNat 30 0
def Packet.gy (p : Packet) : Nat := bitsOf p.d1.toNat 46 31
def Packet.gz (p : Packet) : Nat := bitsOf p.d1.toNat 62 47
/-- Number of blocks of the grid. -/
def Packet.blocks (p : Packet) : Nat := p.gx * p.gy * p.gz
/-- `.scratch` in bytes. -/
def Packet.scratch (p : Packet) : Nat := 16 * bitsOf p.d2.toNat 21 0
def Packet.hparam (p : Packet) : Nat := bitsOf p.d2.toNat 63 32
/-- The share of a block in each column (R167). -/
def Packet.share (p : Packet) : Nat := roundUp ((p.scratch + 3) / 4) 16
/-- The share as it is allocated (R303). -/
def Packet.run (p : Packet) : Nat := roundUp p.share 8192

/-! ## Engine counters (10_engine_chains.md R32, R239) -/

/-- Counting a new operation of a class, and its number. -/
def State.cntIssue (s : State) (g cls : Nat) : State × Nat :=
  let (id, s) := s.newId
  let s := { s with cntOps := s.cntOps.upd g [] fun l => l ++ [({ cls := cls, id := id } : CntOp)] }
  (s.updGrp g fun x => x.setcnt cls (x.rcnt cls + 1), id)

/-- The operations left after the finished ones at the front of their class retire. -/
def retireOps (cls : Nat) : List CntOp → List CntOp
  | [] => []
  | x :: t => if x.cls = cls then (if x.done then retireOps cls t else x :: t) else x :: retireOps cls t

/-- An operation completes; it and those it held back retire in issue order. -/
def State.cntDone (s : State) (g id : Nat) : State :=
  let l := s.cntOps.getD g []
  match l.find? (·.id = id) with
  | none => s
  | some o =>
    let l := retireOps o.cls (l.map fun x => if x.id = id then { x with done := true } else x)
    let s := { s with cntOps := s.cntOps.put g l [] }
    s.updGrp g fun x => x.setcnt o.cls (l.filter (·.cls = o.cls)).length

/-- An operation that was counted and has not begun is withdrawn. -/
def State.cntUndo (s : State) (g id : Nat) : State :=
  let l := s.cntOps.getD g []
  match l.find? (·.id = id) with
  | none => s
  | some o =>
    let l := retireOps o.cls (l.filter fun x => x.id != id)
    let s := { s with cntOps := s.cntOps.put g l [] }
    s.updGrp g fun x => x.setcnt o.cls (l.filter (·.cls = o.cls)).length
/-- A chain leaves the tables of its engine (R239). -/
def State.removeChain (s : State) (k : Nat) : State :=
  match s.chains.get? k with
  | none => s
  | some c =>
    let drop (l : List Nat) : List Nat := l.filter (· != k)
    let s := { s with chains := s.chains.erase k }
    let s := s.updCore c.core fun x => { x with chainQ := x.chainQ.mapVal fun _ l => drop l, chainCtx := x.chainCtx.mapVal fun _ l => drop l }
    s.updDom (coreDom c.core) fun x => { x with chainQ := drop x.chainQ, chainCtx := drop x.chainCtx }
/-- The chains of a group that stand held at a fault (R257). -/
def State.heldChains (s : State) (g : Nat) : List Nat := (s.chains.keep fun _ c => c.g == g && c.phase == 2).keys
/-- A handler ends the group: its held chains end at their entries and retire (R257). -/
def State.endHeldChains (s : State) (g : Nat) : State := foldState (fun s k => (s.removeChain k).cntDone g k) (s.heldChains g) s
/-- A chain joins the queue of its engine. -/
def State.enqueueChain (s : State) (k : Nat) (c : Chain) : State :=
  if c.cls == 3 then s.updDom (coreDom c.core) fun d => { d with chainQ := d.chainQ ++ [k] }
  else s.updCore c.core fun x => { x with chainQ := x.chainQ.upd c.cls [] fun l => l ++ [k] }
/-- The control handler returns: a held chain whose fault was delivered starts its entry again (R257). -/
def State.restartChains (s : State) (g : Nat) : State :=
  foldState (fun s k => match s.chains.get? k with
    | none => s
    | some c => if c.fault.isSome then s
      else if (if c.cls == 3 then (s.dom (coreDom c.core)).chainCtx else (s.core c.core).chainCtx.getD c.cls []).contains k
      then s.updChain k fun c => { c with phase := 1 }
      else if (if c.cls == 3 then (s.dom (coreDom c.core)).chainQ else (s.core c.core).chainQ.getD c.cls []).contains k
      then s.updChain k fun c => { c with phase := 0 }
      else (s.enqueueChain k c).updChain k fun c => { c with phase := 0 }) (s.heldChains g) s

/-! ## Rounds, domain barriers and the wafer barrier (R204, R205, R438) -/

/-- The round advances: every domain's local cycles restart, and the sequencers see the event. -/
def State.advanceRound (s : State) : State :=
  let s := { s with round := s.round + 1#32, sinceRound := 0, doms := s.doms.mapVal fun _ d => { d with stamp16 := 0 } }
  foldState (fun s d => s.seqEvent d 6 (s.round.setWidth 64) 0) s.doms.keys s

/-- The non-exited groups of a grid, in a domain or anywhere. -/
def State.expected (s : State) (grid : Nat) (d : Option Nat) : List Nat :=
  (s.groups.keep fun _ g => g.live && !g.exited && g.grid == grid &&
    (match d with
     | some d => coreDom g.core == d
     | none => true)).keys

/-- A waiter of a kind, on an object, is released. -/
def Group.release (k : WaitKind) (obj n : Nat) (g : Group) : Group :=
  match g.wait with
  | some w => if w.kind == k && w.obj == obj then { g with wait := some { w with woken := true, n := n } } else g
  | none => g

/-- The phase of a domain barrier completes when every expected group has arrived (R204). -/
def State.dbarCheck (s : State) (d asid id : Nat) : State :=
  let k := 16 * asid + id
  match (s.dom d).dbars.get? k with
  | none => s
  | some b =>
    let ex := s.expected b.grid (some d)
    if !b.arrived.isEmpty && ex.all b.arrived.contains then
      let s := foldState (fun s g => s.updGrp g (Group.release .dbar id 0)) b.arrived s
      s.updDom d fun m => { m with dbars := m.dbars.set k { b with arrived := [], phase := b.phase + 1 } }
    else s

/-- The wafer barrier completes when every expected group of the granted grid has arrived (R205). -/
def State.wbarCheck (s : State) : State :=
  match s.wbarGrid with
  | none => s
  | some n =>
    if !s.wbarArrived.isEmpty && (s.expected n none).all s.wbarArrived.contains then
      let s := s.advanceRound
      let s := foldState (fun s g => s.updGrp g (Group.release .wbar 0 s.round.toNat)) s.wbarArrived s
      { s with wbarArrived := [] }
    else s

/-- Every barrier that an exit may complete. -/
def State.barriersAfterExit (s : State) (d asid grid : Nat) : State :=
  let ids := (List.range 16).filter fun id =>
    match (s.dom d).dbars.get? (16 * asid + id) with
    | some b => b.grid == grid
    | none => false
  let s := foldState (fun s id => s.dbarCheck d asid id) ids s
  if s.wbarGrid = some grid then s.wbarCheck else s

/-! ## The end of groups, blocks and grids -/

/-- Freeing a condition monitor (R196, R312). -/
def State.freeMonitor (s : State) (pa : Nat) : State :=
  let d := homeOf pa
  let k := s.slice d pa
  (s.dirRelease (pa / 128) true).updDom d fun m => { m with monitors := m.monitors.put k (m.monitors.getD k 0 - 1) 0 }

/-- The control stream stands before the issue of its instruction. -/
def Group.standsBack (x : Group) : Bool := x.ctlHeld.isSome || x.wait.any fun w => w.kind.passive
/-- The waiting instruction of a group is abandoned and executes again from its start (R118, R204, R257): its monitor, its
place among the groups that wait for a slot, its arrival at a domain or wafer barrier, and the chain it counted go. -/
def State.abandonWait (s : State) (g : Nat) : State :=
  let x := s.grp g
  let s := match x.wait with
    | some w => if w.armed then s.freeMonitor w.pa else s
    | none => s
  let s := match x.wait.map fun w => w.kind with
    | some .sclm => s.updCore x.core fun c => { c with sclmQ := c.sclmQ.filter (· != g) }
    | some .dbar => s.updDom (coreDom x.core) fun m =>
        { m with dbars := m.dbars.mapVal fun _ b => { b with arrived := b.arrived.filter (· != g) } }
    | some .wbar => { s with wbarArrived := s.wbarArrived.filter (· != g) }
    | some .append => s.cntUndo g ((x.wait.map fun (w : CtlWait) => w.obj).getD 0)
    | _ => s
  s.updGrp g fun x => { x with wait := none }

/-- The registers of a group stay in the chunks that it gives up (R301). -/
def State.keepChunks (s : State) (g : Nat) : State :=
  let x := s.grp g
  let words (i : Nat) : Tab W32 :=
    (x.v.filter fun y => 3072 * i ≤ y.1 && y.1 < 3072 * (i + 1)).map fun y => (y.1 - 3072 * i, y.2)
  s.updCore x.core fun c =>
    { c with spare := x.chunkNos.zipIdx.foldl (fun t y => t.set y.1 { base := some (96 * y.2), words := words y.2 }) c.spare }
/-- A group gives up what it holds on its core (R119, R276). -/
def State.freeGroup (s0 : State) (g : Nat) : State :=
  let s := s0.keepChunks g
  let x := s.grp g
  let s := match x.wait with
    | some w => if w.armed then s.freeMonitor w.pa else s
    | none => s
  let s := s.updCore x.core fun c =>
    { c with slots := c.slots.erase x.slot, chunks := c.chunks - x.nregs / 96,
             tilesUsed := c.tilesUsed.filter fun t => !x.accs.contains t,
             opslots := c.opslots.keep fun _ o => o.holder != g,
             sclmQ := c.sclmQ.filter (· ≠ g), arrayQ := c.arrayQ.filter (·.g ≠ g), fills := c.fills.filter (·.g ≠ g),
             running := c.running.keep fun _ k => k != x.slot, given := c.given.erase x.slot }
  let own (k : Nat) : Bool := match s.chains.get? k with
    | some c => c.g == g
    | none => true
  let drop (l : List Nat) : List Nat := l.filter fun k => !own k
  let s := s.updCore x.core fun c =>
    { c with chainQ := c.chainQ.mapVal fun _ l => drop l, chainCtx := c.chainCtx.mapVal fun _ l => drop l }
  let s := s.updDom (coreDom x.core) fun m => { m with chainQ := drop m.chainQ, chainCtx := drop m.chainCtx }
  { s with chains := s.chains.keep fun _ c => c.g != g, cntOps := s.cntOps.erase g }

/-- The tables of a block on a core are freed (R119). -/
def State.freeTables (s : State) (b core : Nat) : State :=
  match (s.blk b).tables.find? (·.1 = core) with
  | none => s
  | some (_, l) =>
    let s := s.updCore core fun c => { c with tablesUsed := c.tablesUsed.filter fun t => !l.contains t,
                                              tables := c.tables.keep fun k _ => !l.contains k }
    s.updBlk b fun x => { x with tables := x.tables.filter (·.1 ≠ core) }

/-- The scratchpad run of a block is freed. -/
def State.freeRun (s : State) (b : Nat) : State :=
  let x := s.blk b
  s.updDom (quadDom x.quad) fun m =>
    { m with runs := m.runs.upd x.quad [] fun l => l.filter fun r => !(r.1 == x.sbase && r.2 == roundUp x.share 8192) }

/-- A block ends (R119): its scratchpad goes, and its grid has one block fewer to end. -/
def State.endBlock (s : State) (b : Nat) : State :=
  let x := s.blk b
  let s := if x.resident then s.freeRun b else s
  let s := foldState (fun s t => s.freeTables b t.1) x.tables s
  let s := { s with groups := s.groups.keep fun k _ => !x.groups.contains k, blocks := s.blocks.erase b }
  s.updGrid x.grid fun n => { n with live := n.live - 1 }

/-- A group ends by EXIT (R119). -/
def State.exitGroup (s : State) (g : Nat) : State :=
  let x := s.grp g
  let asid := s.asidOf g
  let s := (s.freeGroup g).updGrp g fun x => { x.endRegion with exited := true, wait := none, slots := [], accs := [] }
  let b := s.blk x.block
  let onCore := b.groups.any fun k => k != g && !(s.grp k).exited && (s.grp k).core == x.core
  let s := if onCore then s else s.freeTables x.block x.core
  let s := s.barriersAfterExit (coreDom x.core) asid x.grid
  if b.groups.all fun k => (s.grp k).exited then s.endBlock x.block else s

/-- What is left of a swapped-out group goes: its monitor, its chains and its counts. -/
def State.dropRecord (s : State) (g : Nat) : State :=
  let s := match (s.grp g).wait with
    | some w => if w.armed then s.freeMonitor w.pa else s
    | none => s
  { s with chains := s.chains.keep fun _ c => c.g != g, cntOps := s.cntOps.erase g }
/-- Ending every block of a grid where it stands. -/
def State.dropBlocks (s : State) (seq : Nat) : State :=
  foldState (fun s b =>
    let s := foldState (fun s g => if (s.grp g).exited then s else if (s.grp g).resident then s.freeGroup g else s.dropRecord g) (s.blk b).groups s
    s.endBlock b) (s.blocks.keep fun _ b => b.grid == seq).keys s

/-- Firmware ends a grid (R40, R262, R348): nothing of it runs again, and it completes TRAPPED. -/
def State.trapGrid (s : State) (seq cause cause2 : Nat) : State :=
  let s := s.dropBlocks seq
  let s := { s with colls := s.colls.filter (·.grid ≠ seq) }
  s.updGrid seq fun n => { n with live := 0, nextBlock := n.pkt.blocks, status := 3, cause := cause, cause2 := cause2 }

/-! ## Traps -/

/-- `sys.CAUSE` (01_machine_state.md R42). -/
def causeWord (t : PendTrap) (strm : Bool) : W64 :=
  BitVec.ofNat 32 t.detail ++ BitVec.ofBool strm ++ 0#4 ++ BitVec.ofNat 11 t.opnd ++ 0#3 ++ t.flags ++ BitVec.ofNat 8 t.code

/-- A vector that a trap can enter (R40): nonzero, translating, and executable in its stream. -/
def State.vecOk (s : State) (core asid : Nat) (va : W64) (acc : Access) : Bool :=
  va != 0#64 && (s.lookLeaf core asid va).any fun x =>
    permits acc x.2.2.1 && pteOwned x.2.2.1 core && (s.leafPlace va x.2.1 x.2.2.1).isSome

/-- The physical address that the record of a trap names (R412): of an uncorrectable error, in a table's word too, and of a link that
does not answer. -/
def State.trapPa (s : State) (core asid : Nat) (t : PendTrap) : Nat :=
  let memErr := t.code == cUncorrectable
  if t.pa != 0 then t.pa
  else if !memErr && t.code != cAddrFault || t.faddr == 0#64 || !canonical t.faddr then 0
  else match s.lookLeaf core asid t.faddr with
    | some x => ((s.leafPlace t.faddr x.2.1 x.2.2.1).filter fun pa => memErr || !s.sysUp pa).getD 0
    | none => match s.walkAt (coreDom core) asid t.faddr with
      | .absent 6 _ a => if memErr then a else 0
      | _ => 0
/-- The trap goes to firmware, which ends the grid and logs the trap; a nested trap reports both
causes (R262). UNCORRECTABLE_DATA hands the whole job to core 4 (R11). -/
def State.toFirmware (s : State) (g : Nat) (t : PendTrap) (strm : Bool) (first : Option Nat) : State :=
  let x := s.grp g
  let a := s.asidOf g
  let s := s.logErr { seq := x.grid, cause := causeWord t strm, faddr := t.faddr, epc := if strm then t.pc else x.epc,
                      elpc := if strm then x.elpc else t.pc, pa := s.trapPa x.core a t, stamp := s.stamp (coreDom x.core), handle := s.handle a x.core }
  let s := s.seqEvent (coreDom x.core) 3 (BitVec.ofNat 64 t.code) a
  if t.code = cUncorrectable then
    s.updRidge fun r => { r with rebuildJobs := r.rebuildJobs ++ [(a, cUncorrectable)] }
  else match first with
    | some c => s.trapGrid x.grid c t.code
    | none => s.trapGrid x.grid t.code 0

/-- The STOP record of a group (R452), which it keeps for a dump (R447). -/
def State.stopRecord (s : State) (g : Nat) (p : Parked) (reason : Nat) : State :=
  let x := s.grp g
  let cpc := if p.ctl then p.trap.pc else x.runPc
  let lpc := if p.ctl then 0#64 else p.trap.pc
  let r := s.recordHead g 2#4 cpc 0xFFFFFFFF#32 ++
    [lpc.extractLsb' 0 53 |>.setWidth 64,
     BitVec.ofNat 32 p.trap.detail ++ BitVec.ofNat 21 0 ++ BitVec.ofNat 3 reason ++ BitVec.ofNat 8 p.trap.code,
     p.trap.faddr, p.trap.fmask.setWidth 64]
  (s.updGrp g fun x => { x with stopRec := r }).traceRecord (coreDom x.core) (coreSite x.core) r

/-- Writing the trap registers of a lane trap (R263) or a control trap (R264). -/
def Group.trapRegs (g : Group) (t : PendTrap) (strm : Bool) : Group :=
  let g := { g with cause := causeWord t strm, faddr := t.faddr, fmask := t.fmask.setWidth 64 }
  if strm then { g with epc := t.pc } else { g with elpc := t.pc }

/-- An outstanding SLD of a group that has not read yet reads now; an uncorrectable error that it finds is a pending trap (R102). -/
def State.readSld (s : State) (g k : Nat) : State :=
  match (s.grp g).slds[k]? with
  | none => s
  | some p => match p.src with
    | none => s
    | some x =>
      let core := (s.grp g).core
      let bad := (pieces x.pa x.n x.n).any fun c => s.badLoad core c.1 c.2 x.coh false
      let (s, v) := s.coreLoad core x.pa x.n x.coh .none false
      let t : PendTrap := { code := cUncorrectable, faddr := x.va, pc := x.pc, resume := x.pc, pa := x.pa }
      s.updGrp g fun y => { y with slds := y.slds.set k { d := p.d, value := BitVec.ofNat 64 v }, cpend := if bad then some t else y.cpend }
/-- Every outstanding SLD of a group has read (R282). -/
def State.readSlds (s : State) (g : Nat) : State :=
  let l := (s.grp g).slds
  if l.all fun p => p.src.isNone then s else foldState (fun s k => s.readSld g k) (List.range l.length) s
/-- Outstanding SLDs complete: their values reach their registers (R95). -/
def Group.landSlds (g : Group) : Group := { (g.slds.foldl (fun g p => g.sets p.d p.value) g) with slds := [] }

/-- Parking a group (R444): the stream that stopped sets the trap registers and stops at the trapping
point, where outstanding SLDs have completed, as at a trap of the control stream (R264). -/
def State.park (s : State) (g : Nat) (ctl : Bool) (t : PendTrap) : State :=
  let p : Parked := { reason := t.reason, ctl := ctl, trap := t }
  let s := if ctl then (s.readSlds g).updGrp g Group.landSlds else s
  let s := s.updGrp g fun x => { x.trapRegs t ctl with parked := some p, run := if ctl then x.run else none }
  (s.stopRecord g p t.reason).seqEvent (coreDom (s.grp g).core) 3 (BitVec.ofNat 64 t.code) (s.asidOf g)

/-- A debugger takes the trap instead of a handler (R262, R444): a debug cause at user level while a
debugger is attached. -/
def State.debugTakes (s : State) (g : Nat) (t : PendTrap) : Bool :=
  (t.code == cDebugBreak || t.code == cDebugWatch) && (s.ctx (s.asidOf g)).attached

/-- Every issued lane instruction of the group has completed (R81). -/
def Group.lanesDone (g : Group) : Bool := g.loads.isEmpty && g.ops.all (·.done)

/-- The group is being stopped: its job, for a checkpoint, a rollback or a context switch, or its block, for a migration (R275,
R277, R370, R430, R431). -/
def State.stopping (s : State) (g : Nat) : Bool :=
  let a := s.asidOf g
  let b := s.blk (s.grp g).block
  (s.ctx a).ckptBusy || (s.ctx a).switched || (b.moving && (s.dom (quadDom b.quad)).hot) || s.ridge.rebuildJobs.any fun j => j.1 == a
/-- The group is stopped at its boundaries: it is being stopped, and is in no region (R117, R275). A trap that is raised
meanwhile stays pending until the group resumes. -/
def State.stopsHere (s : State) (g : Nat) : Bool := s.stopping g && !(s.grp g).region

/-- A group of the list is parked. -/
def State.parkedIn (s : State) (l : List Nat) : Bool := l.any fun g => (s.grp g).parked.isSome
/-- The wait of a group stands still: it is parked, or held by the parking of another (R444, R445). -/
def State.standsStill (s : State) (x : Group) (w : CtlWait) : Bool :=
  x.parked.isSome || (w.kind == .bwait && s.parkedIn (s.blk x.block).groups) ||
  (w.kind == .dbar && s.parkedIn (s.groups.keep fun _ y => y.grid == x.grid && coreDom y.core == coreDom x.core).keys)

/-- Entry to the lane handler (R263): the shadow, the trap registers, one split of every live lane at
`sys.LTRAPVEC`, `%tile` = 5, supervisor. It ends a region, as every trap entry does (R117). -/
def Group.enterLane (g : Group) (t : PendTrap) (vec : W64) : Group :=
  let sh : LaneShadow :=
    { v := g.v.keep fun k _ => k < 256, p := g.p, splits := g.splits, tile := g.tile, flags := g.flags,
      resPc := t.resume, resSplit := t.split, viaBreakReg := t.viaBreakReg }
  let g := (g.trapRegs t false).endRegion
  { g with lshadow := some sh, lpend := none, run := none, ops := [], laneBusy := true, laneSup := true, tile := 5,
           splits := [{ id := g.nextSplit, mask := g.livelanes, pc := vec, family := g.nextSplit }],
           nextSplit := g.nextSplit + 1 }

/-- A pending lane trap can be taken (R262, R263): every issued lane instruction has completed, the group is neither stopped nor
parked, and the control stream runs no handler. A nested trap and an uncorrectable error go to firmware all the same. -/
def State.laneTrapDue (s : State) (g : Nat) : Bool :=
  let x := s.grp g
  match x.lpend with
  | none => false
  | some t => x.lanesDone && !s.stopsHere g && x.parked.isNone && (t.code == cUncorrectable || x.laneSup || !x.ctlSup)
/-- Taking the pending lane trap where it can be taken; otherwise the stream goes on standing at the trapping point. UNCORRECTABLE_DATA
leaves its lanes and address in the trap registers (R185). -/
def State.takeLane (s : State) (g : Nat) : State :=
  let x := s.grp g
  match x.lpend with
  | none => s
  | some t =>
    if !s.laneTrapDue g then s
    else if t.code = cUncorrectable then (s.updGrp g fun x => { x.trapRegs t false with lpend := none }).toFirmware g t false none
    else if x.laneSup then s.toFirmware g t false (some (x.cause.toNat % 256))
    else if s.debugTakes g t then (s.updGrp g fun x => { x with lpend := none, ops := [] }).park g false t
    else
      let a := s.asidOf g
      let vec := (s.ctx a).ltrapvec
      if !s.vecOk x.core a vec .laneFetch then s.toFirmware g t false none
      else (s.setGrp g (x.enterLane t vec)).seqEvent (coreDom x.core) 3 (BitVec.ofNat 64 t.code) a

/-- Entry to the control handler (R264): the shadow of s56 to s63, the trap registers with STRM = 1,
the end of any region, and `sys.CTRAPVEC` at supervisor level. -/
def Group.enterCtl (g : Group) (t : PendTrap) (vec : W64) : Group :=
  let sh : CtlShadow := { s := g.s.keep fun k _ => 56 ≤ k, resPc := t.resume, viaBreakReg := t.viaBreakReg }
  let g := (g.trapRegs t true).endRegion
  { g with cshadow := some sh, cpend := none, wait := none, ctlSup := true, cpc := vec, ctlHeld := none, noBreak := false }

/-- A pending control trap can be taken (R262, R264). -/
def State.ctlTrapDue (s : State) (g : Nat) : Bool :=
  let x := s.grp g
  match x.cpend with
  | none => false
  | some t => !s.stopsHere g && x.parked.isNone && (t.code == cUncorrectable || x.ctlSup || !x.laneSup)
/-- Taking the pending control trap where it can be taken. -/
def State.takeCtl (s : State) (g : Nat) : State :=
  let s := if (s.grp g).cpend.isSome then (s.readSlds g).updGrp g Group.landSlds else s
  match (s.grp g).cpend with
  | none => s
  | some t =>
    let x := s.grp g
    if !s.ctlTrapDue g then s
    else if t.code = cUncorrectable then (s.updGrp g fun x => { x.trapRegs t true with cpend := none }).toFirmware g t true none
    else if x.ctlSup then s.toFirmware g t true (some (x.cause.toNat % 256))
    else if s.debugTakes g t then (s.updGrp g fun x => { x with cpend := none }).park g true t
    else
      let a := s.asidOf g
      let vec := (s.ctx a).ctrapvec
      if !s.vecOk x.core a vec .ctlFetch then s.toFirmware g t true none
      else (s.setGrp g (x.enterCtl t vec)).seqEvent (coreDom x.core) 3 (BitVec.ofNat 64 t.code) a

/-- A lane instruction of the chosen split traps: the stream stops at it, and the trap is taken as
soon as it can be. -/
def State.raiseLane (s : State) (t : PendTrap) : State :=
  (s.updCg fun g => { g with lpend := some t, run := none }).takeLane s.cur.g

/-- The control stream of the chosen group traps. -/
def State.raiseCtl (s : State) (t : PendTrap) : State :=
  (s.updCg fun g => { g with cpend := some t }).takeCtl s.cur.g

/-- A precise control trap at the instruction that executes (R97). -/
def State.trapCtl (s : State) (code : Nat) (detail : Nat := 0) (opnd : Nat := 0) (faddr : W64 := 0#64) (pa : Nat := 0) : State :=
  s.raiseCtl { code := code, detail := detail, opnd := opnd, faddr := faddr, pc := s.cg.cpc, resume := s.cg.cpc, pa := pa }

/-- A lane trap at the instruction that executes, with its faulters (R89, R263). -/
def State.trapLane (s : State) (code : Nat) (fmask : W32) (detail : Nat := 0) (opnd : Nat := 0)
    (faddr : W64 := 0#64) (flags : BitVec 5 := 0#5) (pa : Nat := 0) : State :=
  s.raiseLane { code := code, detail := detail, opnd := opnd, flags := flags, faddr := faddr, fmask := fmask,
                pc := s.csplit.pc, resume := s.csplit.pc, split := s.cur.split, pa := pa }

/-- A word of the lane shadow. -/
def LaneShadow.word (h : LaneShadow) (r lane : Nat) : W32 := h.v.getD (32 * r + lane) (0x7FB00000#32 ||| BitVec.ofNat 32 r)
/-- The return from the lane handler (R268): the shadow comes back, and the trapping split continues
at the lane resume point. -/
def Group.leaveLane (g : Group) : Group :=
  match g.lshadow with
  | none => { g with laneSup := false }
  | some sh =>
    let g := { g with p := sh.p, splits := sh.splits, tile := sh.tile, flags := sh.flags, lshadow := none,
                      laneSup := false, run := none, ops := [] }
    let g := (List.range 256).foldl (fun g k => g.setv (k / 32) (k % 32) (sh.word (k / 32) (k % 32))) g
    g.updSplit sh.resSplit fun x => { x with pc := sh.resPc, wait := .ready, noBreak := sh.viaBreakReg }

/-- The return from the control handler (R268). -/
def Group.leaveCtl (g : Group) : Group :=
  match g.cshadow with
  | none => { g with ctlSup := false }
  | some sh =>
    let g := { g with cpc := sh.resPc, cshadow := none, ctlSup := false, noBreak := sh.viaBreakReg }
    (List.range 8).foldl (fun g k => g.sets (56 + k) (sh.s.getD (56 + k) 0#64)) g

/-- The group whose run a strand executes; none between runs. -/
def State.onStrand (s : State) (core strand : Nat) : Option Nat :=
  match ((s.core core).running.get? strand).bind fun k => (s.core core).slots.get? k with
  | some g => if (s.grp g).run.isSome then some g else none
  | none => none

end Sys2Proof.Machine
end

