-- ==== Sys2Proof/Machine/Flags.lean ====
section
/-!
DEFINITION. The floating-point flags (01_machine_state.md R34, R41) and the outcome of one lane of a
floating-point instruction: its result, the flags it raises and whether it counts for FIV.
-/

namespace Sys2Proof.Machine

/-- Bits of the flag word: IV, DZ, OF, UF, NX from bit 4 down to bit 0 (R39, R116). -/
def fIV : BitVec 5 := 0x10#5
def fDZ : BitVec 5 := 0x08#5
def fOF : BitVec 5 := 0x04#5
def fUF : BitVec 5 := 0x02#5
def fNX : BitVec 5 := 0x01#5

/-- A flag when a condition holds. -/
def flagIf (b : Bool) (f : BitVec 5) : BitVec 5 := if b then f else 0#5

/-- `IsMarker` (R22, R43). -/
def isMarker (x : W32) : Bool := x &&& 0xFFFFF800#32 == 0x7FB00000#32

/-- What one lane, or one operation of a lane, computes: the value's bits, the flags, and whether
IV has a cause other than a marker (R41). -/
structure FpRes where
  val : Nat
  flags : BitVec 5 := 0#5
  counts : Bool := false
  deriving DecidableEq, Repr

/-- The flags of `sys.TRAPEN` whose trap is enabled, other than FIV (R41). -/
def trapMask (trapen : W64) : BitVec 5 :=
  flagIf (trapen.getLsbD 2) fDZ ||| flagIf (trapen.getLsbD 3) fOF ||| flagIf (trapen.getLsbD 4) fUF |||
  flagIf (trapen.getLsbD 5) fNX

/-- A lane that takes FP_TRAP, by its flags and whether it counts for FIV (R41). -/
def fpTraps (trapen : W64) (flags : BitVec 5) (counts : Bool) : Bool :=
  flags &&& trapMask trapen != 0#5 || (trapen.getLsbD 1 && counts)

/-- The flags of a list of results. -/
def flagsOf (l : List FpRes) : BitVec 5 := l.foldl (fun f r => f ||| r.flags) 0#5

/-- `RaiseFlags` (R43). -/
def Group.raise (g : Group) (f : BitVec 5) : Group := { g with flags := g.flags ||| f }

end Sys2Proof.Machine
end

