-- ==== Sys2Proof/Machine/Float.lean ====
section
/-!
DEFINITION. Floating-point formats, exact values, rounding and overflow (02_number_formats.md R45 to R49, R56 to R58),
and the arithmetic of one element (06_lane_float_conversion_algebra.md R148 to R152).
-/

namespace Sys2Proof.Machine

/-- What the all-ones exponent holds (R45). -/
inductive Special where
  /-- Infinity and NaNs. -/
  | ieee
  /-- Normal values, and one NaN of each sign (E4M3). -/
  | oneNan
  /-- Normal values. -/
  | none
  deriving DecidableEq, Repr

/-- A floating-point format (R45). -/
structure Format where
  eb : Nat
  mb : Nat
  bias : Nat
  special : Special
  deriving DecidableEq, Repr

def fp32 : Format := ⟨8, 23, 127, .ieee⟩
def fp16 : Format := ⟨5, 10, 15, .ieee⟩
def bf16 : Format := ⟨8, 7, 127, .ieee⟩
def e4m3 : Format := ⟨4, 3, 7, .oneNan⟩
def e5m2 : Format := ⟨5, 2, 15, .ieee⟩
def e3m2 : Format := ⟨3, 2, 3, .none⟩
def e2m3 : Format := ⟨2, 3, 1, .none⟩
def e2m1 : Format := ⟨2, 1, 1, .none⟩

/-- A decoded element: a NaN, signalling or not, read from a marker or not; an infinity; or the
exact value (−1)^neg × man × 2^exp, a zero keeping its sign. -/
inductive FV where
  | nan (sig mk : Bool)
  | inf (neg : Bool)
  | fin (neg : Bool) (man : Nat) (exp : Int)
  deriving DecidableEq, Repr

/-- A rounding rule: one of the modes of R56, or the ties-away rule `RoundTA` (R43, R62). -/
inductive Rounding where
  | mode (m : Rnd)
  | away
  deriving DecidableEq, Repr

/-! ## Encodings -/

/-- The sign bit in place. -/
def Format.sign (f : Format) (neg : Bool) : Nat := if neg then 2 ^ (f.eb + f.mb) else 0
/-- The code of the largest finite magnitude. -/
def Format.maxCode (f : Format) : Nat :=
  match f.special with
  | .ieee => (2 ^ f.eb - 1) * 2 ^ f.mb - 1
  | .oneNan => 2 ^ (f.eb + f.mb) - 2
  | .none => 2 ^ (f.eb + f.mb) - 1
/-- The canonical quiet NaN (R47); formats without one give the zero code (R58). -/
def Format.qnan (f : Format) : Nat :=
  match f.special with
  | .ieee => (2 ^ f.eb - 1) * 2 ^ f.mb + 2 ^ (f.mb - 1)
  | .oneNan => 2 ^ (f.eb + f.mb) - 1
  | .none => 0
/-- The code of an infinity, where the format has one. -/
def Format.infCode (f : Format) (neg : Bool) : Nat := f.sign neg + (2 ^ f.eb - 1) * 2 ^ f.mb
/-- The exponent of the lowest bit of a subnormal. -/
def Format.qmin (f : Format) : Int := 1 - (f.bias : Int) - f.mb
/-- Decoding (R45); `mk` says that the bits come from a marker. -/
def Format.unpack (f : Format) (x : Nat) (mk : Bool := false) : FV :=
  let neg := bitOf x (f.eb + f.mb)
  let c := x % 2 ^ (f.eb + f.mb)
  let e := c / 2 ^ f.mb
  let m := c % 2 ^ f.mb
  if f.maxCode < c then
    if f.special == .ieee && m == 0 then .inf neg
    else .nan (f.special == .ieee && m < 2 ^ (f.mb - 1)) mk
  else if e == 0 then .fin neg m f.qmin
  else .fin neg (2 ^ f.mb + m) (f.qmin + e - 1)

/-! ## Rounding (R46, R54, R56, R57) -/

/-- Whether a magnitude n + r / 2^k rounds up. -/
def roundsUp (k : Rounding) (neg : Bool) (n r d : Nat) : Bool :=
  match k with
  | .mode .rn => d < 2 * r || (2 * r == d && n % 2 == 1)
  | .mode .rz => false
  | .mode .ru => !neg && r != 0
  | .mode .rd => neg && r != 0
  | .away => d ≤ 2 * r && r != 0
/-- man × 2^exp as a count of units 2^q, rounded, and whether it is inexact. A shift that leaves
nothing but a small remainder is cut short. -/
def roundUnits (k : Rounding) (neg : Bool) (man : Nat) (exp q : Int) : Nat × Bool :=
  if q ≤ exp then (man * 2 ^ (exp - q).toNat, false)
  else
    let sh := (q - exp).toNat
    let (man, sh) := if man != 0 && Nat.log2 man + 2 < sh then (1, 3) else (man, sh)
    let n := man / 2 ^ sh
    let r := man % 2 ^ sh
    (if roundsUp k neg n r (2 ^ sh) then n + 1 else n, r != 0)
/-- The magnitude code that a nonzero man × 2^exp rounds to in the format continued past its largest
value, and whether it is inexact. -/
def Format.roundMag (f : Format) (k : Rounding) (neg : Bool) (man : Nat) (exp : Int) : Nat × Bool :=
  let q := max (exp + Nat.log2 man - f.mb) f.qmin
  let (n, inexact) := roundUnits k neg man exp q
  ((q - f.qmin).toNat * 2 ^ f.mb + n, inexact)
/-- The result of a finite value that overflows (R57): `sat` is `.sat` of E5M2 and `.nsat` of E4M3. -/
def Format.overflow (f : Format) (k : Rounding) (sat neg : Bool) : Nat :=
  let largest := f.sign neg + f.maxCode
  match f.special with
  | .none => largest
  | .oneNan => if sat then f.qnan else largest
  | .ieee =>
    if sat then largest
    else match k with
      | .mode .rz => largest
      | .mode .ru => if neg then largest else f.infCode neg
      | .mode .rd => if neg then f.infCode neg else largest
      | _ => f.infCode neg
/-- `Round`: a finite value in a format, with its flags. -/
def Format.round (f : Format) (k : Rounding) (sat neg : Bool) (man : Nat) (exp : Int) : FpRes :=
  if man == 0 then { val := f.sign neg }
  else
    let (c, inexact) := f.roundMag k neg man exp
    if f.maxCode < c then { val := f.overflow k sat neg, flags := fOF ||| fNX }
    else { val := f.sign neg + c, flags := flagIf inexact fNX ||| flagIf (inexact && c < 2 ^ f.mb) fUF }
/-- `RoundNE`. -/
def Format.ne (f : Format) (neg : Bool) (man : Nat) (exp : Int) : FpRes := f.round (.mode .rn) false neg man exp
/-- An infinite input in a format (R57). -/
def Format.ofInf (f : Format) (sat neg : Bool) : FpRes :=
  match f.special with
  | .none => { val := f.sign neg + f.maxCode, flags := fIV, counts := true }
  | .oneNan => { val := if sat then f.qnan else f.sign neg + f.maxCode, flags := fIV, counts := true }
  | .ieee => if sat then { val := f.sign neg + f.maxCode, flags := fIV, counts := true } else { val := f.infCode neg }

/-! ## NaN operands (R47, R41) -/

def FV.isNan : FV → Bool
  | .nan _ _ => true
  | _ => false
def FV.isInf : FV → Bool
  | .inf _ => true
  | _ => false
def FV.isZero : FV → Bool
  | .fin _ m _ => m == 0
  | _ => false
/-- A signalling NaN. -/
def FV.sig : FV → Bool
  | .nan s _ => s
  | _ => false
/-- A signalling NaN that is not a marker. -/
def FV.own : FV → Bool
  | .nan s mk => s && !mk
  | _ => false
/-- A NaN of any kind that is not a marker. -/
def FV.ownNan : FV → Bool
  | .nan _ mk => !mk
  | _ => false
def FV.neg : FV → Bool
  | .nan _ _ => false
  | .inf n => n
  | .fin n _ _ => n
/-- The value with its sign inverted. -/
def FV.negate : FV → FV
  | .nan s mk => .nan s mk
  | .inf n => .inf !n
  | .fin n m e => .fin (!n) m e

/-- IV for signalling NaN operands and an invalid operation, beside a value and its flags. -/
def ivRes (xs : List FV) (invalid : Bool) (val : Nat) (flags : BitVec 5 := 0#5) : FpRes :=
  { val := val, flags := flagIf (invalid || xs.any FV.sig) fIV ||| flags, counts := invalid || xs.any FV.own }
/-- The canonical NaN as a result. -/
def Format.nanRes (f : Format) (xs : List FV) (invalid : Bool) : FpRes := ivRes xs invalid f.qnan

/-! ## Arithmetic (R148) -/

/-- The signed multiple of 2^q that a finite value is, for q at most its exponent. -/
def signedUnits (neg : Bool) (man : Nat) (exp q : Int) : Int :=
  let n : Int := man * 2 ^ (exp - q).toNat
  if neg then -n else n
/-- The exact sum of two finite values, rounded once; an exact zero sum has the sign of R148. -/
def Format.sum (f : Format) (m : Rnd) (n1 : Bool) (m1 : Nat) (e1 : Int) (n2 : Bool) (m2 : Nat) (e2 : Int) : FpRes :=
  let q := min e1 e2
  let t := signedUnits n1 m1 e1 q + signedUnits n2 m2 e2 q
  if t == 0 then { val := f.sign (m == .rd || (m1 == 0 && m2 == 0 && n1 && n2)) }
  else f.round (.mode m) false (t < 0) t.natAbs q
/-- x + y. -/
def Format.add (f : Format) (m : Rnd) (x y : FV) : FpRes :=
  match x, y with
  | .fin n1 m1 e1, .fin n2 m2 e2 => f.sum m n1 m1 e1 n2 m2 e2
  | .inf n1, .inf n2 => if n1 == n2 then { val := f.infCode n1 } else f.nanRes [] true
  | .inf n1, .fin _ _ _ => { val := f.infCode n1 }
  | .fin _ _ _, .inf n2 => { val := f.infCode n2 }
  | _, _ => f.nanRes [x, y] false
/-- 0 × ∞ in either order. -/
def zeroTimesInf (x y : FV) : Bool := (x.isZero && y.isInf) || (x.isInf && y.isZero)
/-- x × y. -/
def Format.mul (f : Format) (m : Rnd) (x y : FV) : FpRes :=
  if x.isNan || y.isNan then f.nanRes [x, y] false
  else if zeroTimesInf x y then f.nanRes [] true
  else match x, y with
    | .fin n1 m1 e1, .fin n2 m2 e2 => f.round (.mode m) false (n1 != n2) (m1 * m2) (e1 + e2)
    | _, _ => { val := f.infCode (x.neg != y.neg) }
/-- x × y + z with one rounding. -/
def Format.fma (f : Format) (m : Rnd) (x y z : FV) : FpRes :=
  if zeroTimesInf x y then f.nanRes [z] true
  else if x.isNan || y.isNan || z.isNan then f.nanRes [x, y, z] false
  else match x, y, z with
    | .fin n1 m1 e1, .fin n2 m2 e2, .fin n3 m3 e3 => f.sum m (n1 != n2) (m1 * m2) (e1 + e2) n3 m3 e3
    | .fin _ _ _, .fin _ _ _, .inf n3 => { val := f.infCode n3 }
    | _, _, .inf n3 => if (x.neg != y.neg) == n3 then { val := f.infCode n3 } else f.nanRes [] true
    | _, _, _ => { val := f.infCode (x.neg != y.neg) }
/-- x / y with one rounding (R153): the quotient to 100 bits and a sticky bit. -/
def Format.div (f : Format) (x y : FV) : FpRes :=
  if x.isNan || y.isNan then f.nanRes [x, y] false
  else if (x.isZero && y.isZero) || (x.isInf && y.isInf) then f.nanRes [] true
  else
    let neg := x.neg != y.neg
    match x, y with
    | .fin _ m1 e1, .fin _ m2 e2 =>
      if m2 == 0 then { val := f.infCode neg, flags := fDZ }
      else
        let n := m1 * 2 ^ 100
        f.ne neg (2 * (n / m2) + (if n % m2 == 0 then 0 else 1)) (e1 - e2 - 101)
    | .inf _, _ => { val := f.infCode neg }
    | _, _ => { val := f.sign neg }
/-- The bits of the integer square root from a bit number down. -/
def sqrtFrom (n : Nat) : Nat → Nat → Nat
  | 0, r => r
  | k + 1, r => sqrtFrom n k (if (r + 2 ^ k) * (r + 2 ^ k) ≤ n then r + 2 ^ k else r)
/-- floor(√n). -/
def natSqrt (n : Nat) : Nat := sqrtFrom n (Nat.log2 n / 2 + 1) 0
/-- √x with one rounding (R153). -/
def Format.sqrt (f : Format) (x : FV) : FpRes :=
  match x with
  | .nan _ _ => f.nanRes [x] false
  | .inf neg => if neg then f.nanRes [] true else { val := f.infCode false }
  | .fin neg man exp =>
    if man == 0 then { val := f.sign neg }
    else if neg then f.nanRes [] true
    else
      let (man, exp) := if exp % 2 == 0 then (man, exp) else (2 * man, exp - 1)
      let n := man * 2 ^ 60
      let r := natSqrt n
      f.ne false (2 * r + (if r * r == n then 0 else 1)) (exp / 2 - 31)

/-! ## Comparison, minimum and maximum, class, rounding to an integral value (R149 to R152) -/

/-- An integer that rises with the value of an encoding; −0 is just below +0. -/
def Format.rank (f : Format) (x : Nat) : Int :=
  let c : Int := x % 2 ^ (f.eb + f.mb)
  if bitOf x (f.eb + f.mb) then -c - 1 else c
/-- FMIN and FMAX on two encodings and their decoded values. -/
def Format.minMax (f : Format) (isMax num : Bool) (x : Nat) (vx : FV) (y : Nat) (vy : FV) : FpRes :=
  if vx.isNan && vy.isNan || !num && (vx.isNan || vy.isNan) then f.nanRes [vx, vy] false
  else if vx.isNan then ivRes [vx] false y
  else if vy.isNan then ivRes [vy] false x
  else { val := if isMax then (if f.rank y ≤ f.rank x then x else y) else (if f.rank x ≤ f.rank y then x else y) }
/-- The relation that FSET tests on ordered operands, −0 equal to +0. -/
def Format.holds (f : Format) (c : LCond) (x y : Nat) : Bool :=
  let z (x : Nat) : Int := if x % 2 ^ (f.eb + f.mb) == 0 then 0 else f.rank x
  match c with
  | .eq => z x == z y
  | .ne => z x != z y
  | .lt => z x < z y
  | .le => z x ≤ z y
  | .gt => z y < z x
  | .ge => z y ≤ z x
/-- FSET (R150): the predicate as 0 or 1. -/
def fset (f : Format) (c : CmpField) (x : Nat) (vx : FV) (y : Nat) (vy : FV) : FpRes :=
  if vx.isNan || vy.isNan then
    let ordered := !c.x && c.cond != .eq && c.cond != .ne
    let quiet (v : FV) : Bool := v.isNan && !v.sig
    ivRes [vx, vy] (ordered && (quiet vx || quiet vy)) (if c.x || c.cond == .ne then 1 else 0)
  else { val := if f.holds c.cond x y then 1 else 0 }
/-- The bit of FCLASS (R151). -/
def classBit (x : W32) : Nat :=
  let sub := x.toNat % 2 ^ 31 < 2 ^ 23
  match fp32.unpack x.toNat with
  | .nan s _ => if s then 8 else 9
  | .inf n => if n then 0 else 7
  | .fin n m _ => if m == 0 then (if n then 3 else 4) else if n then (if sub then 2 else 1) else if sub then 5 else 6
/-- FRND (R152). -/
def Format.integral (f : Format) (k : FrndOp) (x : Nat) (v : FV) : FpRes :=
  match v with
  | .nan _ _ => f.nanRes [v] false
  | .inf _ => { val := x }
  | .fin neg man exp =>
    if man == 0 || 0 ≤ exp then { val := x }
    else
      let m : Rnd := match k with
        | .ne => .rn | .tr => .rz | .ce => .ru | .fl => .rd
      { val := (f.ne neg (roundUnits (.mode m) neg man exp 0).1 0).val }
/-- A value in another floating-point format (R57, R58), each element by itself. -/
def Format.convert (f : Format) (k : Rounding) (sat : Bool) (v : FV) : FpRes :=
  match v with
  | .nan sig mkr =>
    if f.special == .none then { val := 0, flags := fIV, counts := true }
    else ivRes [.nan sig mkr] false f.qnan
  | .inf neg => f.ofInf sat neg
  | .fin neg man exp => f.round k sat neg man exp

end Sys2Proof.Machine
end

