-- ==== Sys2Proof/Machine/FloatFn.lean ====
section
/-!
DEFINITION. The functions of 06_lane_float_conversion_algebra.md R153. Each is computed in fixed point with 640
fraction bits and rounded once; the value is irrational wherever a sticky bit is set, and no FP32
input lies so close to a rounding boundary that 640 bits could decide it wrongly (assumption 12).
-/

namespace Sys2Proof.Machine

/-- Fraction bits of the fixed-point values. -/
def fpPrec : Nat := 640
/-- 1 in fixed point. -/
def fpOne : Nat := 2 ^ fpPrec

/-- Σ ± z^(2k+1) / (2k+1) from k on, z² = num / den, t = z^(2k+1) in fixed point. -/
def oddSeries (alt : Bool) (num den : Nat) : Nat → Nat → Nat → Int
  | 0, _, _ => 0
  | n + 1, k, t =>
    let x : Int := t / (2 * k + 1)
    (if alt && k % 2 == 1 then -x else x) + oddSeries alt num den n (k + 1) (t * num / den)
/-- arctan(1/n) in fixed point. -/
def atanInv (n : Nat) : Int := oddSeries true 1 (n * n) 150 0 (fpOne / n)
/-- π / 2, by Machin's formula. -/
def halfPi : Nat := (8 * atanInv 5 - 2 * atanInv 239).toNat
/-- ln 2 = 2 artanh(1/3). -/
def lnTwo : Nat := (2 * oddSeries false 1 9 210 0 (fpOne / 3)).toNat
/-- Σ r^n / n! from n on, without the terms before it: t = r^(n−1) / (n−1)!. -/
def expSeries (r : Nat) : Nat → Nat → Nat → Nat
  | 0, _, _ => 0
  | k + 1, n, t =>
    let u := t * r / fpOne / n
    u + expSeries r k (n + 1) u
/-- e^r − 1 for 0 ≤ r < 1. -/
def expm1 (r : Nat) : Nat := expSeries r 140 1 fpOne
/-- The alternating series of sine (n = 1, t = r) and cosine (n = 0, t = 1). -/
def trigSeries (r : Nat) : Nat → Nat → Nat → Int
  | 0, _, _ => 0
  | k + 1, n, t => (t : Int) - trigSeries r k (n + 2) (t * r / fpOne * r / fpOne / ((n + 1) * (n + 2)))
/-- sin(π/2 · quarter + x), with the quadrant of x reduced exactly. -/
def sinFrom (quarter : Nat) (x : Nat) : Int :=
  let q := x / halfPi
  let r := x % halfPi
  let v := if (q + quarter) % 2 == 0 then trigSeries r 80 1 r else trigSeries r 80 0 fpOne
  if (q + quarter) % 4 < 2 then v else -v

/-- A magnitude in fixed point: FP32 exponents are at least −149. -/
def fixedOf (man : Nat) (exp : Int) : Nat := man * 2 ^ (exp + fpPrec).toNat
/-- Rounding an irrational fixed-point value to FP32. -/
def roundFixed (neg : Bool) (v : Nat) : FpRes := fp32.ne neg (2 * v + 1) (-1 - (fpPrec : Int))

/-- FRCP. -/
def fnRcp (x : FV) : FpRes := fp32.div (.fin false 1 0) x
/-- FSQRT. -/
def fnSqrt (x : FV) : FpRes := fp32.sqrt x
/-- FRSQ. -/
def fnRsq (x : FV) : FpRes :=
  match x with
  | .nan _ _ => fp32.nanRes [x] false
  | .inf neg => if neg then fp32.nanRes [] true else { val := 0 }
  | .fin neg man exp =>
    if man == 0 then { val := fp32.infCode neg, flags := fDZ }
    else if neg then fp32.nanRes [] true
    else
      let (man, exp) := if exp % 2 == 0 then (man, exp) else (2 * man, exp - 1)
      let r := natSqrt (2 ^ 400 / man)
      fp32.ne false (2 * r + (if r * r * man == 2 ^ 400 then 0 else 1)) (-(exp / 2) - 201)
/-- FEX2. -/
def fnEx2 (x : FV) : FpRes :=
  match x with
  | .nan _ _ => fp32.nanRes [x] false
  | .inf neg => { val := if neg then 0 else fp32.infCode false }
  | .fin neg man exp =>
    if man == 0 then { val := 0x3F800000 }
    else if 8 ≤ exp + Nat.log2 man then fp32.ne false 1 (if neg then -400 else 400)
    else
      let y : Int := if neg then -(fixedOf man exp : Int) else fixedOf man exp
      let k := y / fpOne
      let r := (y % fpOne).toNat
      if r == 0 then fp32.ne false 1 k
      else fp32.ne false (2 * (fpOne + expm1 (r * lnTwo / fpOne)) + 1) (k - 1 - fpPrec)
/-- FLG2. -/
def fnLg2 (x : FV) : FpRes :=
  match x with
  | .nan _ _ => fp32.nanRes [x] false
  | .inf neg => if neg then fp32.nanRes [] true else { val := fp32.infCode false }
  | .fin neg man exp =>
    if man == 0 then { val := fp32.infCode true, flags := fDZ }
    else if neg then fp32.nanRes [] true
    else
      let k : Int := exp + Nat.log2 man
      if man == 2 ^ Nat.log2 man then fp32.ne (k < 0) k.natAbs 0
      else
        let g := man * fpOne / 2 ^ Nat.log2 man
        let z := (g - fpOne) * fpOne / (g + fpOne)
        let ln := (2 * oddSeries false (z * z) (fpOne * fpOne) 210 0 z).toNat
        let v : Int := k * fpOne + (ln * fpOne / lnTwo : Nat)
        roundFixed (v < 0) v.natAbs
/-- FSIN and FCOS. -/
def fnTrig (cosine : Bool) (x : FV) : FpRes :=
  match x with
  | .nan _ _ => fp32.nanRes [x] false
  | .inf _ => fp32.nanRes [] true
  | .fin neg man exp =>
    if man == 0 then { val := if cosine then 0x3F800000 else fp32.sign neg }
    else
      let v := sinFrom (if cosine then 1 else 0) (fixedOf man exp)
      roundFixed ((v < 0) != (neg && !cosine)) v.natAbs
/-- FTANH: (e^2y − 1) / (e^2y + 1); beyond 64 the result differs from ±1 by less than 2^−100. -/
def fnTanh (x : FV) : FpRes :=
  match x with
  | .nan _ _ => fp32.nanRes [x] false
  | .inf neg => { val := fp32.sign neg + 0x3F800000 }
  | .fin neg man exp =>
    if man == 0 then { val := fp32.sign neg }
    else if 6 ≤ exp + Nat.log2 man then fp32.ne neg (2 ^ 100 - 1) (-100)
    else
      let y := 2 * fixedOf man exp
      let t := 2 ^ (y / lnTwo) * (fpOne + expm1 (y % lnTwo))
      roundFixed neg ((t - fpOne) * fpOne / (t + fpOne))

/-- A packed form: the FP32 result narrowed, with the flags of the final element against the exact
value. -/
def packedFn (f : Format) (fn : FV → FpRes) (v : FV) : FpRes :=
  let r := fn v
  let h := f.convert (.mode .rn) false (fp32.unpack r.val)
  let fl := (r.flags ||| h.flags) &&& ~~~ fUF
  let tiny := h.val % 2 ^ (f.eb + f.mb) < 2 ^ f.mb
  { val := h.val, flags := fl ||| flagIf (fl &&& fNX != 0#5 && tiny) fUF, counts := r.counts }

end Sys2Proof.Machine
end

