-- ==== Sys2Proof/Machine/Operands.lean ====
section
/-!
DEFINITION. Every operand form: the 11-bit operand space of the lane stream (03_encoding_and_assembly.md
R78, R83, R84; 01_machine_state.md R21, R24, R25), the checks of R89 on operand fields, the s registers of the
control stream (04_control_stream.md R95), and scratchpad addresses (07_memory_instructions.md R167).
-/

namespace Sys2Proof

/-- HA of an encoding (R78). -/
def LaneEnc.ha (e : LaneEnc) : Bool :=
  match e.form with
  | .r96 _ h _ _ => h
  | _ => false
/-- HB of an encoding. -/
def LaneEnc.hb (e : LaneEnc) : Bool :=
  match e.form with
  | .r96 _ _ h _ => h
  | _ => false
/-- HC of an encoding. -/
def LaneEnc.hc (e : LaneEnc) : Bool :=
  match e.form with
  | .r96 _ _ _ h => h
  | _ => false
/-- Length in bytes of a long instruction (R77, R78). -/
def LaneEnc.bytes (e : LaneEnc) : Nat :=
  match e.form with
  | .l64 => 8
  | _ => 12

end Sys2Proof

namespace Sys2Proof.Machine

/-! ## The control stream -/

/-- An outstanding SLD writes this register. -/
def Group.pendingS (g : Group) (r : Nat) : Bool := g.slds.any fun p => p.d == r

/-- A control instruction that reads or writes the listed s registers: it waits, changing nothing,
while an outstanding SLD writes one of them (R95). -/
def State.ctlGo (s : State) (regs : List Nat) (eff : State → State) : State :=
  if regs.any s.cg.pendingS then s else eff s

/-- A privileged control instruction traps ILLEGAL_INSTR at user level (R38, R70). -/
def State.ctlPriv (s : State) (eff : State → State) : State :=
  if s.cg.ctlSup then eff s else s.trapCtl cIllegalInstr

/-- Writing S[d] and moving on. -/
def State.ctlDone (s : State) (d : Nat) (x : W64) : State := (s.updCg fun g => g.sets d x).advance

/-- The control stream issues its instruction, and waits in it (R454). -/
def State.standIn (s : State) (w : CtlWait) : State := s.issuedCtl.updCg fun g => { g with wait := some w }
/-- The control stream waits at its instruction: the first time, the wait is recorded. -/
def State.ctlWait (s : State) (w : CtlWait) : State :=
  s.updCg fun g => match g.wait with
    | some x => if x.kind == w.kind then g else { g with wait := some w }
    | none => { g with wait := some w }

/-! ## Inline constants (R83, R84) -/

/-- The FP32 patterns of codes 1680 to 1695. -/
def constF32 : List Nat :=
  [0x3F000000, 0x3F800000, 0x40000000, 0x40800000, 0xBF000000, 0xBF800000, 0xC0000000, 0xC0800000,
   0x3E800000, 0x41000000, 0x40490FDB, 0x3F317218, 0x3FB8AA3B, 0x3E22F983, 0x7F800000, 0xFF800000]
/-- Their FP16 halves. -/
def constF16 : List Nat :=
  [0x3800, 0x3C00, 0x4000, 0x4400, 0xB800, 0xBC00, 0xC000, 0xC400,
   0x3400, 0x4800, 0x4248, 0x398C, 0x3DC5, 0x3118, 0x7C00, 0xFC00]
/-- Their BF16 halves. -/
def constBF16 : List Nat :=
  [0x3F00, 0x3F80, 0x4000, 0x4080, 0xBF00, 0xBF80, 0xC000, 0xC080,
   0x3E80, 0x4100, 0x4049, 0x3F31, 0x3FB9, 0x3E23, 0x7F80, 0xFF80]

/-- A floating-point inline constant as a position receives it (R84). -/
def fpConst (w : FW) (k : Nat) : W32 :=
  match w with
  | .f32 => BitVec.ofNat 32 (constF32.getD k 0)
  | .h2 => BitVec.ofNat 32 (constF16.getD k 0 * 0x10001)
  | .bh2 => BitVec.ofNat 32 (constBF16.getD k 0 * 0x10001)

/-! ## `Opnd` (R24, R43, R83) -/

/-- The special lane values of codes 1600 to 1609 (R24). -/
def State.special (s : State) (code lane : Nat) : W32 :=
  let g := s.cg
  let st := s.stamp (coreDom g.core)
  match code - 1600 with
  | 0 => BitVec.ofNat 32 lane
  | 1 => BitVec.ofNat 32 (lane % g.tileW)
  | 2 => BitVec.ofNat 32 g.tile
  | 3 => BitVec.ofNat 32 g.gidx
  | 4 => BitVec.ofNat 32 (s.blk g.block).num
  | 5 => st.extractLsb' 0 32
  | 6 => st.extractLsb' 32 32
  | 7 => s.round
  | 8 => BitVec.ofNat 32 (s.cyclesOf g.core)
  | _ => BitVec.ofNat 32 (s.cyclesOf g.core / 2 ^ 32)

/-- The value of an operand code in a lane: `hi` is its H bit, `w` the position's width. -/
def State.opnd (s : State) (w : FW) (hi : Bool) (code lane : Nat) : W32 :=
  if code < 1536 then s.cg.rv code lane
  else if code < 1600 then
    if hi then (s.cg.rs (code - 1536)).extractLsb' 32 32 else (s.cg.rs (code - 1536)).extractLsb' 0 32
  else if code < 1632 then s.special code lane
  else if code < 1664 then BitVec.ofNat 32 (code - 1632)
  else if code < 1680 then 0#32 - BitVec.ofNat 32 (code - 1663)
  else fpConst w (code - 1680)

/-- Operand a of an instruction in a lane. -/
def State.opA (s : State) (e : LaneEnc) (w : FW) (lane : Nat) : W32 := s.opnd w e.ha e.a.toNat lane
/-- Operand b, which an L96K encoding gives as a literal (R78). -/
def State.opB (s : State) (e : LaneEnc) (w : FW) (lane : Nat) : W32 :=
  match e.form with
  | .lit k => k
  | _ => s.opnd w e.hb e.b.toNat lane
/-- Operand c. -/
def State.opC (s : State) (e : LaneEnc) (w : FW) (lane : Nat) : W32 := s.opnd w e.hc e.c.toNat lane

/-! ## The checks of R89 on operand fields -/

/-- One operand field as R89 checks it: the code that OPND reports, whether the code itself is
illegal, and the v registers and predicates that it names. -/
structure Fld where
  code : Nat
  bad : Bool := false
  regs : List Nat := []
  preds : List Nat := []
  /-- Those of its registers that are read. -/
  reads : List Nat := []
  deriving DecidableEq, Repr

/-- A destination of n consecutive v registers, the first a multiple of `al` (R21, R83). -/
def Fld.dst (x : BitVec 11) (n : Nat := 1) (al : Nat := 1) : Fld :=
  { code := x.toNat, bad := 1536 ≤ x.toNat || x.toNat % al != 0, regs := fromTo x.toNat n }
/-- A source that must be n consecutive v registers. -/
def Fld.vsrc (x : BitVec 11) (n : Nat := 1) (al : Nat := 1) (hi : Bool := false) : Fld :=
  { code := x.toNat, bad := 1536 ≤ x.toNat || x.toNat % al != 0 || hi, regs := fromTo x.toNat n, reads := fromTo x.toNat n }
/-- A source of any code; `hi` needs an s register (R78). -/
def Fld.src (x : BitVec 11) (hi : Bool := false) : Fld :=
  let c := x.toNat
  { code := c, bad := (1610 ≤ c && c < 1632) || 1696 ≤ c || (hi && !(1536 ≤ c && c < 1600)),
    regs := if c < 1536 then [c] else [], reads := if c < 1536 then [c] else [] }
/-- A predicate. -/
def Fld.pred (n : Nat) : Fld := { code := n, preds := [n] }
/-- An H bit without an s register of its own (R78): OPND is 0. -/
def Fld.noHi (hi : Bool) : Fld := { code := 0, bad := hi }
/-- An operand field that the instruction does not use (R164). -/
def Fld.zero (x : BitVec 11) (hi : Bool := false) : Fld := { code := x.toNat, bad := x != 0#11 || hi }
/-- A number that a condition rules out: OPND is 0. -/
def Fld.test (bad : Bool) : Fld := { code := 0, bad := bad }
/-- The a field as a source. -/
def Fld.a (e : LaneEnc) : Fld := Fld.src e.a e.ha
/-- The b field as a source, or a literal. -/
def Fld.b (e : LaneEnc) : Fld :=
  match e.form with
  | .lit _ => { code := 2047 }
  | _ => Fld.src e.b e.hb
/-- The c field as a source. -/
def Fld.c (e : LaneEnc) : Fld := Fld.src e.c e.hc

/-- The claims that an instruction of a split with SBW = k meets (R81): those of open windows that
do not end at it. A window, and the claims in it, is that of the split that carries it: instructions of other splits neither meet nor
end it (DEDUCED, log entry 137). -/
def Group.openClaims (g : Group) (split k : Nat) : List LaneOp :=
  g.ops.filter fun o => o.windows.any fun w => w.1 == split &&
    (if o.openEnded then !(k != 0 && o.sbs == k) else w.2 != 0)

/-- A field fails: an illegal code, a register outside the allocation, or a claimed one. -/
def Group.fldFails (g : Group) (ops : List LaneOp) (f : Fld) : Bool :=
  f.bad || f.regs.any (fun r => g.nregs ≤ r || ops.any fun o => o.vclaims.contains r) ||
  f.preds.any fun p => p != 0 && ops.any fun o => o.pclaims.contains p

/-- The first field that fails, in the order of R89: the guard, then the given fields. -/
def Group.operandFault (g : Group) (split : Nat) (e : LaneEnc) (flds : List Fld) : Option Nat :=
  let ops := g.openClaims split e.sbw.toNat
  ((Fld.pred e.g.toNat :: flds).find? (g.fldFails ops)).map (·.code)

/-! ## Scratchpad addresses (R167) -/

/-- Where n bytes at a scratchpad address lie: the core and the offset in its column, when the
access is inside the block's share of a present column. -/
def State.scratchAt (s : State) (b : Nat) (sa n : Nat) : Option (Nat × Nat) :=
  let x := s.blk b
  let col := bitsOf sa 24 23
  let off := sa % 2 ^ 23
  let core := quadCore x.quad col
  if sa < 2 ^ 25 && off + n ≤ x.share && s.columnPresent core then some (core, x.sbase + off) else none

/-- The physical address of n bytes at a scratchpad address of the chosen group's block. -/
def State.scratchPaAt (s : State) (sa n : Nat) : Option Nat :=
  (s.scratchAt s.cg.block sa n).map fun c => scratchPa c.1 c.2

end Sys2Proof.Machine
end

