-- ==== Sys2Proof/Machine/Lane.lean ====
section
/-!
DEFINITION. How a lane instruction issues and completes: the checks of R89, the waits of R81 and R82, the claims
and windows, run boundaries (03_encoding_and_assembly.md R80), the generic execution of R44, and the waits of the
flow instructions (05_lane_integer_and_flow.md R138).
-/

namespace Sys2Proof.Machine

/-- The encoding that an L32 instruction abbreviates (R79). -/
def l32Enc (run : Bool) (d src : BitVec 11) (u : Bool) : LaneEnc :=
  { run := run, g := 0#5, gn := false, u := u, dst := d, a := 0#11, b := src, la := 0#4, sbs := 0#3, sbw := 0#3, form := .l64 }

/-- The lanes that are active and pass the guard (R43). -/
def State.execMask (s : State) (e : LaneEnc) : W32 :=
  let p := s.cg.pmask e.g.toNat
  s.csplit.mask &&& (if e.gn then ~~~ p else p)
/-- Those lanes in ascending order. -/
def State.execLanes (s : State) (e : LaneEnc) : List Nat := maskLanes (s.execMask e)
/-- The lane whose values a lane computes from: itself, or the lowest executed lane with `.u` (R44). -/
def State.srcLane (s : State) (e : LaneEnc) (lane : Nat) : Nat :=
  if e.u then (lowLane (s.execMask e)).getD 0 else lane

/-- The instruction has completed for a split's lanes (R81, R174): it is done, or only loads of other
splits are outstanding. A waiter that is not lane-local waits for all of it (R457). -/
def Group.doneFor (g : Group) (whole : Bool) (split : Nat) (o : LaneOp) : Bool :=
  o.done || !whole && g.loads.any (fun l => l.op == o.id) && !g.loads.any fun l => l.op == o.id && l.split == split

/-- The waits before an issue: an ended window whose instruction has not completed (R81), the slot
waited on, and a full slot to set (R31, R82). -/
def Group.laneStalls (g : Group) (split : Nat) (e : LaneEnc) (whole : Bool) : Bool :=
  g.ops.any (fun o => !o.openEnded && o.windows.any (fun w => w.1 == split && w.2 == 0) && !g.doneFor whole split o) ||
  (e.sbw != 0#3 && g.rsb e.sbw.toNat != 0) || (e.sbs != 0#3 && 63 ≤ g.rsb e.sbs.toNat)

/-- The global accesses that an instruction waits for under R81 or R82 (R458). -/
def Group.awaited (g : Group) (split : Nat) (e : LaneEnc) (whole : Bool) : List LaneOp :=
  g.ops.filter fun o => o.far && !g.doneFor whole split o &&
    ((!o.openEnded && o.windows.any (fun w => w.1 == split && w.2 == 0)) || (e.sbw != 0#3 && o.sbs == e.sbw.toNat))
/-- A wait on global accesses ends the run, and the split is ready when all of them have completed; every other
wait stalls the strand (R458). -/
def State.stallOn (s : State) (l : List LaneOp) (whole : Bool) : State :=
  if l.isEmpty then s
  else s.updCg fun g => { (g.updSplit s.cur.split fun y => { y with wait := .ack (l.map (·.id)) whole }) with run := none }

/-- The executed lanes that read a register with an uncorrectable error (R321). -/
def State.badRegs (s : State) (e : LaneEnc) (flds : List Fld) : List Nat :=
  if s.cg.badV.isEmpty then []
  else (s.execLanes e).filter fun l => flds.any fun f => f.reads.any fun r => s.cg.badV.contains (32 * r + l)
/-- The stages before an effect: privilege, operand fields, waits, sound sources (R38, R89, R321). `whole` says that the
instruction is not lane-local, as no `.u` form is (R457). -/
def State.laneGo (s : State) (e : LaneEnc) (flds : List Fld) (eff : State → State) (priv : Bool := false) (whole : Bool := e.u) : State :=
  if priv && !s.cg.laneSup then s.trapLane cIllegalInstr s.csplit.mask
  else match s.cg.operandFault s.cur.split e flds with
    | some code => s.trapLane cIllegalOperand s.csplit.mask 0 code
    | none =>
      if s.cg.laneStalls s.cur.split e whole then s.stallOn (s.cg.awaited s.cur.split e whole) whole
      else match s.badRegs e flds with
        | [] => eff s
        | ls => s.trapLane cUncorrectable (laneMask ls)
            (pa := s.cg.regPa (((flds.flatMap Fld.reads).find? fun r => s.cg.badV.contains (32 * r + ls.headD 0)).getD 0) (ls.headD 0))

/-- What an instruction leaves outstanding when it issues. -/
structure Issue where
  vw : List Nat := []
  pw : List Nat := []
  flags : BitVec 5 := 0#5
  mem : Bool := false
  far : Bool := false
  array : Bool := false
  tag : Option SampleTag := none
  mag : Option Nat := none
  deriving DecidableEq, Repr

/-- The window of an earlier instruction after one of a split's instructions has issued (R81). -/
def LaneOp.after (o : LaneOp) (split sbw : Nat) : LaneOp :=
  { o with windows := o.windows.filterMap fun w =>
      if w.1 != split then some w
      else if o.openEnded then (if sbw != 0 && o.sbs == sbw then none else some w)
      else if w.2 == 0 then none else some (w.1, w.2 - 1) }

/-- An instruction whose completion and windows are over leaves no trace. -/
def LaneOp.live (o : LaneOp) : Bool := !o.done || !o.windows.isEmpty

/-- Run boundaries (R80): the count of the run, which ends with the B bit or the 24th instruction. -/
def Group.runOn (g : Group) (split : Nat) (stop : Bool) : Group :=
  let n := match g.run with
    | some (i, n) => if i == split then n + 1 else 1
    | none => 1
  { g with run := if stop || 24 ≤ n then none else some (split, n) }

/-- The issue of an instruction of a split: earlier windows move on, its own opens, its slot counts
up, the split moves past it. -/
def Group.issue (g : Group) (split : Nat) (e : LaneEnc) (len : Nat) (mask : W32) (pc : W64) (x : Issue) : Group :=
  let openEnded := e.la == 15#4 && e.sbs != 0#3
  let op : LaneOp :=
    { id := g.nextOp, mask := mask, windows := [(split, if openEnded then 0 else e.la.toNat)], openEnded := openEnded,
      vclaims := x.vw, pclaims := x.pw, sbs := e.sbs.toNat, flags := x.flags, array := x.array, mem := x.mem, far := x.far, tag := x.tag, mag := x.mag,
      pc := pc }
  let k := e.sbs.toNat
  let g := { g with ops := ((g.ops.map fun (o : LaneOp) => LaneOp.after o split e.sbw.toNat).filter LaneOp.live) ++ [op], nextOp := g.nextOp + 1 }
  let g := if k == 0 then g else g.setsb k (g.rsb k + 1)
  (g.updSplit split fun y => { y with pc := y.pc + BitVec.ofNat 64 len, wait := .ready, noBreak := false }).runOn split e.run

/-- The chosen split's run ends, and the split waits for room or an entry (R211, R226). -/
def State.splitWaits (s : State) (w : SplitWait) : State :=
  s.updCg fun g => { (g.updSplit s.cur.split fun y => { y with wait := w }) with run := none }
/-- The issue of the chosen split's instruction in the chosen group. -/
def State.issue (s : State) (e : LaneEnc) (len : Nat) (x : Issue) : State :=
  (s.issued 2 s.csplit.pc).updCg fun g => g.issue s.cur.split e len (s.execMask e) s.csplit.pc x

/-- Writing one register in a list of lanes. -/
def Group.writeLanes (g : Group) (d : Nat) (f : Nat → W32) (ls : List Nat) : Group :=
  ls.foldl (fun h l => h.setv d l (f l)) g
/-- Writing one register pair in a list of lanes. -/
def Group.writeLanes64 (g : Group) (d : Nat) (f : Nat → W64) (ls : List Nat) : Group :=
  ls.foldl (fun h l => h.setv64 d l (f l)) g

/-- A lane instruction that writes V[d] from the values of one lane (R44). -/
def State.laneV (s : State) (e : LaneEnc) (len : Nat) (flds : List Fld) (f : State → Nat → W32) (whole : Bool := e.u) : State :=
  s.laneGo e flds (whole := whole) fun s =>
    (s.updCg fun g => g.writeLanes e.dst.toNat (fun l => f s (s.srcLane e l)) (s.execLanes e)).issue e len { vw := [e.dst.toNat] }
/-- A lane instruction that writes V64[d]. -/
def State.laneV64 (s : State) (e : LaneEnc) (len : Nat) (flds : List Fld) (f : State → Nat → W64) : State :=
  s.laneGo e flds fun s =>
    (s.updCg fun g => g.writeLanes64 e.dst.toNat (fun l => f s (s.srcLane e l)) (s.execLanes e)).issue e len
      { vw := [e.dst.toNat, e.dst.toNat + 1] }
/-- A lane instruction that writes predicate pd. -/
def State.laneP (s : State) (e : LaneEnc) (len : Nat) (flds : List Fld) (pd : Nat) (f : State → Nat → Bool) (whole : Bool := e.u) : State :=
  s.laneGo e flds (whole := whole) fun s =>
    (s.updCg fun g => g.setp pd (s.execMask e) (laneMask (lanes.filter fun l => f s (s.srcLane e l)))).issue e len { pw := [pd] }

/-- Operand fields of d, a, b in base L64. -/
def fldsTwo (e : LaneEnc) : List Fld := [Fld.dst e.dst, Fld.a e, Fld.b e, Fld.noHi e.hc]
/-- Operand fields of d and b: A is RES0, so HA names no s register. -/
def fldsOne (e : LaneEnc) : List Fld := [Fld.dst e.dst, Fld.noHi e.ha, Fld.b e, Fld.noHi e.hc]
/-- Operand fields of d, a, b, c in base L96R. -/
def fldsThree (e : LaneEnc) : List Fld := [Fld.dst e.dst, Fld.a e, Fld.b e, Fld.c e]

/-! ## Completion -/

/-- A SAMPLE record (R448, R449, R452). The queue waits and replays are times that the model leaves free, and so is which of the
requests that may have come last did. A tagged instruction that completes, and does not trap, is an event (R454). -/
def State.sampleRecord (s : State) (g : Nat) (pc : W64) (mask : W32) (tag : SampleTag) (trapped : Bool) : State :=
  let x := s.grp g
  let d := coreDom x.core
  let total := min (s.cyclesOf x.core - tag.since) (2 ^ 32 - 1)
  let s := if trapped then s else s.seqEvent d 4 (BitVec.ofNat 64 total) (s.asidOf g)
  if !(s.dom d).seqr.recording then s
  else
    let (f1, s) := s.fresh
    let (f2, s) := s.fresh
    let (f3, s) := s.fresh
    let (f4, s) := s.fresh
    let last := tag.lasts.getD (f1 % tag.lasts.length) 0
    let q4 : W64 := 0#5 ++ BitVec.ofBool trapped ++ BitVec.ofNat 5 last ++ pc.extractLsb' 0 53
    let q5 : W64 := 0#2 ++ BitVec.ofNat 5 tag.lvl ++ BitVec.ofNat 9 tag.op9 ++ BitVec.ofNat 8 f2 ++
      BitVec.ofNat 8 (min tag.sectors 255) ++ mask
    let q7 : W64 := BitVec.ofNat 32 total ++ ((s.core x.core).dspec).extractLsb' 0 16 ++ BitVec.ofNat 16 f4
    s.traceRecord d (coreSite x.core) (s.recordHead g 1#4 x.runPc 0xFFFFFFFF#32 ++ [q4, q5, BitVec.ofNat 64 f3, q7])

/-- An issued instruction completes (R82): its slot counts down and its flags are raised. -/
def State.completeOp (s : State) (g k : Nat) : State :=
  let x := s.grp g
  match x.ops.find? fun o => o.id == k && !o.done with
  | none => s
  | some o =>
    let ops := (x.ops.map fun p => if p.id == k then { p with done := true } else p).filter LaneOp.live
    let x := ({ x with ops := ops }).raise o.flags
    let x := if o.sbs == 0 then x else x.setsb o.sbs (x.rsb o.sbs - 1)
    let s := s.setGrp g x
    match o.tag with
    | some t => s.sampleRecord g o.pc o.mask t false
    | none => s

/-! ## Flow (R81, R138) -/

/-- The other members of the chosen split's family. -/
def State.kin (s : State) : List Split :=
  let x := s.csplit
  s.cg.splits.filter fun y => y.id != x.id && y.family == x.family

/-- All members of a family stand at rejoin points: they merge where they stand at one address, and
dissolve into branch splits otherwise (R138). -/
def Group.rejoin (g : Group) (x : Split) (kin : List Split) : Group :=
  if kin.all fun y => y.pc == x.pc then
    let y : Split := { x with mask := kin.foldl (fun m y => m ||| y.mask) x.mask, wait := .ready, family := x.id }
    { g with splits := (g.splits.filter fun z => !kin.any fun y => y.id == z.id).map fun z => if z.id == x.id then y else z }
  else
    let free (z : Split) : Split := { z with wait := .ready, family := z.id }
    { g with splits := g.splits.map fun z => if z.id == x.id || kin.any (fun y => y.id == z.id) then free z else z }

/-- The chosen split has reached a rejoin point (R138): with the last member of its family the family merges or dissolves, and the
split goes on; before that it waits, and its run ends. -/
def State.gather (s : State) : State × Bool :=
  let kin := s.kin
  if kin.isEmpty then (s, true)
  else if kin.all fun y => y.wait == .family then (s.updCg fun g => g.rejoin s.csplit kin, true)
  else (s.updCg fun g => { (g.updSplit s.cur.split fun x => { x with wait := .family }) with run := none }, false)
/-- The wait of a flow instruction: the family first (R138), then every issued lane instruction of the
group (R81), and, where `others` asks for it, the families of the other splits (R135, R142). -/
def State.flowGo (s : State) (e : LaneEnc) (flds : List Fld) (eff : State → State) (others : State → Bool := fun _ => false) : State :=
  match s.gather with
  | (s, false) => s
  | (s, true) =>
    match s.cg.operandFault s.cur.split e flds with
    | some code => s.trapLane cIllegalOperand s.csplit.mask 0 code
    | none =>
      if !s.cg.lanesDone then s.stallOn (s.cg.ops.filter fun o => o.far && !o.done) true
      else if others s then s.splitWaits .others
      else eff (s.issued 2 s.csplit.pc)
/-- Some data split of the group has not rejoined (R138). -/
def Group.parted (g : Group) : Bool := g.splits.any fun x => g.splits.any fun y => y.id != x.id && y.family == x.family
/-- The splits that the group has once every data split has rejoined. -/
def Group.branches (g : Group) : Nat := ((g.splits.map (·.family)).eraseDups).length

/-- The lane entry ends (R140): one split of every present, non-exited lane, whose PC no rule gives: it is 0 (DESIGN CHOICE, log
entry 14). -/
def Group.endEntry (g : Group) : Group :=
  { g with laneBusy := false, run := none, ops := [],
           splits := [{ id := g.nextSplit, mask := g.livelanes, family := g.nextSplit }], nextSplit := g.nextSplit + 1 }

end Sys2Proof.Machine
end

