-- ==== Sys2Proof/Machine/Scalar.lean ====
section
/-!
DEFINITION. Scalar arithmetic of the control stream (04_control_stream.md R98 to R100, R116).
-/

namespace Sys2Proof.Machine

/-- The outcome of a meaning that always gives a next state. -/
abbrev Out := Host.Outcome State Fault Refusal

/-! ## Arithmetic (R98, R99) -/

/-- The high half of a product (R98). -/
def mulHigh (uns : Bool) (x y : W64) : W64 :=
  if uns then BitVec.ofNat 64 (x.toNat * y.toNat / 2 ^ 64) else BitVec.ofInt 64 (x.toInt * y.toInt / 2 ^ 64)
/-- SDIV (R98, R99). -/
def divide (uns : Bool) (x y : W64) : W64 :=
  if y == 0#64 then 0xFFFFFFFFFFFFFFFF#64 else if uns then x / y else x.sdiv y
/-- SREM (R98, R99). -/
def remain (uns : Bool) (x y : W64) : W64 := if y == 0#64 then x else if uns then x % y else x.srem y
/-- SMIN. -/
def lesser (uns : Bool) (x y : W64) : W64 := if (if uns then x.ult y else x.slt y) then x else y
/-- SMAX. -/
def greater (uns : Bool) (x y : W64) : W64 := if (if uns then x.ult y else x.slt y) then y else x
/-- The 14-bit immediate (R100). -/
def immOf (imm : BitVec 14) : W64 := imm.signExtend 64

/-- The scalar ALU group: S[d] from S[a], S[b] and the old S[d] (R98). -/
def State.alu (s : State) (d a b : BitVec 6) (f : W64 → W64 → W64 → W64) : State :=
  s.ctlGo [d.toNat, a.toNat, b.toNat] fun s =>
    s.ctlDone d.toNat (f (s.cg.rs a.toNat) (s.cg.rs b.toNat) (s.cg.rs d.toNat))

/-- The immediate forms: S[d] from S[a] (R100). -/
def State.aluImm (s : State) (d a : BitVec 6) (f : W64 → W64) : State :=
  s.ctlGo [d.toNat, a.toNat] fun s => s.ctlDone d.toNat (f (s.cg.rs a.toNat))

def execSadd (d a b : BitVec 6) (s : State) : Out := .next (s.alu d a b fun x y _ => x + y)
def execSsub (d a b : BitVec 6) (s : State) : Out := .next (s.alu d a b fun x y _ => x - y)
def execSmul (d a b : BitVec 6) (s : State) : Out := .next (s.alu d a b fun x y _ => x * y)
def execSmulh (d a b : BitVec 6) (uns : Bool) (s : State) : Out := .next (s.alu d a b fun x y _ => mulHigh uns x y)
def execSdiv (d a b : BitVec 6) (uns : Bool) (s : State) : Out := .next (s.alu d a b fun x y _ => divide uns x y)
def execSrem (d a b : BitVec 6) (uns : Bool) (s : State) : Out := .next (s.alu d a b fun x y _ => remain uns x y)
def execSand (d a b : BitVec 6) (s : State) : Out := .next (s.alu d a b fun x y _ => x &&& y)
def execSor (d a b : BitVec 6) (s : State) : Out := .next (s.alu d a b fun x y _ => x ||| y)
def execSxor (d a b : BitVec 6) (s : State) : Out := .next (s.alu d a b fun x y _ => x ^^^ y)
def execSshl (d a b : BitVec 6) (s : State) : Out := .next (s.alu d a b fun x y _ => x <<< (y.toNat % 64))
def execSshr (d a b : BitVec 6) (s : State) : Out := .next (s.alu d a b fun x y _ => x >>> (y.toNat % 64))
def execSsra (d a b : BitVec 6) (s : State) : Out := .next (s.alu d a b fun x y _ => x.sshiftRight (y.toNat % 64))
def execSmin (d a b : BitVec 6) (uns : Bool) (s : State) : Out := .next (s.alu d a b fun x y _ => lesser uns x y)
def execSmax (d a b : BitVec 6) (uns : Bool) (s : State) : Out := .next (s.alu d a b fun x y _ => greater uns x y)
/-- SSEL: x if the old S[d] is nonzero, otherwise y. -/
def execSsel (d a b : BitVec 6) (s : State) : Out := .next (s.alu d a b fun x y z => if z != 0#64 then x else y)
/-- SCMP (R100). -/
def execScmp (d a b : BitVec 6) (c : Cond) (s : State) : Out :=
  .next (s.alu d a b fun x y _ => if condHolds c x y then 1#64 else 0#64)
def execSaddi (d a : BitVec 6) (imm : BitVec 14) (s : State) : Out := .next (s.aluImm d a fun x => x + immOf imm)
def execSandi (d a : BitVec 6) (imm : BitVec 14) (s : State) : Out := .next (s.aluImm d a fun x => x &&& immOf imm)
def execSori (d a : BitVec 6) (imm : BitVec 14) (s : State) : Out := .next (s.aluImm d a fun x => x ||| immOf imm)
/-- SMOVW: one quarter is written, the others kept (R100). -/
def execSmovw (d : BitVec 6) (idx : BitVec 2) (imm : BitVec 16) (s : State) : Out :=
  .next (s.aluImm d d fun x =>
    (x &&& ~~~ (0xFFFF#64 <<< (16 * idx.toNat))) ||| (imm.setWidth 64 <<< (16 * idx.toNat)))
/-- SMOVW.z: the other quarters are cleared (R100). -/
def execSmovwZ (d : BitVec 6) (idx : BitVec 2) (imm : BitVec 16) (s : State) : Out :=
  .next (s.aluImm d d fun _ => imm.setWidth 64 <<< (16 * idx.toNat))

/-! ## Uniform specials (R116) -/

/-- SREAD %flags: reads and clears. -/
def execSreadFlags (d : BitVec 6) (s : State) : Out :=
  .next (s.ctlGo [d.toNat] fun s =>
    (s.updCg fun g => { (g.sets d.toNat (g.flags.setWidth 64)) with flags := 0#5 }).advance)
/-- SREAD %handle. -/
def execSreadHandle (d : BitVec 6) (s : State) : Out :=
  .next (s.ctlGo [d.toNat] fun s => s.ctlDone d.toNat (s.handle s.casid s.cg.core))
/-- SREAD %stamp. -/
def execSreadStamp (d : BitVec 6) (s : State) : Out :=
  .next (s.ctlGo [d.toNat] fun s => s.ctlDone d.toNat (s.stamp (coreDom s.cg.core)))
/-- SREAD %cycle. -/
def execSreadCycle (d : BitVec 6) (s : State) : Out :=
  .next (s.ctlGo [d.toNat] fun s => s.ctlDone d.toNat (BitVec.ofNat 64 (s.cyclesOf s.cg.core)))

end Sys2Proof.Machine
end

