-- ==== Sys2Proof/Machine/LaneInt.lean ====
section
/-!
DEFINITION. Lane integer, logic, predicate, move and cross-lane instructions
(05_lane_integer_and_flow.md R121 to R134) and their L32 forms (03_encoding_and_assembly.md R79).
-/

namespace Sys2Proof.Machine

/-! ## Arithmetic (R122 to R124) -/

/-- A sum or difference under an overflow treatment (R122). -/
def satAdd (m : SatMod) (x y : W32) (sub : Bool) : W32 :=
  let sgn : Int := if sub then x.toInt - y.toInt else x.toInt + y.toInt
  let uns : Int := if sub then (x.toNat : Int) - y.toNat else (x.toNat : Int) + y.toNat
  match m with
  | .wrap => if sub then x - y else x + y
  | .sat => BitVec.ofInt 32 (max (-(2 ^ 31 : Int)) (min (2 ^ 31 - 1) sgn))
  | .usat => BitVec.ofInt 32 (max 0 (min (2 ^ 32 - 1) uns))
/-- IMULH. -/
def mulHigh32 (uns : Bool) (x y : W32) : W32 :=
  if uns then BitVec.ofNat 32 (x.toNat * y.toNat / 2 ^ 32) else BitVec.ofInt 32 (x.toInt * y.toInt / 2 ^ 32)
/-- IDIV (R123). -/
def divide32 (uns : Bool) (x y : W32) : W32 :=
  if y == 0#32 then 0xFFFFFFFF#32 else if uns then x / y else x.sdiv y
/-- IREM (R123). -/
def remain32 (uns : Bool) (x y : W32) : W32 := if y == 0#32 then x else if uns then x % y else x.srem y
/-- IMIN. -/
def lesser32 (uns : Bool) (x y : W32) : W32 := if (if uns then x.ult y else x.slt y) then x else y
/-- IMAX. -/
def greater32 (uns : Bool) (x y : W32) : W32 := if (if uns then x.ult y else x.slt y) then y else x
/-- IABS; the saturating form gives 2^31 − 1 for −2^31. -/
def abs32 (sat : Bool) (y : W32) : W32 :=
  if y == 0x80000000#32 && sat then 0x7FFFFFFF#32 else if y.getLsbD 31 then 0#32 - y else y

/-- An instruction of operands a and b. -/
def State.int2 (s : State) (e : LaneEnc) (f : W32 → W32 → W32) : State :=
  s.laneV e e.bytes (fldsTwo e) fun s l => f (s.opA e .f32 l) (s.opB e .f32 l)
/-- An instruction of operand b, of a length in bytes. -/
def State.int1 (s : State) (e : LaneEnc) (len : Nat) (f : W32 → W32) : State :=
  s.laneV e len (fldsOne e) fun s l => f (s.opB e .f32 l)
/-- An instruction of operands a, b and c. -/
def State.int3 (s : State) (e : LaneEnc) (f : W32 → W32 → W32 → W32) : State :=
  s.laneV e e.bytes (fldsThree e) fun s l => f (s.opA e .f32 l) (s.opB e .f32 l) (s.opC e .f32 l)

def execIadd (e : LaneEnc) (m : SatMod) (s : State) : Out := .next (s.int2 e fun x y => satAdd m x y false)
def execIsub (e : LaneEnc) (m : SatMod) (s : State) : Out := .next (s.int2 e fun x y => satAdd m x y true)
def execImul (e : LaneEnc) (s : State) : Out := .next (s.int2 e fun x y => x * y)
def execImulh (e : LaneEnc) (uns : Bool) (s : State) : Out := .next (s.int2 e (mulHigh32 uns))
def execImad (e : LaneEnc) (s : State) : Out := .next (s.int3 e fun x y z => x * y + z)
/-- IADDW: DST and A name even pairs (R124). -/
def execIaddw (e : LaneEnc) (uns : Bool) (s : State) : Out :=
  .next (s.laneV64 e e.bytes [Fld.dst e.dst 2 2, Fld.vsrc e.a 2 2 e.ha, Fld.b e, Fld.noHi e.hc] fun s l =>
    let y := s.opB e .f32 l
    s.cg.rv64 e.a.toNat l + (if uns then y.setWidth 64 else y.signExtend 64))
def execIdiv (e : LaneEnc) (uns : Bool) (s : State) : Out := .next (s.int2 e (divide32 uns))
def execIrem (e : LaneEnc) (uns : Bool) (s : State) : Out := .next (s.int2 e (remain32 uns))
def execImin (e : LaneEnc) (uns : Bool) (s : State) : Out := .next (s.int2 e (lesser32 uns))
def execImax (e : LaneEnc) (uns : Bool) (s : State) : Out := .next (s.int2 e (greater32 uns))
def execIabs (e : LaneEnc) (sat : Bool) (s : State) : Out := .next (s.int1 e e.bytes (abs32 sat))

/-! ## Logic, shifts and bit fields (R125 to R127) -/

def execAnd (e : LaneEnc) (s : State) : Out := .next (s.int2 e fun x y => x &&& y)
def execOr (e : LaneEnc) (s : State) : Out := .next (s.int2 e fun x y => x ||| y)
def execXor (e : LaneEnc) (s : State) : Out := .next (s.int2 e fun x y => x ^^^ y)
def execNot (e : LaneEnc) (s : State) : Out := .next (s.int1 e e.bytes fun y => ~~~ y)
/-- The shift amount: y, or y mod 32 without `.clamp`. -/
def shiftBy (clamp : Bool) (y : W32) : Nat := if clamp then min 32 y.toNat else y.toNat % 32
def execShl (e : LaneEnc) (clamp : Bool) (s : State) : Out := .next (s.int2 e fun x y => x <<< shiftBy clamp y)
def execShr (e : LaneEnc) (clamp : Bool) (s : State) : Out := .next (s.int2 e fun x y => x >>> shiftBy clamp y)
def execSra (e : LaneEnc) (clamp : Bool) (s : State) : Out := .next (s.int2 e fun x y => x.sshiftRight (shiftBy clamp y))
/-- FSHF on the 64-bit value x·2^32 + y (R125). -/
def funnel (right : Bool) (x y z : W32) : W32 :=
  let w : W64 := x ++ y
  let n := z.toNat % 32
  if right then (w >>> n).extractLsb' 0 32 else (w <<< n).extractLsb' 32 32
def execFshf (e : LaneEnc) (right : Bool) (s : State) : Out := .next (s.int3 e (funnel right))
/-- POS and the width of the field that a control word names (R126). -/
def fieldOf (w : W32) : Nat × Nat :=
  let pos := w.toNat % 32
  (pos, min (bitsOf w.toNat 13 8) (32 - pos))
/-- BFX. -/
def extractField (uns : Bool) (x y : W32) : W32 :=
  let (pos, w) := fieldOf y
  if w == 0 then 0#32
  else
    let v := x.toNat / 2 ^ pos % 2 ^ w
    if uns then BitVec.ofNat 32 v else BitVec.ofInt 32 (signedOf w v)
/-- BFI. -/
def insertField (x y z : W32) : W32 :=
  let (pos, w) := fieldOf z
  let m := BitVec.ofNat 32 ((2 ^ w - 1) * 2 ^ pos)
  (x &&& ~~~ m) ||| ((y <<< pos) &&& m)
def execBfx (e : LaneEnc) (uns : Bool) (s : State) : Out := .next (s.int2 e (extractField uns))
def execBfi (e : LaneEnc) (s : State) : Out := .next (s.int3 e insertField)
/-- POPC. -/
def popCount (y : W32) : W32 := BitVec.ofNat 32 ((List.range 32).filter fun k => y.getLsbD k).length
/-- CLZ: 32 for 0. -/
def leadZeros (y : W32) : W32 :=
  BitVec.ofNat 32 (((List.range 32).find? fun k => y.getLsbD (31 - k)).getD 32)
/-- BREV. -/
def revBits (y : W32) : W32 := laneMask ((List.range 32).filter fun k => y.getLsbD (31 - k))
def execPopc (e : LaneEnc) (s : State) : Out := .next (s.int1 e e.bytes popCount)
def execClz (e : LaneEnc) (s : State) : Out := .next (s.int1 e e.bytes leadZeros)
def execBrev (e : LaneEnc) (s : State) : Out := .next (s.int1 e e.bytes revBits)
/-- PERM (R127). -/
def permBytes (x y z : W32) : W32 :=
  let src : W64 := y ++ x
  let byte (k : Nat) : Byte :=
    let n := bitsOf z.toNat (4 * k + 3) (4 * k)
    let b := src.extractLsb' (8 * (n % 8)) 8
    if n < 8 then b else if b.getLsbD 7 then 0xFF#8 else 0#8
  byte 3 ++ byte 2 ++ byte 1 ++ byte 0
def execPerm (e : LaneEnc) (s : State) : Out := .next (s.int3 e permBytes)

/-! ## Predicates, selects and moves (R128 to R130) -/

/-- The condition of a compare field on integers (R87, R128). -/
def intHolds (c : LCond) (uns : Bool) (x y : W32) : Bool :=
  let lt := if uns then x.ult y else x.slt y
  match c with
  | .eq => x == y
  | .ne => x != y
  | .lt => lt
  | .le => lt || x == y
  | .gt => !(lt || x == y)
  | .ge => !lt
def execIset (e : LaneEnc) (f : CmpField) (s : State) : Out :=
  .next (s.laneP e e.bytes [Fld.pred f.pd.toNat, Fld.a e, Fld.b e, Fld.noHi e.hc] f.pd.toNat fun s l =>
    intHolds f.cond f.x (s.opA e .f32 l) (s.opB e .f32 l))
/-- PLOP (R129). -/
def predOp (op : PlOp) (u v : Bool) : Bool :=
  match op with
  | .and => u && v
  | .or => u || v
  | .xor => u != v
  | .andn => u && !v
/-- The H bits of fields that hold no operand (R78). -/
def noHis (e : LaneEnc) : Fld := Fld.noHi (e.ha || e.hb || e.hc)
def execPlop (e : LaneEnc) (op : PlOp) (s : State) : Out :=
  .next (s.laneP e e.bytes [Fld.pred e.dst.toNat, Fld.pred e.a.toNat, Fld.pred e.b.toNat, noHis e] e.dst.toNat fun s l =>
    predOp op (s.cg.rp e.a.toNat l) (s.cg.rp e.b.toNat l))
def execPmov (e : LaneEnc) (tov : Bool) (s : State) : Out :=
  .next (if tov then
      s.laneV e e.bytes [Fld.dst e.dst, Fld.pred e.a.toNat, noHis e] fun s l => if s.cg.rp e.a.toNat l then 1#32 else 0#32
    else
      s.laneP e e.bytes [Fld.pred e.dst.toNat, Fld.noHi e.ha, Fld.b e, Fld.noHi e.hc] e.dst.toNat fun s l => s.opB e .f32 l != 0#32)
def execSel (e : LaneEnc) (s : State) : Out :=
  .next (s.laneV e e.bytes [Fld.dst e.dst, Fld.a e, Fld.b e, Fld.pred e.c.toNat, Fld.noHi e.hc] fun s l =>
    if s.cg.rp e.c.toNat l then s.opA e .f32 l else s.opB e .f32 l)
def execMov (e : LaneEnc) (s : State) : Out := .next (s.int1 e e.bytes fun y => y)
/-- MOVK keeps the other half of d (R130). -/
def execMovk (e : LaneEnc) (hi : Bool) (imm : BitVec 16) (s : State) : Out :=
  .next (s.laneV e e.bytes [{ Fld.dst e.dst with reads := [e.dst.toNat] }] fun s l =>
    let x := s.cg.rv e.dst.toNat l
    if hi then imm ++ x.extractLsb' 0 16 else x.extractLsb' 16 16 ++ imm)

/-! ## Cross-lane instructions (R131 to R134) -/

/-- The participating lanes of a lane's tile, ascending (R131). -/
def State.tileLanes (s : State) (e : LaneEnc) (l : Nat) : List Nat :=
  let w := s.cg.tileW
  (s.execLanes e).filter fun k => k / w == l / w
/-- VOTE (R132). -/
def execVote (e : LaneEnc) (op : VoteOp) (s : State) : Out :=
  let pb := e.b.toNat
  let held (s : State) (l : Nat) : List Bool := (s.tileLanes e l).map fun k => s.cg.rp pb k
  let flds := [if op == .ballot then Fld.dst e.dst else Fld.pred e.dst.toNat, Fld.pred pb, noHis e]
  .next (match op with
    | .all => s.laneP e e.bytes flds e.dst.toNat (whole := true) fun s l => (held s l).all fun x => x
    | .any => s.laneP e e.bytes flds e.dst.toNat (whole := true) fun s l => (held s l).any fun x => x
    | .eq => s.laneP e e.bytes flds e.dst.toNat (whole := true) fun s l => (held s l).all (fun x => x) || !(held s l).any fun x => x
    | .ballot => s.laneV e e.bytes flds (whole := true) fun s l =>
        laneMask (((s.tileLanes e l).filter fun k => s.cg.rp pb k).map fun k => k % s.cg.tileW))
/-- The source lane within the tile (R133). -/
def shflLane (op : ShflOp) (t w k : Nat) : Option Nat :=
  match op with
  | .idx => some (k % w)
  | .up => if t < k then none else some (t - k)
  | .down => if w ≤ t + k then none else some (t + k)
  | .xor => some (t ^^^ (k % w))
def execShfl (e : LaneEnc) (op : ShflOp) (s : State) : Out :=
  .next (s.laneV e e.bytes (fldsTwo e) (whole := true) fun s l =>
    let w := s.cg.tileW
    match shflLane op (l % w) w (s.opB e .f32 l).toNat with
    | some t =>
      let k := l / w * w + t
      if (s.execLanes e).contains k then s.opA e .f32 k else s.opA e .f32 l
    | none => s.opA e .f32 l)
/-- One step of IREDUX (R134). -/
def reduxOp (op : IRedOp) (x y : W32) : W32 :=
  match op with
  | .add => x + y
  | .min => lesser32 false x y
  | .max => greater32 false x y
  | .umin => lesser32 true x y
  | .umax => greater32 true x y
  | .and => x &&& y
  | .or => x ||| y
  | .xor => x ^^^ y
/-- A reduction of a nonempty list. -/
def reduce1 {α : Type} (f : α → α → α) (d : α) : List α → α
  | [] => d
  | x :: t => t.foldl f x
def execIredux (e : LaneEnc) (op : IRedOp) (s : State) : Out :=
  .next (s.laneV e e.bytes [Fld.dst e.dst, Fld.a e, Fld.noHi (e.hb || e.hc)] (whole := true) fun s l =>
    reduce1 (reduxOp op) 0#32 ((s.tileLanes e l).map fun k => s.opA e .f32 k))

/-! ## L32 forms (R79, R85) -/

def execMovL32 (run : Bool) (d src : BitVec 11) (u : Bool) (s : State) : Out :=
  .next (s.int1 (l32Enc run d src u) 4 fun y => y)
def execNotL32 (run : Bool) (d src : BitVec 11) (u : Bool) (s : State) : Out :=
  .next (s.int1 (l32Enc run d src u) 4 fun y => ~~~ y)
def execIabsL32 (run : Bool) (d src : BitVec 11) (u : Bool) (s : State) : Out :=
  .next (s.int1 (l32Enc run d src u) 4 (abs32 false))
def execPopcL32 (run : Bool) (d src : BitVec 11) (u : Bool) (s : State) : Out :=
  .next (s.int1 (l32Enc run d src u) 4 popCount)
def execClzL32 (run : Bool) (d src : BitVec 11) (u : Bool) (s : State) : Out :=
  .next (s.int1 (l32Enc run d src u) 4 leadZeros)
def execBrevL32 (run : Bool) (d src : BitVec 11) (u : Bool) (s : State) : Out :=
  .next (s.int1 (l32Enc run d src u) 4 revBits)

end Sys2Proof.Machine
end

