-- ==== Sys2Proof/Machine/LaneFp.lean ====
section
/-!
DEFINITION. Lane floating-point instructions: the steps they share (06_lane_float_conversion_algebra.md R146,
R147; 01_machine_state.md R22, R41), arithmetic, comparison, functions and FREDUX (R148 to R154).
-/

namespace Sys2Proof.Machine

/-- What a lane computes: the words it writes, in the order of its destinations, and its flags. -/
structure LaneRes where
  vals : List W32
  flags : BitVec 5 := 0#5
  counts : Bool := false
  deriving DecidableEq, Repr

/-- One element of a packed or plain operand: its bits and its value. -/
structure Elem where
  bits : Nat
  v : FV
  deriving DecidableEq, Repr

/-- The element format of a width. -/
def fmtOf (w : FW) : Format :=
  match w with
  | .f32 => fp32 | .h2 => fp16 | .bh2 => bf16
/-- Element h of a register of a width (R146); the marker test looks at the whole register. -/
def elemOf (w : FW) (h : Nat) (x : W32) : Elem :=
  let b := if w == .f32 then x.toNat else bitsOf x.toNat (16 * h + 15) (16 * h)
  { bits := b, v := (fmtOf w).unpack b (isMarker x) }
/-- The element numbers of a register. -/
def halves (w : FW) : List Nat := if w == .f32 then [0] else [0, 1]
/-- The word that the elements form. -/
def joinElems (w : FW) (rs : List FpRes) : W32 :=
  match w with
  | .f32 => BitVec.ofNat 32 ((rs.map (·.val)).getD 0 0)
  | _ => BitVec.ofNat 32 ((rs.map (·.val)).getD 0 0 % 65536 + 65536 * ((rs.map (·.val)).getD 1 0 % 65536))
/-- One destination word from an operation on each element of the operands. -/
def packed (w : FW) (xs : List W32) (f : List Elem → FpRes) : LaneRes :=
  let rs := (halves w).map fun h => f (xs.map (elemOf w h))
  { vals := [joinElems w rs], flags := flagsOf rs, counts := rs.any (·.counts) }

/-- The lanes that compute: the lowest executed lane alone with `.u` (R44). -/
def State.calcLanes (s : State) (e : LaneEnc) : List Nat :=
  if e.u then (s.execLanes e).take 1 else s.execLanes e

/-- The marker operands of a lane, in operand order: the codes of R22. -/
def markersOf (srcs : List (Nat × W32)) : List Nat := (srcs.filter fun c => isMarker c.2).map (·.1)

/-- The traps of a floating-point instruction before any write: UNINIT_REG, then FP_TRAP with the flags
of every executed lane; otherwise `wr` takes the results. Of several markers OPND names the first source, in the order a, b, c, of the
lowest lane that holds one (DEDUCED, log entry 138). -/
def State.fpTrapOr (s : State) (e : LaneEnc) (srcs : Nat → List (Nat × W32)) (rs : List (Nat × LaneRes))
    (wr : BitVec 5 → State → State) : State :=
  let te := s.cctx.trapen
  let bad := (s.calcLanes e).filter fun l => !(markersOf (srcs l)).isEmpty
  if te.getLsbD 0 && !bad.isEmpty then
    s.trapLane cUninitReg (laneMask bad) 0 ((bad.flatMap fun l => markersOf (srcs l)).headD 0)
  else
    let flags := rs.foldl (fun f r => f ||| r.2.flags) 0#5
    let hit := rs.filter fun r => fpTraps te r.2.flags r.2.counts
    if hit.isEmpty then wr flags s else s.trapLane cFpTrap (laneMask (hit.map (·.1))) 0 0 0#64 flags

/-- The result of the lane that a lane takes its value from. -/
def resOf (rs : List (Nat × LaneRes)) (l : Nat) : Option LaneRes := (rs.find? (·.1 == l)).map (·.2)

/-- Writing the computed words of every executed lane into the listed registers. -/
def State.putRes (s : State) (e : LaneEnc) (regs : List Nat) (rs : List (Nat × LaneRes)) (g : Group) : Group :=
  (s.execLanes e).foldl (fun g l =>
    match resOf rs (s.srcLane e l) with
    | some r => (regs.zip r.vals).foldl (fun g c => g.setv c.1 l c.2) g
    | none => g) g

/-- A floating-point instruction with v destinations. `srcs` are its floating-point operands in a lane,
`comp` the results of the lanes that compute, `post` what else changes in the group. -/
def State.fpGo (s : State) (e : LaneEnc) (flds : List Fld) (regs : List Nat) (srcs : State → Nat → List (Nat × W32))
    (comp : State → List (Nat × LaneRes)) (mag : Option Nat := none) (post : State → Group → Group := fun _ g => g)
    (whole : Bool := e.u) : State :=
  s.laneGo e flds (whole := whole) fun s =>
    let rs := comp s
    s.fpTrapOr e (srcs s) rs fun flags s =>
      (s.updCg fun g => post s (s.putRes e regs rs g)).issue e e.bytes { vw := regs, flags := flags, mag := mag }

/-- Results lane by lane. -/
def State.byLane (e : LaneEnc) (f : State → Nat → LaneRes) (s : State) : List (Nat × LaneRes) :=
  (s.calcLanes e).map fun l => (l, f s l)

/-- Operand a with its code. -/
def State.srcA (s : State) (e : LaneEnc) (w : FW) (l : Nat) : Nat × W32 := (e.a.toNat, s.opA e w l)
/-- Operand b with its code. -/
def State.srcB (s : State) (e : LaneEnc) (w : FW) (l : Nat) : Nat × W32 := (e.b.toNat, s.opB e w l)
/-- Operand c with its code. -/
def State.srcC (s : State) (e : LaneEnc) (w : FW) (l : Nat) : Nat × W32 := (e.c.toNat, s.opC e w l)

/-- An instruction of one operand b. -/
def State.fp1 (s : State) (e : LaneEnc) (w : FW) (f : Elem → FpRes) : State :=
  let srcs (s : State) (l : Nat) : List (Nat × W32) := [s.srcB e w l]
  s.fpGo e (fldsOne e) [e.dst.toNat] srcs (State.byLane e fun s l => packed w ((srcs s l).map (·.2)) fun
    | [x] => f x
    | _ => { val := 0 })
/-- An instruction of operands a and b. -/
def State.fp2 (s : State) (e : LaneEnc) (w : FW) (f : Elem → Elem → FpRes) : State :=
  let srcs (s : State) (l : Nat) : List (Nat × W32) := [s.srcA e w l, s.srcB e w l]
  s.fpGo e (fldsTwo e) [e.dst.toNat] srcs (State.byLane e fun s l => packed w ((srcs s l).map (·.2)) fun
    | [x, y] => f x y
    | _ => { val := 0 })
/-- An instruction of operands a, b and c. -/
def State.fp3 (s : State) (e : LaneEnc) (w : FW) (f : Elem → Elem → Elem → FpRes) : State :=
  let srcs (s : State) (l : Nat) : List (Nat × W32) := [s.srcA e w l, s.srcB e w l, s.srcC e w l]
  s.fpGo e (fldsThree e) [e.dst.toNat] srcs (State.byLane e fun s l => packed w ((srcs s l).map (·.2)) fun
    | [x, y, z] => f x y z
    | _ => { val := 0 })

/-! ## Arithmetic (R148, R149) -/

def execFadd (e : LaneEnc) (w : FW) (m : Rnd) (s : State) : Out := .next (s.fp2 e w fun x y => (fmtOf w).add m x.v y.v)
def execFsub (e : LaneEnc) (w : FW) (m : Rnd) (s : State) : Out := .next (s.fp2 e w fun x y => (fmtOf w).add m x.v y.v.negate)
def execFmul (e : LaneEnc) (w : FW) (m : Rnd) (s : State) : Out := .next (s.fp2 e w fun x y => (fmtOf w).mul m x.v y.v)
def execFfma (e : LaneEnc) (w : FW) (m : Rnd) (s : State) : Out :=
  .next (s.fp3 e w fun x y z => (fmtOf w).fma m x.v y.v z.v)
def execFmin (e : LaneEnc) (w : FW) (num : Bool) (s : State) : Out :=
  .next (s.fp2 e w fun x y => (fmtOf w).minMax false num x.bits x.v y.bits y.v)
def execFmax (e : LaneEnc) (w : FW) (num : Bool) (s : State) : Out :=
  .next (s.fp2 e w fun x y => (fmtOf w).minMax true num x.bits x.v y.bits y.v)

/-! ## FSET, FCLASS, FRND (R150 to R152) -/

/-- FSET: its one result word is the predicate. -/
def execFset (e : LaneEnc) (f : CmpField) (s : State) : Out :=
  let srcs (s : State) (l : Nat) : List (Nat × W32) := [s.srcA e .f32 l, s.srcB e .f32 l]
  .next (s.laneGo e [Fld.pred f.pd.toNat, Fld.a e, Fld.b e, Fld.noHi e.hc] fun s =>
    let rs := State.byLane e (fun s l => packed .f32 ((srcs s l).map (·.2)) fun
      | [x, y] => fset fp32 f x.bits x.v y.bits y.v
      | _ => { val := 0 }) s
    let held (l : Nat) : Bool := match resOf rs (s.srcLane e l) with
      | some r => r.vals == [1#32]
      | none => false
    s.fpTrapOr e (srcs s) rs fun flags s =>
      (s.updCg fun g => g.setp f.pd.toNat (s.execMask e) (laneMask (lanes.filter held))).issue e e.bytes
        { pw := [f.pd.toNat], flags := flags })
def execFclass (e : LaneEnc) (s : State) : Out := .next (s.laneV e e.bytes (fldsOne e) fun s l =>
  BitVec.ofNat 32 (2 ^ classBit (s.opB e .f32 l)))
def execFrnd (e : LaneEnc) (w : FW) (k : FrndOp) (s : State) : Out :=
  .next (s.fp1 e w fun x => (fmtOf w).integral k x.bits x.v)

/-! ## Functions (R153) -/

/-- A function in its width: FSQRT and the FP32 forms round once; the other packed forms narrow the FP32 result. -/
def fnIn (w : FW) (fn : FV → FpRes) (x : Elem) : FpRes :=
  match w with
  | .f32 => fn x.v
  | _ => packedFn (fmtOf w) fn x.v
def execFrcp (e : LaneEnc) (w : FW) (s : State) : Out := .next (s.fp1 e w (fnIn w fnRcp))
def execFrsq (e : LaneEnc) (w : FW) (s : State) : Out := .next (s.fp1 e w (fnIn w fnRsq))
def execFsqrt (e : LaneEnc) (w : FW) (s : State) : Out := .next (s.fp1 e w fun x => (fmtOf w).sqrt x.v)
def execFdiv (e : LaneEnc) (s : State) : Out := .next (s.fp2 e .f32 fun x y => fp32.div x.v y.v)
def execFex2 (e : LaneEnc) (w : FW) (s : State) : Out := .next (s.fp1 e w (fnIn w fnEx2))
def execFlg2 (e : LaneEnc) (w : FW) (s : State) : Out := .next (s.fp1 e w (fnIn w fnLg2))
def execFsin (e : LaneEnc) (w : FW) (s : State) : Out := .next (s.fp1 e w (fnIn w (fnTrig false)))
def execFcos (e : LaneEnc) (w : FW) (s : State) : Out := .next (s.fp1 e w (fnIn w (fnTrig true)))
def execFtanh (e : LaneEnc) (w : FW) (s : State) : Out := .next (s.fp1 e w (fnIn w fnTanh))

/-! ## FREDUX (R67, R154) -/

/-- One combination of two elements. -/
def redFloat (f : Format) (op : FRedOp) (x y : Elem) : FpRes :=
  match op with
  | .add => f.add .rn x.v y.v
  | .min => f.minMax false false x.bits x.v y.bits y.v
  | .max => f.minMax true false x.bits x.v y.bits y.v
  | .minnum => f.minMax false true x.bits x.v y.bits y.v
  | .maxnum => f.minMax true true x.bits x.v y.bits y.v
/-- One level of the tree: neighbours combine, the lower on the left; an only child passes. -/
def treeLevel {α : Type} (f : α → α → α) : List (Option α) → List (Option α)
  | some x :: some y :: t => some (f x y) :: treeLevel f t
  | some x :: none :: t => some x :: treeLevel f t
  | none :: y :: t => y :: treeLevel f t
  | [x] => [x]
  | [] => []
/-- The root of the tree over 2^n leaves. -/
def treeRoot {α : Type} (f : α → α → α) (n : Nat) (l : List (Option α)) : Option α :=
  match iterN (treeLevel f) n l with
  | x :: _ => x
  | [] => none
/-- A node: its element, and the flags raised below it. -/
abbrev Node := Elem × FpRes
/-- Combining two nodes. -/
def joinNodes (f : Format) (op : FRedOp) (x y : Node) : Node :=
  let r := redFloat f op x.1 y.1
  ({ bits := r.val, v := f.unpack r.val },
   { val := r.val, flags := x.2.flags ||| y.2.flags ||| r.flags, counts := x.2.counts || y.2.counts || r.counts })
/-- A result that is an element passed on without an operation: a NaN becomes the canonical one, with
IV for a signalling NaN (R47, R147; assumption 13). -/
def settle (f : Format) (x : Elem) (r : FpRes) : FpRes :=
  if x.v.isNan then
    { val := f.qnan, flags := r.flags ||| flagIf x.v.sig fIV, counts := r.counts || x.v.own }
  else { r with val := x.bits }
/-- The reduction of a tile's leaves in one half. -/
def reduceFloat (f : Format) (op : FRedOp) (leaves : List (Option Elem)) : FpRes :=
  match treeRoot (joinNodes f op) 5 (leaves.map fun x => x.map fun x => (x, { val := x.bits })) with
  | some x => settle f x.1 x.2
  | none => { val := 0 }
/-- The leaves of a lane's tile, by lane. -/
def State.tileLeaves (s : State) (e : LaneEnc) (l : Nat) : List (Option Nat) :=
  let w := s.cg.tileW
  (fromTo (l / w * w) w).map fun k => if (s.execLanes e).contains k then some k else none
def execFredux (e : LaneEnc) (w : FW) (op : FRedOp) (s : State) : Out :=
  let srcs (s : State) (l : Nat) : List (Nat × W32) := [s.srcA e w l]
  .next (s.fpGo e [Fld.dst e.dst, Fld.a e, Fld.noHi (e.hb || e.hc)] [e.dst.toNat] srcs (whole := true) (State.byLane e fun s l =>
    let rs := (halves w).map fun h =>
      reduceFloat (fmtOf w) op ((s.tileLeaves e l).map fun k => k.map fun k => elemOf w h (s.opA e w k))
    { vals := [joinElems w rs], flags := flagsOf rs, counts := rs.any (·.counts) }))

end Sys2Proof.Machine
end

