-- ==== Sys2Proof/Machine/LaneAlg.lean ====
section
/-!
DEFINITION. Structure-constant tables (09_algebra_array.md R213, R214; 01_machine_state.md R37) and the algebra
instructions of the lanes (06_lane_float_conversion_algebra.md R160 to R162).
-/

namespace Sys2Proof.Machine

/-! ## Tables -/

/-- The real algebra, which a table holds at launch (R37). -/
def realTable : AlgTable := [0x08#8]
/-- A byte of a table. -/
def tabByte (t : AlgTable) (k : Nat) : Nat := (t.getD k 0#8).toNat
/-- d. -/
def tabDim (t : AlgTable) : Nat := 2 ^ (tabByte t 64 % 4)
/-- Entry (i, j): target, and sign 0, +1 or −1. -/
def tabEntry (t : AlgTable) (i j : Nat) : Nat × Int :=
  let b := tabByte t (8 * i + j)
  (b / 32, match b / 8 % 4 with
    | 1 => 1 | 2 => -1 | _ => 0)
/-- Bit k of the conjugation mask, and of the metric byte. -/
def tabConj (t : AlgTable) (k : Nat) : Bool := bitOf (tabByte t 66) k
def tabMetric (t : AlgTable) (k : Nat) : Bool := bitOf (tabByte t 67) k
/-- The lowest byte at which a table fails R214: entries are compared with d, and reserved bits with 0. -/
def tabFault (t : AlgTable) : Option Nat :=
  let d := tabDim t
  (List.range 128).find? fun k =>
    let b := tabByte t k
    if k < 64 then
      b / 8 % 4 == 3 || b % 8 != 0 || (b / 8 % 4 != 0 && (d ≤ k / 8 || d ≤ k % 8 || d ≤ b / 32))
    else if k == 64 then 4 ≤ b
    else if k == 66 || k == 67 then 2 ^ d ≤ b
    else b != 0
/-- The table that number n names for a group: those of its block on its core (R37). -/
def State.tableOf (s : State) (x : Group) (n : Nat) : AlgTable :=
  match (s.blk x.block).tables.find? (·.1 == x.core) with
  | some (_, l) => (s.core x.core).tables.getD (l.getD n 128) realTable
  | none => realTable

/-! ## Elements -/

/-- One component as it is accumulated: its element, and the flags raised so far. -/
abbrev Comp := Elem × FpRes
/-- The component that an operation gives after others. -/
def Comp.next (f : Format) (before : FpRes) (r : FpRes) : Comp :=
  ({ bits := r.val, v := f.unpack r.val },
   { val := r.val, flags := before.flags ||| r.flags, counts := before.counts || r.counts })
/-- A value under a sign. -/
def withSign (sgn : Int) (v : FV) : FV := if sgn < 0 then v.negate else v
/-- Adding a signed product to a component, the first product rounded alone (R161). -/
def Comp.addTerm (f : Format) (acc : Option Comp) (sgn : Int) (x y : FV) : Option Comp :=
  match acc with
  | none => some (Comp.next f { val := 0 } (f.mul .rn (withSign sgn x) y))
  | some c => some (Comp.next f c.2 (f.fma .rn (withSign sgn x) y c.1.v))
/-- A component as a result, +0 where nothing was added. -/
def Comp.res (f : Format) (c : Option Comp) : FpRes :=
  match c with
  | some c => settle f c.1 c.2
  | none => { val := 0 }
/-- An element component by itself. -/
def Comp.of (x : Elem) : Comp := (x, { val := x.bits })
/-- The element of a list of components by index. -/
def elemAt (xs : List Elem) (k : Nat) : Elem := xs.getD k { bits := 0, v := .fin false 0 0 }

/-- Component k of a ⊗ b, or of a ⊗ b + c (R161). -/
def algMul (f : Format) (t : AlgTable) (a b : List Elem) (c : Option (List Elem)) (k : Nat) : FpRes :=
  let d := tabDim t
  let pairs := (List.range d).flatMap fun i => (List.range d).map fun j => (i, j)
  let start : Option Comp := c.map fun c => Comp.of (elemAt c k)
  Comp.res f (pairs.foldl (fun acc p =>
    let (tgt, sgn) := tabEntry t p.1 p.2
    if sgn != 0 && tgt == k then Comp.addTerm f acc sgn (elemAt a p.1).v (elemAt b p.2).v else acc) start)
/-- Component k of the conjugate (R162). -/
def algConj (f : Format) (t : AlgTable) (x : List Elem) (k : Nat) : FpRes :=
  let y := elemAt x k
  if y.v.isNan then f.nanRes [y.v] false
  else { val := if tabConj t k then (if bitOf y.bits (f.eb + f.mb) then y.bits - f.sign true else y.bits + f.sign true) else y.bits }
/-- The norm (R162). -/
def algNorm (f : Format) (t : AlgTable) (x : List Elem) : FpRes :=
  Comp.res f ((List.range (tabDim t)).foldl (fun acc k =>
    Comp.addTerm f acc (if tabMetric t k then -1 else 1) (elemAt x k).v (elemAt x k).v) none)
/-- Component k of the inverse: the conjugate times the rounded reciprocal of the norm (R162). -/
def algInv (f : Format) (t : AlgTable) (x : List Elem) (k : Nat) : FpRes :=
  let n := algNorm f t x
  let r := f.div (.fin false 1 0) (f.unpack n.val)
  let c := algConj f t x k
  let p := f.mul .rn (f.unpack c.val) (f.unpack r.val)
  { val := p.val, flags := n.flags ||| r.flags ||| c.flags ||| p.flags, counts := n.counts || r.counts || c.counts || p.counts }

/-! ## Instructions -/

/-- The registers of an operand element with their codes. -/
def State.algSrc (s : State) (w : FW) (hi : Bool) (code : BitVec 11) (d l : Nat) : List (Nat × W32) :=
  if d == 1 then [(code.toNat, s.opnd w hi code.toNat l)] else (fromTo code.toNat d).map fun r => (r, s.cg.rv r l)
/-- The field of a source element. -/
def algFld (code : BitVec 11) (hi : Bool) (d : Nat) : Fld := if d == 1 then Fld.src code hi else Fld.vsrc code d d hi
/-- An algebra instruction: `ops` are the source fields, `nd` the destination words, `f` component k of
the result from the elements of the sources. -/
def State.algGo (s : State) (e : LaneEnc) (w : FW) (tab : Nat) (ops : List (BitVec 11 × Bool)) (rest : Fld) (one : Bool)
    (f : AlgTable → List (List Elem) → Nat → FpRes) : State :=
  let t := s.tableOf s.cg tab
  let d := tabDim t
  let nd := if one then 1 else d
  let regs := fromTo e.dst.toNat nd
  let srcs (s : State) (l : Nat) : List (List (Nat × W32)) := ops.map fun o => s.algSrc w o.2 o.1 d l
  let flds := Fld.test (s.cblk.nalg ≤ tab) :: Fld.dst e.dst nd nd :: (ops.map fun o => algFld o.1 o.2 d) ++ [rest]
  s.fpGo e flds regs (fun s l => (srcs s l).flatMap fun x => x) (State.byLane e fun s l =>
    let vals := (srcs s l).map fun o => o.map (·.2)
    let rs := (List.range nd).map fun k => (halves w).map fun h => f t (vals.map fun o => o.map (elemOf w h)) k
    { vals := rs.map (joinElems w), flags := flagsOf (rs.flatMap fun x => x), counts := (rs.flatMap fun x => x).any (·.counts) })

def execAmul (e : LaneEnc) (w : FW) (tab : BitVec 3) (s : State) : Out :=
  .next (s.algGo e w tab.toNat [(e.a, e.ha), (e.b, e.hb)] (Fld.noHi e.hc) false fun t => fun
    | [a, b] => algMul (fmtOf w) t a b none
    | _ => fun _ => { val := 0 })
def execAmad (e : LaneEnc) (w : FW) (tab : BitVec 3) (s : State) : Out :=
  .next (s.algGo e w tab.toNat [(e.a, e.ha), (e.b, e.hb), (e.c, e.hc)] (Fld.noHi false) false fun t => fun
    | [a, b, c] => algMul (fmtOf w) t a b (some c)
    | _ => fun _ => { val := 0 })
def execAconj (e : LaneEnc) (w : FW) (tab : BitVec 3) (s : State) : Out :=
  .next (s.algGo e w tab.toNat [(e.a, e.ha)] (Fld.noHi (e.hb || e.hc)) false fun t => fun
    | [a] => algConj (fmtOf w) t a
    | _ => fun _ => { val := 0 })
def execAnorm (e : LaneEnc) (w : FW) (tab : BitVec 3) (s : State) : Out :=
  .next (s.algGo e w tab.toNat [(e.a, e.ha)] (Fld.noHi (e.hb || e.hc)) true fun t => fun
    | [a] => fun _ => algNorm (fmtOf w) t a
    | _ => fun _ => { val := 0 })
def execAinv (e : LaneEnc) (w : FW) (tab : BitVec 3) (s : State) : Out :=
  .next (s.algGo e w tab.toNat [(e.a, e.ha)] (Fld.noHi (e.hb || e.hc)) false fun t => fun
    | [a] => algInv (fmtOf w) t a
    | _ => fun _ => { val := 0 })

end Sys2Proof.Machine
end

