-- ==== Sys2Proof/Machine/Narrow.lean ====
section
/-!
DEFINITION. The element formats beyond the floating-point ones (02_number_formats.md R48 to R55): integers, K4
codes, block scales; error feedback (R60, R61), the fixed-rounding units (R62) and the max-magnitude
register (R64).
-/

namespace Sys2Proof.Machine

/-- The floating-point format of a format code; K4 codes of type 01 are E2M1 (R53). -/
def formatOf (f : Fmt) : Format :=
  match f with
  | .f32 => fp32 | .f16 => fp16 | .bf16 => bf16 | .e4m3 => e4m3 | .e5m2 => e5m2
  | .e3m2 => e3m2 | .e2m3 => e2m3 | _ => e2m1

/-! ## Integers (R49) -/

/-- The limits of an integer format. -/
def intRange (f : Fmt) : Int × Int :=
  match f with
  | .i8 => (-128, 127) | .ui8 => (0, 255) | .i16 => (-32768, 32767)
  | .i4 => (-8, 7) | .ui4 => (0, 15) | _ => (-(2 ^ 31), 2 ^ 31 - 1)
/-- A value clamped to a format. -/
def clampInt (f : Fmt) (v : Int) : Int := max (intRange f).1 (min (intRange f).2 v)
/-- An integer as a value. -/
def FV.ofInt (v : Int) : FV := .fin (v < 0) v.natAbs 0
/-- A value to an integer format. -/
def toIntFmt (f : Fmt) (k : Rounding) (v : FV) : FpRes :=
  let code (x : Int) : Nat := wrapTo f.width x
  match v with
  | .nan _ _ => { val := 0, flags := fIV, counts := true }
  | .inf neg => { val := code (if neg then (intRange f).1 else (intRange f).2), flags := fIV, counts := true }
  | .fin neg man exp =>
    let (n, inexact) := roundUnits k neg man exp 0
    let x : Int := if neg then -n else n
    if clampInt f x != x then { val := code (clampInt f x), flags := fIV, counts := true }
    else { val := code x, flags := flagIf inexact fNX }

/-! ## K4 codes (R52 to R55) -/

/-- The magnitudes of the codes of types 10 and 11, in eighths. -/
def k4Mags (kt : Nat) : List Nat := if kt == 2 then [0, 1, 2, 4, 8, 16, 32, 64] else [0, 8, 16, 24, 32, 48, 64, 96]
/-- The value of a code in eighths, for types 00, 10 and 11. -/
def k4Eighths (kt c : Nat) : Int :=
  if kt == 0 then 8 * signedOf 4 c
  else
    let m : Int := (k4Mags kt).getD (c % 8) 0
    if 8 ≤ c then -m else m
/-- maxmag. -/
def k4MaxMag (kt : Nat) : Nat :=
  match kt with
  | 0 => 7 | 1 => 6 | 2 => 8 | _ => 12
/-- The overflow point in eighths on a side, and whether its largest code is odd (R57). -/
def k4Over (kt : Nat) (neg : Bool) : Nat × Bool :=
  match kt with
  | 0 => if neg then (68, false) else (60, true)
  | 2 => (80, true)
  | _ => (112, true)
/-- The nearest code of types 00, 10 and 11 (R54). The worked example of R55 calls 6.5 a tie of 6 and 8; by R54 it is nearer to 6,
which is the code here (DEDUCED, log entry 135). -/
def toK4Code (kt : Nat) (away neg : Bool) (man : Nat) (exp : Int) : FpRes :=
  if man == 0 then { val := 0 }
  else
    let t := exp + 3
    let x := if 0 ≤ t then man * 2 ^ t.toNat else man
    let u := if 0 ≤ t then 1 else 2 ^ (-t).toNat
    let signed : Int := if neg then -x else x
    let dist (c : Nat) : Nat := (signed - k4Eighths kt c * u).natAbs
    let pref (c : Nat) : Nat := if away then 100 - (k4Eighths kt c).natAbs else c % 2
    let codes := (List.range 16).filter fun c => kt == 0 || c != 8
    let c := (minBy (fun c => 128 * dist c + pref c) codes).getD 0
    let (o, odd) := k4Over kt neg
    if o * u < x || (x == o * u && (away || odd)) then { val := c, flags := fOF ||| fNX }
    else { val := c, flags := flagIf (dist c != 0) fNX }
/-- A value to a K4 code. -/
def toK4 (kt : Nat) (k : Rounding) (v : FV) : FpRes :=
  if kt == 1 then e2m1.convert k false v
  else match v with
    | .nan _ _ => { val := 0, flags := fIV, counts := true }
    | .inf neg => { val := if !neg then 7 else if kt == 0 then 8 else 15, flags := fIV, counts := true }
    | .fin neg man exp => toK4Code kt (k == .away) neg man exp

/-! ## Any format -/

/-- A value in a format (R49, R54, R57, R58). -/
def toFmt (f : Fmt) (kt : Nat) (k : Rounding) (sat : Bool) (v : FV) : FpRes :=
  if f.isInt then toIntFmt f k v
  else if f == .k4 then toK4 kt k v
  else (formatOf f).convert k sat v
/-- The value of an element's bits, the unused ones ignored. -/
def ofFmt (f : Fmt) (kt : Nat) (x : Nat) (mkr : Bool := false) : FV :=
  match f with
  | .ui8 => FV.ofInt (x % 256)
  | .ui4 => FV.ofInt (x % 16)
  | .i8 | .i16 | .i32 | .i4 => FV.ofInt (signedOf f.width x)
  | .k4 =>
    if kt == 1 then e2m1.unpack (x % 16)
    else
      let v := k4Eighths kt (x % 16)
      .fin (v < 0) v.natAbs (-3)
  | _ => (formatOf f).unpack (x % 2 ^ f.width) mkr

/-! ## Block scales (R51, R55) -/

/-- man₁ × 2^exp₁ is larger than man₂ × 2^exp₂. -/
def magLt (m2 : Nat) (e2 : Int) (m1 : Nat) (e1 : Int) : Bool :=
  let q := min e1 e2
  m2 * 2 ^ (e2 - q).toNat < m1 * 2 ^ (e1 - q).toNat
/-- The largest magnitude of the finite elements, (0, 0) where all are zero. -/
def amax (xs : List FV) : Nat × Int :=
  xs.foldl (fun a x => match x with
    | .fin _ m e => if m != 0 && (a.1 == 0 || magLt a.1 a.2 m e) then (m, e) else a
    | _ => a) (0, 0)
/-- The smallest k with n ≤ d × 2^k. -/
def ceilLog2 (n d : Nat) : Int :=
  let k : Int := Nat.log2 n - (Nat.log2 d : Int)
  if magLt d k n 0 then k + 1 else k
/-- An integer clamped between two. -/
def clampTo (lo hi x : Int) : Int := max lo (min hi x)
/-- The E8M0 scale byte of a block. -/
def e8m0Byte (f : Fmt) (xs : List FV) : Nat :=
  if xs.any FV.isNan then 255
  else if xs.any FV.isInf then 254
  else
    let (m, e) := amax xs
    if m == 0 then 0
    else match (formatOf f).unpack (formatOf f).maxCode with
      | .fin _ mm me => (clampTo 0 254 (127 + e - me + ceilLog2 m mm)).toNat
      | _ => 0
/-- The K4 exponent of a block. -/
def k4Exp (kt : Nat) (xs : List FV) : Int :=
  if xs.any FV.isInf then 31
  else
    let (m, e) := amax xs
    if m == 0 then -32 else clampTo (-32) 31 (e + ceilLog2 m (k4MaxMag kt))

/-! ## Error feedback (R60, R61) -/

/-- The magnitude limit of a format on one side, as man × 2^exp. -/
def limitOf (f : Fmt) (kt : Nat) (neg : Bool) : Nat × Int :=
  if f.isInt then ((if neg then (intRange f).1 else (intRange f).2).natAbs, 0)
  else if f == .k4 then (if kt == 0 && neg then 8 else k4MaxMag kt, 0)
  else match (formatOf f).unpack (formatOf f).maxCode with
    | .fin _ m e => (m, e)
    | _ => (0, 0)
/-- A value times 2^k. -/
def FV.scale (k : Int) : FV → FV
  | .fin n m e => .fin n m (e + k)
  | x => x
/-- The residual after an element: y is the element with its residual, ys = y / scale, q its result. -/
def residual (f : Fmt) (kt : Nat) (sexp : Int) (y : FV) (q : Nat) : FV :=
  let zero : FV := .fin false 0 0
  match y, ofFmt f kt q with
  | .fin n m e, .fin qn qm qe =>
    let lim := limitOf f kt n
    if m != 0 && magLt lim.1 lim.2 m (e - sexp) then zero
    else fp32.unpack (fp32.add .rn (.fin n m e) (.fin (!qn) qm (qe + sexp))).val
  | _, _ => zero
/-- A chain from a residual on: each element's result. `plain` is `.nf`. -/
def chain (f : Fmt) (kt : Nat) (sat plain : Bool) (sexp : Int) : FV → List FV → List FpRes
  | _, [] => []
  | r, x :: t =>
    let y := match x with
      | .fin _ _ _ => if r.isZero then x else fp32.unpack (fp32.add .rn x r).val
      | _ => x
    let q := toFmt f kt (.mode .rn) sat (y.scale (-sexp))
    q :: chain f kt sat plain sexp (if plain then .fin false 0 0 else residual f kt sexp y q.val) t

/-! ## Fixed-rounding units (R62) -/

/-- One element under R62: ties away below 16 bits, to even otherwise; E5M2 saturates. -/
def fixedNarrow (f : Fmt) (kt : Nat) (v : FV) : FpRes :=
  toFmt f kt (if f.width < 16 then .away else .mode .rn) (f == .e5m2) v

/-! ## The max-magnitude register (R64) -/

/-- One update of a register. -/
def magMerge (r : W32) (v : FV) : W32 :=
  match v with
  | .nan _ _ => r ||| 0x80000000#32
  | v =>
    let a := BitVec.ofNat 32 ((fp32.convert (.mode .rn) false v).val % 2 ^ 31)
    if (r &&& 0x7FFFFFFF#32).ult a then (r &&& 0x80000000#32) ||| a else r

/-! ## Elements in registers (R48, R155) -/

/-- E elements of a storage width from registers. -/
def elemsOfRegs (w n : Nat) (regs : List W32) : List Nat :=
  (List.range n).map fun i => bitsOf (regs.getD (i * w / 32) 0#32).toNat (i * w % 32 + w - 1) (i * w % 32)
/-- Registers that hold codes of a storage width. -/
def regsOfElems (w : Nat) (codes : List Nat) : List W32 :=
  let per := 32 / w
  (List.range ((codes.length * w + 31) / 32)).map fun r =>
    BitVec.ofNat 32 (((List.range per).map fun j => codes.getD (per * r + j) 0 % 2 ^ w * 2 ^ (w * j)).sum)

end Sys2Proof.Machine
end

