-- ==== Sys2Proof/Machine/LaneCvt.lean ====
section
/-!
DEFINITION. Lane conversions and the max-magnitude registers (06_lane_float_conversion_algebra.md R155 to R159).
-/

namespace Sys2Proof.Machine

/-- The shape of a conversion: storage widths of source and destination, elements in a lane. -/
structure CvtShape where
  ws : Nat
  wd : Nat
  n : Nat
  deriving DecidableEq, Repr

/-- The shape of a pair of formats; the integer side of CVTFI and CVTIF has width 32 (R155). -/
def cvtShape (ws wd : Nat) : CvtShape := { ws := ws, wd := wd, n := 32 / min ws wd }
/-- Source registers. -/
def CvtShape.ns (c : CvtShape) : Nat := c.n * c.ws / 32
/-- Destination registers. -/
def CvtShape.nd (c : CvtShape) : Nat := c.n * c.wd / 32
/-- The width at which an inline constant is read (R84). -/
def fwOf (f : Fmt) : FW :=
  match f with
  | .f16 => .h2 | .bf16 => .bh2 | _ => .f32
/-- The destination registers. -/
def CvtShape.dsts (c : CvtShape) (e : LaneEnc) : List Nat := fromTo e.dst.toNat c.nd
/-- The operand fields of an unscaled conversion. -/
def CvtShape.flds (c : CvtShape) (e : LaneEnc) : List Fld :=
  [Fld.dst e.dst c.nd c.nd, if c.ns == 1 then Fld.a e else Fld.vsrc e.a c.ns c.ns e.ha, Fld.noHi (e.hb || e.hc)]
/-- The operand fields of a scaled conversion: C is a v register outside the destination. -/
def CvtShape.fldsScaled (c : CvtShape) (e : LaneEnc) : List Fld :=
  [Fld.dst e.dst c.nd c.nd, if c.ns == 1 then Fld.a e else Fld.vsrc e.a c.ns c.ns e.ha, Fld.noHi e.hb,
   { code := e.c.toNat, bad := 1536 ≤ e.c.toNat || e.hc || (c.dsts e).contains e.c.toNat, regs := [e.c.toNat] }]
/-- The source registers of a lane with their codes. -/
def State.cvtSrc (s : State) (e : LaneEnc) (sf : Fmt) (c : CvtShape) (l : Nat) : List (Nat × W32) :=
  if c.ns == 1 then [s.srcA e (fwOf sf) l] else (fromTo e.a.toNat c.ns).map fun r => (r, s.cg.rv r l)
/-- The sources that the marker test looks at (R147). -/
def State.cvtMarks (s : State) (e : LaneEnc) (sf : Fmt) (c : CvtShape) (l : Nat) : List (Nat × W32) :=
  if sf.isInt then [] else s.cvtSrc e sf c l
/-- The source elements of a lane as values. -/
def State.cvtElems (s : State) (e : LaneEnc) (sf : Fmt) (kt : Nat) (c : CvtShape) (l : Nat) : List FV :=
  let regs := (s.cvtSrc e sf c l).map (·.2)
  ((elemsOfRegs c.ws c.n regs).zipIdx).map fun x => ofFmt sf kt x.1 (isMarker (regs.getD (x.2 * c.ws / 32) 0#32))
/-- A lane's result from those of its elements. -/
def laneCodes (wd : Nat) (rs : List FpRes) (more : List W32 := []) : LaneRes :=
  { vals := regsOfElems wd (rs.map (·.val)) ++ more, flags := flagsOf rs, counts := rs.any (·.counts) }

/-- The update of the named register from every source element of the lanes that compute (R64, R158). -/
def State.magUpdate (s : State) (e : LaneEnc) (m : ConvMod) (kt : Nat) (c : CvtShape) (g : Group) : Group :=
  if m.mg then
    let vs := (s.calcLanes e).flatMap fun l => s.cvtElems e m.sfmt kt c l
    g.setmag m.mag.toNat (vs.foldl magMerge (g.rmag m.mag.toNat))
  else g
/-- The register that a conversion names. -/
def magOf (m : ConvMod) : Option Nat := if m.mg then some m.mag.toNat else none

/-- A conversion of each element by itself. -/
def State.cvtEach (s : State) (e : LaneEnc) (m : ConvMod) (kt : Nat) (c : CvtShape) (f : FV → FpRes) : State :=
  s.fpGo e (c.flds e) (c.dsts e) (fun s l => s.cvtMarks e m.sfmt c l)
    (State.byLane e fun s l => laneCodes c.wd ((s.cvtElems e m.sfmt kt c l).map f)) (magOf m)
    fun s g => s.magUpdate e m kt c g

/-- The lanes cut into runs of neighbours of a width, in order. -/
def cutLanes (w : Nat) (ls : List Nat) : List (List Nat) := (List.range (32 / w)).map fun k => ls.filter fun l => l / w == k
/-- Equal pieces of a list. -/
def cutList {α : Type} (n : Nat) : Nat → List α → List (List α)
  | 0, _ => []
  | k + 1, l => l.take n :: cutList n k (l.drop n)
/-- A chain over the elements of lanes, each lane with its results. -/
def chainLanes (n : Nat) (run : List FV → List FpRes) (ls : List (Nat × List FV)) : List (Nat × List FpRes) :=
  (ls.map (·.1)).zip (cutList n ls.length (run (ls.flatMap (·.2))))

/-- An error-feedback conversion with scale 1 (R60, R157): the chains are the tiles. -/
def State.cvtFeed (s : State) (e : LaneEnc) (m : ConvMod) (c : CvtShape) : State :=
  s.fpGo e (c.flds e) (c.dsts e) (fun s l => s.cvtMarks e m.sfmt c l)
    (fun s => (cutLanes s.cg.tileW (s.calcLanes e)).flatMap fun ls =>
      (chainLanes c.n (chain m.dfmt 0 m.sat m.nf 0 (.fin false 0 0)) (ls.map fun l => (l, s.cvtElems e m.sfmt 0 c l))).map
        fun r => (r.1, laneCodes c.wd r.2)) (magOf m)
    fun s g => s.magUpdate e m 0 c g

/-- The scale byte and the scale's exponent that a block chooses (R51, R55). -/
def blockScale (df : Fmt) (kt : Nat) (xs : List FV) : Nat × Int :=
  if df == .k4 then (64 * kt + wrapTo 6 (k4Exp kt xs), k4Exp kt xs)
  else (e8m0Byte df xs, (e8m0Byte df xs : Int) - 127)
/-- The codes of a chain of a block; the codes of an E8M0 block with a NaN are 0 (R157). -/
def blockChain (m : ConvMod) (kt byte : Nat) (sexp : Int) (xs : List FV) : List FpRes :=
  if m.dfmt != .k4 && byte == 255 then
    xs.map fun x => { val := 0, flags := flagIf x.sig fIV, counts := x.own }
  else chain m.dfmt kt m.sat m.nf sexp (.fin false 0 0) xs
/-- A conversion to scaled blocks (R157). -/
def State.cvtBlock (s : State) (e : LaneEnc) (m : ConvMod) (kt : Nat) (c : CvtShape) : State :=
  s.fpGo e (c.fldsScaled e) (c.dsts e ++ [e.c.toNat]) (fun s l => s.cvtMarks e m.sfmt c l) (whole := true)
    (fun s => (cutLanes (32 / c.n) (s.calcLanes e)).flatMap fun ls =>
      let el := ls.map fun l => (l, s.cvtElems e m.sfmt 0 c l)
      let (byte, sexp) := blockScale m.dfmt kt (el.flatMap (·.2))
      (cutLanes (min s.cg.tileW (32 / c.n)) ls).flatMap fun cs =>
        (chainLanes c.n (blockChain m kt byte sexp) (el.filter fun x => cs.contains x.1)).map
          fun r => (r.1, laneCodes c.wd r.2 [BitVec.ofNat 32 byte])) (magOf m)
    fun s g => s.magUpdate e m 0 c g

/-- CVTFI: results are extended to 32 bits by the format's sign (R155). -/
def execCvtfi (e : LaneEnc) (m : ConvMod) (s : State) : Out :=
  .next (s.cvtEach e m 0 (cvtShape m.sfmt.width 32) fun v =>
    let r := toIntFmt m.dfmt (.mode .rn) v
    let x : Int := if (intRange m.dfmt).1 < 0 then signedOf m.dfmt.width r.val else r.val
    { r with val := wrapTo 32 x })
def execCvtif (e : LaneEnc) (m : ConvMod) (s : State) : Out :=
  .next (s.cvtEach e m 0 (cvtShape 32 m.dfmt.width) fun v => (formatOf m.dfmt).convert (.mode .rn) false v)
/-- CVTFF: feedback from FP32 to 16 bits, each element otherwise; a decoded 8-bit NaN raises no flag (R156). -/
def execCvtff (e : LaneEnc) (m : ConvMod) (kt : BitVec 2) (s : State) : Out :=
  let c := cvtShape m.sfmt.width m.dfmt.width
  .next (if m.sfmt == .f32 then s.cvtFeed e m c
    else s.cvtEach e m kt.toNat c fun v =>
      if v.isNan && m.sfmt.narrowFloat then { val := (formatOf m.dfmt).qnan }
      else (formatOf m.dfmt).convert (.mode .rn) false v)
/-- CVTN: feedback from a float; integers saturate and raise no flag (R156). -/
def execCvtn (e : LaneEnc) (m : ConvMod) (s : State) : Out :=
  let c := cvtShape m.sfmt.width m.dfmt.width
  .next (if m.sfmt.isInt then s.cvtEach e m 0 c fun v => { val := (toIntFmt m.dfmt (.mode .rn) v).val }
    else s.cvtFeed e m c)
def execCvtk4 (e : LaneEnc) (m : ConvMod) (kt : BitVec 2) (s : State) : Out :=
  .next (s.cvtBlock e m kt.toNat (cvtShape m.sfmt.width 4))
def execCvtw (e : LaneEnc) (m : ConvMod) (s : State) : Out :=
  .next (s.cvtBlock e m 0 (cvtShape m.sfmt.width m.dfmt.width))

/-! ## MAGRD and MAGCLR (R159) -/

/-- An issued instruction that names a register has not completed. -/
def Group.magBusy (g : Group) (n : Nat) : Bool := g.ops.any fun o => !o.done && o.mag == some n
def execMagrd (e : LaneEnc) (mag : BitVec 2) (s : State) : Out :=
  .next (s.laneGo e [Fld.dst e.dst, noHis e] (whole := true) fun s =>
    if s.cg.magBusy mag.toNat then s
    else (s.updCg fun g => g.writeLanes e.dst.toNat (fun _ => g.rmag mag.toNat) (s.execLanes e)).issue e e.bytes
      { vw := [e.dst.toNat] })
def execMagclr (e : LaneEnc) (mag : BitVec 2) (s : State) : Out :=
  .next (s.laneGo e [noHis e] (whole := true) fun s =>
    if s.cg.magBusy mag.toNat then s
    else (s.updCg fun g => if s.execMask e == 0#32 then g else g.setmag mag.toNat 0#32).issue e e.bytes {})

end Sys2Proof.Machine
end

