-- ==== Sys2Proof/Machine/Array.lean ====
section
/-!
DEFINITION. The algebra array (09_algebra_array.md R213 to R234): tables, operand slots, SFILL, MMA and its queue,
and the accumulator instructions.
-/

namespace Sys2Proof.Machine

/-! ## Tables: ATAB (R214, R216) -/

/-- A scratchpad address in an s register: R216 and R219 leave no bit above 24. -/
def wideSa (x : W64) : Bool := 2 ^ 25 ≤ x.toNat
def execAtab (t : BitVec 3) (a : BitVec 6) (s : State) : Out :=
  .next (s.ctlGo [a.toNat] fun s =>
    let v := s.cg.rs a.toNat
    if s.cblk.nalg ≤ t.toNat then s.trapCtl cIllegalOperand
    else match (if wideSa v then none else s.scratchPaAt v.toNat 128) with
      | none => s.trapCtl cAddrFault 0 0 v
      | some pa =>
        if v.toNat % 16 != 0 then s.trapCtl cAlign 0 0 v
        else if s.badIn pa 128 then s.trapCtl cUncorrectable 0 0 v pa
        else
          let tab := s.mem.bytes pa 128
          match tabFault tab with
          | some k => s.trapCtl cAlgTable k
          | none =>
            let core := s.cg.core
            let slot := match s.cblk.tables.find? (·.1 == core) with
              | some (_, l) => l.getD t.toNat 32
              | none => 32
            (s.updCore core fun c => { c with tables := c.tables.set slot tab }).advance)

/-! ## Operand slots (R217, R218) -/

/-- The slots of a core that no group and no unfinished use holds. -/
def Core.freeSlots (c : Core) : List Nat := (List.range 128).filter fun k => (c.opslots.get? k).isNone
/-- A released slot whose every earlier use has completed. -/
def Core.slotIdle (c : Core) (k : Nat) : Bool :=
  !(c.arrayQ.any fun e => e.sa == k || e.sb == k) && !c.fills.any fun f => f.slot == k
/-- Released slots that are idle become free (R218). -/
def Core.reapSlots (c : Core) : Core := { c with opslots := c.opslots.keep fun k o => !(o.released && c.slotIdle k) }
/-- A group claims a slot: 4,096 zero bytes, and its number in S[d]. -/
def State.claimSlot (s : State) (g d k : Nat) : State :=
  let s := s.updCore (s.grp g).core fun c => { c with opslots := c.opslots.set k { holder := g } }
  s.updGrp g fun x => ({ x with slots := x.slots ++ [k] }).sets d (BitVec.ofNat 64 k)
/-- SCLM: the quota, then a slot that no waiting group is before (R217). -/
def State.sclmGo (s : State) (d : Nat) (nw : Bool) : State :=
  let c := s.core s.cg.core
  if s.cg.quota ≤ s.cg.slots.length then s.trapCtl cSlotExhausted s.cg.quota
  else if c.sclmQ.length < c.freeSlots.length && !c.sclmQ.contains s.cur.g then
    (s.claimSlot s.cur.g d (c.freeSlots.headD 0)).advance
  else if nw then s.trapCtl cSlotExhausted 128
  else if c.sclmQ.contains s.cur.g then s
  else
    let (id, s) := s.newId
    let s := s.updCore s.cg.core fun c => { c with sclmQ := c.sclmQ ++ [s.cur.g] }
    s.standIn { kind := .sclm, n := d, obj := id }
def execSclm (d : BitVec 6) (s : State) : Out := .next (s.ctlGo [d.toNat] fun s => s.sclmGo d.toNat false)
def execSclmNw (d : BitVec 6) (s : State) : Out := .next (s.ctlGo [d.toNat] fun s => s.sclmGo d.toNat true)
/-- A slot goes to the group that waits longest, whose SCLM completes (R217). -/
def execSclmGrant (core : Nat) (s : State) : Out :=
  let c := s.core core
  .next (match c.sclmQ, c.freeSlots with
    | g :: t, k :: _ =>
      if (s.grp g).parked.isSome then s else
      let d := match (s.grp g).wait with
        | some w => w.n
        | none => 0
      let s := (s.updCore core fun c => { c with sclmQ := t }).claimSlot g d k
      s.updGrp g fun x => { x with cpc := x.cpc + 4#64, wait := none, noBreak := false }
    | _, _ => s)
def execSrel (a : BitVec 6) (s : State) : Out :=
  .next (s.ctlGo [a.toNat] fun s =>
    let k := (s.cg.rs a.toNat).toNat
    if !s.cg.slots.contains k then s.trapCtl cIllegalOperand 0 (1536 + a.toNat)
    else
      let s := s.updCg fun g => { g with slots := g.slots.filter (· != k) }
      (s.updCore s.cg.core fun c =>
        ({ c with opslots := c.opslots.mapVal fun j o => if j == k then { o with released := true } else o }).reapSlots).advance)

/-! ## SFILL (R219 to R221) -/

/-- Element width in bits. -/
def swidth (w : SWidth) : Nat :=
  match w with
  | .x4 => 4 | .x8 | .x8i => 8 | .x16 => 16 | .x32 => 32
/-- Source row and element of element x of a slot row (R220). -/
def fillFrom (w dim : Nat) (o : TOrder) (row x : Nat) : Nat × Nat :=
  match o with
  | .row => (row, x)
  | .col => (x % 32, 32 * (x / 32) + row)
  | .ilv => (row, x % dim * (1024 / w / dim) + x / dim)
/-- The negation of `.conj`. -/
def fillNeg (sw : SWidth) (c : Nat) : Nat :=
  let w := swidth sw
  if sw == .x8i then wrapTo 8 (min 127 (-signedOf 8 c)) else if bitOf c (w - 1) then c - 2 ^ (w - 1) else c + 2 ^ (w - 1)
/-- The 4,096 bytes of the slot from the 32 source rows, each as a number. -/
def fillBytes (sw : SWidth) (dim : Nat) (conj : Bool) (o : TOrder) (rows : List Nat) : List Byte :=
  let w := swidth sw
  (List.range 32).flatMap fun r =>
    let elem (x : Nat) : Nat :=
      let (sr, sx) := fillFrom w dim o r x
      let c := rows.getD sr 0 / 2 ^ (w * sx) % 2 ^ w
      if conj && x % dim != 0 then fillNeg sw c else c
    bytesOfNat 128 ((List.range (1024 / w)).foldl (fun n x => n + elem x * 2 ^ (w * x)) 0)
/-- The bytes of a list as slot contents: a zero byte is not listed. -/
def slotBytes (l : List Byte) : Tab Byte := ((l.zipIdx).filter fun c => c.1 != 0#8).map fun c => (c.2, c.1)

/-- SFILL (R219). Where S[b] alone reaches past bit 24, the address that faults is S[a] (DEDUCED, log entry 141). -/
def execSfill (d a b : BitVec 6) (w : SWidth) (dim : BitVec 2) (conj : Bool) (o : TOrder) (s : State) : Out :=
  .next (s.ctlGo [d.toNat, a.toNat, b.toNat] fun s =>
    let k := (s.cg.rs d.toNat).toNat
    let va := s.cg.rs a.toNat
    let vb := s.cg.rs b.toNat
    let rowSa (r : Nat) : Nat := va.toNat + r * (vb.toNat % 2 ^ 25)
    let lost := (List.range 32).find? fun r => (s.scratchPaAt (rowSa r) 128).isNone
    if !s.cg.slots.contains k then s.trapCtl cIllegalOperand 0 (1536 + d.toNat)
    else if wideSa va || wideSa vb then s.trapCtl cAddrFault 0 0 va
    else match lost with
      | some r => s.trapCtl cAddrFault 0 0 (BitVec.ofNat 64 (rowSa r))
      | none =>
        if va.toNat % 16 != 0 then s.trapCtl cAlign 0 0 va
        else if vb.toNat % 16 != 0 then s.trapCtl cAlign 0 0 (BitVec.ofNat 64 (rowSa 1))
        else if 255 ≤ s.cg.rcnt 2 then s.ctlWait { kind := .engine }
        else
          let pas := (List.range 32).map fun r => (s.scratchPaAt (rowSa r) 128).getD 0
          let bytes := fillBytes w (2 ^ dim.toNat) conj o (pas.map fun pa => s.peek pa 128)
          let bad := ((List.range 32).find? fun r => s.badIn (pas.getD r 0) 128).map fun r => BitVec.ofNat 64 (rowSa r)
          let after := ((s.core s.cg.core).arrayQ.filter fun e => e.sa == k || e.sb == k).map (·.id)
          let (s, id) := s.cntIssue s.cur.g 2
          let f : PendFill := { g := s.cur.g, slot := k, bytes := bytes, after := after, cnt := id, bad := bad, epc := s.cg.cpc }
          (s.updCore s.cg.core fun c => { c with fills := c.fills ++ [f] }).advance)

/-- The oldest SFILL that no earlier MMA holds back writes its slot and completes (R221). Where its rows
held an uncorrectable error, the group traps at its next control boundary (R219), before any other trap, since this one
ends or rolls back its job; what the slot then holds no rule says, and it stays as it was (DESIGN CHOICE, log entry 142). -/
def execSfillComplete (core : Nat) (s : State) : Out :=
  let c := s.core core
  .next (match c.fills.find? fun f => !c.arrayQ.any fun e => f.after.contains e.id with
    | none => s
    | some f =>
      let write (o : OpSlot) : OpSlot := if f.bad.isNone then { o with bytes := slotBytes f.bytes, bad := false } else o
      let s := s.updCore core fun c =>
        ({ c with fills := c.fills.filter (·.cnt != f.cnt),
                  opslots := c.opslots.mapVal fun j o => if j == f.slot then write o else o }).reapSlots
      let s := s.cntDone f.g f.cnt
      match f.bad with
      | none => s
      | some va =>
        let t : PendTrap := { code := cUncorrectable, faddr := va, pc := f.epc, resume := f.epc,
                              pa := ((s.scratchAt (s.grp f.g).block va.toNat 1).map fun x => scratchPa x.1 x.2).getD 0 }
        s.updGrp f.g fun x => { x with cpend := some t })

/-! ## MMA (R222 to R227) -/

/-- The element format of an MMA format. -/
def mmaElem (f : MFmt) : Fmt :=
  match f with
  | .bf16 => .bf16 | .f16 => .f16 | .f32 => .f32 | .e4m3 | .we4m3 => .e4m3 | .e5m2 | .we5m2 => .e5m2
  | .we3m2 => .e3m2 | .we2m3 => .e2m3 | .k4 => .k4 | .i8 => .i8 | .ui8 => .ui8 | .i16 => .i16
  | .i4 => .i4 | .ui4 => .ui4 | .we2m1 => .e2m1
/-- K₁ and c (R222). -/
def mmaDepth (f : MFmt) : Nat × Nat :=
  match (mmaElem f).width with
  | 32 => (8, 1) | 16 => (32, 2) | 8 => (64, 4) | _ => (128, 8)
/-- The formats that take a table of d > 1. -/
def mmaAlgebra (f : MFmt) : Bool := f == .bf16 || f == .f16 || f == .f32 || f == .e4m3 || f == .i8
/-- The formats that accumulate INT32. -/
def mmaInt (f : MFmt) : Bool := (mmaElem f).isInt
/-- ce and nch (R223). -/
def mmaChunks (f : MFmt) (d : Nat) : Nat × Nat :=
  let (k1, c) := mmaDepth f
  let ce := max 1 (c / d)
  (ce, k1 / d / ce)

/-- Bits of a slot as an element. -/
def slotElem (o : OpSlot) (bit w : Nat) : Nat :=
  natOfBytes ((List.range 4).map fun k => o.bytes.getD (bit / 8 + k) 0#8) / 2 ^ (bit % 8) % 2 ^ w
/-- An element under its block's scale byte (R50, R52, R224). -/
def scaledElem (f : MFmt) (code byte : Nat) : FV :=
  if f == .k4 then (ofFmt .k4 (byte / 64) code).scale (signedOf 6 byte)
  else if f.scaled then
    if byte == 255 then .nan false false else (ofFmt (mmaElem f) 0 code).scale ((byte : Int) - 127)
  else ofFmt (mmaElem f) 0 code
/-- Byte j of a captured scale word. -/
def scaleByte (l : List Nat) (i j : Nat) : Nat := l.getD i 0 / 2 ^ (8 * j) % 256
/-- a(m, kk, i) of an entry. -/
def ArrEntry.aElem (e : ArrEntry) (o : OpSlot) (m kk i : Nat) : FV :=
  let w := (mmaElem e.fmt).width
  scaledElem e.fmt (slotElem o (1024 * m + w * (kk * tabDim e.table + i)) w) (scaleByte e.ascale m (kk / 32))
/-- b(kk, n, j) of an entry. -/
def ArrEntry.bElem (e : ArrEntry) (o : OpSlot) (kk n j : Nat) : FV :=
  let w := (mmaElem e.fmt).width
  let col := n * tabDim e.table + j
  scaledElem e.fmt (slotElem o (w * (64 * kk + col)) w) (scaleByte e.bscale col (kk / 32))
/-- The exact product of two values under a sign. -/
def exactProd (sgn : Int) (x y : FV) : FV :=
  if x.isNan || y.isNan || zeroTimesInf x y then .nan false false
  else match x, y with
    | .fin n1 m1 e1, .fin n2 m2 e2 => .fin ((n1 != n2) != (sgn < 0)) (m1 * m2) (e1 + e2)
    | _, _ => .inf ((x.neg != y.neg) != (sgn < 0))
/-- A finite value as a multiple of 2^q. -/
def FV.units (q : Int) : FV → Int
  | .fin n m e => signedUnits n m e q
  | _ => 0
/-- The exponent of a finite value. -/
def FV.expo : FV → Int
  | .fin _ _ e => e
  | _ => 0
/-- The new word of a chunk in a float format: one rounding of the exact sum (R224). -/
def mmaSum (acc : FV) (terms : List FV) : W32 :=
  let all := acc :: terms
  let has (x : FV) : Bool := all.contains x
  if all.any FV.isNan || (has (.inf true) && has (.inf false)) then 0x7FC00000#32
  else if has (.inf false) then 0x7F800000#32
  else if has (.inf true) then 0xFF800000#32
  else
    let q := all.foldl (fun q x => min q x.expo) 0
    let t := all.foldl (fun t x => t + x.units q) 0
    if t == 0 then (if all.all (fun x => x.neg && x.isZero) && !terms.isEmpty then 0x80000000#32 else 0#32)
    else BitVec.ofNat 32 (fp32.ne (t < 0) t.natAbs q).val
/-- The terms of component k of element (m, n) in a chunk. -/
def ArrEntry.terms (e : ArrEntry) (oa ob : OpSlot) (m n k : Nat) : List FV :=
  let d := tabDim e.table
  let (ce, _) := mmaChunks e.fmt d
  let flip : Int := if e.na != e.nb then -1 else 1
  (fromTo (e.chunk * ce) ce).flatMap fun kk => (List.range d).flatMap fun i => (List.range d).filterMap fun j =>
    let (tgt, sgn) := tabEntry e.table i j
    if sgn != 0 && tgt == k then some (exactProd (sgn * flip) (e.aElem oa m kk i) (e.bElem ob kk n j)) else none
/-- The new word of a row after a chunk. -/
def ArrEntry.word (e : ArrEntry) (oa ob : OpSlot) (m w : Nat) (old : W32) : W32 :=
  let d := tabDim e.table
  let acc := if e.zc && e.chunk == 0 then 0#32 else old
  let terms := e.terms oa ob m (w / d) (w % d)
  if mmaInt e.fmt then acc + BitVec.ofInt 32 ((terms.map fun x => x.units 0).sum)
  else mmaSum (fp32.unpack acc.toNat) terms
/-- A tile word. -/
def AccTile.word (t : AccTile) (m w : Nat) : W32 := t.words.getD (64 * m + w) 0#32
/-- Writing a tile word. -/
def AccTile.setWord (t : AccTile) (m w : Nat) (x : W32) : AccTile := { t with words := t.words.put (64 * m + w) x 0#32, bad := t.bad.filter (· ≠ 64 * m + w) }
/-- A core's tile. -/
def Core.tile (c : Core) (k : Nat) : AccTile := c.tiles.getD k {}
/-- Changing a core's tile. -/
def Core.updTile (c : Core) (k : Nat) (f : AccTile → AccTile) : Core := { c with tiles := c.tiles.put k (f (c.tile k)) {} }
/-- The header while an MMA runs, and after its last chunk (R28, R227). -/
def ArrEntry.header (e : ArrEntry) (active : Bool) (prog : Nat) : W32 :=
  BitVec.ofNat 32 (2 ^ 20 * e.fmt.code.toNat + 2 ^ 18 * (tabByte e.table 64 % 4) + (if active then 2 ^ 17 else 0) +
    (if mmaInt e.fmt then 2 ^ 16 else 0) + prog)

/-- A tile of the core has an unfinished MMA (R232). -/
def Core.tileBusy (c : Core) (k : Nat) : Bool := c.arrayQ.any fun e => e.tile == k
/-- Entries of the array queue (R226). -/
def arrayDepth : Nat := 8
/-- A split or chain still waits for an entry of a core's array queue. -/
def State.waiterLive (s : State) (core : Nat) (w : ArrWaiter) : Bool :=
  match w with
  | .lane g i => (s.grp g).resident && (s.grp g).core == core && (s.grp g).splits.any fun y => y.id == i && y.wait == .arrayRoom
  | .chain k => match s.chains.get? k with
    | some c => c.core == core && c.phase == 1 && c.busy.isNone && (s.grp c.g).resident
    | none => false
/-- A waiter is an ALGOP that reads its slots' bytes: what arrives later stays behind it (R249). -/
def State.filling (s : State) (w : ArrWaiter) : Bool :=
  match w with
  | .lane _ _ => false
  | .chain k => (s.chains.get? k).any fun c => c.slow.isSome
/-- An entry of the array queue is free for a waiter, after those that arrived before it (R226, R249). -/
def State.arrayTurn (s : State) (core : Nat) (w : ArrWaiter) : Bool :=
  let before := ((s.core core).arrWait.filter (s.waiterLive core)).takeWhile fun x => x != w
  before.length + (s.core core).arrayQ.length < arrayDepth && !before.any s.filling
/-- A waiter arrives, where it has not arrived before. -/
def State.arrayArrive (s : State) (core : Nat) (w : ArrWaiter) : State :=
  s.updCore core fun c => if c.arrWait.contains w then c else { c with arrWait := c.arrWait.filter (s.waiterLive core) ++ [w] }
/-- A waiter takes its entry of the queue. -/
def Core.arrayTake (c : Core) (w : ArrWaiter) (e : ArrEntry) : Core :=
  { c with arrayQ := c.arrayQ ++ [e], arrWait := c.arrWait.filter fun x => x != w }
/-- The operand fields of MMA in the order of R89: table, handle and byte select, A, B, slot registers. -/
def State.mmaFlds (s : State) (e : LaneEnc) (m : MmaMod) : List Fld :=
  let slot (r : BitVec 6) : Fld := { code := 1536 + r.toNat, bad := !s.cg.slots.contains (s.cg.rs r.toNat).toNat }
  let nblk := (mmaDepth m.fmt).1 / 32
  [Fld.test (s.cblk.nalg ≤ m.tab.toNat), Fld.test (s.cg.accs.length ≤ m.handle.toNat || (m.fmt.scaled && 4 < m.sel.toNat + nblk))] ++
  (if m.fmt.scaled then [Fld.vsrc e.a 1 1 e.ha, Fld.vsrc e.b 2 2 e.hb] else [Fld.zero e.a e.ha, Fld.zero e.b e.hb]) ++
  [Fld.noHi e.hc, slot m.sa, slot m.sb]
/-- The queue entry that an MMA captures (R225). -/
def State.mmaEntry (s : State) (e : LaneEnc) (m : MmaMod) (id : Nat) : ArrEntry :=
  let g := s.cg
  let sc (r l : Nat) : Nat := if m.fmt.scaled then (g.rv r l).toNat / 2 ^ (8 * m.sel.toNat) else 0
  { id := id, g := s.cur.g, op := some g.nextOp, chain := none, fmt := m.fmt, na := m.na, nb := m.nb, zc := m.zc,
    tile := g.accs.getD m.handle.toNat 64, sa := (g.rs m.sa.toNat).toNat, sb := (g.rs m.sb.toNat).toNat,
    table := s.tableOf g m.tab.toNat, rows := s.execMask e,
    ascale := lanes.map (sc e.a.toNat), bscale := lanes.map (sc e.b.toNat) ++ lanes.map (sc (e.b.toNat + 1)) }

def execMma (e : LaneEnc) (m : MmaMod) (s : State) : Out :=
  .next (s.laneGo e (s.mmaFlds e m) (whole := true) fun s =>
    let core := s.cg.core
    if 1 < tabDim (s.tableOf s.cg m.tab.toNat) && !mmaAlgebra m.fmt then s.trapLane cIllegalFormat s.csplit.mask
    else if s.execMask e == 0#32 then s.issue e e.bytes {}
    else if 255 ≤ s.cg.rcnt 2 then s
    else if !s.arrayTurn core (.lane s.cur.g s.cur.split) then
      (s.arrayArrive core (.lane s.cur.g s.cur.split)).splitWaits .arrayRoom
    else
      let (s, id) := s.cntIssue s.cur.g 2
      let x := s.mmaEntry e m id
      let s := s.updCore core fun c => c.arrayTake (.lane s.cur.g s.cur.split) x
      s.issue e e.bytes { array := true })

/-- An entry may start (R226): the fills before it are done, and no earlier entry names its tile. -/
def Core.entryReady (c : Core) (e : ArrEntry) : Bool :=
  !(c.fills.any fun f => (f.slot == e.sa || f.slot == e.sb) && !f.after.contains e.id) &&
  ((c.arrayQ.takeWhile fun x => x.id != e.id).all fun x => x.tile != e.tile)
/-- The array begins an entry (R226, R227). -/
def execMmaStart (core : Nat) (s : State) : Out :=
  let c := s.core core
  .next (if c.arrayQ.any (·.started) then s
    else match c.arrayQ.find? c.entryReady with
      | none => s
      | some e => s.updCore core fun c =>
          ({ c with arrayQ := c.arrayQ.map fun (x : ArrEntry) => if x.id == e.id then { x with started := true } else x }).updTile e.tile
            fun t => { t with header := e.header true e.chunk })
/-- The PROG word of a chain's entry is written through the column port (10_engine_chains.md R243). -/
def State.writeProg (s : State) (c : Chain) (v : Nat) : State :=
  match s.scratchAt c.block (c.entry + 4) 4 with
  | some (core, off) => s.poke (scratchPa core off) 4 (v % 2 ^ 32)
  | none => s
/-- The PROG word of a chain's entry. -/
def State.progOf (s : State) (c : Chain) : Nat :=
  match s.scratchAt c.block (c.entry + 4) 4 with
  | some (core, off) => s.peek (scratchPa core off) 4
  | none => 0
/-- A chain goes on at an entry, under the next sequence number (R238). -/
def State.chainNext (s : State) (k next : Nat) : State :=
  s.updChain k fun c => { c with entry := next, seq := (c.seq + 1) % 2 ^ 32, idle := 0, busy := none, held := none }
/-- A data entry completes: PROG + 1, then the next entry. -/
def State.dataDone (s : State) (k : Nat) : State :=
  match s.chains.get? k with
  | some c => (s.writeProg c (s.progOf c + 1)).chainNext k (c.entry + 32)
  | none => s
/-- An array operation completes: its scoreboard slot, its counter, and the slots it held back. -/
def State.arrayDone (s : State) (core : Nat) (e : ArrEntry) : State :=
  let s := s.updCore core fun c => ({ c with arrayQ := c.arrayQ.filter (·.id != e.id) }).reapSlots
  let s := match e.op with
    | some k => s.completeOp e.g k
    | none => s
  match e.chain with
  | some k => s.dataDone k
  | none => s.cntDone e.g e.id
/-- One chunk of the entry in progress (R224); after the last one the operation completes. An operand or accumulator with an
uncorrectable error hands the job to firmware (R321); one whose residue fails on replay delivers nothing (R429). -/
def execMmaChunk (core : Nat) (s : State) : Out :=
  let c := s.core core
  .next (match (if c.arrayStuck then none else c.arrayQ.find? (·.started)) with
    | none => s
    | some e =>
      let oa := c.opslots.getD e.sa { holder := 0 }
      let ob := c.opslots.getD e.sb { holder := 0 }
      let rows := maskLanes e.rows
      let last := e.chunk + 1 == (mmaChunks e.fmt (tabDim e.table)).2
      let read := oa.bad || ob.bad || (!(e.zc && e.chunk == 0) && (c.tile e.tile).bad.any fun k => rows.contains (k / 64))
      let step (t : AccTile) : AccTile :=
        let t' := rows.foldl (fun t' m => (List.range 64).foldl (fun t' w => t'.setWord m w (e.word oa ob m w (t.word m w))) t') t
        { t' with header := e.header (!last) (e.chunk + 1) }
      let s := if read then s.toFirmware e.g { code := cUncorrectable, pa := windowPa core 2 (8192 * e.tile) } false none else s
      let s := s.updCore core fun c => c.updTile e.tile step
      if last then s.arrayDone core e
      else s.updCore core fun c =>
        { c with arrayQ := c.arrayQ.map fun (x : ArrEntry) => if x.id == e.id then { x with chunk := x.chunk + 1 } else x })

/-! ## Accumulator instructions (R229 to R234) -/

/-- The tile that a handle names. -/
def Group.accTile (g : Group) (h : BitVec 2) : Nat := g.accs.getD h.toNat 64
/-- A handle at or above `.accs` (R28). -/
def Group.badHandle (g : Group) (h : BitVec 2) : Fld := Fld.test (g.accs.length ≤ h.toNat)
/-- Writing a tile waits for an unfinished MMA into it (R232). -/
def State.tileWrite (s : State) (e : LaneEnc) (h : BitVec 2) (f : AccTile → AccTile) : State :=
  let k := s.cg.accTile h
  if (s.core s.cg.core).tileBusy k then s
  else (s.updCore s.cg.core fun c => c.updTile k f).issue e e.bytes {}
def execAccz (e : LaneEnc) (h : BitVec 2) (s : State) : Out :=
  .next (s.laneGo e [s.cg.badHandle h, noHis e] fun s =>
    s.tileWrite e h fun t =>
      { t with words := t.words.keep fun k _ => !(s.execMask e).getLsbD (k / 64), bad := t.bad.filter fun k => !(s.execMask e).getLsbD (k / 64) })
def execAccwr (e : LaneEnc) (h : BitVec 2) (s : State) : Out :=
  .next (s.laneGo e [s.cg.badHandle h, Fld.a e, Fld.b e, Fld.noHi e.hc] fun s =>
    if (s.execLanes e).any fun l => 64 ≤ (s.opA e .f32 (s.srcLane e l)).toNat then s.trapLane cIllegalOperand s.csplit.mask 0 e.a.toNat
    else s.tileWrite e h fun t =>
      (s.execLanes e).foldl (fun t l => t.setWord l (s.opA e .f32 (s.srcLane e l)).toNat (s.opB e .f32 (s.srcLane e l))) t)

/-- A word of a tile as a value of its class. -/
def tileValue (int : Bool) (x : W32) : FV := if int then FV.ofInt x.toInt else fp32.unpack x.toNat
/-- One converted word of ACCRD (R231): a copy, or a rounding of R62. -/
def accrdWord (int : Bool) (df : Fmt) (x : W32) : FpRes :=
  if df == (if int then .i32 else .f32) then { val := x.toNat }
  else
    let r := fixedNarrow df 0 (tileValue int x)
    if int && df.isInt then { val := r.val } else r
/-- A destination format that the tile's class takes. -/
def accrdFmt (int : Bool) (df : Fmt) : Bool :=
  if int then df == .f32 || df == .f16 || df == .bf16 || df.isInt else !df.isInt && df != .k4
/-- ACCRD (R233): every word is read at the one boundary that the tile has reached at issue (DESIGN CHOICE, log entry 140). -/
def execAccrd (e : LaneEnc) (h : BitVec 2) (n : BitVec 6) (mg : Bool) (mag : BitVec 2) (dfmt : Fmt) (s : State) : Out :=
  let regs := n.toNat + 1
  let cols := regs * (32 / dfmt.width)
  .next (s.laneGo e [Fld.dst e.dst regs, Fld.a e, Fld.noHi (e.hb || e.hc), s.cg.badHandle h] (whole := true) fun s =>
    let ls := s.execLanes e
    let k := (s.opA e .f32 (ls.headD 0)).toNat
    let t := (s.core s.cg.core).tile (s.cg.accTile h)
    let int := t.header.getLsbD 16
    let words (l : Nat) : List W32 := (fromTo k cols).map fun w => t.word l w
    let dsts := fromTo e.dst.toNat regs
    if ls.any (fun l => (s.opA e .f32 l).toNat != k) || (!ls.isEmpty && 64 < k + cols)
    then s.trapLane cIllegalOperand s.csplit.mask 0 e.a.toNat
    else if !accrdFmt int dfmt then s.trapLane cIllegalFormat s.csplit.mask
    else if ls.any fun l => (fromTo k cols).any fun w => t.bad.contains (64 * l + w) then
      s.trapLane cUncorrectable (laneMask (ls.filter fun l => (fromTo k cols).any fun w => t.bad.contains (64 * l + w)))
        (pa := windowPa s.cg.core 2 (8192 * s.cg.accTile h))
    else
      let rs := ls.map fun l => (l, laneCodes dfmt.width ((words l).map (accrdWord int dfmt)))
      s.fpTrapOr e (fun _ => []) rs fun flags s =>
        (s.updCg fun g =>
          let g := s.putRes e dsts rs g
          if mg then g.setmag mag.toNat ((ls.flatMap words).foldl (fun r x => magMerge r (tileValue int x)) (g.rmag mag.toNat)) else g).issue
          e e.bytes { vw := dsts, flags := flags, mag := if mg then some mag.toNat else none })

def execAqry (d : BitVec 6) (h : BitVec 2) (s : State) : Out :=
  .next (s.ctlGo [d.toNat] fun s =>
    let k := s.cg.accTile h
    let c := s.core s.cg.core
    if s.cg.accs.length ≤ h.toNat then s.trapCtl cIllegalOperand
    else
      let n := (c.arrayQ.filter fun x => x.g == s.cur.g && x.tile == k).length
      s.ctlDone d.toNat (BitVec.ofNat 32 n ++ (c.tile k).header))

end Sys2Proof.Machine
end

