-- ==== Sys2Proof/Machine/CtlMem.lean ====
section
/-!
DEFINITION. Control accesses to memory: scalar loads and stores and translation binding
(04_control_stream.md R101 to R103, R108, R109), and the watchpoints that match accesses of both streams
(19_debug_trace_profiling.md R443).
-/

namespace Sys2Proof.Machine

/-! ## Watchpoints (R443) -/

/-- Watchpoint i matches a user-level access of n bytes. -/
def watchHit (c : Context) (i : Nat) (va : W64) (n : Nat) (write : Bool) : Bool :=
  let b := bitsOf c.wpctl.toNat (8 * i + 7) (8 * i)
  let len := bitsOf b 7 3
  let base := (c.wpa.getD i 0#64).toNat / 2 ^ len * 2 ^ len
  bitOf b 0 && bitOf b (if write then 2 else 1) && overlap va.toNat n base (2 ^ len)
/-- The lowest watchpoint that matches, as a read or as a write. -/
def watchOf (c : Context) (va : W64) (n : Nat) (rd wr : Bool) : Option Nat :=
  (List.range 4).find? fun i => (rd && watchHit c i va n false) || (wr && watchHit c i va n true)

/-- After a control access that was performed in full: DEBUG_WATCH where it matched at user level. -/
def State.ctlWatched (s : State) (pc va : W64) (n : Nat) (rd wr : Bool) : State :=
  if s.cg.ctlSup then s
  else match watchOf s.cctx va n rd wr with
    | some i => s.raiseCtl { code := cDebugWatch, detail := i, faddr := va, pc := pc, resume := pc + 4#64, reason := 2 }
    | none => s

/-! ## The access path (R101, R102) -/

/-- A control access of the TLB path: canonical, aligned, translated; the effect receives the physical
address and the coherence attribute. A held requester waits (R336). -/
def State.ctlAt (s : State) (va : W64) (al : Nat) (acc : Access) (eff : State → Nat → Nat → State) : State :=
  if !canonical va then s.trapCtl cAddrFault 0 0 va
  else if va.toNat % al != 0 then s.trapCtl cAlign 0 0 va
  else if regenFailed s.cg.ctlRegen va then
    (s.updCg fun g => { g with ctlRegen := none, ctlHeld := none }).trapCtl cRegenWait 0 0 va
  else match s.translate s.cg.core s.casid s.cg.grid va acc with
    | (s, .ok pa coh _ _ _ _) => eff (s.updCg fun g => { g with ctlHeld := none, ctlRegen := none }) pa coh
    | (s, .trap c) => s.trapCtl c 0 0 va
    | (s, .held) => s.updCg fun g => { g with ctlHeld := some va }

/-- A control load of the chosen group would consume an uncorrectable byte: L1 holds none (R102, R321). -/
def State.badCtl (s : State) (pa n coh : Nat) : Bool :=
  (pieces pa n n).any fun c => s.badLoad s.cg.core c.1 c.2 coh false
/-- A control load: an error status traps ADDR_FAULT (R398), an uncorrectable byte
UNCORRECTABLE_DATA (R102); the effect receives the place. -/
def State.ctlLoad (s : State) (va : W64) (n al : Nat) (eff : State → Nat → Nat → State) : State :=
  s.ctlAt va al .load fun s pa coh =>
    if !s.sysUp pa then s.trapCtl cAddrFault 0 0 va
    else if s.badCtl pa n coh then s.trapCtl cUncorrectable 0 0 va pa
    else eff s pa coh

/-- The number that stands for the control stream among the lanes of late accesses. -/
def ctlLane : Nat := 32
/-- An earlier control access of the group to overlapping bytes has not been performed (R103). -/
def Group.ctlHeldBack (g : Group) (pa n : Nat) : Bool :=
  (g.lates.any fun y => y.lane == ctlLane && overlap pa n y.p.pa y.p.n) || g.slds.any fun p => p.src.any fun x => overlap pa n x.pa x.n
/-- SLD: the value is read now, or later where the plan says so and R282 leaves it unordered, and reaches S[d] when the access
completes (R95, R103). -/
def State.sld (s : State) (d a : BitVec 6) (imm : BitVec 14) (n : Nat) : State :=
  s.ctlGo [d.toNat, a.toNat] fun s =>
    let va := s.cg.rs a.toNat + immOf imm
    let pc := s.cg.cpc
    s.ctlLoad va n n fun s pa coh =>
      let done (s : State) (p : PendSld) : State := (s.updCg fun g => { g with slds := g.slds ++ [p] }).advance.ctlWatched pc va n true false
      if s.cg.ctlHeldBack pa n then s
      else if s.cg.late && s.cached pa then
        done (s.updCg fun g => { g with late := false })
          { d := d.toNat, value := 0#64, src := some { va := va, pc := pc, pa := pa, n := n, coh := coh } }
      else
        let (s, v) := s.coreLoad s.cg.core pa n coh .none false
        done s { d := d.toNat, value := BitVec.ofNat 64 v }

/-- SST: the low n bytes of S[d], now, or later where the plan says so (R103, R282). -/
def State.sst (s : State) (d a : BitVec 6) (imm : BitVec 14) (n : Nat) : State :=
  s.ctlGo [d.toNat, a.toNat] fun s =>
    let va := s.cg.rs a.toNat + immOf imm
    let pc := s.cg.cpc
    s.ctlAt va n .store fun s pa coh =>
      let v := (s.cg.rs d.toNat).toNat % 2 ^ (8 * n)
      if s.cg.ctlHeldBack pa n then s
      else (if s.cg.late then s.updCg fun g =>
          let y : LateAcc := { op := g.nextOp, lane := ctlLane, p := { pa := pa, off := 0, n := n, coh := coh }, v := v, kind := .store, hint := .none }
          { g with lates := g.lates ++ [y], late := false, nextOp := g.nextOp + 1 }
        else s.coreStore s.cg.core pa n v coh .none).advance.ctlWatched pc va n false true

def execSldB64 (d a : BitVec 6) (imm : BitVec 14) (s : State) : Out := .next (s.sld d a imm 8)
def execSldB32 (d a : BitVec 6) (imm : BitVec 14) (s : State) : Out := .next (s.sld d a imm 4)
def execSstB64 (d a : BitVec 6) (imm : BitVec 14) (s : State) : Out := .next (s.sst d a imm 8)
def execSstB32 (d a : BitVec 6) (imm : BitVec 14) (s : State) : Out := .next (s.sst d a imm 4)

/-- An outstanding SLD completes, the oldest first; a control store has been performed at its issue, or is performed as a late access
(R95, R120, R282). -/
def execControlAccessComplete (g : Nat) (s : State) : Out :=
  let s := s.readSld g 0
  .next (match (s.grp g).slds with
    | [] => s
    | p :: t => s.updGrp g fun x => { (x.sets p.d p.value) with slds := t })

/-! ## Translation binding (R108, R109) -/

/-- The span that XLAT binds: from va to the end of its page (R108). A core-private page is bound by its owner. -/
def xbOf (core : Nat) (va : W64) (pa coh : Nat) (q w : Bool) (left page : Nat) : XbReg :=
  { v := true, coh := BitVec.ofNat 2 coh, w := w, q := q, limit := left, pbase := BitVec.ofNat 56 pa,
    vbase := va.extractLsb' 0 53, owner := if coh == 2 then core else 0, page := page }

def execXlat (x : BitVec 3) (a : BitVec 6) (s : State) : Out :=
  .next (s.ctlGo [a.toNat] fun s =>
    let va := s.cg.rs a.toNat
    if regenFailed s.cg.ctlRegen va then
      (s.updCg fun g => { g with ctlRegen := none, ctlHeld := none }).trapCtl cRegenWait 0 0 va
    else match s.translate s.cg.core s.casid s.cg.grid va .bindXb with
    | (s, .ok pa coh q w left _) =>
      let page := match s.tlbLook s.cg.core s.casid va with
        | some (_, level, _, _) => pageBits level
        | none => 13
      (s.updCg fun g => { (g.setxb x.toNat (xbOf s.cg.core va pa coh q w left page)) with ctlHeld := none }).advance
    | (s, .trap c) => s.trapCtl c 0 0 va
    | (s, .held) => s.updCg fun g => { g with ctlHeld := some va })
def execXclr (x : BitVec 3) (s : State) : Out := .next (s.updCg fun g => g.setxb x.toNat {}).advance

end Sys2Proof.Machine
end

