-- ==== Sys2Proof/Machine/CtlFlow.lean ====
section
/-!
DEFINITION. Branches, the hand-over between the streams, waits for engines and children, regions and the end
of a group (04_control_stream.md R104 to R107, R110, R111, R115, R117 to R119).
-/

namespace Sys2Proof.Machine

/-! ## Branches and calls (R104) -/

/-- PC + 4 × offset. -/
def target (pc off : W64) : W64 := pc + 4#64 * off

def execBr (off : BitVec 26) (s : State) : Out := .next (s.jump (target s.cg.cpc (off.signExtend 64)))
/-- CALL writes the return address into s63. -/
def execCall (off : BitVec 26) (s : State) : Out :=
  .next (s.ctlGo [63] fun s =>
    (s.updCg fun g => g.sets 63 (g.cpc + 4#64)).jump (target s.cg.cpc (off.signExtend 64)))
def execBcmp (a b : BitVec 6) (c : Cond) (off : BitVec 11) (s : State) : Out :=
  .next (s.ctlGo [a.toNat, b.toNat] fun s =>
    if condHolds c (s.cg.rs a.toNat) (s.cg.rs b.toNat) then s.jump (target s.cg.cpc (off.signExtend 64)) else s.advance)
def execRet (a : BitVec 6) (s : State) : Out :=
  .next (s.ctlGo [a.toNat] fun s =>
    let t := s.cg.rs a.toNat
    if t.toNat % 4 != 0 then s.trapCtl cAlign 0 0 t else s.jump t)

/-! ## Between the streams (R105, R106) -/

/-- RUN appends an entry to the lane queue, and stalls while eight wait. -/
def execRun (a : BitVec 6) (imm : BitVec 14) (s : State) : Out :=
  .next (s.ctlGo [a.toNat] fun s =>
    let entry := target (s.cg.rs a.toNat) (immOf imm)
    if entry.toNat % 4 != 0 then s.trapCtl cAlign 0 0 entry
    else if 8 ≤ s.cg.laneq.length then s.ctlWait { kind := .run }
    else
      let x : LaneEntry := { pc := entry, runPc := s.cg.cpc }
      (s.updCg fun g => { g with laneq := g.laneq ++ [x] }).advance)
def execLsync (s : State) : Out := .next (if s.cg.laneIdle then s.advance else s.ctlWait { kind := .lsync })

/-! ## Waiting for engines (R110, R111) -/

def execWaitcnt (c : EngClass) (n : BitVec 8) (s : State) : Out :=
  .next (if s.cg.rcnt (clsNum c) ≤ n.toNat then s.advance else s.ctlWait { kind := .waitcnt })
/-- YIELD branches, or parks the control stream with its continuation. With n = 255 it branches, and its issue gives up
the group's place for one pass (`State.served`). -/
def execYield (c : EngClass) (n : BitVec 8) (off : BitVec 16) (s : State) : Out :=
  let cont := target s.cg.cpc (off.signExtend 64)
  .next (if s.cg.rcnt (clsNum c) ≤ n.toNat || n == 255#8
    then s.jump cont
    else s.standIn { kind := .yield, obj := clsNum c, n := n.toNat, cont := cont })
/-- The control unit reactivates a parked stream at its continuation (R111). -/
def execYieldReactivate (g : Nat) (s : State) : Out :=
  .next (match (s.grp g).wait with
    | some w =>
      if w.kind == .yield && (s.grp g).rcnt w.obj ≤ w.n && (s.grp g).parked.isNone
      then s.updGrp g fun x => { x with cpc := w.cont, wait := none, noBreak := false } else s
    | none => s)

/-! ## Children (R115) -/

def execWaitchild (d : BitVec 6) (s : State) : Out :=
  .next (s.ctlGo [d.toNat] fun s =>
    if s.cg.childOut != 0 then s.ctlWait { kind := .waitchild }
    else
      let x : W64 := BitVec.ofNat 32 s.cg.childTrap ++ BitVec.ofNat 32 s.cg.childDone
      let s := s.acquire s.cg.core .wfr
      (s.updCg fun g => { (g.sets d.toNat x) with childDone := 0, childTrap := 0 }).advance)

/-! ## Regions (R117, R118) -/

def execNopreBegin (s : State) : Out :=
  .next (s.updCg fun g => if g.region then g else { g with region := true, regionCnt := 0 }).advance
def execNopreEnd (s : State) : Out := .next (s.updCg Group.endRegion).advance
/-- The region count exceeds `sys.NPLIMIT` at a control boundary. A parked YIELD is no boundary, and neither is an
instruction whose condition has been met (R118). -/
def State.overrunDue (s : State) (g : Nat) : Bool :=
  let x := s.grp g
  x.region && (s.ctx (s.asidOf g)).nplimit.toNat < x.regionCnt && x.cpend.isNone && x.parked.isNone &&
  x.wait.all fun w => w.kind != .yield && !w.woken
/-- The region count exceeds `sys.NPLIMIT`: the trap is taken at the next control boundary, and a wait is abandoned
(R118). -/
def execNonpreemptOverrun (g : Nat) (s : State) : Out :=
  let x := s.grp g
  .next (if s.overrunDue g then
      let t : PendTrap := { code := cNonpreempt, pc := x.cpc, resume := x.cpc }
      ((s.abandonWait g).updGrp g fun x => { x with cpend := some t }).takeCtl g
    else s)

/-! ## Ending and idling (R119) -/

/-- EXIT waits as LSYNC does, then for the engine counters, and ends the group. In a handler it first
ends the chains that are held at faults (R257). -/
def execExit (s : State) : Out :=
  let s := if s.cg.ctlSup then s.endHeldChains s.cur.g else s
  .next (if s.cg.laneIdle && [0, 1, 2, 3].all (fun c => s.cg.rcnt c == 0)
    then (s.issued 1 s.cg.cpc).exitGroup s.cur.g else s.ctlWait { kind := .exit })
def execNop (s : State) : Out := .next s.advance

end Sys2Proof.Machine
end

