-- ==== Sys2Proof/Machine/LaneFlow.lean ====
section
/-!
DEFINITION. Tiles, branches, joins and the ends of lane entries (05_lane_integer_and_flow.md R135 to R142),
and the events that start and end entries (04_control_stream.md R105, R36).
-/

namespace Sys2Proof.Machine

/-- TILE (R135): when every data split of the group has rejoined, one split, then one width from 1 to 5 in every active lane. -/
def State.tile (s : State) (e : LaneEnc) (len : Nat) : State :=
  s.flowGo e [Fld.noHi e.ha, Fld.b e, Fld.noHi e.hc] (others := fun s => s.cg.parted) fun s =>
    let n := s.cg.splits.length
    let m := s.csplit.mask
    let y := s.opB e .f32 ((lowLane m).getD 0)
    if 1 < n then s.trapLane cIllegalInstr m n
    else if !(1 ≤ y.toNat && y.toNat ≤ 5) || (maskLanes m).any (fun l => s.opB e .f32 l != y)
    then s.trapLane cIllegalOperand m 0 e.b.toNat
    else s.updCg fun g => { g with tile := y.toNat }.issue s.cur.split e len (s.execMask e) s.csplit.pc {}
def execTile (e : LaneEnc) (s : State) : Out := .next (s.tile e e.bytes)
def execTileL32 (run : Bool) (src : BitVec 11) (s : State) : Out := .next (s.tile (l32Enc run 0#11 src false) 4)

/-- Every window and claim ends, and with it the run (R80, R81). -/
def Group.flowEnd (g : Group) : Group := { g with ops := [], run := none }

/-- LBRA (R137, R142): whether it would make a fifth split does not depend on data splits, which rejoin first. -/
def execLbra (e : LaneEnc) (off : BitVec 22) (s : State) : Out :=
  let full (s : State) : Bool :=
    s.execMask e != 0#32 && s.csplit.mask &&& ~~~ s.execMask e != 0#32 && 4 ≤ s.cg.splits.length && s.cg.branches < 4
  .next (s.flowGo e [] (others := full) fun s =>
    let x := s.csplit
    let t := s.execMask e
    let f := x.mask &&& ~~~ t
    let pcT := target x.pc (off.signExtend 64)
    let pcF := x.pc + 8#64
    let go (pc : W64) := s.updCg fun g => (g.updSplit x.id fun y => { y with pc := pc, noBreak := false }).flowEnd
    if f == 0#32 then go pcT
    else if t == 0#32 then go pcF
    else if 4 ≤ s.cg.branches then s.trapLane cIllegalInstr x.mask 5
    else s.updCg fun g =>
      let k := g.nextSplit
      let a : Split := { id := k, mask := t, pc := pcT, family := k }
      let b : Split := { id := k + 1, mask := f, pc := pcF, family := k + 1 }
      { g.flowEnd with splits := (g.splits.filter fun y => y.id != x.id) ++ [a, b], nextSplit := k + 2 })

/-- JOIN (R139): with one split it only waits; otherwise the split waits for a merge. -/
def State.join (s : State) (e : LaneEnc) (len : Nat) : State :=
  s.flowGo e [noHis e] fun s => s.updCg fun g =>
    let pc := s.csplit.pc
    if g.splits.length ≤ 1 then (g.updSplit s.cur.split fun y => { y with pc := y.pc + BitVec.ofNat 64 len, noBreak := false }).flowEnd
    else (g.updSplit s.cur.split fun y => { y with pc := pc + BitVec.ofNat 64 len, joinPc := pc, wait := .join, noBreak := false }).flowEnd
def execJoin (e : LaneEnc) (s : State) : Out := .next (s.join e e.bytes)
def execJoinL32 (run : Bool) (s : State) : Out := .next (s.join (l32Enc run 0#11 0#11 false) 4)

/-- LSTOP: the split waits there; a handler may not execute it (R265). -/
def State.lstop (s : State) (e : LaneEnc) : State :=
  if s.cg.laneSup then s.trapLane cIllegalInstr s.csplit.mask
  else s.flowGo e [noHis e] fun s => s.updCg fun g =>
    (g.updSplit s.cur.split fun y => { y with wait := .stop, noBreak := false }).flowEnd
def execLstop (e : LaneEnc) (s : State) : Out := .next (s.lstop e)
def execLstopL32 (run : Bool) (s : State) : Out := .next (s.lstop (l32Enc run 0#11 0#11 false))

/-- LEXIT (R141): the split's lanes are exited and the split goes; a handler may not execute it. -/
def State.lexit (s : State) (e : LaneEnc) : State :=
  if s.cg.laneSup then s.trapLane cIllegalInstr s.csplit.mask
  else s.flowGo e [noHis e] fun s => s.updCg fun g =>
    let g := { g.flowEnd with gone := g.gone ||| s.csplit.mask, splits := g.splits.filter fun y => y.id != s.cur.split }
    if g.splits.isEmpty then g.endEntry else g
def execLexit (e : LaneEnc) (s : State) : Out := .next (s.lexit e)
def execLexitL32 (run : Bool) (s : State) : Out := .next (s.lexit (l32Enc run 0#11 0#11 false))

/-- Every split waits at a JOIN or an LSTOP (R139). -/
def Group.mergeReady (g : Group) : Bool :=
  g.laneBusy && g.lpend.isNone && !g.splits.isEmpty && g.splits.all fun x => x.wait == .join || x.wait == .stop
/-- The merge of R139: the splits at the lowest JOIN become one; with none at a JOIN the entry ends. -/
def Group.merge (g : Group) : Group :=
  let waiting := g.splits.filter fun x => x.wait == .join
  match minBy (fun (x : Split) => x.joinPc.toNat) waiting with
  | none => g.endEntry
  | some j =>
    let m := (waiting.filter fun x => x.joinPc == j.joinPc).foldl (fun m x => m ||| x.mask) 0#32
    let y : Split := { id := g.nextSplit, mask := m, pc := j.pc, family := g.nextSplit }
    { g with splits := (g.splits.filter fun x => !(x.wait == .join && x.joinPc == j.joinPc)) ++ [y], nextSplit := g.nextSplit + 1 }
def execJoinMerge (g : Nat) (s : State) : Out :=
  .next (if (s.grp g).mergeReady && (s.grp g).parked.isNone then s.updGrp g Group.merge else s)

/-- An idle lane stream takes the oldest entry (R36, R105, R141), once every outstanding SLD has completed: the entry sees the
results of all control instructions before its RUN (R107). -/
def execLaneEntryStart (g : Nat) (s : State) : Out :=
  let x := s.grp g
  .next (match x.laneq with
    | [] => s
    | q :: t =>
      if x.laneBusy || x.laneSup || x.lpend.isSome || x.parked.isSome || !x.resident || !x.slds.isEmpty then s
      else if x.livelanes == 0#32 then s.updGrp g fun x => { x with laneq := t }
      else s.updGrp g fun x =>
        let y : Split := { id := x.nextSplit, mask := x.livelanes, pc := q.pc, family := x.nextSplit }
        { x with laneq := t, laneBusy := true, runPc := q.runPc, splits := [y], nextSplit := x.nextSplit + 1, run := none, ops := [] })

/-- A lane instruction completes (R82). One whose load still waits for data, or that the array
completes, does not yet. -/
def execLaneInstructionComplete (g k : Nat) (s : State) : Out :=
  let x := s.grp g
  .next (match x.ops.find? fun o => o.id == k with
    | none => s
    | some o => if o.array || x.loads.any (fun l => l.op == k) || x.lates.any (fun l => l.op == k) then s else s.completeOp g k)

end Sys2Proof.Machine
end

