-- ==== Sys2Proof/Machine/System.lean ====
section
/-!
DEFINITION. System instructions of the control stream (11_system_and_traps.md R266 to R271, R273) and the
system registers that both streams read and write (01_machine_state.md R39, R41).
-/

namespace Sys2Proof.Machine

/-! ## System registers (R39, R269) -/

/-- The value of a system register, zero-extended. -/
def State.sysRead (s : State) (r : SysReg) : W64 :=
  let g := s.cg
  let c := s.cctx
  match r with
  | .asid => BitVec.ofNat 64 (s.casid % 2 ^ 16 + c.gen % 16 * 2 ^ 16)
  | .trapen => c.trapen
  | .ltrapvec => c.ltrapvec
  | .ctrapvec => c.ctrapvec
  | .cause => g.cause
  | .faddr => g.faddr
  | .fmask => g.fmask
  | .epc => g.epc
  | .elpc => g.elpc
  | .poolbase => c.poolbase
  | .poolcnt => c.poolcnt
  | .regentab => c.regentab
  | .lquota => c.lquota
  | .aflags => c.aflags.setWidth 64
  | .nplimit => c.nplimit
  | .bpc i => c.bpc.getD i.toNat 0#64
  | .bpctl => c.bpctl
  | .wpa i => c.wpa.getD i.toNat 0#64
  | .wpctl => c.wpctl

/-- A value clamped to bounds (R39). -/
def clamp (lo hi : Nat) (x : W64) : W64 := BitVec.ofNat 64 (max lo (min hi x.toNat))
/-- One byte of `sys.WPCTL`: a length above 2^12 stores 12 (R443). -/
def wpByte (b : Nat) : Nat := b % 8 + 8 * min 12 (b / 8)
/-- `sys.WPCTL` as it is stored. -/
def wpctlOf (x : W64) : W64 :=
  BitVec.ofNat 64 ((List.range 4).foldl (fun n i => n + wpByte (bitsOf x.toNat (8 * i + 7) (8 * i)) * 2 ^ (8 * i)) 0)

/-- Writing a register of the context. -/
def Context.sysWrite (c : Context) (r : SysReg) (x : W64) : Context :=
  match r with
  | .trapen => { c with trapen := x &&& 0x7F#64 }
  | .ltrapvec => { c with ltrapvec := x }
  | .ctrapvec => { c with ctrapvec := x }
  | .poolbase => { c with poolbase := x }
  | .poolcnt => { c with poolcnt := x }
  | .regentab => { c with regentab := x }
  | .lquota => { c with lquota := clamp 0 4096 x }
  | .aflags => { c with aflags := x.extractLsb' 0 5 }
  | .nplimit => { c with nplimit := clamp 256 (2 ^ 20) x }
  | .bpc i => { c with bpc := c.bpc.put i.toNat x 0#64 }
  | .bpctl => { c with bpctl := x &&& 0xFFFF#64 }
  | .wpa i => { c with wpa := c.wpa.put i.toNat x 0#64 }
  | .wpctl => { c with wpctl := wpctlOf x }
  | .asid | .cause | .faddr | .fmask | .epc | .elpc => c

/-- Writing a register of the group: EPC and ELPC also move the resume points (R264); the others are
read-only (R38). -/
def Group.sysWrite (g : Group) (r : SysReg) (x : W64) : Group :=
  match r with
  | .epc => { g with epc := x, cshadow := g.cshadow.map fun h => { h with resPc := x } }
  | .elpc => { g with elpc := x, lshadow := g.lshadow.map fun h => { h with resPc := x } }
  | _ => g

/-- A supervisor write of a system register (R269). -/
def State.sysWrite (s : State) (r : SysReg) (x : W64) : State :=
  (s.updCg fun g => g.sysWrite r x).updCtx s.casid fun c => c.sysWrite r x

def execSysrd (d : BitVec 6) (r : SysReg) (s : State) : Out :=
  .next (s.ctlPriv fun s => s.ctlGo [d.toNat] fun s => s.ctlDone d.toNat (s.sysRead r))
def execSyswr (a : BitVec 6) (r : SysReg) (s : State) : Out :=
  .next (s.ctlPriv fun s => s.ctlGo [a.toNat] fun s => (s.sysWrite r (s.cg.rs a.toNat)).advance)

/-! ## Traps, breakpoints and return (R267, R268) -/

/-- SOFT_TRAP and DEBUG_BREAK by instruction: the resume point is the next instruction. -/
def State.softTrap (s : State) (cause : Nat) (code : BitVec 8) : State :=
  (s.issued 1 s.cg.cpc).raiseCtl { code := cause, detail := code.toNat, pc := s.cg.cpc, resume := s.cg.cpc + 4#64, reason := 1 }
def execTrap (code : BitVec 8) (s : State) : Out := .next (s.softTrap cSoftTrap code)
def execBkpt (code : BitVec 8) (s : State) : Out := .next (s.softTrap cDebugBreak code)
/-- TRET waits for outstanding SLDs, restores the shadow, and lets a held lane trap be taken. -/
def execTret (s : State) : Out :=
  .next (s.ctlPriv fun s =>
    if !s.cg.slds.isEmpty then s else (((s.issued 1 s.cg.cpc).updCg Group.leaveCtl).restartChains s.cur.g).takeLane s.cur.g)

/-! ## Shootdowns (R271): the stream waits until every access in flight has completed. -/

def execTlbinvRange (a b : BitVec 6) (s : State) : Out :=
  .next (s.ctlPriv fun s => s.ctlGo [a.toNat, b.toNat] fun s =>
    let va := s.cg.rs a.toNat
    let n := (s.cg.rs b.toNat).toNat
    if !canonical va then s.trapCtl cAddrFault 0 0 va
    else if n == 0 then s.advance
    else if s.inFlight s.casid then s
    else (s.shootdown s.casid (some (va.toNat, n))).advance)
def execTlbinvAsid (s : State) : Out := .next (s.ctlPriv fun s => if s.inFlight s.casid then s else (s.shootdown s.casid none).advance)

/-! ## Sampling, triggers and parking (R273, R444) -/

def execSample (a : BitVec 6) (s : State) : Out :=
  .next (s.ctlPriv fun s => s.ctlGo [a.toNat] fun s =>
    let x := (s.cg.rs a.toNat).toNat
    let cfg : Sampling := { en := bitOf x 0, period := max 6 (min 20 (bitsOf x 5 1)), count := 0 }
    (s.updCore s.cg.core fun c => { c with sampling := c.sampling.set s.casid cfg }).advance)
def execTrig (tag : BitVec 8) (s : State) : Out :=
  .next ((s.sendCairn (coreDom s.cg.core) (coreSite s.cg.core) tag.toNat (s.recordHead s.cur.g 3#4 s.cg.cpc 0xFFFFFFFF#32)).advance)
/-- PARK parks the group while a debugger is attached, and completes at once otherwise. The record and
the trap registers carry code 0: no cause was raised. -/
def execPark (s : State) : Out :=
  .next (s.ctlPriv fun s =>
    if s.cctx.attached
    then (s.issued 1 s.cg.cpc).park s.cur.g true { code := 0, pc := s.cg.cpc, resume := s.cg.cpc + 4#64, reason := 3 }
    else s.advance)

end Sys2Proof.Machine
end

