-- ==== Sys2Proof/Machine/LaneSys.lean ====
section
/-!
DEFINITION. System instructions of the lane stream (11_system_and_traps.md R266 to R270).
-/

namespace Sys2Proof.Machine

/-- TRAP and BKPT: the executed lanes are the faulters; with none there is no effect (R267). -/
def State.softTrapLane (s : State) (e : LaneEnc) (cause : Nat) (code : BitVec 8) : State :=
  s.laneGo e [noHis e] fun s =>
    let m := s.execMask e
    if m == 0#32 then s.issue e e.bytes {}
    else (s.issued 2 s.csplit.pc).raiseLane
      { code := cause, detail := code.toNat, fmask := m, pc := s.csplit.pc, resume := s.csplit.pc + BitVec.ofNat 64 e.bytes,
        split := s.cur.split, reason := 1 }
def execTrapLane (e : LaneEnc) (code : BitVec 8) (s : State) : Out := .next (s.softTrapLane e cSoftTrap code)
def execBkptLane (e : LaneEnc) (code : BitVec 8) (s : State) : Out := .next (s.softTrapLane e cDebugBreak code)

/-- TRET: waits as R81, restores the shadow, and lets a held control trap be taken (R268). -/
def execTretLane (e : LaneEnc) (s : State) : Out :=
  .next (s.laneGo e [noHis e] (priv := true) fun s =>
    if !s.cg.lanesDone then s else ((s.issued 2 s.csplit.pc).updCg Group.leaveLane).takeCtl s.cur.g)

def execSysrdLane (e : LaneEnc) (r : SysReg) (s : State) : Out :=
  .next (if s.cg.laneSup then s.laneV64 e e.bytes [Fld.dst e.dst 2 2, noHis e] fun s _ => s.sysRead r
    else s.trapLane cIllegalInstr s.csplit.mask)
/-- SYSWR: from the lowest executed lane; with none nothing is written (R269). -/
def execSyswrLane (e : LaneEnc) (r : SysReg) (s : State) : Out :=
  .next (s.laneGo e [Fld.vsrc e.a 2 2 e.ha, Fld.noHi (e.hb || e.hc)] (priv := true) fun s =>
    let s' := match lowLane (s.execMask e) with
      | some l => s.sysWrite r (s.cg.rv64 e.a.toNat l)
      | none => s
    s'.issue e e.bytes {})

/-! ## MAPF (R270) -/

/-- Zeroing a frame, line by line at its home. No copy from before stays in a cache (R280). -/
def State.zeroFrame (s : State) (frame : Nat) : State :=
  (foldState (fun s k => s.homeWrite (frame + 128 * k) 128 0) (List.range 64) s).dropLines (frame / 128) 64
/-- A present 8 KiB leaf with the permissions and attribute of an entry, A = 0 and D = 0; a
core-private page is owned by a core (R325). -/
def leafWord (e frame core : Nat) : Nat :=
  3 + bitsOf e 9 4 * 16 + frame + (if pteCoh e == 2 then coreDom core * 2 ^ 42 + coreSite core * 2 ^ 48 else 0)
/-- What the mapping of one address gives: a status, a trap with its address, or a requester that is held. -/
inductive MapRes where
  | status (n : Nat)
  | trap (cause : Nat) (va : W64)
  | held (va : W64)
  deriving DecidableEq, Repr
/-- Mapping the page of one address. The list is read as a supervisor load reads it; a popped frame that is no free frame
traps ADDR_FAULT (R337). -/
def State.mapPage (s : State) (va : W64) : State × MapRes :=
  let a := s.casid
  let pv := s.poolVa a
  let d := coreDom s.cg.core
  let r := s.walkPath d a va
  let s := s.walkSeen d a va
  match r.1 with
  | .leaf _ _ _ => (s.walkKeep d a va r.2, .status 1)
  | .absent 6 _ _ => (s, .trap cUncorrectable va)
  | .absent 1 e addr =>
    if (s.ctx a).poolcnt == 0#64 then (s, .status 2)
    else if regenFailed s.cg.laneRegen pv then (s, .trap cRegenWait pv)
    else match s.translate s.cg.core a s.cg.grid pv .load with
      | (s, .trap c) => (s, .trap c pv)
      | (s, .held) => (s, .held pv)
      | (s, .ok pa coh _ _ _ _) =>
        if !s.sysUp pa then (s, .trap cAddrFault pv)
        else if s.badLoad s.cg.core pa 8 coh true then (s, .trap cUncorrectable pv)
        else
          let (s, x) := s.homeRead pa 8
          match s.poolFrame x with
          | none => (s, .trap cAddrFault va)
          | some f =>
            let s := s.updCtx a fun c => { c with poolcnt := c.poolcnt - 1#64 }
            ((s.zeroFrame f).homeWrite addr 8 (leafWord e f s.cg.core), .status 0)
  | .absent _ _ _ => (s, .status 3)
/-- Mapping for a list of lanes in order: each lane's status, and the lane whose mapping stopped, with how. -/
def State.mapLanes (s : State) (va : Nat → W64) : List Nat → State × List (Nat × Nat) × Option (Nat × MapRes)
  | [] => (s, [], none)
  | l :: t =>
    match s.mapPage (va l) with
    | (s, .status r) =>
      let (s, rs, bad) := s.mapLanes va t
      (s, (l, r) :: rs, bad)
    | (s, r) => (s, [], some (l, r))

def execMapf (e : LaneEnc) (s : State) : Out :=
  .next (s.laneGo e [Fld.dst e.dst, Fld.vsrc e.a 2 2 e.ha, Fld.noHi (e.hb || e.hc)] (priv := true) fun s =>
    let va (l : Nat) : W64 := s.cg.rv64 e.a.toNat l
    let ls := if e.u then (lowLane (s.execMask e)).toList else s.execLanes e
    let bad := ls.filter fun l => !canonical (va l)
    let free (s : State) : State := s.updCg fun g => { g with laneHeld := none, laneRegen := none }
    if !bad.isEmpty then s.trapLane cAddrFault (laneMask bad) 0 0 (va (bad.headD 0))
    else match s.mapLanes va ls with
      | (s, _, some (l, .trap c f)) => (free s).trapLane c (laneMask [l]) 0 0 f
      | (s, _, some (_, .held f)) => s.updCg fun g => { g with laneHeld := some f, laneHolds := [], run := none }
      | (s, rs, _) =>
        let st (l : Nat) : W32 := BitVec.ofNat 32 (Tab.getD (α := Nat) rs (s.srcLane e l) 0)
        ((free s).updCg fun g => g.writeLanes e.dst.toNat st (s.execLanes e)).issue e e.bytes { vw := [e.dst.toNat] })

end Sys2Proof.Machine
end

