-- ==== Sys2Proof/Machine/LaneMem.lean ====
section
/-!
DEFINITION. Memory instructions of the lane stream (07_memory_instructions.md R164 to R185).
-/

namespace Sys2Proof.Machine

/-- Bytes of an access size (R87). -/
def sizeOf (z : MSize) : Nat :=
  match z with
  | .b8 => 1 | .b16 => 2 | .b32 => 4 | .b64 => 8 | .b128 => 16
/-- Registers that an access size names. -/
def regsOf (z : MSize) : Nat := (sizeOf z + 3) / 4

/-! ## Addresses (R166 to R169) -/

/-- A checked access of one lane: its address, whether it was resolved through `xb`N or an L1 TLB hit
(R174), and its naturally aligned pieces. -/
structure LaneAcc where
  lane : Nat
  va : W64
  fast : Bool
  ps : List Piece
  deriving DecidableEq, Repr

/-- A check that failed: the cause and the address. Cause 0 is a held requester (R336). -/
structure LaneFault where
  lane : Nat
  cause : Nat
  faddr : W64
  deriving DecidableEq, Repr

/-- The signed byte offset C (R164). -/
def offC (e : LaneEnc) : Int := e.c.toInt
/-- o of R166 in a lane. -/
def State.offsetOf (s : State) (e : LaneEnc) (lane : Nat) : Int := ((s.opA e .f32 lane).toNat : Int) + offC e
/-- The virtual address of an offset from a translation register. -/
def xbVa (x : XbReg) (o : Int) : W64 := x.vbase.signExtend 64 + BitVec.ofInt 64 o
/-- The register grants an access (R166, R328). -/
def xbPermits (x : XbReg) (acc : Access) : Bool :=
  match acc with
  | .load => x.q
  | .store => x.w
  | .atomic => x.q && x.w
  | _ => true

/-- A core-private page is accessed by its owner alone (R166). -/
def xbOwned (x : XbReg) (core : Nat) : Bool := x.coh != 2#2 || x.owner == core

/-- The place of a cause in the checks of one lane (R169); a held requester comes last. -/
def faultRank (c : Nat) : Nat :=
  if c == cAddrFault then 1 else if c == cAlign then 2 else if c == cPermFault then 4 else if c == 0 then 5 else 3
/-- The fault of an access whose piece has failed, after the later pieces: the one checked first, and of
one check that of the lowest piece (R169). -/
def firstFault (f : LaneFault) : LaneAcc ⊕ LaneFault → LaneFault
  | .inr h => if faultRank h.cause < faultRank f.cause then h else f
  | .inl _ => f
/-- Translating the pieces of an access on the TLB path, in ascending order. -/
def State.xlatPieces (s : State) (va : W64) (acc : Access) (lane : Nat) :
    List (Nat × Nat) → LaneAcc → State × (LaneAcc ⊕ LaneFault)
  | [], r => (s, .inl r)
  | (a, n) :: t, r =>
    let pva := va + BitVec.ofNat 64 (a - va.toNat)
    let fails (s : State) (c : Nat) : State × (LaneAcc ⊕ LaneFault) :=
      let (s, x) := s.xlatPieces va acc lane t r
      (s, .inr (firstFault { lane := lane, cause := c, faddr := pva } x))
    if regenFailed s.cg.laneRegen pva then fails s cRegenWait
    else match s.translate s.cg.core s.casid s.cg.grid pva acc with
    | (s, .ok pa coh _ _ _ tlb) =>
      s.xlatPieces va acc lane t { r with fast := r.fast && tlb, ps := r.ps ++ [{ pa := pa, off := a - va.toNat, n := n, coh := coh }] }
    | (s, .trap c) => fails s c
    | (s, .held) => fails s 0

/-- The pieces of an access with their virtual addresses that trap ADDR_FAULT on the TLB path: not canonical, or in a leaf that puts
them where the access may not go (R166, R299, R300). -/
def State.strayPieces (s : State) (ok : Nat → Bool) (va : W64) (n : Nat) : List W64 :=
  ((pieces va.toNat 16 n).map fun c => va + BitVec.ofNat 64 (c.1 - va.toNat)).filter fun a =>
    !canonical a || match s.lookLeaf s.cg.core s.casid a with
      | some x => !((s.leafPlace a x.2.1 x.2.2.1).any ok)
      | none => false

/-- The checks of one lane's global access of n bytes (R166, R168, R169). `ok` says which places take the access (R190); a read reaches
no place whose link is down (R398). -/
def State.globalAcc (s : State) (e : LaneEnc) (xb : BitVec 3) (n : Nat) (acc : Access) (aligned : Bool) (lane : Nat)
    (ok : Nat → Bool := fun _ => true) : State × (LaneAcc ⊕ LaneFault) :=
  let x := s.cg.rxb xb.toNat
  let o := s.offsetOf e lane
  let va := xbVa x o
  let takes (pa : Nat) : Bool := ok pa && (acc == .store || s.sysUp pa)
  let bad (c : Nat) (f : W64) : State × (LaneAcc ⊕ LaneFault) := (s, .inr { lane := lane, cause := c, faddr := f })
  if !x.v then bad cAddrFault 0#64
  else if 0 ≤ o && o + n ≤ x.limit then
    let pa := x.pbase.toNat + o.toNat
    if !s.userRange pa n || !takes pa then bad cAddrFault va
    else if aligned && va.toNat % n != 0 then bad cAlign va
    else if !xbPermits x acc || !xbOwned x s.cg.core then bad cPermFault va
    else (s, .inl { lane := lane, va := va, fast := true,
                    ps := (pieces pa 16 n).map fun c => { pa := c.1, off := c.1 - pa, n := c.2, coh := x.coh.toNat } })
  else if !canonical va then bad cAddrFault va
  else match s.strayPieces takes va n with
    | a :: _ => bad cAddrFault a
    | [] =>
      if aligned && va.toNat % n != 0 then bad cAlign va
      else s.xlatPieces va acc lane (pieces va.toNat 16 n) { lane := lane, va := va, fast := true, ps := [] }

/-- The scratchpad address of a lane (R167). -/
def State.scratchAddr (s : State) (e : LaneEnc) (lane : Nat) : Nat :=
  (s.opA e .f32 lane + BitVec.ofInt 32 (offC e)).toNat
/-- The checks of one lane's scratchpad access (R167, R168). -/
def State.scratchAcc (s : State) (e : LaneEnc) (n : Nat) (lane : Nat) : LaneAcc ⊕ LaneFault :=
  let sa := s.scratchAddr e lane
  let va := BitVec.ofNat 64 sa
  match s.scratchPaAt sa n with
  | none => .inr { lane := lane, cause := cAddrFault, faddr := va }
  | some pa =>
    if sa % n != 0 then .inr { lane := lane, cause := cAlign, faddr := va }
    else .inl { lane := lane, va := va, fast := true, ps := [{ pa := pa, off := 0, n := n, coh := 0 }] }

/-- The checks of a list of lanes in ascending order (R169). -/
def State.accLanes (s : State) (f : State → Nat → State × (LaneAcc ⊕ LaneFault)) :
    List Nat → State × List LaneAcc × List LaneFault
  | [] => (s, [], [])
  | l :: t =>
    let (s, r) := f s l
    let (s, as, fs) := s.accLanes f t
    match r with
    | .inl a => (s, a :: as, fs)
    | .inr x => (s, as, x :: fs)

/-- The lanes that make an access: all that execute, or with `.u` the lowest (R170). -/
def State.accessLanes (s : State) (e : LaneEnc) : List Nat :=
  if e.u then (lowLane (s.execMask e)).toList else s.execLanes e

/-! ## Sampling (R448, R449) -/

/-- Distinct 32-byte sectors of a list of accesses. -/
def sectorsOf (l : List LaneAcc) : Nat :=
  ((l.flatMap fun a => a.ps.map fun p => p.pa / 32).eraseDups).length
/-- What sampling measures of an issue when it is tagged: sectors, levels, and the lanes that may be the last (R449). -/
structure Measure where
  sectors : Nat := 0
  lvl : Nat := 0
  lasts : List Nat := []
  deriving DecidableEq, Repr
/-- The bit of LVL of the level that supplies a piece's data, or with `wr` takes its acknowledgement (R449; DEDUCED, log entry 127):
L1 or the own column, the horizontal network, the domain's L2, the fabric, or DRAM. -/
def State.levelOf (s : State) (core : Nat) (wide wr : Bool) (p : Piece) : Nat :=
  let d := coreDom core
  let h := homeOf p.pa
  let sec := sectorMask (p.pa % 128) p.n
  let inL2 (d : Nat) : Bool := (s.l2Line d (p.pa / 128)).any fun x => x.sectors &&& sec == sec
  match s.place p.pa with
  | .scratch c _ => if c == core then 0 else if coreQuad c == coreQuad core then 1 else 3
  | .dram _ _ =>
    if wr then (if h == d || ownCopy d (p.pa / 128) p.coh || s.ownsLine d (p.pa / 128) then 2 else 3)
    else if !wide && s.l1Hits core p.pa p.n then 0
    else if inL2 d then 2
    else if h == d then 4 else if inL2 h then 3 else 4
  | _ => 3
/-- The lanes whose data or acknowledgement may come last: with hits of L1 alone the lane that passes last, else the lowest lane of
each line that is asked for (R456, R464). -/
def State.lastLanes (s : State) (core : Nat) (wide wr : Bool) (l : List (Nat × Piece)) : List Nat :=
  match l.filter fun x => wr || s.levelOf core wide wr x.2 != 0 with
  | [] => ((l.map fun x => x.1).reverse).take 1
  | far => (far.filter fun x => !far.any fun y => y.2.pa / 128 == x.2.pa / 128 && y.1 < x.1).map fun x => x.1
/-- Measuring a list of checked accesses. -/
def State.measure (s : State) (wide wr : Bool) (as : List LaneAcc) : Measure :=
  let ps := as.flatMap fun a => a.ps.map fun p => (a.lane, p)
  let core := s.cg.core
  { sectors := sectorsOf as
    lvl := (ps.map fun x => s.levelOf core wide wr x.2).eraseDups.foldl (fun m k => m + 2 ^ k) 0
    lasts := s.lastLanes core wide wr ps }
/-- Counting one issue of a memory instruction of the chosen group's context on its core; every
2^k-th is tagged. -/
def State.tagIssue (s : State) (op9 : Nat) (m : Measure) : State × Option SampleTag :=
  let c := s.cg.core
  match (s.core c).sampling.get? s.casid with
  | none => (s, none)
  | some x =>
    if !x.en then (s, none)
    else
      let n := x.count + 1
      let hit := n % 2 ^ x.period == 0
      (s.updCore c fun k => { k with sampling := k.sampling.set s.casid { x with count := if hit then 0 else n } },
       if hit then some { op9 := op9, since := s.cyclesOf s.cg.core, sectors := m.sectors, lvl := m.lvl, lasts := m.lasts } else none)
/-- A lane trap of a memory instruction, which writes the record of a tagged issue. -/
def State.memTrap (s : State) (e : LaneEnc) (tag : Option SampleTag) (code : Nat) (fmask : W32) (faddr : W64) (opnd : Nat := 0)
    (pa : Nat := 0) : State :=
  let s := match tag with
    | some t => s.sampleRecord s.cur.g s.csplit.pc (s.execMask e) t true
    | none => s
  s.trapLane code fmask 0 opnd faddr (pa := pa)

/-- An earlier access of the same lane to overlapping bytes has not been performed (R173, R282). -/
def Group.heldBack (g : Group) (as : List LaneAcc) : Bool :=
  as.any fun a => a.ps.any fun p =>
    g.lates.any (fun y => y.lane == a.lane && overlap p.pa p.n y.p.pa y.p.n) ||
    g.loads.any fun l => l.addrs.any fun y => y.1 == a.lane && overlap p.pa p.n y.2.pa y.2.n

/-- The stages between the checks and the accesses (R169): the trap of the lowest failing lane with
every lane of that cause, or a held requester, or the effect with the checked accesses, once those of the same lanes that overlap them
have been performed (R173). -/
def State.withAccs (s : State) (e : LaneEnc) (op9 : Nat) (chk : State → Nat → State × (LaneAcc ⊕ LaneFault))
    (wide wr : Bool) (eff : State → List LaneAcc → Option SampleTag → State) : State :=
  let (s, as, fs) := s.accLanes chk (s.accessLanes e)
  match fs.find? fun f => f.cause != 0, fs with
  | some f, _ =>
    let (s, tag) := (s.updCg fun g => { g with laneHeld := none, laneRegen := none }).tagIssue op9 { sectors := sectorsOf as }
    s.memTrap e tag f.cause (laneMask ((fs.filter fun x => x.cause == f.cause).map (·.lane))) f.faddr
  | none, f :: _ => s.updCg fun g => { g with laneHeld := some f.faddr, laneHolds := fs.map (·.faddr), run := none }
  | none, [] =>
    if s.cg.heldBack as then s
    else
    let (s, tag) := s.tagIssue op9 (s.measure wide wr as)
    eff (s.updCg fun g => { g with laneHeld := none, laneRegen := none }) as tag

/-- The lanes whose access consumes an uncorrectable byte (R185): L1 serves none to an access that it serves. -/
def State.badLanes (s : State) (wide : Bool) (as : List LaneAcc) : List LaneAcc :=
  as.filter fun a => a.ps.any fun p => s.badLoad s.cg.core p.pa p.n p.coh wide

/-- Where the first of them consumes it. -/
def State.badPa (s : State) (wide : Bool) (bad : List LaneAcc) : Nat :=
  ((bad.head?.bind fun a => a.ps.find? fun p => s.badLoad s.cg.core p.pa p.n p.coh wide).map (·.pa)).getD 0

/-- Every earlier memory access of the group has completed (R176, R182). -/
def Group.memDone (g : Group) : Bool := g.loads.isEmpty && g.ops.all fun o => o.done || !o.mem

/-- DEBUG_WATCH after a user-level access that was performed in full (R443). -/
def State.laneWatched (s : State) (pc : W64) (len n : Nat) (rd wr : Bool) (as : List LaneAcc) : State :=
  if s.cg.laneSup then s
  else
    let hits := as.filterMap fun a => (watchOf s.cctx a.va n rd wr).map fun i => (i, a)
    match minBy (fun (h : Nat × LaneAcc) => h.1) hits with
    | none => s
    | some (i, _) =>
      let first := (hits.map fun h => h.2.va).headD 0#64
      s.raiseLane { code := cDebugWatch, detail := i, faddr := first, fmask := laneMask (hits.map fun h => h.2.lane), pc := pc,
                    resume := pc + BitVec.ofNat 64 len, split := s.cur.split, reason := 2 }

/-! ## Loads and stores (R170, R171, R174 to R176) -/

/-- A piece read for a lane: its offset in the access and its value. -/
structure PieceRead where
  lane : Nat
  off : Nat
  v : Nat
  deriving DecidableEq, Repr
/-- One request of a load: the missing sectors of a line, whose data serves every lane that touches them (R464). -/
def State.loadLine (s : State) (core : Nat) (hint : Hint) (line : Nat) (miss : List (Nat × Piece)) : State × List PieceRead :=
  let mine := miss.filter fun x => x.2.pa / 128 == line
  let need := mine.foldl (fun m x => m ||| sectorMask (x.2.pa % 128) x.2.n) 0#4
  let (s, data) := s.lineFetch core line ((mine.map fun x => x.2.coh).headD 0) hint need
  (s, mine.map fun x => { lane := x.1, off := x.2.off, v := ({ line := line, data := data } : Line).read (x.2.pa % 128) x.2.n })
/-- The requests of a load, line by line. -/
def State.loadMisses (s : State) (core : Nat) (hint : Hint) (miss : List (Nat × Piece)) : List Nat → State × List PieceRead
  | [] => (s, [])
  | line :: t =>
    let (s, r) := s.loadLine core hint line miss
    let (s, rs) := s.loadMisses core hint miss t
    (s, r ++ rs)
/-- Reading the pieces of a load's lanes: every lane looks up L1 as it passes, and the misses follow, so that lanes that read the same
bytes receive one value (R171, R464). -/
def State.loadPieces (s : State) (core : Nat) (hint : Hint) (wide : Bool) (ps : List (Nat × Piece)) : State × List PieceRead :=
  let fits (p : Piece) : Bool := !wide && s.l1Hits core p.pa p.n
  let out := ps.filter fun x => !s.cached x.2.pa
  let hits := ps.filter fun x => s.cached x.2.pa && fits x.2
  let miss := ps.filter fun x => s.cached x.2.pa && !fits x.2
  let now : List PieceRead := out.map (fun x => { lane := x.1, off := x.2.off, v := s.peek x.2.pa x.2.n }) ++
    hits.map fun x => { lane := x.1, off := x.2.off, v := s.l1Read core x.2.pa x.2.n }
  let s := foldState (fun s line => s.l1Use core line hint) (hits.map fun x => x.2.pa / 128).eraseDups s
  let (s, rs) := s.loadMisses core hint miss (miss.map fun x => x.2.pa / 128).eraseDups
  (s, now ++ rs)
/-- The value that a lane's pieces make. -/
def laneValue (rs : List PieceRead) (lane : Nat) : Nat :=
  rs.foldl (fun v r => if r.lane == lane then v + r.v * 2 ^ (8 * r.off) else v) 0
/-- The pieces of a list of accesses, by lane. -/
def lanePieces (as : List LaneAcc) : List (Nat × Piece) := as.flatMap fun a => a.ps.map fun p => (a.lane, p)
/-- Reading a list of accesses. -/
def State.loadAccs (s : State) (core : Nat) (hint : Hint) (wide : Bool) (as : List LaneAcc) : State × List (Nat × Nat) :=
  let (s, rs) := s.loadPieces core hint wide (lanePieces as)
  (s, as.map fun a => (a.lane, laneValue rs a.lane))
/-- The part of an access's value that a piece holds. -/
def Piece.part (p : Piece) (v : Nat) : Nat := v / 2 ^ (8 * p.off) % 2 ^ (8 * p.n)
/-- The bytes that pieces with their values store, by address. -/
def storedBytes (ps : List (Piece × Nat)) : List (Nat × Byte) :=
  ps.flatMap fun x => (List.range x.1.n).map fun k => (x.1.pa + k, BitVec.ofNat 8 (x.2 / 2 ^ (8 * k)))
/-- The stores of a list of accesses with their values, lane by lane: one write for each line that a cache may hold, in which the
highest lane's byte stands, and the other places each by itself (R171, R464). -/
def State.storeAccs (s : State) (core : Nat) (as : List LaneAcc) (val : Nat → Nat) (hint : Hint) : State :=
  let ps := as.flatMap fun a => a.ps.map fun p => (p, p.part (val a.lane))
  let near := ps.filter fun x => s.cached x.1.pa
  let far := ps.filter fun x => !s.cached x.1.pa
  let s := foldState (fun s (x : Piece × Nat) => s.coreWrite core x.1.pa x.1.n x.2 x.1.coh hint) far s
  foldState (fun s line =>
      let mine := near.filter fun x => x.1.pa / 128 == line
      s.lineStore core line ((mine.map fun x => x.1.coh).headD 0) hint (storedBytes mine))
    (near.map fun x => x.1.pa / 128).eraseDups s
/-- A plain access of the chosen group, whose pieces are performed later than it issues (R282). -/
def State.postpone (s : State) (e : LaneEnc) (as : List LaneAcc) (val : Nat → Nat) (kind : Nat → LateKind) (hint : Hint) (x : Issue) : State :=
  let op := s.cg.nextOp
  let new := as.flatMap fun a => a.ps.map fun p =>
    ({ op := op, lane := a.lane, p := p, v := p.part (val a.lane), kind := kind a.lane, hint := hint } : LateAcc)
  (s.updCg fun g => { g with lates := g.lates ++ new, late := false }).issue e e.bytes x
/-- A plain load of the chosen group, whose data is read later than it issues (R282). -/
def State.loadLater (s : State) (e : LaneEnc) (m : MemMod) (as : List LaneAcc) (x : Issue) : State :=
  let id := s.cg.nextSplit
  let ld : PendLoad := { id := id, op := s.cg.nextOp, split := s.cur.split, mask := s.execMask e, dst := e.dst.toNat, size := m.size
                         sx := m.sx, addrs := as.flatMap fun a => a.ps.map fun p => (a.lane, p)
                         vas := as.map fun a => (a.lane, a.va), hint := m.hint }
  (s.updCg fun g => { g with loads := g.loads ++ [ld], nextSplit := id + 1, late := false }).issue e e.bytes x

/-- A loaded value in its register form (R170). -/
def loadWord (z : MSize) (sx : Bool) (v : Nat) : Nat :=
  match z with
  | .b8 => if sx then wrapTo 32 (signedOf 8 v) else v
  | .b16 => if sx then wrapTo 32 (signedOf 16 v) else v
  | _ => v
/-- Writing a value to d and the registers after it in one lane. -/
def Group.putWords (g : Group) (d lane v : Nat) : Nat → Group
  | 0 => g
  | n + 1 => (g.setv d lane (BitVec.ofNat 32 v)).putWords (d + 1) lane (v / 2 ^ 32) n
/-- Writing loaded values, one for each lane. -/
def Group.putLoads (g : Group) (d : Nat) (z : MSize) (sx : Bool) (vs : List (Nat × Nat)) : Group :=
  vs.foldl (fun g c => g.putWords d c.1 (loadWord z sx c.2) (regsOf z)) g
/-- The values that lanes of a list receive: their own, or with `.u` the one value. -/
def spread (e : LaneEnc) (ls : List Nat) (vs : List (Nat × Nat)) : List (Nat × Nat) :=
  if e.u then match vs with
    | [] => []
    | c :: _ => ls.map fun l => (l, c.2)
  else vs

/-- The data of a store in a lane (R170). -/
def State.storeData (s : State) (e : LaneEnc) (z : MSize) (lane : Nat) : Nat :=
  match z with
  | .b8 => (s.opB e .f32 lane).toNat % 2 ^ 8
  | .b16 => (s.opB e .f32 lane).toNat % 2 ^ 16
  | .b32 => (s.opB e .f32 lane).toNat
  | .b64 => (s.cg.rv64 e.b.toNat lane).toNat
  | .b128 => (s.cg.rv64 e.b.toNat lane).toNat + (s.cg.rv64 (e.b.toNat + 2) lane).toNat * 2 ^ 64

/-- The fields of a load (R164, R165). -/
def fldsLoad (e : LaneEnc) (n : Nat) : List Fld := [Fld.dst e.dst n n, Fld.a e, Fld.zero e.b e.hb, Fld.noHi e.hc]
/-- The data operand of a store. -/
def fldData (e : LaneEnc) (n : Nat) : Fld := if n == 1 then Fld.b e else Fld.vsrc e.b n n e.hb
/-- The fields of a store. -/
def fldsStore (e : LaneEnc) (n : Nat) : List Fld := [Fld.zero e.dst, Fld.a e, fldData e n, Fld.noHi e.hc]
/-- The v registers of a destination. -/
def dstRegs (e : LaneEnc) (n : Nat) : List Nat := fromTo e.dst.toNat n

/-- ALIGNX: a misaligned plain access traps (R41, R168). -/
def State.alignAll (s : State) (o : MOrd) : Bool := o != .plain || s.cctx.trapen.getLsbD 6

/-- The data split of a load whose lanes partly miss (R174): the hitting lanes are written and go on,
the others wait in a new split. -/
def State.dataSplit (s : State) (e : LaneEnc) (m : MemMod) (hits misses : List LaneAcc) (tag : Option SampleTag) : State :=
  let here := (lanePieces misses).filter fun x => s.l1Hits s.cg.core x.2.pa x.2.n
  let later := (lanePieces misses).filter fun x => !s.l1Hits s.cg.core x.2.pa x.2.n
  let (s, rs) := s.loadPieces s.cg.core m.hint false (lanePieces hits ++ here)
  let vs := hits.map fun a => (a.lane, laneValue rs a.lane)
  let mm := laneMask (misses.map (·.lane))
  let cur := s.cur.split
  let op := s.cg.nextOp
  let id := s.cg.nextSplit
  let s := (s.updCg fun g => g.putLoads e.dst.toNat m.size m.sx vs).issue e e.bytes
    { vw := dstRegs e (regsOf m.size), mem := true, far := true, tag := tag }
  let x := s.csplit
  let ld : PendLoad := { id := id, op := op, split := id, mask := mm, dst := e.dst.toNat, size := m.size, sx := m.sx,
                         addrs := later, vas := misses.map fun a => (a.lane, a.va),
                         got := misses.map fun a => (a.lane, laneValue rs a.lane), hint := m.hint }
  let y : Split := { x with id := id, mask := mm, wait := .data, noBreak := false }
  s.updCg fun g =>
    { (g.updSplit cur fun z => { z with mask := z.mask &&& ~~~ mm }) with
      splits := (g.updSplit cur fun z => { z with mask := z.mask &&& ~~~ mm }).splits ++ [y], nextSplit := id + 1,
      loads := g.loads ++ [ld],
      ops := g.ops.map fun o => { o with windows := o.windows ++ (o.windows.filter fun w => w.1 == cur).map fun w => (id, w.2) } }

/-- An LDG after its checks. -/
def State.ldgGo (s : State) (e : LaneEnc) (m : MemMod) (as : List LaneAcc) (tag : Option SampleTag) : State :=
  let core := s.cg.core
  let pc := s.csplit.pc
  let hit (a : LaneAcc) : Bool := a.fast && a.ps.all fun p => s.l1Hits core p.pa p.n
  let hits := as.filter hit
  let misses := as.filter fun a => !hit a
  let apart := m.ord == .plain && !e.u && !hits.isEmpty && !misses.isEmpty && misses.all (·.fast) && s.cg.splits.length ≤ 3
  let wide := m.ord == .acq && (m.scope == .wfr || m.scope == .sys)
  let bad := s.badLanes wide (if apart then hits else as)
  if !bad.isEmpty then s.memTrap e tag cUncorrectable (laneMask (bad.map (·.lane))) ((bad.map (·.va)).headD 0#64) 0 (s.badPa wide bad)
  else if s.cg.late && m.ord == .plain && !e.u then
    (s.loadLater e m as { vw := dstRegs e (regsOf m.size), mem := true, far := true, tag := tag }).laneWatched pc e.bytes (sizeOf m.size) true false as
  else if apart then (s.dataSplit e m hits misses tag).laneWatched pc e.bytes (sizeOf m.size) true false as
  else
    let (s, vs) := s.loadAccs core m.hint wide as
    let s := if m.ord == .acq then s.acquire core m.scope else s
    ((s.updCg fun g => g.putLoads e.dst.toNat m.size m.sx (spread e (s.execLanes e) vs)).issue e e.bytes
      { vw := dstRegs e (regsOf m.size), mem := true, far := !misses.isEmpty, tag := tag }).laneWatched pc e.bytes (sizeOf m.size) true false as

def execLdg (e : LaneEnc) (m : MemMod) (s : State) : Out :=
  .next (s.laneGo e (fldsLoad e (regsOf m.size)) fun s =>
    s.withAccs e 0x180 (fun s l => s.globalAcc e m.xb (sizeOf m.size) .load (s.alignAll m.ord) l)
      (m.ord == .acq && (m.scope == .wfr || m.scope == .sys)) false fun s as tag => s.ldgGo e m as tag)

def execStg (e : LaneEnc) (m : MemMod) (s : State) : Out :=
  .next (s.laneGo e (fldsStore e (regsOf m.size)) fun s =>
    if m.ord == .rel && !s.cg.memDone then s
    else s.withAccs e 0x181 (fun s l => s.globalAcc e m.xb (sizeOf m.size) .store (s.alignAll m.ord) l) false true fun s as tag =>
      let pc := s.csplit.pc
      let data (l : Nat) := s.storeData e m.size l
      let x : Issue := { mem := true, far := true, tag := tag }
      (if s.cg.late && m.ord == .plain then s.postpone e as data (fun _ => .store) m.hint x
       else (s.storeAccs s.cg.core as data m.hint).issue e e.bytes x).laneWatched pc e.bytes (sizeOf m.size) false true as)

def execLds (e : LaneEnc) (m : MemMod) (s : State) : Out :=
  .next (s.laneGo e (fldsLoad e (regsOf m.size)) fun s =>
    s.withAccs e 0x182 (fun s l => (s, s.scratchAcc e (sizeOf m.size) l)) false false fun s as tag =>
      let bad := s.badLanes false as
      if !bad.isEmpty then s.memTrap e tag cUncorrectable (laneMask (bad.map (·.lane))) ((bad.map (·.va)).headD 0#64) 0 (s.badPa false bad)
      else if s.cg.late && m.ord == .plain && !e.u then
        s.loadLater e m as { vw := dstRegs e (regsOf m.size), mem := true, tag := tag }
      else
        let vs := as.map fun a => (a.lane, s.peek ((a.ps.map (·.pa)).headD 0) (sizeOf m.size))
        let s := if m.ord == .acq then s.acquire s.cg.core m.scope else s
        (s.updCg fun g => g.putLoads e.dst.toNat m.size m.sx (spread e (s.execLanes e) vs)).issue e e.bytes
          { vw := dstRegs e (regsOf m.size), mem := true, tag := tag })

def execSts (e : LaneEnc) (m : MemMod) (s : State) : Out :=
  .next (s.laneGo e (fldsStore e (regsOf m.size)) fun s =>
    if m.ord == .rel && !s.cg.memDone then s
    else s.withAccs e 0x183 (fun s l => (s, s.scratchAcc e (sizeOf m.size) l)) false true fun s as tag =>
      let data (l : Nat) := s.storeData e m.size l
      if s.cg.late && m.ord == .plain then s.postpone e as data (fun _ => .store) .none { mem := true, tag := tag }
      else (foldState (fun s (a : LaneAcc) => s.poke ((a.ps.map (·.pa)).headD 0) (sizeOf m.size) (data a.lane)) as s).issue e e.bytes
        { mem := true, tag := tag })

/-- Missing data of a data split arrives (R174): its lanes are written and the split is ready. -/
def State.dataArrives (s : State) (g k : Nat) : State :=
  let x := s.grp g
  match x.loads.find? fun l => l.id == k with
    | none => s
    | some ld =>
      let ls := maskLanes ld.mask
      let bad := ls.filter fun l => ld.addrs.any fun a => a.1 == l && s.badLoad x.core a.2.pa a.2.n a.2.coh false
      let drop (g : Group) : Group :=
        { (g.updSplit ld.split fun y => { y with wait := if y.wait == .data then .ready else y.wait }) with loads := g.loads.filter fun l => l.id != k }
      if !bad.isEmpty then
        let op : Option LaneOp := x.ops.find? fun o => o.id == ld.op
        let pc : W64 := match op with
          | some o => o.pc
          | none => 0#64
        let mask : W32 := match op with
          | some o => o.mask
          | none => 0#32
        let s := match op.bind fun (o : LaneOp) => o.tag with
          | some t => (s.sampleRecord g pc mask t true).updGrp g fun (x : Group) =>
              { x with ops := x.ops.map fun (o : LaneOp) => if o.id == ld.op then { o with tag := none } else o }
          | none => s
        let va := ((ld.vas.find? fun a => bad.contains a.1).map (·.2)).getD 0#64
        let t : PendTrap := { code := cUncorrectable, faddr := va, fmask := laneMask bad, pc := pc, resume := pc, split := ld.split,
                              pa := ((ld.addrs.find? fun y => bad.contains y.1).map fun y => y.2.pa).getD 0 }
        ((s.updGrp g drop).updGrp g fun x => { x with lpend := some t, run := none }).takeLane g
      else
        let (s, rs) := s.loadPieces x.core ld.hint false ld.addrs
        let vs := ls.map fun l => (l, Tab.getD (α := Nat) ld.got l 0 + laneValue rs l)
        s.updGrp g fun x => drop (x.putLoads ld.dst ld.size ld.sx vs)
def execLoadDataArrival (g k : Nat) (s : State) : Out := .next (s.dataArrives g k)

/-! ## Tiles (R178, R179) -/

/-- Byte offsets in the tile of the four bytes of register d + k in lane m. -/
def tileBytes (m : TileMod) (lane k : Nat) : List Nat :=
  let w := sizeOf m.size
  let dim := 2 ^ m.dim.toNat
  match m.order with
  | .row => (List.range 4).map fun b => 128 * lane + 4 * k + b
  | .col =>
    let q := k / (8 * w)
    let u := k % (8 * w)
    (List.range 4).map fun b => 128 * (4 / w * u + b / w) + w * (lane + 32 * q) + b % w
  | .ilv => (List.range 4).map fun b => 128 * lane + 4 * (k / dim) + 128 / dim * (k % dim) + b

/-- The common part of LDT and STT (R178): one address, aligned to 128, the tile inside one share. The
effect receives the physical address. -/
def State.tileAt (s : State) (e : LaneEnc) (op9 : Nat) (eff : State → Nat → Option SampleTag → State) : State :=
  let m := s.execMask e
  match lowLane m with
  | none => let (s, tag) := s.tagIssue op9 {}; eff s 0 tag
  | some l0 =>
    let sa := s.scratchAddr e l0
    let va := BitVec.ofNat 64 sa
    let pa := s.scratchPaAt sa 4096
    let whole : Piece := { pa := pa.getD 0, off := 0, n := 4096, coh := 0 }
    let ls := maskLanes m
    if ls.any fun l => s.scratchAddr e l != sa then
      let (s, tag) := s.tagIssue op9 {}
      s.memTrap e tag cIllegalOperand s.csplit.mask 0#64 e.a.toNat
    else if pa.isSome && s.cg.heldBack (ls.map fun l => { lane := l, va := va, fast := true, ps := [whole] }) then s
    else
      let (s, tag) := s.tagIssue op9 { sectors := 128, lvl := if pa.isSome then 2 ^ s.levelOf s.cg.core false false whole else 0, lasts := ls }
      match pa with
      | none => s.memTrap e tag cAddrFault m va
      | some pa => if sa % 128 != 0 then s.memTrap e tag cAlign m va else eff s pa tag

def execLdt (e : LaneEnc) (m : TileMod) (s : State) : Out :=
  .next (s.laneGo e (fldsLoad e 32) (whole := true) fun s => s.tileAt e 0x184 fun s pa tag =>
    let ls := s.execLanes e
    let bad := ls.filter fun l => (List.range 32).any fun k => (tileBytes m l k).any fun o => s.badIn (pa + o) 1
    if !bad.isEmpty then s.memTrap e tag cUncorrectable (laneMask bad) (BitVec.ofNat 64 (s.scratchAddr e (bad.headD 0))) 0 pa
    else
      let word (l k : Nat) : W32 := BitVec.ofNat 32 (natOfBytes ((tileBytes m l k).map fun o => s.mem.byte (pa + o)))
      (s.updCg fun g => (List.range 32).foldl (fun g k => g.writeLanes (e.dst.toNat + k) (fun l => word l k) ls) g).issue e e.bytes
        { vw := dstRegs e 32, mem := true, tag := tag })

/-- The lanes of an STT that write only a part of a 4-byte unit, the rest of which has an uncorrectable error: the unit's check is
made over its four bytes, so those are read (R185, R321; DEDUCED, log entry 113). -/
def State.sttReads (s : State) (m : TileMod) (pa : Nat) (ls : List Nat) : List Nat :=
  let offs (l : Nat) : List Nat := (List.range 32).flatMap (tileBytes m l)
  let all := ls.flatMap offs
  if !s.badIn pa 4096 then []
  else ls.filter fun l => (offs l).any fun o => (fromTo (o / 4 * 4) 4).any fun b => !all.contains b && s.badIn (pa + b) 1
def execStt (e : LaneEnc) (m : TileMod) (s : State) : Out :=
  .next (s.laneGo e [Fld.zero e.dst, Fld.a e, Fld.vsrc e.b 32 32 e.hb, Fld.noHi e.hc] (whole := true) fun s => s.tileAt e 0x185 fun s pa tag =>
    let g := s.cg
    let bad := s.sttReads m pa (s.execLanes e)
    if !bad.isEmpty then s.memTrap e tag cUncorrectable (laneMask bad) (BitVec.ofNat 64 (s.scratchAddr e (bad.headD 0))) 0 pa
    else
      let put (s : State) (l : Nat) : State :=
        foldState (fun s k =>
          let v := (g.rv (e.b.toNat + k) l).toNat
          foldState (fun s (c : Nat × Nat) => s.poke (pa + c.2) 1 (v / 2 ^ (8 * c.1) % 256)) ((List.range 4).zip (tileBytes m l k)) s)
          (List.range 32) s
      (foldState put (s.execLanes e) s).issue e e.bytes { mem := true, tag := tag })

/-! ## Prefetch (R180) -/

/-- One byte of a speculative access of a lane: the state with what its translation fills, physical address and attribute; none where
it would fault. -/
def State.specAddr (s : State) (e : LaneEnc) (xb : BitVec 3) (lane : Nat) : Option (State × Nat × Nat) :=
  let x := s.cg.rxb xb.toNat
  let o := s.offsetOf e lane
  let va := xbVa x o
  if !x.v then none
  else if 0 ≤ o && o + 1 ≤ x.limit then
    let pa := x.pbase.toNat + o.toNat
    if x.q && xbOwned x s.cg.core && s.userPlace pa then some (s, pa, x.coh.toNat) else none
  else (s.specTranslate s.cg.core s.casid va .load).map fun c =>
    (s.specKeep s.cg.core s.casid va c.1, c.2, pteCoh c.1.2.2.1)
/-- Bringing a line into L2, and into L1 unless `.stream` is given. -/
def State.prefetch (s : State) (core pa coh : Nat) (hint : Hint) : State :=
  if s.cached pa then (s.lineFetch core (pa / 128) coh hint 0xF#4).1 else s
/-- A dropped speculative access is counted and is an event (R343, R454). -/
def State.dropCounted (s : State) (core asid : Nat) : State :=
  (s.dropSpec core).seqEvent (coreDom core) 7 (BitVec.ofNat 64 (coreSite core)) asid

def execPfg (e : LaneEnc) (m : MemMod) (s : State) : Out :=
  .next (s.laneGo e [Fld.zero e.dst, Fld.a e, Fld.zero e.b e.hb, Fld.noHi e.hc] fun s =>
    let core := s.cg.core
    let one (s : State) (l : Nat) : State :=
      match s.specAddr e m.xb l with
      | some (s, pa, coh) => s.prefetch core pa coh m.hint
      | none => s.dropCounted core s.casid
    (foldState one (s.execLanes e) s).issue e e.bytes {})

/-! ## Software-coherent ranges (R181, R182) -/

/-- The line that a byte of a range lies in, with the attribute of its page; none where no cache
holds it. Past LIMIT the TLB path translates it, and sets neither A nor D (R329). -/
def State.rangeLine (s : State) (x : XbReg) (o : Int) : State × Option (Nat × Nat) :=
  let at' (pa coh : Nat) (grants : Bool) : Option (Nat × Nat) := if grants && s.cached pa then some (pa / 128, coh) else none
  if 0 ≤ o && o + 1 ≤ x.limit then (s, at' (x.pbase.toNat + o.toNat) x.coh.toNat (x.q || x.w))
  else
    let va := xbVa x o
    match s.lookLeaf s.cg.core s.casid va with
    | some (src, level, e, addr) =>
      (s.pathKeep s.cg.core s.casid va level e addr src,
       (s.leafPlace va level e).bind fun pa => at' pa (pteCoh e) (pteQ e || pteW e))
    | none => (s, none)
/-- Acting on one line (R181). -/
def State.rangeAct (s : State) (core line coh : Nat) (inv : Bool) : State :=
  let d := coreDom core
  let s := if coh == 1 && homeOf (128 * line) != d then (if inv then s.recallOwn d line else s.cleanOwn d line) else s
  if inv && coh != 2 then s.updCore core fun c => c.l1Drop (·.line = line) else s
/-- Acting on the lines of a range from its first byte, one line at a time. -/
def State.rangeLines (s : State) (core : Nat) (x : XbReg) (inv : Bool) : Nat → Int → Int → State
  | 0, _, _ => s
  | fuel + 1, o, stop =>
    if stop ≤ o then s
    else
      let s := match s.rangeLine x o with
        | (s, some (line, coh)) => s.rangeAct core line coh inv
        | (s, none) => s
      let at' := (x.vbase.toNat : Int) + o
      s.rangeLines core x inv fuel (o + (128 - at' % 128)) stop

/-- An end of a range traps ADDR_FAULT (R166, R181, R299, R300). -/
def State.rangeEndBad (s : State) (x : XbReg) (o : Int) : Bool :=
  if 0 ≤ o && o + 1 ≤ x.limit then !s.userPlace (x.pbase.toNat + o.toNat)
  else !(s.strayPieces (fun _ => true) (xbVa x o) 1).isEmpty
/-- WBR and INVR: the ends of every named range are checked for ADDR_FAULT, then the lines are acted on. -/
def State.rangeOp (s : State) (e : LaneEnc) (m : MemMod) (inv : Bool) : State :=
  s.laneGo e [Fld.zero e.dst, Fld.a e, Fld.b e, Fld.noHi e.hc] fun s =>
    if !s.cg.memDone then s
    else
      let x := s.cg.rxb m.xb.toNat
      let len (l : Nat) : Nat := (s.opB e .f32 l).toNat
      let ls := (s.execLanes e).filter fun l => len l != 0
      let fault (l : Nat) : Bool :=
        !x.v || s.rangeEndBad x (s.offsetOf e l) || s.rangeEndBad x (s.offsetOf e l + len l - 1)
      let bad := ls.filter fault
      if !bad.isEmpty then s.trapLane cAddrFault (laneMask bad) 0 0 (if x.v then xbVa x (s.offsetOf e (bad.headD 0)) else 0#64)
      else
        let s' := foldState (fun s l => s.rangeLines s.cg.core x inv (len l / 128 + 2) (s.offsetOf e l) (s.offsetOf e l + len l)) ls s
        s'.issue e e.bytes { mem := true, far := true }
def execWbr (e : LaneEnc) (m : MemMod) (s : State) : Out := .next (s.rangeOp e m false)
def execInvr (e : LaneEnc) (m : MemMod) (s : State) : Out := .next (s.rangeOp e m true)

/-! ## Fences (R184) -/

/-- FENCE (R164, R184). A nonzero C field traps as an operand field does (DEDUCED, log entry 139). -/
def execFence (e : LaneEnc) (ord : MOrd) (sc : Scope) (s : State) : Out :=
  .next (s.laneGo e [Fld.zero e.dst, Fld.zero e.a e.ha, Fld.zero e.b e.hb, Fld.zero e.c e.hc] fun s =>
    if ord != .acq && !s.cg.memDone then s
    else if ord != .rel && !(s.cg.loads.isEmpty && s.cg.lates.isEmpty) then s
    else (if ord == .rel then s else s.acquire s.cg.core sc).issue e e.bytes {})

end Sys2Proof.Machine
end

