-- ==== Sys2Proof/Machine/Atomics.lean ====
section
/-!
DEFINITION. Atomic operations of the lane stream (08_atomics_and_synchronisation.md R187 to R193).
-/

namespace Sys2Proof.Machine

/-- The new value of an integer atomic of n bytes from the old one, the operand, and for `.cas` the
swap value (R189). -/
def atomInt (op : AOp) (n x y swp : Nat) : Nat :=
  let sx := signedOf (8 * n) x
  let sy := signedOf (8 * n) y
  match op with
  | .add => (x + y) % 2 ^ (8 * n)
  | .min => if sx ≤ sy then x else y
  | .max => if sx ≤ sy then y else x
  | .umin => min x y
  | .umax => max x y
  | .and => x &&& y
  | .or => x ||| y
  | .xor => x ^^^ y
  | .exch => y
  | .cas => if x == y then swp else x
/-- The new FP32 value of a float atomic, and its flags (R189). -/
def atomFloat (op : FRedOp) (x y : Nat) : FpRes :=
  redFloat fp32 op (elemOf .f32 0 (BitVec.ofNat 32 x)) (elemOf .f32 0 (BitVec.ofNat 32 y))

/-- An order of a list that a free value picks (R191: `.ra`). -/
def shuffle {α : Type} : Nat → Nat → List α → List α
  | 0, _, l => l
  | k + 1, f, l =>
    match l.drop (f % (l.length + 1)) with
    | x :: t => x :: shuffle k (f / (l.length + 1)) (l.take (f % (l.length + 1)) ++ t)
    | [] => l

/-- Bytes that an atomic supplies in operand b (R188): value, and the swap value of `.cas`. -/
def State.atomData (s : State) (e : LaneEnc) (wide cas : Bool) (lane : Nat) : Nat × Nat :=
  let b := e.b.toNat
  if cas then
    if wide then ((s.cg.rv64 b lane).toNat, (s.cg.rv64 (b + 2) lane).toNat)
    else ((s.cg.rv b lane).toNat, (s.cg.rv (b + 1) lane).toNat)
  else if wide then ((s.cg.rv64 b lane).toNat, 0) else ((s.opB e .f32 lane).toNat, 0)

/-- One lane's atomic at its home (R189, R190): what it does to the caches first, then the read and the
write that nothing parts. A lost link drops it and logs it. -/
def State.atomOne (s : State) (core : Nat) (p : Piece) (f : Nat → Nat) : State × Nat :=
  if !s.sysUp p.pa then (s.logErr { pa := p.pa, stamp := s.stamp (coreDom core) }, 0)
  else
    let s := s.atomPrep core p.pa p.coh
    let x := s.peek p.pa p.n
    (s.poke p.pa p.n (f x), x)
/-- The first piece of a checked access: an aligned access has no other. -/
def LaneAcc.piece (a : LaneAcc) : Piece := a.ps.headD { pa := 0, off := 0, n := 0, coh := 0 }
/-- The lanes' atomics in order, with the old values. -/
def State.atomAll (s : State) (core : Nat) (f : Nat → Nat → Nat) : List LaneAcc → State × List (Nat × Nat)
  | [] => (s, [])
  | a :: t =>
    let (s, x) := s.atomOne core a.piece (f a.lane)
    let (s, xs) := s.atomAll core f t
    (s, (a.lane, x) :: xs)

/-- A place that performs the operation (R190): a system address takes only what PCI Express has. -/
def State.atomPlace (s : State) (pcie : Bool) (pa : Nat) : Bool :=
  match s.place pa with
  | .host _ _ | .peer _ _ => pcie
  | _ => true
/-- The checks of a global atomic of one lane (R188, R190). -/
def State.atomAcc (s : State) (e : LaneEnc) (xb : BitVec 3) (n : Nat) (ret pcie : Bool) (lane : Nat) :
    State × (LaneAcc ⊕ LaneFault) :=
  s.globalAcc e xb n (if ret then .atomic else .store) true lane (s.atomPlace pcie)

/-- An atomic instruction. `new` gives the value stored in a lane from the old one, `flags` the flags
that the lane's operation raises. -/
def State.atomGo (s : State) (e : LaneEnc) (m : MemMod) (op9 nb : Nat) (ret ra glob : Bool)
    (chk : State → Nat → State × (LaneAcc ⊕ LaneFault)) (new : State → Nat → Nat → Nat)
    (flags : State → Nat → Nat → BitVec 5) (late : Option (State → Nat → Nat × LateKind) := none) : State :=
  let n := sizeOf m.size
  let nd := if ret then regsOf m.size else 0
  s.laneGo e [if ret then Fld.dst e.dst nd nd else Fld.zero e.dst, Fld.a e, fldData e nb, Fld.noHi e.hc] fun s =>
    if m.ord == .rel && !s.cg.memDone then s
    else s.withAccs e op9 chk true true fun s as tag =>
      let core := s.cg.core
      let pc := s.csplit.pc
      let bad := s.badLanes true as
      if !bad.isEmpty then s.memTrap e tag cUncorrectable (laneMask (bad.map (·.lane))) ((bad.map (·.va)).headD 0#64) 0 (s.badPa true bad)
      else if s.cg.late && m.ord == .plain && late.isSome then
        let f (l : Nat) : Nat × LateKind := (late.map fun f => f s l).getD (0, .store)
        (s.postpone e as (fun l => (f l).1) (fun l => (f l).2) .none { mem := true, far := glob, tag := tag }).laneWatched pc e.bytes n ret true as
      else
        let (k, s) := if ra then s.fresh else (0, s)
        let order := if ra then shuffle 32 k as else as
        let (s, xs) := s.atomAll core (new s) order
        let fl := xs.foldl (fun (f : BitVec 5) x => f ||| flags s x.1 x.2) 0#5
        let s := s.updCtx s.casid fun c => { c with aflags := c.aflags ||| fl }
        let s := if m.ord == .acq then s.acquire core m.scope else s
        let s := if ret then s.updCg fun g => g.putLoads e.dst.toNat m.size false (spread e (s.execLanes e) xs) else s
        let s := s.issue e e.bytes { vw := fromTo e.dst.toNat nd, flags := if ret then fl else 0#5, mem := true, far := glob, tag := tag }
        if glob then s.laneWatched pc e.bytes n ret true as else s

/-- The operations of PCI Express (R190). -/
def pcieOp (op : AOp) : Bool := op == .add || op == .exch || op == .cas
/-- Registers of operand b of an integer atomic (R188). -/
def atomRegs (m : MemMod) (op : AOp) : Nat := (if op == .cas then 2 else 1) * regsOf m.size
/-- The stored value of a lane of an integer atomic. -/
def State.atomNew (e : LaneEnc) (m : MemMod) (op : AOp) (s : State) (lane x : Nat) : Nat :=
  let d := s.atomData e (m.size == .b64) (op == .cas) lane
  atomInt op (sizeOf m.size) x d.1 d.2

def execAtom (e : LaneEnc) (m : MemMod) (op : AOp) (s : State) : Out :=
  .next (s.atomGo e m 0x18A (atomRegs m op) true false true (fun s l => s.atomAcc e m.xb (sizeOf m.size) true (pcieOp op) l)
    (State.atomNew e m op) fun _ _ _ => 0#5)
def execRed (e : LaneEnc) (m : MemMod) (op : AOp) (s : State) : Out :=
  .next (s.atomGo e m 0x18B (atomRegs m op) false false true (fun s l => s.atomAcc e m.xb (sizeOf m.size) false (pcieOp op) l)
    (State.atomNew e m op) (fun _ _ _ => 0#5) (late := some fun s l =>
      let d := s.atomData e (m.size == .b64) (op == .cas) l
      (d.1, .red op d.2)))
/-- The result of a lane of a float atomic. -/
def State.atomFloatIn (e : LaneEnc) (op : FRedOp) (s : State) (lane x : Nat) : FpRes := atomFloat op x (s.opB e .f32 lane).toNat
def execAtomf (e : LaneEnc) (m : MemMod) (op : FRedOp) (ra : Bool) (s : State) : Out :=
  .next (s.atomGo e m 0x18C 1 true ra true (fun s l => s.atomAcc e m.xb 4 true false l)
    (fun s l x => (s.atomFloatIn e op l x).val) fun s l x => (s.atomFloatIn e op l x).flags)
def execRedf (e : LaneEnc) (m : MemMod) (op : FRedOp) (ra : Bool) (s : State) : Out :=
  .next (s.atomGo e m 0x18D 1 false ra true (fun s l => s.atomAcc e m.xb 4 false false l)
    (fun s l x => (s.atomFloatIn e op l x).val) (fun s l x => (s.atomFloatIn e op l x).flags)
    (late := some fun s l => ((s.opB e .f32 l).toNat, .redf op)))
/-- An access that was left for later is performed, once no earlier one of its lane to overlapping bytes is left (R173, R282). -/
def State.performLate (s : State) (g k : Nat) : State :=
  let x := s.grp g
  match x.lates[k]? with
  | none => s
  | some y =>
    if (x.lates.take k).any fun z => z.lane == y.lane && overlap z.p.pa z.p.n y.p.pa y.p.n then s
    else
      let s := s.updGrp g fun x => { x with lates := x.lates.eraseIdx k }
      match y.kind with
      | .store => s.coreWrite x.core y.p.pa y.p.n y.v y.p.coh y.hint
      | .red op swp => (s.atomOne x.core y.p fun v => atomInt op y.p.n v y.v swp).1
      | .redf op =>
        let (s, v) := s.atomOne x.core y.p fun v => (atomFloat op v y.v).val
        s.updCtx (s.asidOf g) fun c => { c with aflags := c.aflags ||| (atomFloat op v y.v).flags }
def execAtoms (e : LaneEnc) (m : MemMod) (op : AOp) (s : State) : Out :=
  .next (s.atomGo e m 0x18E (atomRegs m op) true false false (fun s l => (s, s.scratchAcc e (sizeOf m.size) l))
    (State.atomNew e m op) fun _ _ _ => 0#5)

end Sys2Proof.Machine
end

