-- ==== Sys2Proof/Machine/Sync.lean ====
section
/-!
DEFINITION. Condition monitors, quad barrier objects, domain and wafer barriers
(08_atomics_and_synchronisation.md R194 to R205).
-/

namespace Sys2Proof.Machine

/-! ## Condition monitors (R194 to R197) -/

/-- A monitor can be armed on a word: its home slice has one free, and its line, unless it is software-coherent, can
enter state H (R195, R314, R317). Only DRAM words have a home slice. -/
def State.canArm (s : State) (pa coh : Nat) : Bool :=
  s.cached pa && (s.dom (homeOf pa)).monitors.getD (s.slice (homeOf pa) pa) 0 < 64 && (coh == 1 || s.mayHold (pa / 128))

/-- A read of a word at its home for a group: the owner's copy of a core-private line is recalled first (R290, R312). -/
def State.wordAtHome (s : State) (core pa coh : Nat) : State :=
  if coh == 2 && ownCopy (coreDom core) (pa / 128) coh then s.cleanOwn (coreDom core) (pa / 128) else s
/-- Taking a monitor for a word (R312, R317). -/
def State.armMonitor (s : State) (core pa coh : Nat) : State :=
  let d := homeOf pa
  let k := s.slice d pa
  let s := s.updDom d fun m => { m with monitors := m.monitors.set k (m.monitors.getD k 0 + 1) }
  if coh == 1 then s
  else if ownCopy (coreDom core) (pa / 128) coh then (s.recallOwn (coreDom core) (pa / 128)).dirHold (pa / 128) true
  else s.dirHold (pa / 128) true

/-- The waiting group of a WAITCMP completes with a status: the monitor is freed, the acquire of R196
is made, and with T = 1 S[d] is written (R197). `obj` holds d + 1 for T = 1. -/
def State.waitcmpDone (s : State) (g : Nat) (w : CtlWait) (status : W64) : State :=
  let s := if (s.grp g).wait.isSome then s else s.seqEvent (coreDom (s.grp g).core) 1 (s.grp g).cpc (s.asidOf g)
  let s := if w.armed then s.freeMonitor w.pa else s
  let s := s.acquire (s.grp g).core w.scope
  s.updGrp g fun x =>
    { (if w.obj == 0 then x else x.sets (w.obj - 1) status) with cpc := x.cpc + 4#64, wait := none, noBreak := false }

/-- DEBUG_WATCH for a WAITCMP of a group that has completed (R443). -/
def State.waitWatched (s : State) (g : Nat) (pc : W64) (w : CtlWait) : State :=
  if (s.grp g).ctlSup then s
  else match watchOf (s.ctx (s.asidOf g)) w.va 8 true false with
    | some i =>
      let t : PendTrap := { code := cDebugWatch, detail := i, faddr := w.va, pc := pc, resume := pc + 4#64, reason := 2 }
      (s.updGrp g fun x => { x with cpend := some t }).takeCtl g
    | none => s

/-- The condition is met: the group completes with status 0. -/
def State.waitcmpMet (s : State) (g : Nat) (w : CtlWait) : State :=
  (s.waitcmpDone g w 0#64).waitWatched g (s.grp g).cpc w

/-- The first issue of a WAITCMP: it reads the word at its home, and waits where the condition does
not hold. -/
def State.waitcmpFirst (s : State) (va b : W64) (limit obj : Nat) (sc : Scope) (c : Cond) : State :=
  s.ctlAt va 8 .load fun s pa coh =>
    if !s.sysUp pa then s.trapCtl cAddrFault 0 0 va
    else if s.badLoad s.cg.core pa 8 coh true then s.trapCtl cUncorrectable 0 0 va pa
    else
      let (s, v) := (s.wordAtHome s.cg.core pa coh).homeRead pa 8
      let w : CtlWait := { kind := .waitcmp, limit := limit, va := va, pa := pa, coh := coh, obj := obj, cond := c, val := b, scope := sc }
      if condHolds c (BitVec.ofNat 64 v) b then s.waitcmpMet s.cur.g w
      else if s.canArm pa coh then
        (s.armMonitor s.cg.core pa coh).standIn { w with armed := true }
      else s.standIn w

def execWaitcmp (d a b : BitVec 6) (t : Bool) (sc : Scope) (c : Cond) (s : State) : Out :=
  .next (s.ctlGo (if t then [d.toNat, a.toNat, b.toNat] else [a.toNat, b.toNat]) fun s =>
    let limit := if t then (s.cg.rs d.toNat).toNat % 2 ^ 32 else 0
    let first := s.waitcmpFirst (s.cg.rs a.toNat) (s.cg.rs b.toNat) limit (if t then d.toNat + 1 else 0) sc c
    match s.cg.wait with
    | some w => if w.kind != .waitcmp then first else if w.woken then s.waitcmpMet s.cur.g w else s
    | none => first)

/-- A wake reaches its waiter (R195); a parked group completes it on resumption (R444). -/
def execMonitorWake (g : Nat) (s : State) : Out :=
  .next (match (s.grp g).wait with
    | some w =>
      if w.kind == .waitcmp && w.woken && (s.grp g).parked.isNone && (s.grp g).resident then s.waitcmpMet g w else s
    | none => s)

/-- A waiter without a monitor rereads its word every 256 cc (R195), and one whose monitor has found an uncorrectable error in its word
rereads it at once (R11). -/
def execMonitorReread (g : Nat) (s : State) : Out :=
  .next (match (s.grp g).wait with
    | some w =>
      if w.kind == .waitcmp && (!w.armed || w.recheck) && 256 ≤ w.reread && (s.grp g).parked.isNone && (s.grp g).resident then
        if !s.sysUp w.pa then
          let pc := (s.grp g).cpc
          let t : PendTrap := { code := cAddrFault, faddr := w.va, pc := pc, resume := pc }
          (s.updGrp g fun x => { x with wait := none, cpend := some t }).takeCtl g
        else if s.badLoad (s.grp g).core w.pa 8 w.coh true then
          let pc := (s.grp g).cpc
          let t : PendTrap := { code := cUncorrectable, faddr := w.va, pc := pc, resume := pc, pa := w.pa }
          let s := if w.armed then s.freeMonitor w.pa else s
          (s.updGrp g fun x => { x with wait := none, cpend := some t }).takeCtl g
        else
          let (s, v) := (s.wordAtHome (s.grp g).core w.pa w.coh).homeRead w.pa 8
          if condHolds w.cond (BitVec.ofNat 64 v) w.val then s.waitcmpMet g w
          else s.updGrp g fun x => { x with wait := some { w with reread := 0, recheck := false } }
      else s
    | none => s)

/-- A timeout expires before the condition was met (R197). -/
def execWaitcmpTimeout (g : Nat) (s : State) : Out :=
  .next (match (s.grp g).wait with
    | some w =>
      if w.kind == .waitcmp && w.limit != 0 && w.limit ≤ w.age && !w.woken && !s.standsStill (s.grp g) w
      then (s.waitcmpDone g w 1#64).waitWatched g (s.grp g).cpc w else s
    | none => s)

/-! ## Quad barrier objects (R198 to R201) -/

/-- The tag of an initialised object. -/
def barTag : Nat := 0x42415231
/-- The fields of an object at a physical address. -/
def State.barExpected (s : State) (pa : Nat) : Nat := s.peek (pa + 4) 4
def State.barArrived (s : State) (pa : Nat) : Nat := s.peek (pa + 8) 4
def State.barPhase (s : State) (pa : Nat) : Nat := s.peek (pa + 12) 2
/-- The object is initialised. -/
def State.barOk (s : State) (pa : Nat) : Bool := s.peek pa 4 == barTag

/-- An arrival of k with an expected count (R200): the cause of its trap, or the object after it. -/
def State.barArrive (s : State) (pa k expected : Nat) : State ⊕ Nat :=
  if s.badIn pa 16 then .inr cUncorrectable
  else if !s.barOk pa then .inr cBarrierUninit
  else
    let n := s.barArrived pa + k
    if expected < n then .inr cBarrierOverrun
    else
      let s := s.poke (pa + 4) 4 expected
      if n == expected && expected != 0 then .inl ((s.poke (pa + 12) 2 (s.barPhase pa + 1)).poke (pa + 8) 4 0)
      else .inl (s.poke (pa + 8) 4 n)

/-- A new entry of the arrival record, in place of the least recently used of four (R201). -/
def Group.recordPhase (g : Group) (obj phase : Nat) : Group :=
  { g with arrivals := ((obj, phase) :: g.arrivals.filter fun x => x.1 != obj).take 4 }

/-- The object that an address register names (R198): the effect receives the scratchpad address and
the physical address. -/
def State.barObj (s : State) (x : W64) (eff : State → Nat → Nat → State) : State :=
  let sa := x.toNat
  match s.scratchPaAt sa 16 with
  | none => s.trapCtl cAddrFault 0 0 x
  | some pa => if sa % 16 != 0 then s.trapCtl cAlign 0 0 x else eff s sa pa

/-- The trap of an instruction on an object: DETAIL is its address, or FADDR for an uncorrectable error (R11). -/
def State.barTrap (s : State) (code sa : Nat) : State :=
  if code == cUncorrectable then s.trapCtl code 0 0 (BitVec.ofNat 64 sa) ((s.scratchPaAt sa 16).getD 0) else s.trapCtl code sa

def execBinit (a b : BitVec 6) (s : State) : Out :=
  .next (s.ctlGo [a.toNat, b.toNat] fun s => s.barObj (s.cg.rs a.toNat) fun s sa pa =>
    let x := barTag + (s.cg.rs b.toNat).toNat % 2 ^ 32 * 2 ^ 32
    ((s.poke pa 16 x).updCg fun g => g.recordPhase sa 0).advance)

/-- BARV (R199, R200): it records the phase found before its own arrival. -/
def execBarv (a b : BitVec 6) (s : State) : Out :=
  .next (s.ctlGo [a.toNat, b.toNat] fun s => s.barObj (s.cg.rs a.toNat) fun s sa pa =>
    match s.barArrive pa ((s.cg.rs b.toNat).toNat % 2 ^ 32) (s.barExpected pa) with
    | .inr c => s.barTrap c sa
    | .inl t => (t.updCg fun g => g.recordPhase sa (s.barPhase pa)).advance)
/-- BEXP: the new expected count, then the completion test. -/
def execBexp (a b : BitVec 6) (s : State) : Out :=
  .next (s.ctlGo [a.toNat, b.toNat] fun s => s.barObj (s.cg.rs a.toNat) fun s sa pa =>
    match s.barArrive pa 0 ((s.cg.rs b.toNat).toNat % 2 ^ 32) with
    | .inr c => s.barTrap c sa
    | .inl t => t.advance)

/-- The barrier timeout of the chosen group's block, from its launch packet (R202). -/
def State.blockTimeout (s : State) : Nat := (s.gridOf s.cg.grid).pkt.bto

/-- A BWAIT that has seen the phase change (R201): the record and the acquire. -/
def State.bwaitDone (s : State) (sa phase : Nat) : State :=
  ((s.acquire s.cg.core .blk).updCg fun g => g.recordPhase sa phase).advance

def execBwait (d a : BitVec 6) (t : Bool) (s : State) : Out :=
  .next (s.ctlGo (if t then [d.toNat, a.toNat] else [a.toNat]) fun s =>
    let first := s.barObj (s.cg.rs a.toNat) fun s sa pa =>
      if s.badIn pa 16 then s.barTrap cUncorrectable sa
      else if !s.barOk pa then s.barTrap cBarrierUninit sa
      else
        let now := s.barPhase pa
        let p := match s.cg.arrivals.find? fun x => x.1 == sa with
          | some x => x.2
          | none => now
        let limit := if t then (s.cg.rs d.toNat).toNat % 2 ^ 32 else s.blockTimeout
        if now != p then s.bwaitDone sa now
        else s.standIn { kind := .bwait, limit := limit, obj := sa, pa := pa, phase := p }
    match s.cg.wait with
    | some w =>
      if w.kind != .bwait then first
      else if s.badIn w.pa 16 then s.barTrap cUncorrectable w.obj
      else if s.barPhase w.pa != w.phase then s.bwaitDone w.obj (s.barPhase w.pa) else s
    | none => first)

/-! ## Domain and wafer barriers (R204, R205) -/

/-- DBAR: legal with the co-residency flag, on an id that no other grid of the context has bound. -/
def execDbar (id : BitVec 4) (s : State) : Out :=
  let g := s.cur.g
  let d := coreDom s.cg.core
  let grid := s.cg.grid
  let k := 16 * s.casid + id.toNat
  let first :=
    let b := ((s.dom d).dbars.get? k).getD { grid := grid }
    if (s.gridOf grid).pkt.cor == 0 || b.grid != grid then s.trapCtl cBarrierUninit id.toNat
    else
      let s := s.updDom d fun m => { m with dbars := m.dbars.set k { b with arrived := b.arrived.filter (· != g) ++ [g] } }
      s.standIn { kind := .dbar, limit := s.blockTimeout, obj := id.toNat }
  .next (match s.cg.wait with
    | some w => if w.kind != .dbar then first else if w.woken then (s.acquire s.cg.core .dom).advance else s
    | none => first)

/-- WBAR: in the grid that holds the program channel. S[d] receives the new round. -/
def execWbar (d : BitVec 6) (s : State) : Out :=
  let g := s.cur.g
  let first :=
    if s.wbarGrid != some s.cg.grid then s.trapCtl cBarrierUninit 0xFFFF
    else
      let s := { s with wbarArrived := s.wbarArrived.filter (· != g) ++ [g] }
      s.standIn { kind := .wbar }
  .next (s.ctlGo [d.toNat] fun s => match s.cg.wait with
    | some w =>
      if w.kind != .wbar then first
      else if w.woken then (s.acquire s.cg.core .wfr).ctlDone d.toNat (BitVec.ofNat 64 w.n) else s
    | none => first)

/-- A phase of a domain barrier completes (R204). -/
def execDomainBarrierCompletion (asid dom : Nat) (id : BitVec 4) (s : State) : Out := .next (s.dbarCheck dom asid id.toNat)
/-- A phase of the wafer barrier completes (R205). -/
def execWaferBarrierCompletion (s : State) : Out := .next s.wbarCheck

/-- A BWAIT or DBAR timeout expires (R202, R204): a withdrawn arrival, then BARRIER_TIMEOUT. A phase that completes in the
same cycle counts as completed. -/
def execBarrierTimeout (g : Nat) (s : State) : Out :=
  let late (w : CtlWait) : Bool := w.limit != 0 && w.limit ≤ w.age && !w.woken && !s.standsStill (s.grp g) w
  let expire (s : State) (w : CtlWait) : State :=
    let pc := (s.grp g).cpc
    let t : PendTrap := { code := cBarrierTimeout, detail := w.obj, pc := pc, resume := pc }
    ((s.abandonWait g).updGrp g fun x => { x with cpend := some t }).takeCtl g
  .next (match (s.grp g).wait with
    | some w =>
      if w.kind == .bwait && late w && s.barPhase w.pa == w.phase then expire s w
      else if w.kind == .dbar && late w then
        let t := s.dbarCheck (coreDom (s.grp g).core) (s.asidOf g) w.obj
        if (t.grp g).wait == some w then expire t w else t
      else s
    | none => s)

end Sys2Proof.Machine
end

