-- ==== Sys2Proof/Machine/Engine.lean ====
section
/-!
DEFINITION. Engine chains and circular buffers (10_engine_chains.md R236 to R259): ENGCHAIN, the entries, buffer
descriptors, and the faults of chains. An entry acts in one step; the chain it belongs to is the one the
step has chosen.
-/

namespace Sys2Proof.Machine

/-! ## Where an entry's bytes lie -/

/-- Why an entry does not run: a reason of R258, a fault under its own cause (R257), a requester held
under R336, or a buffer condition that does not hold yet (R254). -/
inductive EngStop where
  | reason (code : Nat) (addr : W64)
  | cause (code : Nat) (va : W64) (pa : Nat := 0)
  | held (va : W64)
  | wait
  deriving DecidableEq, Repr

/-- Reason codes (R258). -/
def rBadKind : Nat := 1
def rBadField : Nat := 2
def rCbUninit : Nat := 3
def rCbCount : Nat := 4
def rAddr : Nat := 5
def rArrival : Nat := 6
def rResource : Nat := 7
def rFormat : Nat := 8
def rTarget : Nat := 9
def rMismatch : Nat := 10
def rAlign : Nat := 11

/-- An operand of an entry: its address doubleword, the step in bytes already multiplied, its length,
and whether it is a destination. -/
structure Opd where
  q : W64
  off : Int := 0
  n : Nat
  dst : Bool
  deriving DecidableEq, Repr

/-- SPACE (R241). -/
def spaceOf (q : W64) : Nat := bitsOf q.toNat 63 62
/-- The fields of an address doubleword in a position that accepts the listed spaces (R241, R243). -/
def Opd.field (o : Opd) (spaces : List Nat) (stepped : Bool) : Bool :=
  let x := o.q.toNat
  spaces.contains (spaceOf o.q) && !(stepped && 2 ≤ spaceOf o.q) &&
  (match spaceOf o.q with
   | 0 => bitsOf x 61 53 == 0
   | 3 => bitsOf x 61 21 == 0 && bitsOf x 15 11 == 0 && o.n % 4 == 0
   | _ => bitsOf x 61 25 == 0)
/-- The alignment of a descriptor address (R241). -/
def Opd.aligned (o : Opd) : Bool := !(spaceOf o.q == 2 && o.q.toNat % 32 != 0)

/-- A buffer descriptor (R251). -/
structure Desc where
  tag : Nat
  base : Nat
  esize : Nat
  size : Nat
  pptr : Nat
  cptr : Nat
  deriving DecidableEq, Repr
/-- Reading the descriptor at a physical address. -/
def State.readDesc (s : State) (pa : Nat) : Desc :=
  { tag := s.peek pa 4, base := s.peek (pa + 4) 4 % 2 ^ 25, esize := s.peek (pa + 8) 4, size := s.peek (pa + 12) 4,
    pptr := s.peek (pa + 16) 4, cptr := s.peek (pa + 20) 4 }
/-- The tag of an initialised descriptor. -/
def cbTag : Nat := 0x43425546
def Desc.filled (d : Desc) : Nat := (d.pptr + 2 ^ 32 - d.cptr) % 2 ^ 32
def Desc.room (d : Desc) : Nat := (d.size + 2 ^ 32 - d.filled) % 2 ^ 32

/-- n bytes at a scratchpad address of a block, or the stop ADDR. -/
def State.scrSeg (s : State) (b : Nat) (a : Int) (n : Nat) : Seg ⊕ EngStop :=
  let stop : EngStop := .reason rAddr (BitVec.ofInt 64 a)
  if a < 0 then .inr stop
  else match s.scratchAt b a.toNat n with
    | some (core, off) => .inl { va := BitVec.ofInt 64 a, pa := scratchPa core off, n := n, coh := 0 }
    | none => .inr stop
/-- All segments, or the first stop. -/
def allSegs : List (Seg ⊕ EngStop) → List Seg ⊕ EngStop
  | [] => .inl []
  | .inr e :: _ => .inr e
  | .inl x :: t => match allSegs t with
    | .inl l => .inl (x :: l)
    | .inr e => .inr e
/-- n bytes of a buffer at the pointer of its side (R254). -/
def State.bufSegs (s : State) (b : Nat) (o : Opd) : List Seg ⊕ EngStop :=
  let sa : Nat := o.q.toNat % 2 ^ 25
  match s.scrSeg b (sa : Int) 32 with
  | .inr e => .inr e
  | .inl x =>
    let d := s.readDesc x.pa
    let at' := BitVec.ofNat 64 sa
    if s.badIn x.pa 32 then .inr (.cause cUncorrectable at' x.pa)
    else if d.tag != cbTag then .inr (.reason rCbUninit at')
    else if d.esize == 0 || o.n % d.esize != 0 || d.size < o.n / d.esize then .inr (.reason rCbCount at')
    else if (if o.dst then d.room else d.filled) < o.n / d.esize then .inr .wait
    else
      let ptr := if o.dst then d.pptr else d.cptr
      allSegs ((List.range (o.n / d.esize)).map fun k => s.scrSeg b (d.base + d.esize * ((ptr + k) % 2 ^ 32 % d.size) : Nat) d.esize)
/-- The group of a block with an index within it. -/
def State.groupOf (s : State) (b gidx : Nat) : Option Nat := (s.blk b).groups.find? fun g => (s.grp g).gidx == gidx
/-- A register destination (R244). -/
def State.regEp (s : State) (b : Nat) (o : Opd) : Ep ⊕ EngStop :=
  let r := bitsOf o.q.toNat 10 0
  match s.groupOf b (bitsOf o.q.toNat 20 16) with
  | some g =>
    if (s.grp g).exited || (s.grp g).nregs < r + (o.n + 127) / 128 then .inr (.reason rTarget 0#64) else .inl (.regs g r)
  | none => .inr (.reason rTarget 0#64)
/-- The pages of n bytes at a virtual address, translated for the issuing core (R241). -/
def State.engPages (s : State) (core asid grid : Nat) (rg : Option Nat) (acc : Access) : Nat → W64 → Nat → State × (List Seg ⊕ EngStop)
  | _, _, 0 => (s, .inl [])
  | 0, _, _ => (s, .inl [])
  | fuel + 1, va, n =>
    if regenFailed rg va then (s, .inr (.cause cRegenWait va))
    else match s.translate core asid grid va acc with
    | (s, .ok pa coh _ _ left _) =>
      let k := min n left
      if !s.userRange pa k then
        (s, .inr (.cause cAddrFault (va + BitVec.ofNat 64 (((List.range k).find? fun j => !s.userPlace (pa + j)).getD 0))))
      else if acc != .store && !s.sysUp pa then (s, .inr (.cause cAddrFault va))
      else match s.engPages core asid grid rg acc fuel (va + BitVec.ofNat 64 k) (n - k) with
        | (s, .inl l) => (s, .inl ({ va := va, pa := pa, n := k, coh := coh } :: l))
        | r => r
    | (s, .trap c) => (s, .inr (.cause c va))
    | (s, .held) => (s, .inr (.held va))
/-- A virtual range of a chain. -/
def State.virtEp (s : State) (c : Chain) (va : W64) (n : Nat) (dst : Bool) : State × (List Seg ⊕ EngStop) :=
  s.engPages c.core (s.asidOf c.g) c.grid c.regen (if dst then .store else .load) (n / 2 ^ 13 + 2) va n
/-- The virtual address of an operand with its step. -/
def Opd.va (o : Opd) : W64 := canon53 (o.q.toNat % 2 ^ 53) + BitVec.ofInt 64 o.off
/-- An operand that is not a virtual address. -/
def State.localEp (s : State) (b : Nat) (o : Opd) : Ep ⊕ EngStop :=
  match spaceOf o.q with
  | 1 => match s.scrSeg b ((o.q.toNat % 2 ^ 25 : Nat) + o.off) o.n with
    | .inl x => .inl (.mem [x])
    | .inr e => .inr e
  | 2 => match s.bufSegs b o with
    | .inl l => .inl (.mem l)
    | .inr e => .inr e
  | _ => s.regEp b o
/-- The operands in place: those in the block first, then the virtual ones. -/
def State.placeOpds (s : State) (c : Chain) : List Opd → State × (List Ep ⊕ EngStop)
  | [] => (s, .inl [])
  | o :: t =>
    if spaceOf o.q == 0 then
      match s.placeOpds c t with
      | (s, .inl l) => match s.virtEp c o.va o.n o.dst with
        | (s, .inl x) => (s, .inl (.mem x :: l))
        | (s, .inr e) => (s, .inr e)
      | r => r
    else match s.localEp c.block o with
      | .inr e => (s, .inr e)
      | .inl x => match s.placeOpds c t with
        | (s, .inl l) => (s, .inl (x :: l))
        | r => r

/-! ## Moving bytes (R241, R244) -/

/-- The fault of a source with an uncorrectable byte. -/
def State.segBad (s : State) (core : Nat) (l : List Seg) : Option EngStop :=
  (l.find? fun x => s.badRead core x.pa x.n x.coh).map fun x =>
    let k := ((List.range x.n).find? fun k => s.badRead core (x.pa + k) 1 x.coh).getD 0
    .cause cUncorrectable (x.va + BitVec.ofNat 64 k) (x.pa + k)
/-- The bytes of an operand. -/
def State.engGet (s : State) (core : Nat) (e : Ep) : State × List Byte :=
  match e with
  | .regs _ _ => (s, [])
  | .mem l =>
    l.foldl (fun acc x => (List.range x.n).foldl (fun (acc : State × List Byte) k =>
      let (s, b) := acc.1.engRead core (x.pa + k) x.coh
      (s, acc.2 ++ [b])) acc) (s, [])
/-- Writing bytes into registers: byte b goes to lane b / 4 mod 32 of register r + b / 128. -/
def Group.putBytes (g : Group) (r : Nat) (bytes : List Byte) : Group :=
  (List.range (bytes.length / 4)).foldl (fun g w =>
    g.setv (r + w / 32) (w % 32) (BitVec.ofNat 32 (natOfBytes ((bytes.drop (4 * w)).take 4)))) g
/-- Writing bytes to an operand. -/
def State.engPut (s : State) (core : Nat) (e : Ep) (bytes : List Byte) : State :=
  match e with
  | .regs g r => s.updGrp g fun x => x.putBytes r bytes
  | .mem l =>
    (l.foldl (fun acc x =>
      (foldState (fun s (c : Nat × Byte) => s.engWrite core (x.pa + c.1) x.coh c.2) ((List.range x.n).zip acc.2) acc.1,
       acc.2.drop x.n)) (s, bytes)).1
/-- The bytes of an operand of n bytes, one by one. -/
def Ep.places (n : Nat) : Ep → List ByteAt
  | .mem l => l.flatMap fun x => (List.range x.n).map fun k => .mem { x with va := x.va + BitVec.ofNat 64 k, pa := x.pa + k, n := 1 }
  | .regs g r => (List.range n).map fun o => .reg g r o
/-- Writing one byte. -/
def State.engByte (s : State) (core : Nat) (p : ByteAt) (b : Byte) : State :=
  match p with
  | .mem x => s.engWrite core x.pa x.coh b
  | .reg g r o => s.updGrp g fun x =>
      let (k, lane) := (r + o / 128, o / 4 % 32)
      x.setv k lane (BitVec.ofNat 32 (natOfBytes ((bytesOfNat 4 (x.rv k lane).toNat).set (o % 4) b)))

/-- The advances that the buffers of an entry owe, with the pointers that the entry found (R254). -/
def State.owed (s : State) (b kind : Nat) (l : List Opd) : List Advance :=
  l.filterMap fun o =>
    if spaceOf o.q != 2 then none
    else match s.scrSeg b (o.q.toNat % 2 ^ 25 : Nat) 32 with
      | .inr _ => none
      | .inl x =>
        let d := s.readDesc x.pa
        some { va := x.va, pa := x.pa, prod := o.dst, n := o.n / d.esize, checked := if o.dst then d.pptr else d.cptr, kind := kind }

/-! ## Running an entry -/

/-- A chain gives up its context. -/
def State.freeCtx (s : State) (k : Nat) (c : Chain) : State :=
  let drop (l : List Nat) : List Nat := l.filter (· != k)
  let s := s.updCore c.core fun x => { x with chainCtx := x.chainCtx.mapVal fun _ l => drop l }
  s.updDom (coreDom c.core) fun x => { x with chainCtx := drop x.chainCtx }
/-- An entry stops its chain (R257): a reason ends it and it retires; a cause holds it at the entry. -/
def State.chainStop (s : State) (kind : Nat) (e : EngStop) : State :=
  let k := s.cur.chain
  match s.chains.get? k, e with
  | some c, .reason code a =>
    ((s.updChain k fun c => { c with phase := 3, fault := some (cEngineFault, code, kind, a), held := none, regen := none }).freeCtx k c).cntDone c.g k
  | some _, .cause code va pa =>
    s.updChain k fun c => { c with phase := 2, fault := some (code, 0, kind, va), badPa := pa, held := none, regen := none }
  | some _, .held va => s.updChain k fun c => { c with held := some va }
  | _, _ => s
/-- The chain's entry may run: it holds a context, nothing of it is in progress, and its group is resident. -/
def State.chainRuns (s : State) (c : Chain) : Bool := c.phase == 1 && c.busy.isNone && c.adv.isEmpty && c.slow.isNone && (s.grp c.g).resident
/-- The fields of an entry: BAD_FIELD, then ALIGN at the first address that is misaligned (R240, R258). -/
def fieldStop (ok : Bool) (misaligned : List W64) : Option EngStop :=
  if !ok then some (.reason rBadField 0#64)
  else match misaligned with
    | [] => none
    | a :: _ => some (.reason rAlign a)
/-- The descriptor addresses of operands that are not aligned. -/
def misalignedOpds (l : List Opd) : List W64 := (l.filter fun o => !o.aligned).map fun o => BitVec.ofNat 64 (o.q.toNat % 2 ^ 25)
/-- An address that is not a multiple of n. -/
def misalignedAt (a n : Nat) : List W64 := if a % n == 0 then [] else [BitVec.ofNat 64 a]
/-- The bytes of an entry have moved: it completes, or its buffers' pointers advance first. -/
def State.moved (s : State) (l : List Advance) : State :=
  if l.isEmpty then s.dataDone s.cur.chain else s.updChain s.cur.chain fun c => { c with adv := l, held := none, idle := 0 }
/-- One advance, which applies to the pointers that it finds; a pointer that another agent has moved past the count
checked stops the chain (R252, R254), as a descriptor with an uncorrectable error does (R11). -/
def State.advanceOne (s : State) (a : Advance) : State ⊕ EngStop :=
  let d := s.readDesc a.pa
  let ptr := if a.prod then d.pptr else d.cptr
  let past := (ptr + 2 ^ 32 - a.checked) % 2 ^ 32
  if s.badIn a.pa 32 then .inr (.cause cUncorrectable a.va a.pa)
  else if 0 < past && past < 2 ^ 31 && (if a.prod then d.room else d.filled) < a.n then .inr (.reason rCbCount a.va)
  else .inl (s.poke (if a.prod then a.pa + 16 else a.pa + 20) 4 ((ptr + a.n) % 2 ^ 32))
/-- Owed advances in turn, up to one that stops the chosen chain; false where one has. -/
def State.advances (s : State) : List Advance → State × Bool
  | [] => (s, true)
  | a :: t => match s.advanceOne a with
    | .inl u => u.advances t
    | .inr e => ((s.updChain s.cur.chain fun c => { c with adv := [] }).chainStop a.kind e, false)
/-- The owed advances of the chosen chain, and the completion of its entry. -/
def State.advanceAll (s : State) (l : List Advance) : State :=
  match s.advances l with
  | (s, true) => (s.updChain s.cur.chain fun c => { c with adv := [] }).dataDone s.cur.chain
  | (s, false) => s
/-- A class accepts a kind (R236). -/
def kindTaken (cls kind : Nat) : Bool :=
  match kind with
  | 0 | 8 | 9 | 10 => true
  | 1 | 2 | 3 => cls == 0
  | 4 | 5 => cls == 1
  | 6 => cls == 3
  | 7 => cls == 2
  | _ => false
/-- An entry that its chain's class accepts, after its fields: the operands in place and free of uncorrectable errors,
then its effect. -/
def State.entryGo (s : State) (kind : Nat) (static : Option EngStop) (opds : List Opd) (eff : State → Chain → List Ep → State) : State :=
  match s.chains.get? s.cur.chain with
  | none => s
  | some c =>
    if !s.chainRuns c then s
    else if !kindTaken c.cls kind then s.chainStop kind (.reason rBadKind 0#64)
    else match static with
      | some e => s.chainStop kind e
      | none => match s.placeOpds c opds with
        | (s, .inr e) => s.chainStop kind e
        | (s, .inl eps) =>
          let src (x : Opd × Ep) : List Seg := match x.1.dst, x.2 with
            | false, .mem l => l
            | _, _ => []
          match s.segBad c.core ((opds.zip eps).flatMap src) with
          | some e => s.chainStop kind e
          | none => eff s c eps

/-- The step of a 16-bit count in bytes (R243). -/
def stepOff (step : Nat) (prog : W32) : Int := 16 * signedOf 16 step * prog.toNat

/-! ## What the kinds of data entries do with their source bytes -/

/-- A legal pair of CONV (R245). -/
def convPair (sf df : Fmt) : Bool :=
  let m : ConvMod := { sfmt := sf, mg := false, mag := 0#2, sat := false, nf := false, dfmt := df }
  sf != .k4 && df != .k4 && (cvtfiOk m || cvtifOk m || cvtffOk m 0#2 || cvtnOk m)
/-- One element of CONV: integers saturate, the rest rounds under R62. -/
def convElem (sf df : Fmt) (x : Nat) : Nat := (fixedNarrow df 0 (ofFmt sf 0 x)).val
/-- n elements in another format. -/
def convBytes (sf df : Fmt) (n : Nat) (b : List Byte) : List Byte :=
  let x := natOfBytes b
  bytesOfNat (n * df.width / 8) ((List.range n).foldl (fun y i =>
    y + convElem sf df (x / 2 ^ (sf.width * i) % 2 ^ sf.width) * 2 ^ (df.width * i)) 0)

/-- The columns that an MCAST names (R247). -/
def mcastCols (q : EntryEnc) : List Nat := (List.range 4).filter fun k => q.arg.getLsbD k
/-- The arrivals of an MCAST whose data has been written, at the objects in place (R247): it completes, or stops after the entry. -/
def State.mcastArrive (s : State) (c : Chain) (q : EntryEnc) (objs : List Ep) (owed : List Advance) : State :=
  let n := bitsOf q.q3.toNat 24 0
  let arrive (acc : State × List (Nat × Seg)) (e : Ep) : State × List (Nat × Seg) :=
    match e with
    | .mem [o] => match acc.1.barArrive o.pa n (acc.1.barExpected o.pa) with
      | .inl t => (t, acc.2)
      | .inr k => (acc.1, acc.2 ++ [(k, o)])
    | _ => acc
  match objs.foldl arrive (s, []) with
  | (s, []) => s.moved owed
  | (s, (k, o) :: _) => match s.advances owed with
    | (s, true) => (s.writeProg c (q.prog.toNat + 1)).chainStop 2
        (if k == cUncorrectable then .cause cUncorrectable o.va o.pa else .reason rArrival o.va)
    | (s, false) => s

/-! ## REDUCE (R248) -/

/-- The format of a type code; none is INT32. -/
def collFmt (ty : Nat) : Option Format :=
  match ty with
  | 0 => some fp32 | 1 => some fp16 | 2 => some bf16 | _ => none
/-- Bytes of an element. -/
def collWidth (ty : Nat) : Nat := if ty == 1 || ty == 2 then 2 else 4
/-- Two elements combined. -/
def collOp (op ty x y : Nat) : Nat :=
  match collFmt ty with
  | some f =>
    let r : FRedOp := match op with
      | 0 => .add | 1 => .min | _ => .max
    (redFloat f r { bits := x, v := f.unpack x } { bits := y, v := f.unpack y }).val
  | none =>
    let r : IRedOp := match op with
      | 0 => .add | 1 => .min | _ => .max
    (reduxOp r (BitVec.ofNat 32 x) (BitVec.ofNat 32 y)).toNat
/-- A NaN result is the canonical one. -/
def collSettle (ty x : Nat) : Nat :=
  match collFmt ty with
  | some f => if (f.unpack x).isNan then f.qnan else x
  | none => x
/-- The elements of bytes, and back. -/
def collElems (w : Nat) (b : List Byte) : List Nat := (cutList w (b.length / w) b).map natOfBytes
/-- The result of an instance: the tree of R67 over the contributions in ascending rank. -/
def Collective.combine (x : Collective) : List Byte :=
  let w := collWidth x.ty
  let leaves := (List.range x.npart).map fun r => (x.parts.find? (·.rank == r)).map fun p => collElems w p.bytes
  match treeRoot (fun a b => (a.zip b).map fun c => collOp x.op x.ty c.1 c.2) 16 leaves with
  | some l => (l.map (collSettle x.ty)).flatMap (bytesOfNat w)
  | none => []
/-- Writing the result to one participant and completing its entry; one that moves its bytes one by one completes after the last. -/
def State.collDeliver (s : State) (len : Nat) (bytes : List Byte) (p : Contribution) : State :=
  match s.chains.get? p.chain with
  | none => s
  | some c =>
    let s := { s with cur := { s.cur with chain := p.chain } }
    let o : Opd := { q := p.dst, n := len, dst := true }
    match s.localEp c.block o with
    | .inl e =>
      if c.apart then s.updChain p.chain fun c =>
        { c with apart := false, slow := some { kind := 6, q := { prog := 0, arg := 0, flg := 0, q1 := 0, q2 := p.dst, q3 := 0 }, eps := [], owed := [],
                                                puts := (e.places len).zip bytes } }
      else (s.engPut c.core e bytes).dataDone p.chain
    | .inr e => (s.updChain p.chain fun c => { c with busy := none }).chainStop 6 e
/-- Delivering the results of complete instances to the participants that are resident (R259). -/
def State.collRun (s : State) (x : Collective) : State :=
  let bytes := match x.result with
    | some b => b
    | none => x.combine
  let here (p : Contribution) : Bool := match s.chains.get? p.chain with
    | some c => (s.grp c.g).resident
    | none => true
  let cur := s.cur
  let s := foldState (fun s p => s.collDeliver x.len bytes p) (x.parts.filter here) s
  let left := x.parts.filter fun p => !here p
  { s with cur := cur,
           colls := s.colls.filterMap fun y => if y == x then (if left.isEmpty then none else some { x with parts := left, result := some bytes }) else some y }
/-- An instance has gathered all its contributions. -/
def Collective.full (x : Collective) : Bool := x.result.isSome || x.parts.length == x.npart
/-- Running every complete instance. -/
def State.collAll (s : State) : State := foldState (fun s x => if x.full then s.collRun x else s) s.colls s
/-- The instance that a REDUCE of a chain opens. -/
def Collective.opened (c : Chain) (q : EntryEnc) : Collective :=
  let f := q.flg.toNat
  let inst := match f % 4 with
    | 0 => coreQuad c.core | 1 => coreDom c.core | _ => 0
  { grid := c.grid, scope := f % 4, inst := inst, id := q.arg.toNat, npart := bitsOf q.q3.toNat 63 48 + 1, len := bitsOf q.q3.toNat 24 0,
    op := bitsOf f 3 2, ty := bitsOf f 7 4 }
/-- An instance is the one that a REDUCE names. -/
def Collective.named (x y : Collective) : Bool :=
  x.grid == y.grid && x.scope == y.scope && x.inst == y.inst && x.id == y.id && x.result.isNone
/-- The instance that a REDUCE contributes to, open or opened by it. -/
def State.instanceOf (s : State) (c : Chain) (q : EntryEnc) : Collective :=
  (s.colls.find? fun x => x.named (Collective.opened c q)).getD (Collective.opened c q)
/-- A contribution that its instance rejects. -/
def Collective.rejects (x : Collective) (y : Collective) (rank : Nat) : Bool :=
  !(x.npart == y.npart && x.len == y.len && x.op == y.op && x.ty == y.ty) || y.npart ≤ rank || x.parts.any (·.rank == rank)
/-- A REDUCE that has read its source contributes it. -/
def State.reduceGot (s : State) (c : Chain) (q : EntryEnc) (bytes : List Byte) (owed : List Advance) : State :=
  let rank := bitsOf q.q3.toNat 47 32
  let y := Collective.opened c q
  let x := s.instanceOf c q
  if x.rejects y rank then s.chainStop 6 (.reason rMismatch 0#64)
  else match s.advances owed with
    | (s, false) => s
    | (s, true) =>
      let s := s.updChain s.cur.chain fun c => { c with busy := some 0, held := none, idle := 0 }
      let p : Contribution := { rank := rank, chain := s.cur.chain, dst := q.q2, bytes := bytes }
      let z : Collective := { x with parts := x.parts ++ [p] }
      let s := { s with colls := (s.colls.filter fun w => !w.named y) ++ [z] }
      if z.full then s.collRun z else s

/-! ## ALGOP (R249) -/

/-- An ALGOP that has read its sources fills its slots, and its MMA joins the array queue. -/
def State.algopGot (s : State) (c : Chain) (q : EntryEnc) (bytes : List Byte) (owed : List Advance) : State :=
  let a := q.arg.toNat
  let g := s.grp c.g
  let sa := bitsOf q.q3.toNat 6 0
  let sb := bitsOf q.q3.toNat 14 8
  let slots := (if q.flg.getLsbD 0 then [sa] else []) ++ (if q.flg.getLsbD 1 then [sb] else [])
  let fill (s : State) (x : Nat × Nat) : State :=
    s.updCore c.core fun k => { k with opslots := k.opslots.mapVal fun j o =>
      if j == x.2 then { o with bytes := slotBytes ((bytes.drop (4096 * x.1)).take 4096), bad := false } else o }
  match (foldState fill (slots.zipIdx.map fun y => (y.2, y.1)) s).advances owed with
  | (s, false) => s
  | (s, true) =>
    let (id, s) := s.newId
    let e : ArrEntry :=
      { id := id, g := c.g, op := none, chain := some s.cur.chain, fmt := MFmt.ofCode (q.arg.extractLsb' 0 4), na := q.flg.getLsbD 2,
        nb := q.flg.getLsbD 3, zc := q.flg.getLsbD 4, tile := g.accs.getD (bitsOf a 9 8) 64, sa := sa, sb := sb,
        table := s.tableOf g (bitsOf a 6 4), rows := 0xFFFFFFFF#32, ascale := [], bscale := [] }
    (s.updCore c.core fun k => k.arrayTake (.chain s.cur.chain) e).updChain s.cur.chain fun c =>
      { c with busy := some id, held := none, idle := 0 }

/-! ## Data entries, at once or byte by byte (R243, R292) -/

/-- The sources of a data entry. -/
def SlowEntry.srcs (x : SlowEntry) : List Ep := if x.kind == 7 then x.eps else x.eps.take 1
/-- What it writes, by destination. -/
def SlowEntry.writes (x : SlowEntry) (bytes : List Byte) : List (Ep × List Byte) :=
  let dsts := x.eps.drop 1
  match x.kind, Fmt.ofCode (x.q.flg.extractLsb' 0 4), Fmt.ofCode (x.q.flg.extractLsb' 4 4) with
  | 2, _, _ => (dsts.take (mcastCols x.q).length).map fun e => (e, bytes)
  | 3, some sf, some df => dsts.map fun e => (e, convBytes sf df (bitsOf x.q.q3.toNat 24 0) bytes)
  | _, _, _ => dsts.map fun e => (e, bytes)
/-- The writes of a data entry are done. -/
def State.entryPut (s : State) (c : Chain) (x : SlowEntry) : State :=
  if x.kind == 2 then s.mcastArrive c x.q (x.eps.drop (1 + (mcastCols x.q).length)) x.owed else s.moved x.owed
/-- The source bytes of a data entry are there; `one` says that its bytes move one by one. -/
def State.entryGot (s : State) (c : Chain) (x : SlowEntry) (bytes : List Byte) (one : Bool) : State :=
  if x.kind == 6 then s.reduceGot c x.q bytes x.owed
  else if x.kind == 7 then s.algopGot c x.q bytes x.owed
  else if one then
    let puts := (x.writes bytes).flatMap fun w => (w.1.places w.2.length).zip w.2
    s.updChain s.cur.chain fun c => { c with slow := some { x with gets := [], got := [], puts := puts } }
  else (foldState (fun s w => s.engPut c.core w.1 w.2) (x.writes bytes) s).entryPut c x
/-- The bytes of several operands. -/
def State.engGets (s : State) (core : Nat) : List Ep → State × List Byte
  | [] => (s, [])
  | e :: t =>
    let (s, a) := s.engGet core e
    let (s, b) := s.engGets core t
    (s, a ++ b)
/-- A data entry fires: its bytes move at once, or one by one where the chain has been marked so. -/
def State.entryData (s : State) (c : Chain) (x : SlowEntry) : State :=
  if c.apart then
    let segs := (x.srcs.flatMap (Ep.places 0)).filterMap fun p => match p with
      | .mem y => some y
      | .reg _ _ _ => none
    let s := if x.kind == 7 then s.arrayArrive c.core (.chain s.cur.chain) else s
    s.updChain s.cur.chain fun c =>
      { c with apart := false, held := none, idle := 0, slow := some { x with gets := (segs.zipIdx.map fun y => (y.2, y.1)) } }
  else
    let (s, bytes) := s.engGets c.core x.srcs
    s.entryGot c x bytes false
/-- The entry of a chain that moves its bytes one by one is over. -/
def State.slowOver (s : State) (k : Nat) : State := s.updChain k fun c => { c with slow := none }
/-- One byte of a chain's entry moves: the one at a place among those left, first those to be read, then those to be written. -/
def State.slowStep (s : State) (k i : Nat) : State :=
  match s.chains.get? k with
  | none => s
  | some c => match c.slow with
    | none => s
    | some x =>
      let s := { s with cur := { s.cur with chain := k, g := c.g } }
      match x.gets[i % x.gets.length]? with
      | some (n, y) =>
        if s.badRead c.core y.pa 1 y.coh then (s.slowOver k).chainStop x.kind (.cause cUncorrectable y.va y.pa)
        else
          let (s, b) := s.engRead c.core y.pa y.coh
          let x' := { x with gets := x.gets.filter fun z => z.1 != n, got := x.got.set n b }
          if x'.gets.isEmpty then (s.slowOver k).entryGot c x' (x'.got.map fun z => z.2) true
          else s.updChain k fun c => { c with slow := some x' }
      | none => match x.puts[i % x.puts.length]? with
        | some (p, b) =>
          let x' := { x with puts := x.puts.eraseIdx (i % x.puts.length) }
          let s := s.engByte c.core p b
          if x'.puts.isEmpty then (s.slowOver k).entryPut c x' else s.updChain k fun c => { c with slow := some x' }
        | none => (s.slowOver k).entryPut c x
/-- The bytes of a chain's entry that are left move in order. -/
def State.slowAll (s : State) (k : Nat) : State :=
  let left (s : State) : Nat := match (s.chains.get? k).bind fun c => c.slow with
    | some x => x.gets.length + x.puts.length
    | none => 0
  let s := foldState (fun s _ => s.slowStep k 0) (List.range (left s)) s
  foldState (fun s _ => s.slowStep k 0) (List.range (left s)) s

/-! ## The data entries -/

/-- COPY (R242, R245). -/
def execCopy (q : EntryEnc) (s : State) : Out :=
  let n := bitsOf q.q3.toNat 24 0
  let ss := bitsOf q.q3.toNat 63 48
  let ds := bitsOf q.q3.toNat 47 32
  let src : Opd := { q := q.q1, off := stepOff ss q.prog, n := n, dst := false }
  let dst : Opd := { q := q.q2, off := stepOff ds q.prog, n := n, dst := true }
  let ok := q.flg == 0#8 && q.arg == 0#16 && bitsOf q.q3.toNat 31 25 == 0 && n != 0 && n ≤ 2 ^ 24 &&
    src.field [0, 1, 2] (ss != 0) && dst.field [0, 1, 2, 3] (ds != 0)
  .next (s.entryGo 1 (fieldStop ok (misalignedOpds [src, dst])) [src, dst] fun s c eps =>
    s.entryData c { kind := 1, q := q, eps := eps, owed := s.owed c.block 1 [src, dst] })
def execConv (q : EntryEnc) (s : State) : Out :=
  let n := bitsOf q.q3.toNat 24 0
  let ss := bitsOf q.q3.toNat 63 48
  let ds := bitsOf q.q3.toNat 47 32
  .next (match Fmt.ofCode (q.flg.extractLsb' 0 4), Fmt.ofCode (q.flg.extractLsb' 4 4) with
    | some sf, some df =>
      let src : Opd := { q := q.q1, off := stepOff ss q.prog, n := n * sf.width / 8, dst := false }
      let dst : Opd := { q := q.q2, off := stepOff ds q.prog, n := n * df.width / 8, dst := true }
      let ok := q.arg == 0#16 && bitsOf q.q3.toNat 31 25 == 0 && n != 0 && n ≤ 2 ^ 24 && convPair sf df &&
        n * sf.width % 8 == 0 && n * df.width % 8 == 0 && src.field [0, 1, 2] (ss != 0) && dst.field [0, 1, 2, 3] (ds != 0)
      s.entryGo 3 (fieldStop ok (misalignedOpds [src, dst])) [src, dst] fun s c eps =>
        s.entryData c { kind := 3, q := q, eps := eps, owed := s.owed c.block 3 [src, dst] }
    | _, _ => s.entryGo 3 (fieldStop false []) [] fun s _ _ => s)

/-- MCAST (R247): the columns of the mask, each with its data, and its arrival where ARR is 1. -/
def execMcast (q : EntryEnc) (s : State) : Out :=
  let n := bitsOf q.q3.toNat 24 0
  let ss := bitsOf q.q3.toNat 63 48
  let x := q.q2.toNat
  let cols := mcastCols q
  let arr := q.flg.getLsbD 0
  let boff := bitsOf x 54 32
  let src : Opd := { q := q.q1, off := stepOff ss q.prog, n := n, dst := false }
  let dsts := cols.map fun k => ({ q := BitVec.ofNat 64 (2 ^ 62 + 2 ^ 23 * k + x % 2 ^ 23), n := n, dst := true } : Opd)
  let objs := if arr then cols.map fun k => ({ q := BitVec.ofNat 64 (2 ^ 62 + 2 ^ 23 * k + boff), n := 16, dst := true } : Opd) else []
  let ok := q.flg.toNat < 2 && q.arg.toNat < 16 && q.arg != 0#16 && bitsOf q.q3.toNat 47 25 == 0 && n != 0 &&
    src.field [0, 1, 2] (ss != 0) && spaceOf q.q2 == 1 && bitsOf x 61 55 == 0 && bitsOf x 31 25 == 0
  .next (s.entryGo 2 (fieldStop ok (misalignedOpds [src] ++ misalignedAt boff 16)) (src :: dsts ++ objs) fun s c eps =>
    s.entryData c { kind := 2, q := q, eps := eps, owed := s.owed c.block 2 [src] })

/-- The indices of GATHER and SCATTER (R246), or the stop of the list. -/
def State.indexList (s : State) (b sa n : Nat) : List Nat ⊕ EngStop :=
  match allSegs ((List.range n).map fun i => s.scrSeg b (sa + 4 * i : Nat) 4) with
  | .inr e => .inr e
  | .inl l => match s.segBad (quadCore (s.blk b).quad 0) l with
    | some e => .inr e
    | none => .inl (l.map fun x => s.peek x.pa 4)
/-- The elements of a base at a list of indices. -/
def State.indexed (s : State) (c : Chain) (o : Opd) (es : Nat) : List Nat → State × (List Seg ⊕ EngStop)
  | [] => (s, .inl [])
  | i :: t =>
    let (s, r) := if spaceOf o.q == 0 then s.virtEp c (o.va + BitVec.ofNat 64 (es * i)) es o.dst
      else (s, match s.scrSeg c.block (o.q.toNat % 2 ^ 25 + es * i : Nat) es with
        | .inl x => .inl [x]
        | .inr e => .inr e)
    match r with
    | .inr e => (s, .inr e)
    | .inl a => match s.indexed c o es t with
      | (s, .inl l) => (s, .inl (a ++ l))
      | r => r
/-- GATHER and SCATTER: `flat` is the operand of consecutive elements. -/
def State.indexGo (s : State) (q : EntryEnc) (gather : Bool) : State :=
  let kind := if gather then 4 else 5
  let es := 2 ^ (q.flg.toNat % 8)
  let n := q.arg.toNat + 1
  let flat : Opd := { q := if gather then q.q2 else q.q1, n := es * n, dst := gather }
  let base : Opd := { q := if gather then q.q1 else q.q2, n := es, dst := !gather }
  let sa := q.q3.toNat % 2 ^ 25
  let ok := q.flg.toNat < 8 && bitsOf q.q3.toNat 63 25 == 0 && base.field [0, 1] false &&
    flat.field (if gather then [0, 1, 2, 3] else [0, 1, 2]) false
  s.entryGo kind (fieldStop ok (misalignedOpds [flat] ++ misalignedAt sa 4)) [flat] fun s c eps =>
    let owed := s.owed c.block kind [flat]
    match s.indexList c.block sa n, eps with
    | .inr e, _ => s.chainStop kind e
    | .inl idx, [f] => match s.indexed c base es idx with
      | (s, .inr e) => s.chainStop kind e
      | (s, .inl l) =>
        if gather then
          match s.segBad c.core l with
          | some e => s.chainStop kind e
          | none => s.entryData c { kind := kind, q := q, eps := [.mem l, f], owed := owed }
        else s.entryData c { kind := kind, q := q, eps := [f, .mem l], owed := owed }
    | _, _ => s
def execGather (q : EntryEnc) (s : State) : Out := .next (s.indexGo q true)
def execScatter (q : EntryEnc) (s : State) : Out := .next (s.indexGo q false)

def execReduce (q : EntryEnc) (s : State) : Out :=
  let f := q.flg.toNat
  let len := bitsOf q.q3.toNat 24 0
  let ty := bitsOf f 7 4
  let src : Opd := { q := q.q1, n := len, dst := false }
  let dst : Opd := { q := q.q2, n := len, dst := true }
  let ok := f % 4 != 3 && bitsOf f 3 2 != 3 && (ty ≤ 2 || ty == 11) && bitsOf q.q3.toNat 31 25 == 0 && len != 0 &&
    len % 4 == 0 && len ≤ 2 ^ 20 && src.field [1, 2] false && dst.field [1, 3] false
  .next (s.entryGo 6 (fieldStop ok (misalignedOpds [src])) [src, dst] fun s c eps =>
    if (s.instanceOf c q).rejects (Collective.opened c q) (bitsOf q.q3.toNat 47 32) then s.chainStop 6 (.reason rMismatch 0#64)
    else s.entryData c { kind := 6, q := q, eps := eps, owed := s.owed c.block 6 [src] })

def execAlgop (q : EntryEnc) (s : State) : Out :=
  let f := q.flg.toNat
  let a := q.arg.toNat
  let fa := q.flg.getLsbD 0
  let fb := q.flg.getLsbD 1
  let fmt := MFmt.ofCode (q.arg.extractLsb' 0 4)
  let sa := bitsOf q.q3.toNat 6 0
  let sb := bitsOf q.q3.toNat 14 8
  let oa : Opd := { q := q.q1, n := 4096, dst := false }
  let ob : Opd := { q := q.q2, n := 4096, dst := false }
  let part (use : Bool) (o : Opd) : Bool := if use then o.field [1, 2] false else o.q == 0#64
  let ok := f < 32 && bitsOf a 15 10 == 0 && !bitOf a 7 && q.q3.toNat < 2 ^ 15 && !bitOf q.q3.toNat 7 && !fmt.scaled &&
    part fa oa && part fb ob
  let opds := (if fa then [oa] else []) ++ (if fb then [ob] else [])
  .next (match s.chains.get? s.cur.chain with
    | none => s
    | some c =>
      let g := s.grp c.g
      let core := s.core c.core
      let nalg := (s.blk c.block).nalg
      let table := s.tableOf g (bitsOf a 6 4)
      let wide (o : Opd) : Bool := spaceOf o.q == 2 && match s.scrSeg c.block (o.q.toNat % 2 ^ 25 : Nat) 32 with
        | .inl x => (s.readDesc x.pa).tag == cbTag && (s.readDesc x.pa).esize != 4096
        | .inr _ => false
      let static := match fieldStop (ok && !opds.any wide) (misalignedOpds opds) with
        | some e => some e
        | none =>
          if !g.slots.contains sa || !g.slots.contains sb || g.accs.length ≤ bitsOf a 9 8 || nalg ≤ bitsOf a 6 4
          then some (.reason rResource 0#64)
          else if 1 < tabDim table && !mmaAlgebra fmt then some (.reason rFormat 0#64)
          else if (fa && !core.slotIdle sa) || (fb && !core.slotIdle sb) then some .wait
          else none
      s.entryGo 7 static opds fun s c eps =>
        if !s.arrayTurn c.core (.chain s.cur.chain) then s.arrayArrive c.core (.chain s.cur.chain)
        else s.entryData c { kind := 7, q := q, eps := eps, owed := s.owed c.block 7 opds })

/-! ## Control entries (R250) -/

/-- The entry that a jump leads to, or the stop ADDR (R238). -/
def State.jumpTo (s : State) (c : Chain) (arg : BitVec 16) : Nat ⊕ EngStop :=
  let t : Int := c.entry + 32 * arg.toInt
  match s.scrSeg c.block t 32 with
  | .inl _ => .inl t.toNat
  | .inr e => .inr e
def execLoop (q : EntryEnc) (s : State) : Out :=
  let ok := q.flg == 0#8 && q.q1 == 0#64 && q.q2 == 0#64 && q.q3 != 0#64 && q.q3.toNat < 2 ^ 32
  .next (s.entryGo 8 (fieldStop ok []) [] fun s c _ =>
    if q.prog.toNat + 1 < q.q3.toNat then
      match s.jumpTo c q.arg with
      | .inl t => (s.writeProg c (q.prog.toNat + 1)).chainNext s.cur.chain t
      | .inr e => s.chainStop 8 e
    else (s.writeProg c 0).chainNext s.cur.chain (c.entry + 32))
def execCond (q : EntryEnc) (s : State) : Out :=
  let src := q.flg.toNat % 4
  let o : Opd := { q := q.q1, n := 8, dst := false }
  let ok := q.flg.toNat < 32 && src != 3 && q.q2 == 0#64 && o.field [if src == 2 then 1 else 2] false
  let misaligned := if src == 2 then misalignedAt (q.q1.toNat % 2 ^ 25) 8 else misalignedOpds [o]
  .next (match Cond.ofCode (q.flg.extractLsb' 2 3) with
    | none => s.entryGo 9 (fieldStop false []) [] fun s _ _ => s
    | some cc => s.entryGo 9 (fieldStop ok misaligned) [] fun s c _ =>
      match s.scrSeg c.block (q.q1.toNat % 2 ^ 25 : Nat) (if src == 2 then 8 else 32) with
      | .inr e => s.chainStop 9 e
      | .inl x =>
        let d := s.readDesc x.pa
        if s.badIn x.pa x.n then s.chainStop 9 (.cause cUncorrectable x.va x.pa)
        else if src != 2 && d.tag != cbTag then s.chainStop 9 (.reason rCbUninit x.va)
        else
          let v := match src with
            | 0 => d.filled | 1 => d.room | _ => s.peek x.pa 8
          if condHolds cc (BitVec.ofNat 64 v) q.q3 then
            match s.jumpTo c q.arg with
            | .inl t => s.chainNext s.cur.chain t
            | .inr e => s.chainStop 9 e
          else s.chainNext s.cur.chain (c.entry + 32))
/-- SIGNAL: a store or an atomic add of 64 bits at the target; the add reads it, and faults at an uncorrectable error. -/
def execSignal (q : EntryEnc) (s : State) : Out :=
  let f := q.flg.toNat
  let o : Opd := { q := q.q2, n := 8, dst := true }
  let ok := f < 16 && bitsOf f 3 1 ≤ 4 && q.arg == 0#16 && q.q1 == 0#64 && o.field [0, 1] false
  let misaligned := if q.q2.toNat % 8 == 0 then [] else [if spaceOf q.q2 == 0 then o.va else BitVec.ofNat 64 (q.q2.toNat % 2 ^ 25)]
  .next (s.entryGo 10 (fieldStop ok misaligned) [o] fun s c eps =>
    match eps with
    | [.mem [x]] =>
      if bitOf f 0 && s.badRead c.core x.pa 8 x.coh then s.chainStop 10 (.cause cUncorrectable x.va x.pa) else
      let s := if bitOf f 0 then (s.atomOne c.core { pa := x.pa, off := 0, n := 8, coh := x.coh } fun v => (v + q.q3.toNat) % 2 ^ 64).1
        else if s.cached x.pa then
          (s.updCore c.core fun k => k.l1Drop (·.line == x.pa / 128)).l2Write (coreDom c.core) x.pa 8 q.q3.toNat x.coh .none
        else s.pokeOut x.pa 8 q.q3.toNat
      s.dataDone s.cur.chain
    | _ => s)
/-- END: the chain completes and retires (R239). -/
def execEndEntry (q : EntryEnc) (s : State) : Out :=
  let ok := q.flg == 0#8 && q.arg == 0#16 && q.q1 == 0#64 && q.q2 == 0#64 && q.q3 == 0#64
  .next (s.entryGo 0 (fieldStop ok []) [] fun s c _ => (s.removeChain s.cur.chain).cntDone c.g s.cur.chain)

/-! ## Starting and queueing chains (R237, R256) -/

/-- The chain queue and contexts of a class as a core reaches them. -/
def State.engQueue (s : State) (core : Nat) (cls : Nat) : List Nat :=
  if cls == 3 then (s.dom (coreDom core)).chainQ else (s.core core).chainQ.getD cls []
def State.engCtxs (s : State) (core : Nat) (cls : Nat) : List Nat :=
  if cls == 3 then (s.dom (coreDom core)).chainCtx else (s.core core).chainCtx.getD cls []
/-- Writing the queue, and the contexts. -/
def State.setEngQueue (s : State) (core cls : Nat) (l : List Nat) : State :=
  if cls == 3 then s.updDom (coreDom core) fun d => { d with chainQ := l }
  else s.updCore core fun c => { c with chainQ := c.chainQ.set cls l }
def State.setEngCtxs (s : State) (core cls : Nat) (l : List Nat) : State :=
  if cls == 3 then s.updDom (coreDom core) fun d => { d with chainCtx := l }
  else s.updCore core fun c => { c with chainCtx := c.chainCtx.set cls l }
/-- Places of a queue, and contexts of an engine. -/
def engDepth (cls : Nat) : Nat := if cls == 3 then 512 else 32
def engContexts (cls : Nat) : Nat := if cls == 3 then 32 else 4

/-- A 25-bit scratchpad address checked as a chain's head (R237, R252): the effect receives its place. The share is judged before the
alignment (DEDUCED, log entry 37). -/
def State.headAt (s : State) (x : W64) (eff : State → Nat → Nat → State) : State :=
  match (if wideSa x then none else s.scratchPaAt x.toNat 32) with
  | none => s.trapCtl cAddrFault 0 0 x
  | some pa => if x.toNat % 32 != 0 then s.trapCtl cAlign 0 0 x else eff s x.toNat pa
def execEngchain (a : BitVec 6) (c : EngClass) (s : State) : Out :=
  .next (s.ctlGo [a.toNat] fun s => s.headAt (s.cg.rs a.toNat) fun s h _ =>
    let cls := clsNum c
    let core := s.cg.core
    let counted : Option Nat := match s.cg.wait with
      | some w => if w.kind == .append then some w.obj else none
      | none => none
    if counted.isNone && 255 ≤ s.cg.rcnt cls then s.ctlWait { kind := .engine }
    else
      let (s, id) := match counted with
        | some id => (s, id)
        | none => s.cntIssue s.cur.g cls
      if engDepth cls ≤ (s.engQueue core cls).length then (if counted.isSome then s else s.standIn { kind := .append, obj := id })
      else
      let x : Chain := { g := s.cur.g, cls := cls, core := core, block := s.cg.block, grid := s.cg.grid, epc := s.cg.cpc, entry := h }
      let s := { s with chains := s.chains.set id x }
      (s.setEngQueue core cls (s.engQueue core cls ++ [id])).advance)
/-- A free context takes the oldest queued chain. -/
def execChainStart (core : Nat) (c : EngClass) (s : State) : Out :=
  let cls := clsNum c
  .next (match s.engQueue core cls with
    | [] => s
    | k :: t =>
      if engContexts cls ≤ (s.engCtxs core cls).length then s
      else
        let used := (s.engCtxs core cls).filterMap fun j => (s.chains.get? j).map fun c => c.ctx
        let ctx := ((List.range (engContexts cls)).find? fun n => !used.contains n).getD 0
        ((s.setEngQueue core cls t).setEngCtxs core cls (s.engCtxs core cls ++ [k])).updChain k fun x =>
          { x with phase := if x.phase == 2 then 2 else 1, idle := 0, ctx := ctx })
/-- A chain whose entry has not fired for 4,096 cc, also one held at a fault, gives up its context while others are queued. -/
def execChainGiveUp (k : Nat) (s : State) : Out :=
  .next (match s.chains.get? k with
    | none => s
    | some c =>
      let q := s.engQueue c.core c.cls
      if (c.phase == 1 || c.phase == 2) && c.busy.isNone && c.adv.isEmpty && c.slow.isNone && 4096 ≤ c.idle && !q.isEmpty && !q.contains k then
        let drop (l : List ArrWaiter) : List ArrWaiter := l.filter fun x => x != .chain k
        (((s.freeCtx k c).setEngQueue c.core c.cls (q ++ [k])).updCore c.core fun x => { x with arrWait := drop x.arrWait }).updChain k
          fun x => { x with phase := if x.phase == 2 then 2 else 0, idle := 0 }
      else s)

/-! ## Delivering faults (R257) -/

/-- The oldest chain of a group with a fault to deliver. -/
def State.faultyChain (s : State) (g : Nat) : Option (Nat × Chain) := (s.chains.find? fun c => c.2.g == g && c.2.fault.isSome)
/-- The waits that an engine fault abandons: those that R257 lists, a parked YIELD, and those of an instruction that stands
before its issue. -/
def WaitKind.engineAbandons (k : WaitKind) : Bool := k.passive || k == .append || k == .waitcmp || k == .bwait || k == .yield
/-- A fault of a chain waits for its group, which stands at a control boundary outside its own handler. -/
def State.faultWaits (s : State) (g : Nat) : Bool :=
  let x := s.grp g
  x.live && !x.exited && x.resident && !x.ctlSup && x.cpend.isNone && x.parked.isNone &&
  (x.wait.all fun w => w.kind.engineAbandons) && (s.faultyChain g).isSome
/-- The fault that waits can be taken: the group is not stopped, and the lane stream runs no handler, which an uncorrectable error does
not wait for (R262, R275). Until then the fault stays with its chain, so that the oldest chain's goes first. -/
def State.faultDue (s : State) (g : Nat) : Bool :=
  s.faultWaits g && !s.stopsHere g &&
  (!(s.grp g).laneSup || (s.faultyChain g).any fun x => x.2.fault.any fun f => f.1 == cUncorrectable)
/-- At a control boundary the fault of the oldest chain becomes a control trap; a waiting instruction is abandoned and executes
again. -/
def execEngineFaultDelivery (g : Nat) (s : State) : Out :=
  let x := s.grp g
  .next (if !s.faultDue g then s
    else match s.faultyChain g with
      | none => s
      | some (k, c) => match c.fault with
        | none => s
        | some (cause, reason, kind, va) =>
          let s := s.abandonWait g
          let t : PendTrap := { code := cause, detail := c.seq, faddr := va, fmask := BitVec.ofNat 32 (256 * kind + reason),
                                pc := c.epc, resume := x.cpc, pa := c.badPa }
          let s := if c.phase == 3 then { s with chains := s.chains.erase k } else s.updChain k fun c => { c with fault := none }
          (s.updGrp g fun x => { x with cpend := some t }).takeCtl g)

/-! ## Circular buffers of programs (R252, R253) -/

def execCbinit (d a : BitVec 6) (s : State) : Out :=
  let n := a.toNat
  .next (if 61 < n then s.trapCtl cIllegalOperand 0 (1536 + n)
    else s.ctlGo [d.toNat, n, n + 1, n + 2] fun s => s.headAt (s.cg.rs d.toNat) fun s _ pa =>
      let base := s.cg.rs n
      let size := (s.cg.rs (n + 1)).toNat
      let esize := (s.cg.rs (n + 2)).toNat
      if wideSa base || base.toNat % 16 != 0 then s.trapCtl cIllegalOperand 0 (1536 + n)
      else if size == 0 || 2 ^ 20 < size then s.trapCtl cIllegalOperand 0 (1537 + n)
      else if esize < 16 || 4096 < esize || esize % 16 != 0 then s.trapCtl cIllegalOperand 0 (1538 + n)
      else if (s.scratchPaAt base.toNat (size * esize)).isNone then s.trapCtl cIllegalOperand 0 (1536 + n)
      else (s.poke pa 32 (cbTag + 2 ^ 32 * base.toNat + 2 ^ 64 * esize + 2 ^ 96 * size)).advance)
/-- CBADV on either side: its pointer moves by n where there is room, or that much filled. -/
def State.cbAdvance (s : State) (d a : BitVec 6) (prod : Bool) : State :=
  s.ctlGo [d.toNat, a.toNat] fun s => s.headAt (s.cg.rs d.toNat) fun s sa pa =>
    let n := (s.cg.rs a.toNat).toNat % 2 ^ 32
    let x := s.readDesc pa
    if s.badIn pa 32 then s.trapCtl cUncorrectable 0 0 (BitVec.ofNat 64 sa) pa
    else if x.tag != cbTag then s.trapCtl cBarrierUninit sa
    else if (if prod then x.room else x.filled) < n then s.trapCtl cBarrierOverrun sa
    else (if prod then s.poke (pa + 16) 4 ((x.pptr + n) % 2 ^ 32) else s.poke (pa + 20) 4 ((x.cptr + n) % 2 ^ 32)).advance
def execCbadvProd (d a : BitVec 6) (s : State) : Out := .next (s.cbAdvance d a true)
def execCbadvCons (d a : BitVec 6) (s : State) : Out := .next (s.cbAdvance d a false)

end Sys2Proof.Machine
end

