-- ==== Sys2Proof/Machine/Episode.lean ====
section
/-!
DEFINITION. Episodes, their windows and the mailbox instructions (16_corrie.md R376 to R384;
08_atomics_and_synchronisation.md R206 to R209).
-/

namespace Sys2Proof.Machine

/-! ## Episode ids and windows (R206, R376, R377) -/

/-- Fields of an episode id. -/
def epDom (e : Nat) : Nat := bitsOf e 13 8
def epCore (e : Nat) : Nat := bitsOf e 7 3
def epSlot (e : Nat) : Nat := bitsOf e 2 0
/-- The hart of an episode, and the episode of a hart's slot. -/
def epHart (e : Nat) : Nat := 28 * epDom e + epCore e
def epOf (h slot : Nat) : Nat := slot % 8 + 8 * (h % 28) + 256 * (h / 28)
/-- A well-formed id names a slot. -/
def epOk (e : Nat) : Bool := e < 2 ^ 14 && epCore e < 28
/-- The domain of a hart. -/
def hartDom (h : Nat) : Nat := h / 28
/-- The window of a bound slot. -/
def State.window (s : State) (e : Nat) : Option Window :=
  if epOk e then (s.dom (epDom e)).windows.get? (8 * epCore e + epSlot e) else none

/-- Bytes of a payload slot. -/
def Window.p (w : Window) : Nat := 64 * w.psize
/-- A doubleword of the window, and writing one. -/
def State.epRead (s : State) (w : Window) (off : Nat) : Nat := s.peek (w.base + off) 8
def State.epWrite (s : State) (w : Window) (off v : Nat) : State := s.homeWrite (w.base + off) 8 (v % 2 ^ 64)
/-- Ring words: the action ring at 0, the observation ring at 0x40. -/
def State.tail (s : State) (w : Window) (obs : Bool) : Nat := s.epRead w (if obs then 0x40 else 0)
def State.head (s : State) (w : Window) (obs : Bool) : Nat := s.epRead w (if obs then 0x48 else 8)
/-- Entries in a ring. -/
def State.held (s : State) (w : Window) (obs : Bool) : Nat := (s.tail w obs + 2 ^ 64 - s.head w obs) % 2 ^ 64
/-- Offsets of header i and of payload slot i. -/
def headerOff (obs : Bool) (i : Nat) : Nat := (if obs then 0x800 else 0x400) + 64 * (i % 16)
def payloadOff (w : Window) (obs : Bool) (i : Nat) : Nat := 0x2000 + w.p * ((if obs then 16 else 0) + i % 16)

/-- The episode record (R378). -/
structure EpRec where
  status : Nat
  mode : Bool
  mixed : Bool
  lag : Nat
  v0 : Nat
  next : Nat
  deriving DecidableEq, Repr
def State.epRec (s : State) (w : Window) : EpRec :=
  let a := s.epRead w 0x80
  { status := bitsOf a 7 0, mode := bitOf a 8, mixed := bitOf a 9, lag := bitsOf a 23 16, v0 := bitsOf a 63 32, next := s.epRead w 0x88 }
def State.setRec (s : State) (w : Window) (r : EpRec) : State :=
  (s.epWrite w 0x80 (r.status + (if r.mode then 2 ^ 8 else 0) + (if r.mixed then 2 ^ 9 else 0) + r.lag * 2 ^ 16 + r.v0 * 2 ^ 32)).epWrite
    w 0x88 r.next
/-- The episode is open: READY or RUNNING. -/
def EpRec.isOpen (r : EpRec) : Bool := r.status == 1 || r.status == 2

/-- Posting a header after its payload (R379): doublewords 1 to 7, STEP, then TAIL + 1. -/
def State.postHeader (s : State) (e : Nat) (w : Window) (obs : Bool) (step version status flags reward len : Nat) : State :=
  let t := s.tail w obs
  let o := headerOff obs t
  let ds := [e + version * 2 ^ 32, status + flags * 2 ^ 8 + reward * 2 ^ 32, len, (s.stamp (epDom e)).toNat, 0, 0, 0]
  let s := foldState (fun s (x : Nat × Nat) => s.epWrite w (o + 8 * (x.2 + 1)) x.1) ds.zipIdx s
  (s.epWrite w o step).epWrite w (if obs then 0x40 else 0) (t + 1)
/-- The version of the last accepted action: the header before the action TAIL; 0 before the first. -/
def State.lastVersion (s : State) (w : Window) : Nat :=
  let t := s.tail w false
  if t == 0 then 0 else bitsOf (s.epRead w (headerOff false (t + 15) + 8)) 63 32
/-- Changing the step of an episode's slot. -/
def State.updStep (s : State) (e : Nat) (f : StepRec → StepRec) : State :=
  s.updHart (epHart e) fun h => { h with steps := h.steps.upd (epSlot e) {} f }
/-- The step of an episode's slot. -/
def State.stepOf (s : State) (e : Nat) : StepRec := (s.hart (epHart e)).steps.getD (epSlot e) {}
/-- Closing an open episode (R383): the status, a final header where there is room, the end of the step,
and the clearing of the `mwdog` bit (R387). -/
def State.closeEpisode (s : State) (e code : Nat) : State :=
  match s.window e with
  | none => s
  | some w =>
    let r := s.epRec w
    if !r.isOpen then s
    else
      let s := s.setRec w { r with status := code }
      let s := if s.held w true < 16
        then s.postHeader e w true r.next (s.lastVersion w) code (1 + (if r.mixed then 2 else 0)) 0 0 else s
      s.updStep e fun x => { x with active := false, expired := none }

/-! ## The mailbox arbiter (R384) -/

/-- The link of a domain in a direction of R423 is up. -/
def State.linkUsable (s : State) (d dir : Nat) : Bool := !s.topo.linksDown.contains (4 * d + dir)
/-- The domains that a packet passes from row r and column c along a row, and along a column (R466). -/
def alongRow (r c c' : Nat) : List Nat :=
  if c ≤ c' then (fromTo c (c' + 1 - c)).map (8 * r + ·) else (fromTo c' (c + 1 - c')).reverse.map (8 * r + ·)
def alongCol (c r r' : Nat) : List Nat :=
  if r ≤ r' then (fromTo r (r' + 1 - r)).map (8 * · + c) else (fromTo r' (r + 1 - r')).reverse.map (8 * · + c)
/-- The direction of R423 from a domain to a neighbour. -/
def dirTo (d e : Nat) : Nat := if e + 8 == d then 0 else if e == d + 1 then 1 else if e == d + 8 then 2 else 3
/-- Every link of a path is up. -/
def State.pathUp (s : State) : List Nat → Bool
  | d :: e :: t => s.linkUsable d (dirTo d e) && State.pathUp s (e :: t)
  | _ => true
/-- The domains one usable link away: first those that change the column. -/
def State.linked (s : State) (d : Nat) : List Nat :=
  let hop (dir e : Nat) (inside : Bool) : List Nat := if inside && s.linkUsable d dir then [e] else []
  hop 1 (d + 1) (d % 8 < 7) ++ hop 3 (d - 1) (0 < d % 8) ++ hop 0 (d - 8) (8 ≤ d) ++ hop 2 (d + 8) (d < 56)
/-- The domains from which a domain is at most n usable links away. -/
def State.within (s : State) (e : Nat) : Nat → List Nat
  | 0 => [e]
  | n + 1 =>
    let l := s.within e n
    (List.range 64).filter fun d => l.contains d || (s.linked d).any l.contains
/-- A shortest path of n links, which changes its column as early as it can. -/
def State.descend (s : State) (e : Nat) : Nat → Nat → List Nat
  | 0, d => [d]
  | n + 1, d => d :: match (s.linked d).find? (s.within e n).contains with
    | some x => s.descend e n x
    | none => []
/-- The path between two domains: column first, or row first, or else the shortest over links that are up (R466). Where none is up
there is no path, and the port below is that of the first. -/
def State.route (s : State) (d e : Nat) : List Nat :=
  let a := alongRow (d / 8) (d % 8) (e % 8) ++ (alongCol (e % 8) (d / 8) (e / 8)).drop 1
  let b := alongCol (d % 8) (d / 8) (e / 8) ++ (alongRow (e / 8) (d % 8) (e % 8)).drop 1
  if s.pathUp a then a
  else if s.pathUp b then b
  else match (List.range 64).find? fun n => (s.within e n).contains d with
    | some n => s.descend e n d
    | none => a
/-- The fabric input port of a domain for a request of another domain's core (R316): 0 for its own cores, else that of the edge
over which the last hop enters. -/
def State.inPort (s : State) (d e : Nat) : Nat :=
  match (s.route d e).reverse with
  | _ :: x :: _ => 1 + dirTo e x
  | _ => 0
/-- The place of a request among those of its cycle (R384). -/
def ArbOp.order (o : ArbOp) : Nat :=
  match o with
  | .command _ _ _ => 1
  | .take h _ | .post h _ _ => 2 + h % 28
  | .mbx _ port => 32 + port
/-- The order in which the arbiter takes requests: by their cycle, and in a cycle by their class. -/
def ArbReq.key (r : ArbReq) : Nat := 64 * r.due + r.op.order
/-- A request still stands: one of a mailbox instruction while its group waits for it. -/
def State.arbStands (s : State) (d : Nat) (r : ArbReq) : Bool :=
  match r.op with
  | .mbx g _ =>
    let x := s.grp g
    x.resident && x.parked.isNone && !s.stopsHere g && x.wait.any fun w => w.kind == .mailbox && w.obj == d
  | _ => true
/-- The slots whose hardware close has reached the arbiter (R387), with the place of each. -/
def State.dueCloses (s : State) (d : Nat) : List (Nat × Nat) :=
  (s.harts.filter fun x => hartDom x.1 == d).flatMap fun x => x.2.steps.filterMap fun k =>
    match k.2.expired with
    | some n => if 2 ^ 16 ≤ n then some (epOf x.1 k.1, 64 * (s.now + 2 ^ 16 - n)) else none
    | none => none
/-- The requests that have arrived and stand. -/
def State.arbArrived (s : State) (d : Nat) : List ArbReq := (s.dom d).arb.filter fun r => r.due ≤ s.now && s.arbStands d r
/-- The arbiter has performed no request in this cycle. -/
def State.arbFree (s : State) (d : Nat) : Bool := (s.dom d).arbAt != some s.now
/-- A request of a place can be performed now: the arbiter is free, and no other one comes before it. -/
def State.arbOpen (s : State) (d key : Nat) : Bool :=
  s.arbFree d && (s.arbArrived d).all (fun r => key ≤ r.key) && (s.dueCloses d).all fun c => key ≤ c.2
/-- The arbiter has taken a request. -/
def State.arbTake (s : State) (d : Nat) : State := s.updDom d fun m => { m with arbAt := some s.now }
/-- A request of the chosen group's mailbox instruction: it has one place from its first arrival on, and stands there until the
arbiter takes it. -/
def State.arbGo (s : State) (d : Nat) (eff : State → State) : State :=
  let g := s.cur.g
  let mine (r : ArbReq) : Bool := match r.op with
    | .mbx k _ => k == g
    | _ => false
  let waits := s.cg.wait.any fun w => w.kind == .mailbox && w.obj == d
  let r := (if waits then (s.dom d).arb.find? mine else none).getD { due := s.now, op := .mbx g (s.inPort (coreDom s.cg.core) d) }
  let rest := (s.dom d).arb.filter fun r => !mine r
  if s.arbOpen d r.key then eff ((s.updDom d fun m => { m with arb := rest }).arbTake d)
  else (s.updDom d fun m => { m with arb := rest ++ [r] }).ctlWait { kind := .mailbox, obj := d }

/-! ## The mailbox instructions -/

/-- The episode that an address register names, in its turn at the arbiter: malformed, unbound, or bound to another context traps
MBX_FAULT. An uncorrectable error in its ring words or its record is consumed (R11). -/
def State.mbxGo (s : State) (x : W64) (eff : State → Nat → Window → State) : State :=
  let bad := s.trapCtl cMbxFault (x.toNat % 2 ^ 32)
  if 2 ^ 14 ≤ x.toNat then bad
  else match s.window x.toNat with
    | none => bad
    | some w => if w.asid == s.casid && w.gen == s.cctx.gen then s.arbGo (epDom x.toNat) fun s =>
        if s.badIn w.base 0x90 then s.trapCtl cUncorrectable 0 0 (canon53 (w.page * 2 ^ 13)) w.base else eff s x.toNat w
      else bad
/-- The policy-side buffer of n bytes, page by page; its faults trap as those of SLD. -/
def State.mbxBuf (s : State) (va : W64) (n : Nat) (acc : Access) (eff : State → List Seg → State) : State :=
  match s.engPages s.cg.core s.casid s.cg.grid s.cg.ctlRegen acc (n / 2 ^ 13 + 2) va n with
  | (s, .inl l) =>
    match (if acc == .load then l.find? fun x => s.badRead s.cg.core x.pa x.n x.coh else none) with
    | some x => s.trapCtl cUncorrectable 0 0 x.va x.pa
    | none => eff (s.updCg fun g => { g with ctlHeld := none, ctlRegen := none }) l
  | (s, .inr (.cause c a _)) => (s.updCg fun g => { g with ctlHeld := none, ctlRegen := none }).trapCtl c 0 0 a
  | (s, .inr (.held a)) => s.updCg fun g => { g with ctlHeld := some a }
  | (s, .inr _) => s
/-- The version check of R380: the record after the action, or none where it is rejected. -/
def EpRec.accept (r : EpRec) (v : Nat) : Option EpRec :=
  if r.status == 1 then some { r with v0 := v, status := 2, next := r.next + 1 }
  else if !r.mode then (if v == r.v0 then some { r with next := r.next + 1 } else none)
  else if r.v0 ≤ v && v ≤ r.v0 + r.lag then some { r with mixed := r.mixed || v != r.v0, next := r.next + 1 }
  else none
/-- MBXSEND at the arbiter (R207, R380), the answer in S[d]. -/
def State.mbxSend (s : State) (d : Nat) (e : Nat) (w : Window) (va : W64) (x : Nat) : State :=
  let r := s.epRec w
  let len := bitsOf x 23 0
  let v := bitsOf x 63 32
  let pc := s.cg.cpc
  let answer (s : State) (c n : Nat) : State := s.ctlDone d (BitVec.ofNat 64 (c + n * 2 ^ 8))
  if r.status == 0 then answer s 5 0
  else if !r.isOpen then answer s 3 0
  else if 16 ≤ s.held w false then answer s 1 0
  else if w.p < len then answer s 4 0
  else match r.accept v with
    | none => answer (s.closeEpisode e 5) 3 0
    | some r' =>
      s.mbxBuf va len .load fun s l =>
        let (s, bytes) := s.engGet s.cg.core (.mem l)
        let o := payloadOff w false (s.tail w false)
        let s := foldState (fun s (c : Byte × Nat) => s.homeWrite (w.base + o + c.2) 1 c.1.toNat) bytes.zipIdx s
        let s := s.postHeader e w false r.next v 0 0 0 len
        (answer (s.setRec w r') 0 len).ctlWatched pc va len true false
def execMbxsend (d a b : BitVec 6) (s : State) : Out :=
  let n := b.toNat
  .next (if n % 2 == 1 then s.trapCtl cIllegalInstr
    else s.ctlGo [d.toNat, a.toNat, n, n + 1] fun s => s.mbxGo (s.cg.rs a.toNat) fun s e w =>
      s.mbxSend d.toNat e w (s.cg.rs n) (s.cg.rs (n + 1)).toNat)

/-- MBXRECV at the arbiter (R208). -/
def State.mbxRecv (s : State) (d : Nat) (w : Window) (va : W64) (cap : Nat) : State :=
  let r := s.epRec w
  let pc := s.cg.cpc
  let answer (s : State) (c n : Nat) : State := s.ctlDone d (BitVec.ofNat 64 (c + n * 2 ^ 8))
  if r.status == 0 then answer s 5 0
  else if s.held w true == 0 then answer s (if r.isOpen then 2 else 3) 0
  else
    let h := s.head w true
    let o := w.base + headerOff true h
    let p := w.base + payloadOff w true h
    let len := bitsOf (s.peek (o + 24) 8) 23 0
    let s := s.acquire s.cg.core .wfr
    if cap < 64 + len then answer s 4 0
    else if s.badIn o 64 || s.badIn p len then s.trapCtl cUncorrectable 0 0 va o
    else s.mbxBuf va (64 + len) .store fun s l =>
      let s := s.engPut s.cg.core (.mem l) (s.mem.bytes o 64 ++ s.mem.bytes p len)
      (answer (s.epWrite w 0x48 (h + 1)) 0 len).ctlWatched pc va (64 + len) false true
def execMbxrecv (d a b : BitVec 6) (s : State) : Out :=
  let n := b.toNat
  .next (if n % 2 == 1 then s.trapCtl cIllegalInstr
    else s.ctlGo [d.toNat, a.toNat, n, n + 1] fun s => s.mbxGo (s.cg.rs a.toNat) fun s _ w =>
      s.mbxRecv d.toNat w (s.cg.rs n) ((s.cg.rs (n + 1)).toNat % 2 ^ 24))
/-- MBXSTAT (R209). -/
def execMbxstat (d a : BitVec 6) (s : State) : Out :=
  .next (s.ctlGo [d.toNat, a.toNat] fun s => s.mbxGo (s.cg.rs a.toNat) fun s _ w =>
    let r := s.epRec w
    s.ctlDone d.toNat (BitVec.ofNat 64 (s.held w false % 32 + s.held w true % 32 * 2 ^ 8 + r.status * 2 ^ 16 + r.v0 * 2 ^ 32)))

end Sys2Proof.Machine
end

