-- ==== Sys2Proof/Machine/Corrie.lean ====
section
/-!
DEFINITION. The Corrie's side (16_corrie.md R375, R381, R384 to R391): the vertical FIFOs of both sides
(08_atomics_and_synchronisation.md R210, R211), the step ports, the monitor's commands, the arbiter's requests, the watchdogs
and power gating.
-/

namespace Sys2Proof.Machine

/-! ## Places of a hart -/

/-- The core below a hart in a column. -/
def hartCore (h col : Nat) : Nat := quadCore h (col % 4)
/-- The hart runs. -/
def State.hartOn (s : State) (h : Nat) : Bool := (s.hart h).started && !(s.hart h).gated && s.corriePresent h
/-- Changing the record of a hart's slot. -/
def Hart.updSlot (x : Hart) (slot : Nat) (f : StepRec → StepRec) : Hart := { x with steps := x.steps.upd (slot % 8) {} f }
/-- The record of a slot. -/
def Hart.slotRec (x : Hart) (slot : Nat) : StepRec := x.steps.getD (slot % 8) {}
/-- `mwdog` (R385). -/
def Hart.mwdog (x : Hart) : Nat := (List.range 8).foldl (fun n k => if (x.slotRec k).expired.isSome then n + 2 ^ k else n) 0

/-! ## Vertical FIFOs (R210, R211, R388, R389, R391) -/

/-- Entries of a FIFO. -/
def fifoDepth : Nat := 16
/-- The Corrie core above a core is there, and has power. -/
def State.farSide (s : State) (core : Nat) : Bool := s.corriePresent (coreQuad core)
def State.gatedAbove (s : State) (core : Nat) : Bool := (s.hart (coreQuad core)).gated
/-- Free slots of the down→up FIFO, and entries waiting in the up→down FIFO, as VSTAT reports them. -/
def State.downFree (s : State) (core : Nat) : Nat := if s.gatedAbove core then 0 else fifoDepth - (s.core core).down.length
def State.upWaiting (s : State) (core : Nat) : Nat := if s.gatedAbove core then 0 else (s.core core).up.length
/-- A split that waits for a FIFO, the array or a global access may issue again. -/
def State.splitReady (s : State) (g : Group) (x : Split) : Bool :=
  let core := g.core
  match x.wait with
  | .ready => true
  | .ack l whole => !g.ops.any fun o => l.contains o.id && !g.doneFor whole x.id o
  | .others => !g.parted
  | .fifoPush => s.downFree core != 0
  | .fifoPop => s.upWaiting core != 0
  | .arrayRoom => ((s.core core).slots.get? g.slot).any fun n => s.arrayTurn core (.lane n x.id)
  | .join | .stop | .data | .family => false
/-- The block of the chosen group uses the FIFOs of its core (R277). -/
def State.usesFifo (s : State) : State :=
  let c := s.cg.core
  s.updBlk s.cg.block fun b => { b with fifoCores := if b.fifoCores.contains c then b.fifoCores else b.fifoCores ++ [c] }
/-- The entry of a VPUSH: words of 16 lanes, or halfwords of 32; a lane that does not execute gives 0. -/
def State.pushEntry (s : State) (e : LaneEnc) (half : Bool) : List Byte :=
  let m := s.execMask e
  let k := if half then 2 else 4
  (List.range (64 / k)).flatMap fun l => bytesOfNat k (if m.getLsbD l then (s.opB e .f32 l).toNat else 0)
def execVpush (e : LaneEnc) (half : Bool) (s : State) : Out :=
  .next (s.laneGo e [Fld.noHi e.ha, Fld.b e, Fld.noHi e.hc] fun s =>
    let c := s.cg.core
    if s.execMask e == 0#32 then s.issue e e.bytes {}
    else if !s.farSide c then s.trapLane cAddrFault (s.execMask e)
    else if s.downFree c == 0 then s.splitWaits .fifoPush
    else
      let x := s.pushEntry e half
      ((s.updCore c fun k => { k with down := k.down ++ [x] }).usesFifo).issue e e.bytes {})
def execVpop (e : LaneEnc) (half : Bool) (s : State) : Out :=
  .next (s.laneGo e [Fld.dst e.dst, noHis e] fun s =>
    let c := s.cg.core
    if s.execMask e == 0#32 then s.issue e e.bytes { vw := [e.dst.toNat] }
    else if !s.farSide c then s.trapLane cAddrFault (s.execMask e)
    else match (if s.gatedAbove c then [] else (s.core c).up) with
      | [] => s.splitWaits .fifoPop
      | x :: t =>
        let k := if half then 2 else 4
        let ls := (s.execLanes e).filter fun l => l < 64 / k
        let s := (s.updCore c fun y => { y with up := t }).usesFifo
        (s.updCg fun g => g.writeLanes e.dst.toNat (fun l => BitVec.ofNat 32 (natOfBytes ((x.drop (k * l)).take k))) ls).issue e e.bytes
          { vw := [e.dst.toNat] })
def execVstat (d : BitVec 6) (up : Bool) (s : State) : Out :=
  .next (s.ctlGo [d.toNat] fun s =>
    let c := s.cg.core
    let n := if !s.farSide c then 0 else if up then s.upWaiting c else s.downFree c
    s.ctlDone d.toNat (BitVec.ofNat 64 n))

/-- Setting a sticky bit of FSTAT. -/
def Hart.stick (x : Hart) (col : Nat) (b : BitVec 2) : Hart := { x with fstat := x.fstat.upd (col % 4) 0#2 fun y => y ||| b }
/-- A write of a FIFO port of a running hart. -/
def State.popPort (s : State) (h col : Nat) : State :=
  let c := hartCore h col
  if !s.hartOn h then s
  else match (s.core c).down with
    | [] => s.updHart h fun x => x.stick col 1#2
    | _ :: t => s.updCore c fun k => { k with down := t }
def State.pushPort (s : State) (h col : Nat) : State :=
  let c := hartCore h col
  if !s.hartOn h then s
  else if fifoDepth ≤ (s.core c).up.length then s.updHart h fun x => x.stick col 2#2
  else s.updCore c fun k => { k with up := k.up ++ [(s.hart h).pushbuf.getD (col % 4) (List.replicate 64 0#8)] }
def State.fstatPort (s : State) (h col : Nat) (v : W64) : State :=
  if s.hartOn h then s.updHart h fun x => { x with fstat := x.fstat.upd (col % 4) 0#2 fun y => y &&& ~~~ v.extractLsb' 0 2 } else s
def execPop (h col : Nat) (s : State) : Out := .next (s.popPort h col)
def execPush (h col : Nat) (s : State) : Out := .next (s.pushPort h col)
def execFstatClear (h col : Nat) (v : W64) (s : State) : Out := .next (s.fstatPort h col v)

/-! ## Step ports (R381) -/

/-- PSTAT of a slot. -/
def State.setPstat (s : State) (e n : Nat) : State := s.updStep e fun x => { x with pstat := n }
/-- TAKE: the action at HEAD is consumed and its step starts. -/
def State.takePort (s : State) (h slot : Nat) : State :=
  let e := epOf h slot
  if !s.hartOn h then s
  else match s.window e with
    | none => s.setPstat e 1
    | some w =>
      let r := s.epRec w
      if 3 ≤ r.status then s.setPstat e 3
      else if s.held w false == 0 || (s.stepOf e).active then s.setPstat e 1
      else
        let o := headerOff false (s.head w false)
        let step := BitVec.ofNat 64 (s.epRead w o)
        let version := BitVec.ofNat 32 (bitsOf (s.epRead w (o + 8)) 63 32)
        (s.epWrite w 8 (s.head w false + 1)).updStep e fun x =>
          { x with active := true, step := step, version := version, cyc := 0, ins := 0, stopped := false, late := false, pstat := 0 }
/-- POST: an observation for the current action, which ends the step; FINAL closes the episode. -/
def State.postPort (s : State) (h slot : Nat) (v : W64) : State :=
  let e := epOf h slot
  let x := v.toNat
  if !s.hartOn h then s
  else match s.window e with
    | none => s.setPstat e 3
    | some w =>
      let r := s.epRec w
      let k := s.stepOf e
      if 3 ≤ r.status then s.setPstat e 3
      else if 16 ≤ s.held w true then s.setPstat e 2
      else if !k.active then s.setPstat e 3
      else if w.p < bitsOf x 23 0 then s.setPstat e 4
      else
        let fin := bitOf x 24
        let s := s.postHeader e w true k.step.toNat k.version.toNat (if fin then 3 else 0)
          ((if fin then 1 else 0) + (if r.mixed then 2 else 0)) (bitsOf x 63 32) (bitsOf x 23 0)
        let s := s.updStep e fun y => { y with active := false, pstat := 0, expired := if fin then none else y.expired }
        if fin then s.setRec w { r with status := 3 } else s

/-! ## Monitor commands (R385) -/

/-- A command written to `mepcmd` for a slot. -/
def State.mepcmd (s : State) (h sel : Nat) (v : W64) : State :=
  let e := epOf h sel
  let x := v.toNat
  match s.window e with
  | none => s
  | some w =>
    let r := s.epRec w
    if bitsOf x 3 0 == 1 then
      if r.isOpen then s
      else
        let s := foldState (fun s o => s.epWrite w o 0) [0, 8, 0x40, 0x48] s
        let s := foldState (fun s o => s.epWrite w o (2 ^ 64 - 1))
          (((List.range 16).map fun i => headerOff false i) ++ (List.range 16).map fun i => headerOff true i) s
        s.setRec w { status := 1, mode := bitOf x 8, mixed := false, lag := bitsOf x 23 16, v0 := 0, next := 0 }
    else if bitsOf x 3 0 == 2 then
      let c := bitsOf x 7 4
      s.closeEpisode e (if 4 ≤ c && c ≤ 6 then c else 6)
    else s

/-! ## Step watchdogs (R386, R387) -/

/-- A count of the step has reached its budget. -/
def StepRec.due (x : StepRec) : Bool :=
  x.active && !x.stopped && ((x.insBud != 0 && x.insBud ≤ x.ins) || (x.cycBud != 0 && x.cycBud ≤ x.cyc))
/-- n cycles of a step: its counts, and the time since its expiry. A count that reached its budget before their last one is late; the
cycle count does not pass its budget. -/
def StepRec.tick (n : Nat) (k : StepRec) : StepRec :=
  let k := { k with expired := k.expired.map (· + n) }
  if !k.active || k.stopped then k
  else if k.due then { k with late := k.late || n != 0 }
  else
    let c := k.cyc + n
    let passed := k.cycBud != 0 && k.cycBud < c
    { k with cyc := if passed then k.cycBud else c, late := passed }
/-- The step of a slot expires once the cycle in which a count reached its budget has gone by (R386): a POST or close of that
cycle comes first. -/
def State.expire (s : State) (h slot : Nat) : State :=
  let k := (s.hart h).slotRec slot
  if k.due && k.late
  then s.updHart h fun x => x.updSlot slot fun k => { k with stopped := true, expired := some (k.expired.getD 0) } else s
def execStepWatchdogExpiry (h slot : Nat) (s : State) : Out := .next (s.expire h slot)

/-! ## Requests at the arbiter (R384) -/

/-- The arbiter performs a request: a mailbox instruction performs its own. -/
def State.arbPerform (s : State) (op : ArbOp) : State :=
  match op with
  | .command h sel v => (s.expire h sel).mepcmd h sel v
  | .take h slot => (s.expire h slot).takePort h slot
  | .post h slot v => (s.expire h slot).postPort h slot v
  | .mbx _ _ => s
/-- A hart's request sets out, and arrives after some cycles. -/
def State.arbSend (s : State) (h after : Nat) (op : ArbOp) : State :=
  s.updDom (hartDom h) fun m => { m with arb := m.arb ++ [{ due := s.now + after, op := op }] }
/-- A request of a hart is performed and leaves. -/
def State.arbServe (s : State) (d : Nat) (r : ArbReq) : State :=
  match r.op with
  | .mbx _ _ => s
  | op => ((s.updDom d fun m => { m with arb := m.arb.erase r }).arbPerform op).arbTake d
/-- The hardware closes an episode whose step expired 2^16 cc ago (R387). -/
def State.hardClose (s : State) (e : Nat) : State := (s.closeEpisode e 4).updStep e fun x => { x with expired := none }
/-- The arbiter performs the request that comes first, one in a cycle: a hardware close, or a request of a hart. One of a mailbox
instruction holds its place until its group issues. -/
def State.arbStep (s : State) (d : Nat) : State :=
  if !s.arbFree d then s
  else
    let first := minBy ArbReq.key (s.arbArrived d)
    match minBy (·.2) (s.dueCloses d), first with
    | some c, some r =>
      if c.2 ≤ r.key then (s.hardClose c.1).arbTake d else s.arbServe d r
    | some c, none => (s.hardClose c.1).arbTake d
    | none, some r => s.arbServe d r
    | none, none => s
/-- A request that reaches the arbiter now, where its hart runs. -/
def State.arbNow (s : State) (h : Nat) (op : ArbOp) : State :=
  if s.hartOn h then (s.arbSend h 0 op).arbStep (hartDom h) else s
def execTake (h slot : Nat) (_v : W64) (s : State) : Out := .next (s.arbNow h (.take h slot))
def execPost (h slot : Nat) (v : W64) (s : State) : Out := .next (s.arbNow h (.post h slot v))
/-- OPEN and CLOSE. -/
def execOpenEp (h : Nat) (v : W64) (s : State) : Out :=
  .next (if v.toNat % 16 == 1 then s.arbNow h (.command h (s.hart h).mepsel v) else s)
def execCloseEp (h : Nat) (v : W64) (s : State) : Out :=
  .next (if v.toNat % 16 == 2 then s.arbNow h (.command h (s.hart h).mepsel v) else s)
/-- The hardware stage of a watchdog, in its turn at the arbiter (R387). -/
def execWatchdogHardwareClose (h slot : Nat) (s : State) : Out :=
  .next (match ((s.hart h).slotRec slot).expired with
    | some n => if 2 ^ 16 ≤ n then s.arbStep (hartDom h) else s
    | none => s)

/-! ## Starting and power gating (R375, R390, R391) -/

/-- The Corrie-supervision core loads the monitor and starts the hart in M-mode at the base of its SRAM. -/
def execCorrieHartStart (h : Nat) (image : List Byte) (s : State) : Out :=
  let x : Hart := { started := true, pc := BitVec.ofNat 64 (2 ^ 42), sram := Memory.setBytes [] 0 (image.take (2 ^ 20)) }
  .next (if h < 1792 && s.corriePresent h then { s with harts := s.harts.set h x } else s)
/-- The core is parked, with every FIFO empty. -/
def State.gateReady (s : State) (h : Nat) : Bool :=
  let x := s.hart h
  x.park && x.wfi && x.steps.all (fun k => !k.2.active) &&
  (List.range 4).all fun c => (s.core (hartCore h c)).down.isEmpty && (s.core (hartCore h c)).up.isEmpty
/-- Gating: the registers, CSRs and SRAM are lost, and the record says how. -/
def State.gate (s : State) (h code waited : Nat) : State :=
  let x : Hart := { gated := true, gateRec := some (code, min waited (2 ^ 32 - 1)) }
  { s with harts := s.harts.set h x }
def execGateRequest (h : Nat) (s : State) : Out :=
  .next (if !s.hartOn h || (s.hart h).gateReq then s
    else if s.gateReady h then s.gate h 0 0
    else s.updHart h fun x => { x with gateReq := true, gateWait := 0 })
def execGateComplete (h : Nat) (s : State) : Out :=
  .next (if (s.hart h).gateReq && s.gateReady h then s.gate h 1 (s.hart h).gateWait else s)
def execGateCancel (h : Nat) (s : State) : Out :=
  .next (if (s.hart h).gateReq
    then s.updHart h fun x => { x with gateReq := false, gateRec := some (2, min x.gateWait (2 ^ 32 - 1)) } else s)

end Sys2Proof.Machine
end

