-- ==== Sys2Proof/Machine/Manager.lean ====
section
/-!
DEFINITION. The memory manager and the walker as agents (14_address_translation.md R333, R336, R340 to R343;
13_memory_hierarchy.md R319): walks, the end of a regeneration, the sweep that removes a page, its return,
a change of attribute, and speculative accesses.
-/

namespace Sys2Proof.Machine

/-! ## Frames -/

/-- Bytes of DRAM of a domain that firmware keeps: frames come from above them (R316, R411). -/
def frameBase : Nat := 2 ^ 34
/-- A free run of n bytes, aligned to its size: one given back, or in the lowest domain that has room (R411). -/
def State.takeFrame (s : State) (n : Nat) : Option (Nat × State) :=
  let start (d : Nat) : Nat := roundUp (s.ridge.nextFrame.getD d frameBase) n
  match s.ridge.freeFrames.find? fun f => f.2 == n with
  | some f => some (f.1, s.updRidge fun r => { r with freeFrames := r.freeFrames.filter fun x => x.1 != f.1 })
  | none =>
  match (List.range 64).find? fun d => start d + n ≤ dramSize with
  | none => none
  | some d => some (d * 2 ^ 36 + start d, s.updRidge fun r => { r with nextFrame := r.nextFrame.set d (start d + n) })

/-! ## Walks and speculation (R333, R343) -/

/-- A walk for a TLB miss: it fills the TLBs, or its fault or hold reaches the requester when that executes
again. -/
def execPageWalk (core asid : Nat) (va : W64) (acc : Access) (s : State) : Out :=
  let gen := (s.ctx asid).gen
  let hit := ((s.core core).tlbFind asid gen va).isSome ||
    (s.quadTlb.getD (coreQuad core) []).any fun t => t.hits asid gen va
  .next (if !canonical va || hit then s else (s.walkAccess core asid 0 va acc false).1)

/-- A hardware prefetch or a scout pass: it fills, or is dropped and counted. -/
def execSpeculativeAccess (core asid : Nat) (va : W64) (s : State) : Out :=
  .next (match s.specTranslate core asid va .load with
    | some (x, pa) => (s.specKeep core asid va x).prefetch core pa (pteCoh x.2.2.1) .none
    | none => s.dropCounted core asid)
/-- A wrong-path fetch after an LBRA: judged by XL, it brings its line into L2, from which the code caches are filled (R343, R460), or
is dropped and counted. -/
def State.specFetch (s : State) (core asid : Nat) (va : W64) : State :=
  match s.specTranslate core asid va .laneFetch with
  | some (x, pa) =>
    let s := s.specKeep core asid va x
    if s.cached pa then (s.l2Read (coreDom core) (pa / 128) (pteCoh x.2.2.1) .none 0xF#4).1 else s
  | none => s.dropCounted core asid

/-! ## The end of a regeneration (R340) -/

/-- The requesters of a page are on an access of it. -/
def onPage (va page : W64) : Bool := va.toNat / 2 ^ 13 == page.toNat / 2 ^ 13
/-- Every held requester of the page traps REGEN_WAIT when it executes again. -/
def State.failHeld (s : State) (asid : Nat) (page : W64) : State :=
  let k := page.toNat / 2 ^ 13
  let on (h : Option W64) : Bool := match h with
    | some va => onPage va page
    | none => false
  { s with
    groups := s.groups.mapVal fun _ g =>
      if (s.gridOf g.grid).asid != asid then g
      else
        let g := if on g.laneHeld || g.laneHeld.isSome && g.laneHolds.any (onPage page) then { g with laneRegen := some k } else g
        if on g.ctlHeld then { g with ctlRegen := some k } else g
    chains := s.chains.mapVal fun _ c => if s.asidOf c.g == asid && on c.held then { c with regen := some k } else c }

/-- The regenerable entry that a regeneration's record gives back (R326, R339, R340): IDX and ARG, and the permissions that the
regenerating entry keeps. Where the record is no longer mapped, the entry's own. -/
def State.regenEntry (s : State) (x : Regen) : Nat :=
  let now := s.mem.read x.leaf 8
  let w := match s.ctxAddr x.asid (x.record + 8#64) true with
    | some a => s.mem.read a 8
    | none => x.old.toNat / 2 ^ 32 + bitsOf x.old.toNat 19 10 * 2 ^ 32
  2 * 2 + bitsOf now 9 4 * 2 ^ 4 + bitsOf w 41 32 * 2 ^ 10 + bitsOf w 31 0 * 2 ^ 32
/-- The oldest fault that waits for a reserved entry of a domain takes one that is free (R338): where its entry is no longer
regenerable, its requesters execute again; where the regeneration fails, they trap. -/
def State.takeClaim (s : State) (d : Nat) : State :=
  match (s.dom d).regenWait, s.freeRegen d with
  | x :: l, some n =>
    let s := (s.updDom d fun m => { m with regenWait := l }).dirHomeRead (x.leaf / 128)
    let e := s.mem.read x.leaf 8
    if pteP e || kindAt 3 (pteKind e) != 2 then s
    else match s.beginRegen x d n e with
      | (s, true) => s
      | (s, false) => s.failHeld x.asid x.va
  | _, _ => s
/-- The regenerator grid has ended: the page becomes present, or its entry is restored. -/
def execRegenerationEnd (dom entry : Nat) (s : State) : Out :=
  .next (match (s.dom dom).regens.get? entry with
    | none => s
    | some x =>
      if !x.ended then s
      else
        let s := s.updDom dom fun m => { m with regens := m.regens.erase entry }
        if x.failed then
          let s := s.poolPush x.asid x.frame
          let s := s.homeWrite x.leaf 8 (s.regenEntry x)
          (s.ctxWrite x.asid (x.record + 16#64) 2).failHeld x.asid x.va
        else
          let s := (s.cleanLines (x.frame / 128) 64).homeWrite x.leaf 8 (3 + bitsOf x.old.toNat 9 4 * 16 + x.frame)
          let s := s.shootdown x.asid (some (x.va.toNat, 2 ^ 13))
          (s.ctxWrite x.asid (x.record + 16#64) 1).updCtx x.asid fun c => { c with regened := c.regened.set (x.va.toNat / 2 ^ 13) x.old })

/-! ## Taking a page out of the caches (R319) -/

/-- The attribute of a present page changes through the sequence of R319, which runs whole: no requester
comes between its steps. The owner of a page that becomes core-private is firmware's choice. -/
def execAttributeChange (asid : Nat) (va : W64) (coh : BitVec 2) (s : State) : Out :=
  .next (if !canonical va || coh == 3#2 || s.inFlight asid then s
    else match s.walk asid va with
      | .absent _ _ _ => s
      | .leaf level e addr =>
        let size := 2 ^ pageBits level
        let page := va.toNat / size * size
        let frame := pteFrame e
        let (own, s) := s.fresh
        let keep := bitsOf e 7 0 + bitsOf e 11 10 * 2 ^ 10 + frame + coh.toNat * 2 ^ 8
        let e' := if coh == 2#2 then keep + own % 64 * 2 ^ 42 + own / 64 % 112 * 2 ^ 48 else keep
        let s := (s.homeWrite addr 8 (5 * 2)).shootdown asid (some (page, size))
        let s := s.flushLines (frame / 128) (size / 128)
        (s.homeWrite addr 8 e').shootdown asid (some (page, size)))

/-! ## Oversubscription (R341, R342) -/

/-- The present 8 KiB leaves under a table, ascending: page number, entry and its address. -/
def State.leaves (s : State) : Nat → Nat → Nat → Nat → List (Nat × Nat × Nat)
  | 0, _, _, _ => []
  | fuel + 1, level, table, base =>
    (List.range 1024).flatMap fun k =>
      let a := table + 8 * k
      let e := s.mem.read a 8
      let page := base * 1024 + k
      if !pteP e then []
      else if level == 3 then (if leafOk 3 e then [(page, e, a)] else [])
      else if pteL e then []
      else match s.place (pteTable e) with
        | .dram _ _ => s.leaves fuel (level + 1) (pteTable e) page
        | _ => []
/-- The address of a page number. -/
def pageVa (page : Nat) : W64 := canon53 (page * 2 ^ 13)
/-- Pages that the sweep skips (R342). -/
def State.sweepSkips (s : State) (asid : Nat) (page e : Nat) : Bool :=
  let f := pteFrame e
  let c := s.ctx asid
  s.groups.any (fun g => match g.2.wait with
    | some w => w.armed && w.pa / 2 ^ 13 == f / 2 ^ 13
    | none => false) ||
  s.depMon.any (fun m => m.2 / 2 ^ 13 == f / 2 ^ 13) ||
  s.doms.any (fun d => d.2.regens.any fun r => r.2.asid == asid &&
    (r.2.va == pageVa page || onPage r.2.record (pageVa page))) ||
  (List.range c.poolcnt.toNat).any fun k => match s.ctxAddr asid (c.poolbase + BitVec.ofNat 64 (8 * k)) false with
    | some a => bitsOf (s.mem.read a 8) 55 13 == f / 2 ^ 13
    | none => false
/-- The place in host memory for the next page that is copied away, on the lowest link that is up (DESIGN CHOICE, log entry 52). -/
def State.pageOut (s : State) : Option Nat :=
  ((List.range 8).find? fun l => s.ridge.linksUp.getLsbD l).map fun l => (l + 1) * 2 ^ 48 + 2 ^ 47 + 2 ^ 13 * (s.ridge.pagesOut % 2 ^ 34)
/-- Copying a page from one place to another. -/
def State.copyPage (s : State) (src dst : Nat) : State :=
  { s with mem := (s.mem.slice src (2 ^ 13)).foldl (fun (m : Memory) (c : Host.Cell) => m.setByte (dst + c.1) c.2) (s.mem.clear dst (2 ^ 13)) }
/-- Removing a victim page (R342): its entry changes, its bytes go home, a page that was not regenerated is
copied to host memory, and its frame joins the frame list. One with an uncorrectable error, which the copy would read, is reported and
stays (R11, R321), as one does that no link takes. -/
def State.removePage (s : State) (asid page e addr : Nat) : State :=
  let frame := pteFrame e
  let va := pageVa page
  let gone := ((s.ctx asid).regened.get? page).isSome
  if !gone && s.pageOut.isNone then s
  else
  let s := (s.homeWrite addr 8 (bitsOf e 9 4 * 16 + 5 * 2)).shootdown asid (some (va.toNat, 2 ^ 13))
  let s := s.flushLines (frame / 128) 64
  if !gone && s.badIn frame (2 ^ 13) then (s.homeWrite addr 8 e).reportBad frame
  else
  let s := match (s.ctx asid).regened.get? page with
    | some old => (s.homeWrite addr 8 old.toNat).updCtx asid fun c => { c with regened := c.regened.erase page }
    | none =>
      let (f, s) := s.fresh
      let dst := s.pageOut.getD 0
      let s := ((s.copyPage frame dst).updRidge fun r => { r with pagesOut := r.pagesOut + 1 }).updCtx asid fun c =>
        { c with evicted := c.evicted.set page { pa := dst, owner := if pteCoh e == 2 then pteOwner e else 0 } }
      s.homeWrite addr 8 (f % 2 ^ 54 * 2 ^ 10 + bitsOf e 9 4 * 16 + 4 * 2)
  s.poolPush asid frame
/-- The class of a candidate (R341). -/
def Context.victimClass (c : Context) (page e : Nat) : Nat :=
  if (c.regened.get? page).isSome then 0 else if pteD e then 2 else 1
/-- One full sweep from the clock position: leaves with A = 1 lose it, and the first candidate of the lowest
class is removed. -/
def execVictimRemoval (asid : Nat) (s : State) : Out :=
  let c := s.ctx asid
  let all := if c.live && !s.inFlight asid then s.leaves 4 0 c.root 0 else []
  let l := (all.filter fun x => c.sweep < x.1) ++ all.filter fun x => x.1 ≤ c.sweep
  let l := l.filter fun x => !s.sweepSkips asid x.1 x.2.1
  let aged := l.filter fun x => pteA x.2.1
  let s := foldState (fun s (x : Nat × Nat × Nat) =>
    (s.homeWrite x.2.2 8 (x.2.1 - 2 ^ 10)).shootdown asid (some ((pageVa x.1).toNat, 2 ^ 13))) aged s
  .next (match minBy (fun (x : Nat × Nat × Nat) => c.victimClass x.1 x.2.1) (l.filter fun x => !pteA x.2.1) with
    | none => s
    | some x => (s.removePage asid x.1 x.2.1 x.2.2).updCtx asid fun c => { c with sweep := x.1 })

/-- The frame of a returning page: one of the context's list for an 8 KiB page where it has one, else a new one. -/
def State.returnFrame (s : State) (asid size : Nat) : Option (Nat × State) :=
  let new := (s.takeFrame size).map fun (x : Nat × State) => (x.1, x.2.updCtx asid fun c => { c with frames := c.frames ++ [(x.1, size)] })
  if size != 2 ^ 13 then new
  else match s.poolTop asid with
    | (t, some f) => some (f, t.poolPop asid)
    | (_, none) => new
/-- n free bytes: what firmware's record of a page names, where this model did not make the record. -/
def State.freeBytes (s : State) (pa : Nat) : Nat → State
  | 0 => s
  | n + 1 =>
    let (f, s) := s.fresh
    (s.poke (pa + n) 1 (f % 256)).freeBytes pa n
/-- An evicted page comes back (R336): a frame, its bytes, and a present entry with A = 0 and D = 0. Held
requesters find it when they execute again. While the link to its copy is down it stays away. The bytes of an entry that the sweep did not write, and the owner of such a core-private
page, are firmware's record, and so free values. -/
def execEvictedPageReturn (asid : Nat) (va : W64) (s : State) : Out :=
  .next (if !canonical va then s
    else match s.walkLevel asid va with
      | (level, .absent 4 e addr) =>
        let page := va.toNat % 2 ^ 53 / 2 ^ 13
        let size := 2 ^ pageBits level
        let kept := if level == 3 then (s.ctx asid).evicted.get? page else none
        if kept.any fun k => !s.sysUp k.pa then s
        else match s.returnFrame asid size with
        | none => s
        | some (f, s) =>
          match kept with
          | some kept =>
            let s := (s.zeroFrame f).copyPage kept.pa f
            (s.homeWrite addr 8 (leafWord e f kept.owner)).updCtx asid fun c => { c with evicted := c.evicted.erase page }
          | none =>
            let (own, s) := s.fresh
            (((s.dropLines (f / 128) (size / 128)).freeBytes f size).homeWrite addr 8 (leafWord e f (own % 7168)))
      | _ => s)

end Sys2Proof.Machine
end

