-- ==== Sys2Proof/Machine/Place.lean ====
section
/-!
DEFINITION. Placing blocks (15_scheduling.md R355 to R361): the master distributor's view of free resources, the
fit test, the hinted domain, the choice of a place, and the launch of a block's groups
(01_machine_state.md R16 to R31).
-/

namespace Sys2Proof.Machine

/-! ## Accesses by the distributor and by firmware -/

/-- The outcome of a translated access that cannot trap. -/
inductive FwRes where
  | ok (pa : Nat)
  | held
  | fault
  deriving DecidableEq, Repr

/-- A supervisor access of a context by the distributor (R351, R357), which the walker of the crest domain translates: it sets A and D
as R329 states. -/
def State.fwAccess (s : State) (asid : Nat) (va : W64) (write : Bool) : State × FwRes :=
  if !canonical va then (s, .fault)
  else
    let t := s.ctxUse asid va write
    match s.walkAt s.ridge.crest asid va with
    | .leaf _ e _ =>
      match s.ctxAddr asid va write with
      | none => (t, .fault)
      | some pa => if pteCoh e == 2 || (!write && !s.sysUp pa) then (s, .fault) else (t, .ok pa)
    | .absent 2 e addr =>
      match t.startRegen s.ridge.crest asid none va addr e with
      | (s, true) => (s, .held)
      | (s, false) => (s, .fault)
    | .absent 3 _ _ => (t, .held)
    | .absent 4 _ _ => (t, .held)
    | .absent 5 _ _ => (t, .held)
    | .absent _ _ _ => (t, .fault)

/-! ## Free resources (R20, R28, R37, R355, R424) -/

/-- Free resources of a core as the distributor sees them; the operand slots in use are the core's own. -/
structure CoreView where
  chunks : Nat := 0
  slots : List Nat := []
  tiles : Nat := 0
  tables : Nat := 0
  opslots : List Nat := []
  deriving DecidableEq, Repr

/-- An empty core: only a compute core holds groups, in slots of sound strands. -/
def State.emptyCore (s : State) (c : Nat) : CoreView :=
  if s.siteState c == 1 then
    { chunks := 512, slots := (List.range 64).filter fun k => (s.strandsOf c).getLsbD (k % 16), tiles := 64, tables := 32 }
  else {}
/-- A core in the shadow. -/
def State.coreView (s : State) (c : Nat) : CoreView :=
  let e := s.emptyCore c
  let x := s.shadow.getD c {}
  { chunks := e.chunks - x.chunks, slots := e.slots.filter fun k => !x.slots.contains k, tiles := e.tiles - x.tiles,
    tables := e.tables - x.tables, opslots := (s.core c).opslots.keys }
/-- Scratchpad runs in use in a quad, in the shadow. -/
def State.shadowRuns (s : State) (q : Nat) : List (Nat × Nat) := (s.shadow.getD (quadCore q 0) {}).runs

/-- What a block needs: chunks, tiles and tables, its scratchpad run, and for each group the operand slots
it holds and the core it is pinned to. -/
structure Need where
  chunks : Nat
  naccs : Nat
  nalg : Nat
  run : Nat
  groups : List (List Nat × Option Nat)
  deriving DecidableEq, Repr

/-- The need of a new block. -/
def Packet.need (p : Packet) : Need :=
  { chunks := p.chunks, naccs := p.naccs, nalg := p.nalg, run := p.run, groups := (List.range p.groups).map fun _ => ([], none) }

/-- The column that a group goes to: of those that can take it, the one with the most free chunks, the
lower of equals (R359). -/
def pickCol (nd : Need) (q : Nat) (cs : List CoreView) (g : List Nat × Option Nat) : Option Nat :=
  minBy (fun k => 512 - (cs.getD k {}).chunks) ((List.range 4).filter fun k =>
    let c := cs.getD k {}
    !c.slots.isEmpty && nd.chunks ≤ c.chunks && nd.naccs ≤ c.tiles && (g.1.all fun x => !c.opslots.contains x) &&
    (match g.2 with
     | some p => p == quadCore q k
     | none => true))
/-- The group assignment of R359: column and slot of each group, and what is left. -/
def assignGroups (nd : Need) (q : Nat) : List (List Nat × Option Nat) → List CoreView → Option (List (Nat × Nat) × List CoreView)
  | [], cs => some ([], cs)
  | g :: t, cs =>
    match pickCol nd q cs g with
    | none => none
    | some k =>
      let c := cs.getD k {}
      let c' := { c with chunks := c.chunks - nd.chunks, slots := c.slots.drop 1, tiles := c.tiles - nd.naccs, opslots := g.1 ++ c.opslots }
      match assignGroups nd q t (cs.set k c') with
      | none => none
      | some (l, cs) => some ((k, c.slots.headD 0) :: l, cs)
/-- The lowest base of a free run of n bytes (R303). -/
def freeBase (runs : List (Nat × Nat)) (n : Nat) : Option Nat :=
  if n == 0 then some 0
  else minBy (fun b => b) ((0 :: runs.map fun r => r.1 + r.2).filter fun b =>
    b + n ≤ 2 ^ 23 && runs.all fun r => !overlap b n r.1 r.2)

/-- A place: quad, scratchpad base, column and slot of each group. -/
structure Fit where
  quad : Nat
  base : Nat
  places : List (Nat × Nat)
  deriving DecidableEq, Repr

/-- Every column that receives groups has the tables (R360). -/
def tablesFit (nd : Need) (cs : List CoreView) (l : List (Nat × Nat)) : Bool := l.all fun x => nd.nalg ≤ (cs.getD x.1 {}).tables
/-- A block in a quad (R360, R425). -/
def State.fitQuad (s : State) (cs : List CoreView) (runs : List (Nat × Nat)) (nd : Need) (q : Nat) : Option Fit :=
  if nd.run != 0 && (List.range 4).any (fun k => !s.columnPresent (quadCore q k)) then none
  else match freeBase runs nd.run, assignGroups nd q nd.groups cs with
    | some b, some (l, _) => if tablesFit nd cs l then some { quad := q, base := b, places := l } else none
    | _, _ => none
/-- The four cores of a quad in the shadow. -/
def State.quadView (s : State) (q : Nat) : List CoreView := (List.range 4).map fun k => s.coreView (quadCore q k)
/-- The best quad of a domain (R359). -/
def State.bestQuad (s : State) (nd : Need) (d : Nat) : Option Fit :=
  let fits := (List.range 28).filterMap fun k =>
    let cs := s.quadView (28 * d + k)
    (s.fitQuad cs (s.shadowRuns (28 * d + k)) nd (28 * d + k)).map fun f => (2048 - (cs.map (·.chunks)).sum, f)
  (minBy (fun (x : Nat × Fit) => x.1) fits).map fun x => x.2
/-- The place of a block with a hinted domain, among candidate domains (R358). -/
def State.findPlace (s : State) (nd : Need) (h : Nat) (cand : Nat → Bool) : Option Fit :=
  (List.range 15).findSome? fun k =>
    ((List.range 64).filter fun d => hops d h == k && cand d).findSome? fun d => s.bestQuad nd d

/-! ## The hinted domain (R357) -/

/-- Free register chunks of a domain in the shadow. -/
def State.domFree (s : State) (d : Nat) : Nat :=
  let off := (s.topo.sites.filter fun x => coreDom x.1 == d && x.2 != 1).length
  let used := ((s.shadow.filter fun x => coreDom x.1 == d && s.siteState x.1 == 1).map fun x => x.2.chunks).sum
  512 * (112 - off) - used
/-- The domain with the most. -/
def State.roomiest (s : State) : Nat :=
  (minBy (fun (x : Nat × Nat) => x.2) ((List.range 64).map fun d => (d, 57344 - s.domFree d))).elim 0 fun x => x.1
/-- h of block b. -/
def State.hintOf (s : State) (n : Grid) (b : Nat) : State × Nat :=
  let p := n.pkt
  match p.hmode with
  | 1 => (s, p.hparam % 64)
  | 2 => (s, (p.hparam % 64 + b / (p.hparam / 2 ^ 16)) % 64)
  | 3 =>
    match s.fwAccess n.asid (p.args + BitVec.ofNat 64 (p.hparam + b)) false with
    | (s, .ok pa) =>
      let (s, v) := s.homeRead pa 1
      if s.badIn pa 1 then (s.reportBad pa, s.roomiest) else (s, if v < 64 then v else s.roomiest)
    | (s, _) => (s, s.roomiest)
  | _ => (s, s.roomiest)
/-- A domain in a massif (R346). -/
def inMassif (m : Option (Nat × Nat × Nat × Nat)) (d : Nat) : Bool :=
  match m with
  | none => true
  | some (r, c, h, w) => r ≤ d / 8 && d / 8 < r + h && c ≤ d % 8 && d % 8 < c + w
/-- The place of a block of a grid. -/
def State.placeFor (s : State) (n : Grid) (b : Nat) (nd : Need) (cand : Nat → Bool) : State × Option Fit :=
  let (s, h) := s.hintOf n b
  (s, s.findPlace nd h fun d => !(s.dom d).hot && inMassif n.massif d && cand d)

/-! ## The checks of a packet (R347) -/

/-- The checks on the fields of a kernel packet. -/
def Packet.fieldsOk (p : Packet) : Bool :=
  p.ty == 1 && p.gx != 0 && p.gy != 0 && p.gz != 0 && p.nslots ≤ 16 && p.naccs ≤ 4 && p.nalg ≤ 8 && p.dlimField ≤ 8 &&
  p.scratch ≤ 2 ^ 25 && p.ndep != 3 && !(p.ndep != 0 && p.sig == 0#64) && p.cor != 3 && (2 ≤ p.rel && p.rel ≤ 4) &&
  !(p.hmode == 2 && p.hparam / 2 ^ 16 == 0) && p.cbase.toNat % 4 == 0 && p.lbase.toNat % 4 == 0 &&
  p.args.toNat % 8 == 0 && p.sig.toNat % 8 == 0
/-- How many blocks an empty quad holds, up to a bound. -/
def State.quadHolds (s : State) (nd : Need) (q : Nat) : Nat → List CoreView → Nat → Nat
  | 0, _, k => k
  | fuel + 1, cs, k =>
    match assignGroups nd q nd.groups cs with
    | none => k
    | some (l, cs') =>
      if !tablesFit nd cs' l || 2 ^ 23 < (k + 1) * nd.run then k
      else
        let cs' := cs'.zipIdx.map fun c => if l.any (fun x => x.1 == c.2) then { c.1 with tables := c.1.tables - nd.nalg } else c.1
        s.quadHolds nd q fuel cs' (k + 1)
/-- A quad's empty capacity. -/
def State.quadCap (s : State) (nd : Need) (q : Nat) : Nat :=
  if nd.run != 0 && (List.range 4).any (fun k => !s.columnPresent (quadCore q k)) then 0
  else s.quadHolds nd q 256 ((List.range 4).map fun k => s.emptyCore (quadCore q k)) 0
/-- The quads of a list hold n blocks when empty. -/
def State.capReaches (s : State) (nd : Need) : List Nat → Nat → Bool
  | _, 0 => true
  | [], _ + 1 => false
  | q :: t, n + 1 => s.capReaches nd t (n + 1 - s.quadCap nd q)
/-- One block fits an empty quad; with COR ≠ 00, the whole grid fits. -/
def State.packetFits (s : State) (p : Packet) (cand : Nat → Bool) : Bool :=
  let quads := (List.range 1792).filter fun q => cand (quadDom q)
  quads.any (fun q => (s.fitQuad ((List.range 4).map fun k => s.emptyCore (quadCore q k)) [] p.need q).isSome) &&
  (p.cor == 0 || s.capReaches p.need quads p.blocks)
/-- The checks of R347 on a kernel packet. -/
def State.packetOk (s : State) (p : Packet) (m : Option (Nat × Nat × Nat × Nat)) : Bool :=
  p.fieldsOk && s.packetFits p (inMassif m)

/-! ## Launching a block (R16, R18, R26) -/

/-- A group takes a slot, chunks and tiles of a core, the lowest free ones (R301: any chunk may hold any group's registers); the shadow is
debited. -/
def State.seat (s : State) (g core slot chunks naccs : Nat) : State :=
  let c := s.core core
  let tiles := ((List.range 64).filter fun k => !c.tilesUsed.contains k).take naccs
  let taken := c.slots.flatMap fun y => (s.grp y.2).chunkNos
  let nos := ((List.range 512).filter fun k => !taken.contains k).take chunks
  let s := s.updCore core fun c =>
    { c with slots := c.slots.set slot g, chunks := c.chunks + chunks, spare := c.spare.keep fun k _ => !nos.contains k, tilesUsed := c.tilesUsed ++ tiles,
             tiles := c.tiles.keep fun k _ => !tiles.contains k }
  let s := s.updGrp g fun x => { x with core := core, slot := slot, accs := tiles, chunkNos := nos, resident := true }
  { s with shadow := s.shadow.upd core {} fun x => { x with chunks := x.chunks + chunks, slots := x.slots ++ [slot], tiles := x.tiles + naccs } }
/-- The register that an offset of a core's register store window names (R301): group, register, and byte of the register. -/
def State.windowReg (s : State) (core off : Nat) : Option (Nat × Nat × Nat) :=
  (s.core core).slots.findSome? fun y =>
    ((s.grp y.2).chunkNos.findIdx? (· == off / 12288)).map fun i => (y.2, 96 * i + off % 12288 / 128, off % 128)
/-- The word of an accumulator tile that an offset of the accumulator window names (R302): tile, and key of the word; none for a
header, whose tile is then given. -/
def accWord (off : Nat) : Nat × Option Nat :=
  if off < 0x80000 then (off / 8192, some (off % 8192 / 4)) else ((off - 0x80000) / 4, none)
/-- The word of a chunk that no group holds: its last group's, and 0 in one that none has held (DESIGN CHOICE, log entry 131). -/
def SpareChunk.word (x : SpareChunk) (k : Nat) : W32 :=
  x.words.getD k (match x.base with
    | some b => 0x7FB00000#32 ||| BitVec.ofNat 32 (b + k / 32)
    | none => 0#32)
/-- The byte of a core's window has an uncorrectable error, which a read by firmware consumes (R321). -/
def State.windowBad (s : State) (pa : Nat) : Bool :=
  match s.place pa with
  | .regs core off => (s.windowReg core off).any fun x => (s.grp x.1).badV.contains (32 * x.2.1 + x.2.2 / 4)
  | .accs core off => (accWord off).2.any fun k => ((s.core core).tile (accWord off).1).bad.contains k
  | _ => false
/-- Reading a byte of a core's windows as firmware does (R300 to R302). The layout of the core control window is outside the manual: its
bytes are free. -/
def State.windowByte (s : State) (pa : Nat) : State × Byte :=
  let free : State × Byte := let (f, s) := s.fresh; (s, BitVec.ofNat 8 f)
  match s.place pa with
  | .regs core off => match s.windowReg core off with
    | some (g, r, b) => (s, BitVec.ofNat 8 (((s.grp g).rv r (b / 4)).toNat / 2 ^ (8 * (b % 4))))
    | none =>
      let w := ((s.core core).spare.getD (off / 12288) {}).word (off % 12288 / 4)
      (s, BitVec.ofNat 8 (w.toNat / 2 ^ (8 * (off % 4))))
  | .accs core off =>
    let (t, w) := accWord off
    let x := (s.core core).tile t
    (s, BitVec.ofNat 8 ((match w with
      | some k => (x.words.getD k 0#32).toNat
      | none => x.header.toNat) / 2 ^ (8 * (off % 4))))
  | .control _ _ => free
  | _ => (s, s.mem.byte pa)
/-- A byte of a word replaced. -/
def putByte (w : W32) (k : Nat) (b : Byte) : W32 := (w &&& ~~~ (0xFF#32 <<< (8 * k))) ||| (b.setWidth 32 <<< (8 * k))
/-- Writing a byte of a core's windows as firmware does. -/
def State.setWindowByte (s : State) (pa : Nat) (b : Byte) : State :=
  match s.place pa with
  | .regs core off => match s.windowReg core off with
    | some (g, r, k) => s.updGrp g fun x => x.setv r (k / 4) (putByte (x.rv r (k / 4)) (k % 4) b)
    | none => s.updCore core fun c =>
        { c with spare := c.spare.upd (off / 12288) {} fun x =>
            { x with words := x.words.set (off % 12288 / 4) (putByte (x.word (off % 12288 / 4)) (off % 4) b) } }
  | .accs core off =>
    let (t, w) := accWord off
    s.updCore core fun c => c.updTile t fun x => match w with
      | some k => x.setWord (k / 64) (k % 64) (putByte (x.word (k / 64) (k % 64)) (off % 4) b)
      | none => { x with header := putByte x.header (off % 4) b }
  | .control _ _ => s
  | _ => s.pokeOut pa 1 b.toNat
/-- A block reserves n tables of a core (R37). -/
def State.seatTables (s : State) (b core n : Nat) (saved : List AlgTable) : State :=
  let c := s.core core
  let l := ((List.range 32).filter fun k => !c.tablesUsed.contains k).take n
  if n == 0 then s
  else
    let s := s.updCore core fun c =>
      { c with tablesUsed := c.tablesUsed ++ l,
               tables := (l.zip saved).foldl (fun t x => t.put x.1 x.2 realTable) (c.tables.keep fun k _ => !l.contains k) }
    let s := s.updBlk b fun x => { x with tables := x.tables ++ [(core, l)] }
    { s with shadow := s.shadow.upd core {} fun x => { x with tables := x.tables + n } }
/-- A block reserves its scratchpad run (R303). -/
def State.seatRun (s : State) (b quad base run : Nat) : State :=
  let s := s.updBlk b fun x => { x with quad := quad, sbase := base }
  if run == 0 then s
  else
    let s := s.updDom (quadDom quad) fun m => { m with runs := m.runs.upd quad [] fun l => l ++ [(base, run)] }
    { s with shadow := s.shadow.upd (quadCore quad 0) {} fun x => { x with runs := x.runs ++ [(base, run)] } }
/-- A group at its launch (R35, R39): one split of every present lane; its lane PC is not stated (log 14). -/
def launchGroup (seq : Nat) (n : Grid) (block b k : Nat) : Group :=
  let p := n.pkt
  let count := min 32 (p.lanes - 32 * k)
  let sregs : List W64 := [BitVec.ofNat 64 n.ident, BitVec.ofNat 64 (b % p.gx), BitVec.ofNat 64 (b / p.gx % p.gy),
    BitVec.ofNat 64 (b / p.gx / p.gy), BitVec.ofNat 64 k, p.args, p.lbase, p.cbase]
  let present := BitVec.ofNat 32 (2 ^ count - 1)
  let all : Split := { id := 1, mask := present, family := 1 }
  let g : Group := { live := true, grid := seq, block := block, gidx := k, present := present,
                     nregs := 96 * p.chunks, quota := p.nslots, cpc := p.cbase, splits := [all], nextSplit := 2 }
  (sregs.zipIdx).foldl (fun g x => g.sets x.2 x.1) g
/-- The cores of a place, each once. -/
def Fit.cores (f : Fit) : List Nat := ((f.places.map fun x => quadCore f.quad x.1).eraseDups)
/-- The grid starts with an acquire: a child's (R284), that of a packet which waited on completion signals (R294), or that of the read
of its queue's slot (R400). -/
def Grid.acquires (n : Grid) : Bool :=
  n.pkt.ndep != 0 || match n.origin with
    | .regen _ _ => false
    | _ => true
/-- A block of a grid begins at a place. Where its grid starts with an acquire, each of its cores makes it at `.wfr`; that drops all
that an acquire at the scope of a signal's packet drops (DEDUCED, log entry 114). -/
def State.launchBlock (s : State) (seq b : Nat) (f : Fit) (waits : Bool) : State :=
  let n := s.gridOf seq
  let p := n.pkt
  let (id, s) := s.newId
  let blk : Block := { grid := seq, num := b, share := p.share, nalg := p.nalg, waits := waits }
  let s := ({ s with blocks := s.blocks.set id blk }).seatRun id f.quad f.base p.run
  let s := foldState (fun s (x : (Nat × Nat) × Nat) =>
    let (g, s) := s.newId
    let s := s.setGrp g (launchGroup seq n id b x.2)
    let s := s.updBlk id fun k => { k with groups := k.groups ++ [g] }
    s.seat g (quadCore f.quad x.1.1) x.1.2 p.chunks p.naccs) f.places.zipIdx s
  let s := foldState (fun s c => s.seatTables id c p.nalg []) f.cores s
  let s := if n.acquires then foldState (fun s c => s.acquire c .wfr) f.cores s else s
  s.updGrid seq fun n => { n with live := n.live + 1, nextBlock := max n.nextBlock (b + 1) }

/-- Placing every unstarted block of a grid in one step (R361, R362), or nothing. -/
def State.placeWhole (s : State) (seq : Nat) (waits : Bool) : Nat → Option State
  | 0 => some s
  | fuel + 1 =>
    let n := s.gridOf seq
    if n.pkt.blocks ≤ n.nextBlock then some s
    else match s.placeFor n n.nextBlock n.pkt.need fun _ => true with
      | (s, some f) => (s.launchBlock seq n.nextBlock f waits).placeWhole seq waits fuel
      | (_, none) => none

/-- What is in use on a core, as a report gives it. -/
def State.inUse (s : State) (c : Nat) : Shadow :=
  let k := s.core c
  { chunks := k.chunks, slots := k.slots.keys, tiles := k.tilesUsed.length, tables := k.tablesUsed.length,
    runs := if coreCol c == 0 then (s.dom (coreDom c)).runs.getD (coreQuad c) [] else [] }
/-- Free-count report, every 64 cc of the domain (R355): the shadow of its cores becomes what is in use. -/
def execFreeCountReport (dom : Nat) (s : State) : Out :=
  .next (if (s.dom dom).sinceReport < 64 then s
    else
      let t := s.updDom dom fun m => { m with sinceReport := m.sinceReport % 64 }
      { t with shadow := s.shadow.mapVal (fun c x => if (coreDom c == dom) then s.inUse c else x) })

end Sys2Proof.Machine
end

