-- ==== Sys2Proof/Machine/Riscv.lean ====
section
/-!
DEFINITION. The RISC-V instruction set of the Corrie harts (16_corrie.md R373) and, without floating point and bit
manipulation, of the Ridge cores (17_host_ridge_firmware.md R409): arithmetic, branches, compressed encodings and floating
point. The manual names the extensions; what each instruction does is the RISC-V standard's (PRESUMED, log entry 121).
-/

namespace Sys2Proof.Machine

/-! ## Encodings -/

/-- The low k bits of n as a signed value. -/
def rvSx (k n : Nat) : W64 := if bitOf n (k - 1) then BitVec.ofNat 64 (n % 2 ^ k) - BitVec.ofNat 64 (2 ^ k) else BitVec.ofNat 64 (n % 2 ^ k)
def rvRd (w : Nat) : Nat := bitsOf w 11 7
def rvF3 (w : Nat) : Nat := bitsOf w 14 12
def rvRs1 (w : Nat) : Nat := bitsOf w 19 15
def rvRs2 (w : Nat) : Nat := bitsOf w 24 20
def rvRs3 (w : Nat) : Nat := bitsOf w 31 27
def rvF7 (w : Nat) : Nat := bitsOf w 31 25
def rvImmI (w : Nat) : W64 := rvSx 12 (bitsOf w 31 20)
def rvImmS (w : Nat) : W64 := rvSx 12 (bitsOf w 31 25 * 32 + bitsOf w 11 7)
def rvImmB (w : Nat) : W64 := rvSx 13 (bitsOf w 31 31 * 2 ^ 12 + bitsOf w 7 7 * 2 ^ 11 + bitsOf w 30 25 * 32 + bitsOf w 11 8 * 2)
def rvImmU (w : Nat) : W64 := rvSx 32 (w / 2 ^ 12 * 2 ^ 12)
def rvImmJ (w : Nat) : W64 := rvSx 21 (bitsOf w 31 31 * 2 ^ 20 + bitsOf w 19 12 * 2 ^ 12 + bitsOf w 20 20 * 2 ^ 11 + bitsOf w 30 21 * 2)

/-- Words of the base formats from their fields, for the expansion of compressed instructions. -/
def rvR (op f3 f7 rd rs1 rs2 : Nat) : Nat := op + rd * 2 ^ 7 + f3 * 2 ^ 12 + rs1 * 2 ^ 15 + rs2 * 2 ^ 20 + f7 * 2 ^ 25
def rvI (op f3 rd rs1 : Nat) (imm : W64) : Nat := op + rd * 2 ^ 7 + f3 * 2 ^ 12 + rs1 * 2 ^ 15 + imm.toNat % 2 ^ 12 * 2 ^ 20
def rvS (op f3 rs1 rs2 : Nat) (imm : W64) : Nat :=
  let n := imm.toNat
  op + n % 32 * 2 ^ 7 + f3 * 2 ^ 12 + rs1 * 2 ^ 15 + rs2 * 2 ^ 20 + bitsOf n 11 5 * 2 ^ 25
def rvB (f3 rs1 : Nat) (imm : W64) : Nat :=
  let n := imm.toNat
  0x63 + bitsOf n 11 11 * 2 ^ 7 + bitsOf n 4 1 * 2 ^ 8 + f3 * 2 ^ 12 + rs1 * 2 ^ 15 + bitsOf n 10 5 * 2 ^ 25 + bitsOf n 12 12 * 2 ^ 31
def rvJ (rd : Nat) (imm : W64) : Nat :=
  let n := imm.toNat
  0x6F + rd * 2 ^ 7 + bitsOf n 19 12 * 2 ^ 12 + bitsOf n 11 11 * 2 ^ 20 + bitsOf n 10 1 * 2 ^ 21 + bitsOf n 20 20 * 2 ^ 31

/-- A 16-bit encoding as the 32-bit instruction that it stands for; `fp` allows those of floating point. None is illegal. -/
def rvExpand (fp : Bool) (c : Nat) : Option Nat :=
  let f3 := bitsOf c 15 13
  let rd := bitsOf c 11 7
  let rs2 := bitsOf c 6 2
  let rp := 8 + bitsOf c 9 7
  let rq := 8 + bitsOf c 4 2
  let n (x : Nat) : W64 := BitVec.ofNat 64 x
  let imm6 := rvSx 6 (bitsOf c 12 12 * 32 + bitsOf c 6 2)
  let sh := n (bitsOf c 12 12 * 32 + bitsOf c 6 2)
  let wOff := n (bitsOf c 5 5 * 64 + bitsOf c 12 10 * 8 + bitsOf c 6 6 * 4)
  let dOff := n (bitsOf c 6 5 * 64 + bitsOf c 12 10 * 8)
  let jOff := rvSx 12 (bitsOf c 12 12 * 2 ^ 11 + bitsOf c 8 8 * 2 ^ 10 + bitsOf c 10 9 * 2 ^ 8 + bitsOf c 6 6 * 2 ^ 7 + bitsOf c 7 7 * 2 ^ 6 +
    bitsOf c 2 2 * 2 ^ 5 + bitsOf c 11 11 * 2 ^ 4 + bitsOf c 5 3 * 2)
  let bOff := rvSx 9 (bitsOf c 12 12 * 2 ^ 8 + bitsOf c 6 5 * 2 ^ 6 + bitsOf c 2 2 * 2 ^ 5 + bitsOf c 11 10 * 2 ^ 3 + bitsOf c 4 3 * 2)
  let onlyFp (w : Nat) : Option Nat := if fp then some w else none
  match c % 4 with
  | 0 =>
    match f3 with
    | 0 =>
      let u := bitsOf c 10 7 * 64 + bitsOf c 12 11 * 16 + bitsOf c 5 5 * 8 + bitsOf c 6 6 * 4
      if u == 0 then none else some (rvI 0x13 0 rq 2 (n u))
    | 1 => onlyFp (rvI 0x07 3 rq rp dOff)
    | 2 => some (rvI 0x03 2 rq rp wOff)
    | 3 => some (rvI 0x03 3 rq rp dOff)
    | 5 => onlyFp (rvS 0x27 3 rp rq dOff)
    | 6 => some (rvS 0x23 2 rp rq wOff)
    | 7 => some (rvS 0x23 3 rp rq dOff)
    | _ => none
  | 1 =>
    match f3 with
    | 0 => some (rvI 0x13 0 rd rd imm6)
    | 1 => if rd == 0 then none else some (rvI 0x1B 0 rd rd imm6)
    | 2 => some (rvI 0x13 0 rd 0 imm6)
    | 3 =>
      if rd == 2 then
        let u := rvSx 10 (bitsOf c 12 12 * 2 ^ 9 + bitsOf c 4 3 * 2 ^ 7 + bitsOf c 5 5 * 2 ^ 6 + bitsOf c 2 2 * 2 ^ 5 + bitsOf c 6 6 * 2 ^ 4)
        if u == 0#64 then none else some (rvI 0x13 0 2 2 u)
      else if imm6 == 0#64 then none else some (0x37 + rd * 2 ^ 7 + imm6.toNat % 2 ^ 20 * 2 ^ 12)
    | 4 =>
      match bitsOf c 11 10 with
      | 0 => some (rvI 0x13 5 rp rp sh)
      | 1 => some (rvI 0x13 5 rp rp (sh + 0x400#64))
      | 2 => some (rvI 0x13 7 rp rp imm6)
      | _ =>
        match bitsOf c 12 12 * 4 + bitsOf c 6 5 with
        | 0 => some (rvR 0x33 0 0x20 rp rp rq)
        | 1 => some (rvR 0x33 4 0 rp rp rq)
        | 2 => some (rvR 0x33 6 0 rp rp rq)
        | 3 => some (rvR 0x33 7 0 rp rp rq)
        | 4 => some (rvR 0x3B 0 0x20 rp rp rq)
        | 5 => some (rvR 0x3B 0 0 rp rp rq)
        | _ => none
    | 5 => some (rvJ 0 jOff)
    | 6 => some (rvB 0 rp bOff)
    | _ => some (rvB 1 rp bOff)
  | _ =>
    let wSp := n (bitsOf c 3 2 * 64 + bitsOf c 12 12 * 32 + bitsOf c 6 4 * 4)
    let dSp := n (bitsOf c 4 2 * 64 + bitsOf c 12 12 * 32 + bitsOf c 6 5 * 8)
    let wSt := n (bitsOf c 8 7 * 64 + bitsOf c 12 9 * 4)
    let dSt := n (bitsOf c 9 7 * 64 + bitsOf c 12 10 * 8)
    match f3 with
    | 0 => some (rvI 0x13 1 rd rd sh)
    | 1 => onlyFp (rvI 0x07 3 rd 2 dSp)
    | 2 => if rd == 0 then none else some (rvI 0x03 2 rd 2 wSp)
    | 3 => if rd == 0 then none else some (rvI 0x03 3 rd 2 dSp)
    | 4 =>
      if !bitOf c 12 then
        if rs2 != 0 then some (rvR 0x33 0 0 rd 0 rs2) else if rd == 0 then none else some (rvI 0x67 0 0 rd 0#64)
      else if rs2 != 0 then some (rvR 0x33 0 0 rd rd rs2)
      else if rd == 0 then some 0x00100073 else some (rvI 0x67 0 1 rd 0#64)
    | 5 => onlyFp (rvS 0x27 3 2 rs2 dSt)
    | 6 => some (rvS 0x23 2 2 rs2 wSt)
    | _ => some (rvS 0x23 3 2 rs2 dSt)

/-! ## Integer arithmetic -/

/-- A 32-bit result, sign-extended. -/
def rvW (x : W32) : W64 := x.signExtend 64
/-- Division and remainder of a width, by the rules for a zero divisor and for overflow. -/
def rvDiv {n : Nat} (a b : BitVec n) : BitVec n := if b == 0#n then BitVec.allOnes n else BitVec.sdiv a b
def rvDivu {n : Nat} (a b : BitVec n) : BitVec n := if b == 0#n then BitVec.allOnes n else a / b
def rvRem {n : Nat} (a b : BitVec n) : BitVec n := if b == 0#n then a else BitVec.srem a b
def rvRemu {n : Nat} (a b : BitVec n) : BitVec n := if b == 0#n then a else a % b
/-- The upper half of a product. -/
def rvMulh (a b : Int) : W64 := BitVec.ofInt 64 (a * b / 2 ^ 64)
/-- Zeros above the highest one, zeros below the lowest, and ones. -/
def rvClz (k n : Nat) : Nat := if n == 0 then k else k - 1 - Nat.log2 n
def rvCtz (k n : Nat) : Nat := ((List.range k).find? fun i => bitOf n i).getD k
def rvCpop (k n : Nat) : Nat := ((List.range k).filter fun i => bitOf n i).length
/-- The bit at a register's index. -/
def rvBit (b : W64) : W64 := 1#64 <<< (b.toNat % 64)
/-- Each byte as ones where it is not zero. -/
def rvOrc (a : W64) : W64 :=
  BitVec.ofNat 64 (((List.range 8).map fun i => if bitsOf a.toNat (8 * i + 7) (8 * i) == 0 then 0 else 255 * 2 ^ (8 * i)).sum)
/-- The bytes in reverse order. -/
def rvRev8 (a : W64) : W64 := BitVec.ofNat 64 (((List.range 8).map fun i => bitsOf a.toNat (8 * i + 7) (8 * i) * 2 ^ (8 * (7 - i))).sum)

/-- OP, with the bit manipulation and conditional-zero extensions where `zb`. -/
def rvOp (zb : Bool) (f7 f3 : Nat) (a b : W64) : Option W64 :=
  let sh := b.toNat % 64
  let set (c : Bool) : W64 := if c then 1#64 else 0#64
  let z (x : W64) : Option W64 := if zb then some x else none
  match f7, f3 with
  | 0x00, 0 => some (a + b)
  | 0x20, 0 => some (a - b)
  | 0x00, 1 => some (a <<< sh)
  | 0x00, 2 => some (set (a.slt b))
  | 0x00, 3 => some (set (a.ult b))
  | 0x00, 4 => some (a ^^^ b)
  | 0x00, 5 => some (a >>> sh)
  | 0x20, 5 => some (a.sshiftRight sh)
  | 0x00, 6 => some (a ||| b)
  | 0x00, 7 => some (a &&& b)
  | 0x01, 0 => some (a * b)
  | 0x01, 1 => some (rvMulh a.toInt b.toInt)
  | 0x01, 2 => some (rvMulh a.toInt b.toNat)
  | 0x01, 3 => some (rvMulh a.toNat b.toNat)
  | 0x01, 4 => some (rvDiv a b)
  | 0x01, 5 => some (rvDivu a b)
  | 0x01, 6 => some (rvRem a b)
  | 0x01, 7 => some (rvRemu a b)
  | 0x10, 2 => z ((a <<< 1) + b)
  | 0x10, 4 => z ((a <<< 2) + b)
  | 0x10, 6 => z ((a <<< 3) + b)
  | 0x20, 4 => z (~~~ (a ^^^ b))
  | 0x20, 6 => z (a ||| ~~~ b)
  | 0x20, 7 => z (a &&& ~~~ b)
  | 0x05, 4 => z (if a.slt b then a else b)
  | 0x05, 5 => z (if a.ult b then a else b)
  | 0x05, 6 => z (if a.slt b then b else a)
  | 0x05, 7 => z (if a.ult b then b else a)
  | 0x30, 1 => z (a.rotateLeft sh)
  | 0x30, 5 => z (a.rotateRight sh)
  | 0x24, 1 => z (a &&& ~~~ rvBit b)
  | 0x24, 5 => z (set (a &&& rvBit b != 0#64))
  | 0x34, 1 => z (a ^^^ rvBit b)
  | 0x14, 1 => z (a ||| rvBit b)
  | 0x07, 5 => z (if b == 0#64 then 0#64 else a)
  | 0x07, 7 => z (if b == 0#64 then a else 0#64)
  | _, _ => none
/-- OP-32. -/
def rvOp32 (zb : Bool) (f7 f3 rs2 : Nat) (a b : W64) : Option W64 :=
  let x := a.setWidth 32
  let y := b.setWidth 32
  let sh := b.toNat % 32
  let z (x : W64) : Option W64 := if zb then some x else none
  let uw : W64 := x.setWidth 64
  match f7, f3 with
  | 0x00, 0 => some (rvW (x + y))
  | 0x20, 0 => some (rvW (x - y))
  | 0x00, 1 => some (rvW (x <<< sh))
  | 0x00, 5 => some (rvW (x >>> sh))
  | 0x20, 5 => some (rvW (x.sshiftRight sh))
  | 0x01, 0 => some (rvW (x * y))
  | 0x01, 4 => some (rvW (rvDiv x y))
  | 0x01, 5 => some (rvW (rvDivu x y))
  | 0x01, 6 => some (rvW (rvRem x y))
  | 0x01, 7 => some (rvW (rvRemu x y))
  | 0x04, 0 => z (uw + b)
  | 0x10, 2 => z ((uw <<< 1) + b)
  | 0x10, 4 => z ((uw <<< 2) + b)
  | 0x10, 6 => z ((uw <<< 3) + b)
  | 0x04, 4 => if rs2 == 0 then z (a &&& 0xFFFF#64) else none
  | 0x30, 1 => z (rvW (x.rotateLeft sh))
  | 0x30, 5 => z (rvW (x.rotateRight sh))
  | _, _ => none
/-- OP-IMM: the 12 bits of the immediate, and its value. -/
def rvOpImm (zb : Bool) (f3 imm : Nat) (a i : W64) : Option W64 :=
  let sh := imm % 64
  let b : W64 := BitVec.ofNat 64 sh
  let z (x : Nat) : Option W64 := if zb then some (BitVec.ofNat 64 x) else none
  match f3 with
  | 0 | 2 | 3 | 4 | 6 | 7 => rvOp false 0 f3 a i
  | 1 =>
    match imm with
    | 0x600 => z (rvClz 64 a.toNat)
    | 0x601 => z (rvCtz 64 a.toNat)
    | 0x602 => z (rvCpop 64 a.toNat)
    | 0x604 => z (rvSx 8 a.toNat).toNat
    | 0x605 => z (rvSx 16 a.toNat).toNat
    | _ => match imm / 64 with
      | 0x00 => some (a <<< sh)
      | 0x12 => rvOp zb 0x24 1 a b
      | 0x1A => rvOp zb 0x34 1 a b
      | 0x0A => rvOp zb 0x14 1 a b
      | _ => none
  | _ =>
    match imm with
    | 0x287 => z (rvOrc a).toNat
    | 0x6B8 => z (rvRev8 a).toNat
    | _ => match imm / 64 with
      | 0x00 => some (a >>> sh)
      | 0x10 => some (a.sshiftRight sh)
      | 0x18 => rvOp zb 0x30 5 a b
      | 0x12 => rvOp zb 0x24 5 a b
      | _ => none
/-- OP-IMM-32. -/
def rvOpImm32 (zb : Bool) (f3 imm : Nat) (a i : W64) : Option W64 :=
  let x := a.setWidth 32
  let sh := imm % 32
  let z (x : Nat) : Option W64 := if zb then some (BitVec.ofNat 64 x) else none
  match f3 with
  | 0 => some (rvW (x + i.setWidth 32))
  | 1 =>
    match imm with
    | 0x600 => z (rvClz 32 x.toNat)
    | 0x601 => z (rvCtz 32 x.toNat)
    | 0x602 => z (rvCpop 32 x.toNat)
    | _ => if imm / 32 == 0 then some (rvW (x <<< sh)) else if imm / 64 == 2 then z (x.toNat * 2 ^ (imm % 64) % 2 ^ 64) else none
  | 5 => match imm / 32 with
    | 0x00 => some (rvW (x >>> sh))
    | 0x20 => some (rvW (x.sshiftRight sh))
    | 0x30 => z (rvW (x.rotateRight sh)).toNat
    | _ => none
  | _ => none
/-- Whether a branch is taken. -/
def rvBranch (f3 : Nat) (a b : W64) : Option Bool :=
  match f3 with
  | 0 => some (a == b)
  | 1 => some (a != b)
  | 4 => some (a.slt b)
  | 5 => some (!a.slt b)
  | 6 => some (a.ult b)
  | 7 => some (!a.ult b)
  | _ => none
/-- What an AMO stores, of 4 or 8 bytes. -/
def rvAmo (f5 n old b : Nat) : Option Nat :=
  let m := 2 ^ (8 * n)
  let x := old % m
  let y := b % m
  let sx : Int := (rvSx (8 * n) x).toInt
  let sy : Int := (rvSx (8 * n) y).toInt
  match f5 with
  | 0x00 => some ((x + y) % m)
  | 0x01 => some y
  | 0x04 => some (x ^^^ y)
  | 0x08 => some (x ||| y)
  | 0x0C => some (x &&& y)
  | 0x10 => some (if sx ≤ sy then x else y)
  | 0x14 => some (if sy ≤ sx then x else y)
  | 0x18 => some (min x y)
  | 0x1C => some (max x y)
  | _ => none

/-! ## Floating point -/

def fp64 : Format := ⟨11, 52, 1023, .ieee⟩
/-- The format of the `fmt` field, and its width. -/
def rvFmt (n : Nat) : Option Format :=
  match n with
  | 0 => some fp32 | 1 => some fp64 | 2 => some fp16 | _ => none
def Format.width (f : Format) : Nat := 1 + f.eb + f.mb
/-- A value in a register, NaN-boxed, and reading one: one that is not boxed reads as the canonical NaN. -/
def rvBox (f : Format) (x : Nat) : W64 := BitVec.ofNat 64 (x % 2 ^ f.width + (2 ^ 64 - 2 ^ f.width))
def rvUnbox (f : Format) (r : W64) : Nat :=
  if f.width == 64 || r.toNat / 2 ^ f.width == 2 ^ (64 - f.width) - 1 then r.toNat % 2 ^ f.width else f.qnan
/-- The rounding rule of an `rm` field under `frm`; 5 and 6 are reserved. -/
def rvRound (rm frm : Nat) : Option Rounding :=
  match (if rm == 7 then frm else rm) with
  | 0 => some (.mode .rn) | 1 => some (.mode .rz) | 2 => some (.mode .rd) | 3 => some (.mode .ru) | 4 => some .away | _ => none
/-- A finite value in a format: its encoding and flags, tininess found after rounding. -/
def rvFin (f : Format) (k : Rounding) (neg : Bool) (man : Nat) (exp : Int) : FpRes :=
  if man == 0 then { val := f.sign neg }
  else
    let (c, inexact) := f.roundMag k neg man exp
    let q := exp + Nat.log2 man - f.mb
    let n := (roundUnits k neg man exp q).1
    let tiny := q + Nat.log2 n < f.qmin + f.mb
    if f.maxCode < c then { val := f.overflow k false neg, flags := fOF ||| fNX }
    else { val := f.sign neg + c, flags := flagIf inexact fNX ||| flagIf (inexact && tiny) fUF }
/-- The exact sum of two finite values, rounded once. -/
def rvSum (f : Format) (k : Rounding) (n1 : Bool) (m1 : Nat) (e1 : Int) (n2 : Bool) (m2 : Nat) (e2 : Int) : FpRes :=
  let q := min e1 e2
  let t := signedUnits n1 m1 e1 q + signedUnits n2 m2 e2 q
  if t == 0 then { val := f.sign (if m1 == 0 && m2 == 0 && n1 == n2 then n1 else k == .mode .rd) }
  else rvFin f k (t < 0) t.natAbs q
/-- x × y + z with one rounding. -/
def rvFma (f : Format) (k : Rounding) (x y z : FV) : FpRes :=
  if zeroTimesInf x y then f.nanRes [z] true
  else if x.isNan || y.isNan || z.isNan then f.nanRes [x, y, z] false
  else match x, y, z with
    | .fin n1 m1 e1, .fin n2 m2 e2, .fin n3 m3 e3 => rvSum f k (n1 != n2) (m1 * m2) (e1 + e2) n3 m3 e3
    | .fin _ _ _, .fin _ _ _, .inf n3 => { val := f.infCode n3 }
    | _, _, .inf n3 => if (x.neg != y.neg) == n3 then { val := f.infCode n3 } else f.nanRes [] true
    | _, _, _ => { val := f.infCode (x.neg != y.neg) }
/-- x + y. -/
def rvAdd (f : Format) (k : Rounding) (x y : FV) : FpRes :=
  match x, y with
  | .fin n1 m1 e1, .fin n2 m2 e2 => rvSum f k n1 m1 e1 n2 m2 e2
  | .inf n1, .inf n2 => if n1 == n2 then { val := f.infCode n1 } else f.nanRes [] true
  | .inf n1, .fin _ _ _ => { val := f.infCode n1 }
  | .fin _ _ _, .inf n2 => { val := f.infCode n2 }
  | _, _ => f.nanRes [x, y] false
/-- x × y. -/
def rvMul (f : Format) (k : Rounding) (x y : FV) : FpRes :=
  if x.isNan || y.isNan then f.nanRes [x, y] false
  else if zeroTimesInf x y then f.nanRes [] true
  else match x, y with
    | .fin n1 m1 e1, .fin n2 m2 e2 => rvFin f k (n1 != n2) (m1 * m2) (e1 + e2)
    | _, _ => { val := f.infCode (x.neg != y.neg) }
/-- x / y: the quotient to 160 bits and a sticky bit. -/
def rvQuot (f : Format) (k : Rounding) (x y : FV) : FpRes :=
  if x.isNan || y.isNan then f.nanRes [x, y] false
  else if (x.isZero && y.isZero) || (x.isInf && y.isInf) then f.nanRes [] true
  else
    let neg := x.neg != y.neg
    match x, y with
    | .fin _ m1 e1, .fin _ m2 e2 =>
      if m2 == 0 then { val := f.infCode neg, flags := fDZ }
      else
        let n := m1 * 2 ^ 160
        rvFin f k neg (2 * (n / m2) + (if n % m2 == 0 then 0 else 1)) (e1 - e2 - 161)
    | .inf _, _ => { val := f.infCode neg }
    | _, _ => { val := f.sign neg }
/-- √x. -/
def rvSqrt (f : Format) (k : Rounding) (x : FV) : FpRes :=
  match x with
  | .nan _ _ => f.nanRes [x] false
  | .inf neg => if neg then f.nanRes [] true else { val := f.infCode false }
  | .fin neg man exp =>
    if man == 0 then { val := f.sign neg }
    else if neg then f.nanRes [] true
    else
      let (man, exp) := if exp % 2 == 0 then (man, exp) else (2 * man, exp - 1)
      let n := man * 2 ^ 160
      let r := natSqrt n
      rvFin f k false (2 * r + (if r * r == n then 0 else 1)) (exp / 2 - 81)
/-- The class mask. -/
def rvClass (f : Format) (x : Nat) : Nat :=
  let sub := x % 2 ^ (f.eb + f.mb) < 2 ^ f.mb
  match f.unpack x with
  | .nan s _ => if s then 2 ^ 8 else 2 ^ 9
  | .inf n => if n then 2 ^ 0 else 2 ^ 7
  | .fin n m _ =>
    if m == 0 then (if n then 2 ^ 3 else 2 ^ 4)
    else if n then (if sub then 2 ^ 2 else 2 ^ 1) else if sub then 2 ^ 5 else 2 ^ 6
/-- A value as an integer of k bits, signed or not; out of range and NaN are invalid, with the nearest or the largest value. -/
def rvToInt (k : Rounding) (bits : Nat) (signed : Bool) (v : FV) : FpRes :=
  let lo : Int := if signed then -(2 ^ (bits - 1)) else 0
  let hi : Int := if signed then 2 ^ (bits - 1) - 1 else 2 ^ bits - 1
  let enc (i : Int) : Nat := (rvSx bits (BitVec.ofInt 64 i).toNat).toNat
  match v with
  | .nan _ _ => { val := enc hi, flags := fIV }
  | .inf n => { val := enc (if n then lo else hi), flags := fIV }
  | .fin neg man exp =>
    let (n, inexact) := roundUnits k neg man exp 0
    let i : Int := if neg then -n else n
    if i < lo then { val := enc lo, flags := fIV }
    else if hi < i then { val := enc hi, flags := fIV }
    else { val := enc i, flags := flagIf inexact fNX }
/-- An integer in a format. -/
def rvOfInt (f : Format) (k : Rounding) (i : Int) : FpRes := rvFin f k (i < 0) i.natAbs 0
/-- A value of one format in another. -/
def rvConvert (f : Format) (k : Rounding) (v : FV) : FpRes :=
  match v with
  | .nan _ _ => f.nanRes [v] false
  | .inf n => { val := f.infCode n }
  | .fin neg man exp => rvFin f k neg man exp

/-- What a computational floating-point instruction writes: an x register's value, or a boxed f register's. -/
inductive RvFpOut where
  | toX (v : W64) (flags : BitVec 5)
  | toF (v : W64) (flags : BitVec 5)
  deriving DecidableEq, Repr
/-- A result in a format. -/
def rvOutF (f : Format) (r : FpRes) : RvFpOut := .toF (rvBox f r.val) r.flags
/-- The multiply-adds: opcodes 0x43 fmadd, 0x47 fmsub, 0x4B fnmsub, 0x4F fnmadd. -/
def rvFpMadd (op fmt : Nat) (k : Rounding) (a b c : W64) : Option RvFpOut :=
  (rvFmt fmt).map fun f =>
    let x := f.unpack (rvUnbox f a)
    let y := f.unpack (rvUnbox f b)
    let z := f.unpack (rvUnbox f c)
    let x := if op == 0x4B || op == 0x4F then x.negate else x
    let z := if op == 0x47 || op == 0x4F then z.negate else z
    rvOutF f (rvFma f k x y z)
/-- OP-FP with `funct5`, `fmt`, the `rs2` field and `rm`; a and b are f registers, x the x register. The rounding is needed only where
the instruction rounds. -/
def rvFp (f5 fmt rs2 rm : Nat) (k : Option Rounding) (a b x : W64) : Option RvFpOut :=
  match rvFmt fmt with
  | none => none
  | some f =>
    let p := rvUnbox f a
    let q := rvUnbox f b
    let u := f.unpack p
    let v := f.unpack q
    let top := 2 ^ (f.width - 1)
    let rounds (g : Rounding → FpRes) : Option RvFpOut := k.map fun k => rvOutF f (g k)
    let flag (c : Bool) (invalid : Bool) : Option RvFpOut :=
      some (.toX (if c then 1#64 else 0#64) (flagIf (invalid || u.sig || v.sig) fIV))
    let ordered := !u.isNan && !v.isNan
    match f5 with
    | 0x00 => rounds fun k => rvAdd f k u v
    | 0x01 => rounds fun k => rvAdd f k u v.negate
    | 0x02 => rounds fun k => rvMul f k u v
    | 0x03 => rounds fun k => rvQuot f k u v
    | 0x0B => if rs2 == 0 then rounds fun k => rvSqrt f k u else none
    | 0x04 =>
      let mag := p % top
      let s := p / top
      let t := q / top
      match rm with
      | 0 => some (.toF (rvBox f (mag + t * top)) 0#5)
      | 1 => some (.toF (rvBox f (mag + (1 - t) * top)) 0#5)
      | 2 => some (.toF (rvBox f (mag + (s + t) % 2 * top)) 0#5)
      | _ => none
    | 0x05 => if rm ≤ 1 then some (rvOutF f (f.minMax (rm == 1) true p u q v)) else none
    | 0x14 =>
      match rm with
      | 0 => flag (ordered && f.holds .le p q) (!ordered)
      | 1 => flag (ordered && f.holds .lt p q) (!ordered)
      | 2 => flag (ordered && f.holds .eq p q) false
      | _ => none
    | 0x18 =>
      if 3 < rs2 then none
      else k.map fun k => let r := rvToInt k (if rs2 < 2 then 32 else 64) (rs2 % 2 == 0) u; .toX (BitVec.ofNat 64 r.val) r.flags
    | 0x1A =>
      let i : Int := match rs2 with
        | 0 => (x.setWidth 32).toInt
        | 1 => (x.setWidth 32).toNat
        | 2 => x.toInt
        | _ => x.toNat
      if 3 < rs2 then none else rounds fun k => rvOfInt f k i
    | 0x1C =>
      if rs2 != 0 then none
      else match rm with
        | 0 => some (.toX (rvSx f.width (a.toNat % 2 ^ f.width)) 0#5)
        | 1 => some (.toX (BitVec.ofNat 64 (rvClass f p)) 0#5)
        | _ => none
    | 0x1E => if rs2 == 0 && rm == 0 then some (.toF (rvBox f x.toNat) 0#5) else none
    | 0x08 =>
      if rs2 == fmt then none
      else match rs2 with
        | 6 => if fmt == 0 then rounds fun k => rvConvert f k (bf16.unpack (rvUnbox bf16 a)) else none
        | 8 => if fmt == 2 then k.map fun k => rvOutF bf16 (rvConvert bf16 k (fp32.unpack (rvUnbox fp32 a))) else none
        | n => match rvFmt n with
          | some g => rounds fun k => rvConvert f k (g.unpack (rvUnbox g a))
          | none => none
    | _ => none

end Sys2Proof.Machine
end

