-- ==== Sys2Proof/Machine/Hart.lean ====
section
/-!
DEFINITION. The cores that run RISC-V code: the Corrie harts (16_corrie.md R373 to R375, R377, R381, R385, R388) and the Ridge
cores (17_host_ridge_firmware.md R409). Their CSRs, interrupts and traps, their address spaces, and one step of each. What the
manual takes from the RISC-V standard is marked in log entry 121.
-/

namespace Sys2Proof.Machine

/-- A core that runs RISC-V code. -/
inductive RvCore where
  | corrie (h : Nat)
  | ridge (k : Nat)
  deriving DecidableEq, Repr
/-- It has floating point, bit manipulation and S-mode (R373, R409). -/
def RvCore.full (c : RvCore) : Bool :=
  match c with
  | .corrie _ => true
  | .ridge _ => false
def State.rv (s : State) (c : RvCore) : Hart :=
  match c with
  | .corrie h => s.hart h
  | .ridge k => s.ridge.cores.getD k {}
def State.updRv (s : State) (c : RvCore) (f : Hart → Hart) : State :=
  match c with
  | .corrie h => s.updHart h f
  | .ridge k => s.updRidge fun r => { r with cores := r.cores.set k (f (s.rv c)) }
/-- It runs. -/
def State.rvOn (s : State) (c : RvCore) : Bool :=
  match c with
  | .corrie h => s.hartOn h
  | .ridge _ => (s.rv c).started

/-! ## Registers -/

/-- A CSR's stored value. -/
def Hart.rcsr (x : Hart) (n : Nat) : W64 := x.csr.getD n 0#64
def Hart.wcsr (x : Hart) (n : Nat) (v : W64) : Hart := { x with csr := x.csr.put n v 0#64 }
/-- A register; x0 is 0, and no write reaches it. -/
def Hart.xr (x : Hart) (r : Nat) : W64 := x.x.getD r 0#64
def Hart.setX (x : Hart) (r : Nat) (v : W64) : Hart := if r == 0 then x else { x with x := x.x.put r v 0#64 }
def Hart.fr (x : Hart) (r : Nat) : W64 := x.f.getD r 0#64
/-- RISC-V CSR addresses that the model uses. -/
def csrFcsr : Nat := 0x003
def csrSatp : Nat := 0x180
def csrMstatus : Nat := 0x300
def csrMedeleg : Nat := 0x302
def csrMideleg : Nat := 0x303
def csrMie : Nat := 0x304
def csrMip : Nat := 0x344
def csrMcycle : Nat := 0xB00
def csrMinstret : Nat := 0xB02
/-- Bits of `mstatus`. -/
def Hart.ms (x : Hart) (k : Nat) : Bool := (x.rcsr csrMstatus).getLsbD k
/-- Its FS field, and marking the floating-point state dirty. -/
def Hart.fs (x : Hart) : Nat := bitsOf (x.rcsr csrMstatus).toNat 14 13
def Hart.dirty (x : Hart) : Hart := x.wcsr csrMstatus (x.rcsr csrMstatus ||| 0x6000#64)
def Hart.setF (x : Hart) (r : Nat) (v : W64) : Hart := ({ x with f := x.f.put r v 0#64 } : Hart).dirty
def Hart.orFlags (x : Hart) (b : BitVec 5) : Hart := if b == 0#5 then x else (x.wcsr csrFcsr (x.rcsr csrFcsr ||| b.setWidth 64)).dirty
/-- The number of a mode in MPP, and the mode of a number. -/
def HartMode.num (m : HartMode) : Nat :=
  match m with
  | .machine => 3 | .supervisor => 1 | .user => 0
def modeOf (n : Nat) : HartMode := if n == 3 then .machine else if n == 1 then .supervisor else .user

/-! ## Traps and interrupts (R385, R390) -/

/-- A trap of the hart by the RISC-V privileged architecture: cause, value, and the mode that takes it. -/
def Hart.trap (x : Hart) (cause val : W64) (toS : Bool) : Hart :=
  let ms := x.rcsr csrMstatus
  let b (k : Nat) : Nat := if ms.getLsbD k then 1 else 0
  let tvec := x.rcsr (if toS then 0x105 else 0x305)
  let base := tvec &&& ~~~ 3#64
  let pc := if tvec.getLsbD 0 && cause.getLsbD 63 then base + 4#64 * (cause &&& 0x7FFFFFFFFFFFFFFF#64) else base
  let ms' := if toS
    then (ms &&& ~~~ 0x122#64) ||| BitVec.ofNat 64 (b 1 * 2 ^ 5 + (if x.mode == .user then 0 else 2 ^ 8))
    else (ms &&& ~~~ 0x1888#64) ||| BitVec.ofNat 64 (b 3 * 2 ^ 7 + x.mode.num * 2 ^ 11)
  let o := if toS then 0x140 else 0x340
  { (((x.wcsr csrMstatus ms').wcsr (o + 1) x.pc).wcsr (o + 2) cause).wcsr (o + 3) val with
    mode := if toS then .supervisor else .machine, pc := pc }
/-- An exception of the RISC-V standard, which `medeleg` may give to S-mode. -/
def State.rvRaise (s : State) (c : RvCore) (cause : Nat) (val : W64) : State :=
  s.updRv c fun x => x.trap (BitVec.ofNat 64 cause) val (x.mode != .machine && (x.rcsr csrMedeleg).getLsbD cause)
/-- The returns from M-mode and from S-mode. -/
def Hart.mret (x : Hart) : Hart :=
  let ms := x.rcsr csrMstatus
  let mpp := bitsOf ms.toNat 12 11
  let keep := ms &&& ~~~ (if mpp == 3 then 0x1888#64 else 0x21888#64)
  { x.wcsr csrMstatus (keep ||| (if x.ms 7 then 0x88#64 else 0x80#64)) with mode := modeOf mpp, pc := x.rcsr 0x341 }
def Hart.sret (x : Hart) : Hart :=
  let keep := x.rcsr csrMstatus &&& ~~~ 0x20122#64
  { x.wcsr csrMstatus (keep ||| (if x.ms 5 then 0x22#64 else 0x20#64)) with mode := if x.ms 8 then .supervisor else .user, pc := x.rcsr 0x141 }

/-- The events of `sevie`: column entries, column room, actions waiting. -/
def State.hartEvents (s : State) (h : Nat) : Nat :=
  (List.range 4).foldl (fun n c =>
    let k := s.core (hartCore h c)
    n + (if k.down.isEmpty then 0 else 2 ^ c) + (if k.up.length < fifoDepth then 2 ^ (4 + c) else 0)) 0 +
  (List.range 8).foldl (fun n i => match s.window (epOf h i) with
    | some w => if s.held w false != 0 then n + 2 ^ (8 + i) else n
    | none => n) 0
/-- Pending platform interrupts 16 to 18. -/
def State.platformPending (s : State) (h : Nat) : List Nat :=
  let x := s.hart h
  (if x.mwdog != 0 then [17] else []) ++ (if x.gateReq then [18] else []) ++
  (if (BitVec.ofNat 16 (s.hartEvents h)) &&& x.sevie != 0#16 then [16] else [])
/-- The interrupts that software sets in `mip` (R375, R385). -/
def mipSoft : W64 := 0x222#64
/-- `mip` and `mie`; bit 17 of `mie` is hardwired to 1 (R385). -/
def State.mip (s : State) (c : RvCore) : W64 :=
  match c with
  | .corrie h => ((s.rv c).rcsr csrMip) ||| BitVec.ofNat 64 ((s.platformPending h).map (2 ^ ·)).sum
  | .ridge _ => 0#64
def State.mie (s : State) (c : RvCore) : W64 := (s.rv c).rcsr csrMie ||| (if c.full then 0x20000#64 else 0#64)
/-- The interrupts that M-mode can delegate: the standard ones of S-mode, and 16 (R385). -/
def delegable : W64 := 0x10222#64
/-- The order in which interrupts of one mode are taken: the platform's, then the standard ones in the standard's order (R385). -/
def intOrder : List Nat := [17, 18, 16, 11, 3, 7, 9, 1, 5]
/-- An interrupt can be taken in a mode: in M-mode those that are not delegated, in S-mode those that are; a mode above the hart's always
can, and its own with its enable bit. -/
def Hart.takes (x : Hart) (n : Nat) (toS : Bool) : Bool :=
  (x.rcsr csrMideleg &&& delegable).getLsbD n == toS &&
  (match x.mode with
   | .machine => !toS && x.ms 3
   | .supervisor => !toS || x.ms 1
   | .user => true)
/-- An interrupt is pending and enabled in `mie`. -/
def State.intReady (s : State) (c : RvCore) : List Nat := intOrder.filter fun n => (s.mip c &&& s.mie c).getLsbD n
/-- The interrupt that the core takes now, with whether S-mode takes it: one of M-mode before one of S-mode. -/
def State.pickInt (s : State) (c : RvCore) : Option (Nat × Bool) :=
  let x := s.rv c
  match (s.intReady c).find? fun n => x.takes n false with
  | some n => some (n, false)
  | none => ((s.intReady c).find? fun n => x.takes n true).map fun n => (n, true)
/-- Taking an interrupt clears PARK and ends `wfi` and `pause` (R373, R390). -/
def State.takeInt (s : State) (c : RvCore) (n : Nat) (toS : Bool) : State :=
  s.updRv c fun x => { x.trap (BitVec.ofNat 64 (2 ^ 63 + n)) 0#64 toS with park := false, wfi := false, stall := 0 }
/-- A platform interrupt that the hart takes next. -/
def execPlatformInterrupt (h : Nat) (s : State) : Out :=
  .next (if !s.hartOn h then s
    else match s.pickInt (.corrie h) with
      | some (n, toS) => if 16 ≤ n then s.takeInt (.corrie h) n toS else s
      | none => s)

/-! ## CSRs (R375, R385) -/

/-- The CSR is one of the module's own. -/
def customCsr (n : Nat) : Bool := [0xFC0, 0x7C0, 0x7C1, 0x7C2, 0x7C3, 0x7C4, 0x7C5, 0x7C6, 0x7C7, 0x5C0, 0x5C1, 0xDC0, 0xCC0].contains n
/-- The CSRs that a core has: those of M-mode, and for a Corrie hart those of F, of S-mode, of R375 and its own. -/
def RvCore.hasCsr (c : RvCore) (n : Nat) : Bool :=
  [0x300, 0x301, 0x304, 0x305, 0x306, 0x30A, 0x320, 0x340, 0x341, 0x342, 0x343, 0x344, 0x3A0, 0x3A2, 0xB00, 0xB02, 0xF11, 0xF12, 0xF13,
   0xF14, 0xF15].contains n || (0x3B0 ≤ n && n < 0x3C0) || (0xB03 ≤ n && n < 0xB20) || (0x323 ≤ n && n < 0x340) ||
  (c.full && (customCsr n || [0x001, 0x002, 0x003, 0x100, 0x104, 0x105, 0x106, 0x10A, 0x140, 0x141, 0x142, 0x143, 0x144, 0x180, 0x302, 0x303,
    0xC00, 0xC01, 0xC02].contains n))
/-- The core may access a CSR in its mode: the CSR is there, it is not written where it is read-only, the floating-point ones are on, the
counters are enabled, and `satp` is not trapped. -/
def State.csrAllowed (s : State) (c : RvCore) (n : Nat) (writes : Bool) : Bool :=
  let x := s.rv c
  c.hasCsr n && bitsOf n 9 8 ≤ x.mode.num && !(writes && bitsOf n 11 10 == 3) &&
  (n ∉ [0x001, 0x002, 0x003] || x.fs != 0) &&
  (n ∉ [0xC00, 0xC01, 0xC02] || ((x.mode == .machine || (x.rcsr 0x306).getLsbD (n % 4)) && (x.mode != .user || (x.rcsr 0x106).getLsbD (n % 4)))) &&
  !(n == csrSatp && x.mode == .supervisor && x.ms 20)
/-- `mstatus` as it reads: SXL, UXL and SD with what is stored. -/
def State.mstatus (s : State) (c : RvCore) : W64 :=
  let x := s.rv c
  x.rcsr csrMstatus ||| (if c.full then 0xA00000000#64 else 0x200000000#64) ||| (if x.fs == 3 then 0x8000000000000000#64 else 0#64)
/-- The number of the core in `mhartid`. -/
def RvCore.id (c : RvCore) : Nat :=
  match c with
  | .corrie h => h
  | .ridge k => k
/-- Reading one of the Corrie's own CSRs (R385). -/
def State.customValue (s : State) (h n : Nat) : Nat :=
  let x := s.hart h
  let e := epOf h x.mepsel
  let k := x.slotRec x.mepsel
  match n with
  | 0xFC0 => hartDom h + h % 28 * 2 ^ 6
  | 0x7C0 => x.mepsel
  | 0x7C1 => (match s.window e with
      | some w => let r := s.epRec w; r.status + (if r.mixed then 2 ^ 8 else 0)
      | none => 0) + (if k.active then 2 ^ 9 else 0)
  | 0x7C2 => k.insBud
  | 0x7C3 => k.cycBud
  | 0x7C4 => k.ins
  | 0x7C5 => k.cyc
  | 0x7C6 => x.mwdog
  | 0x7C7 => (if x.gateReq then 1 else 0) + (if x.park then 2 else 0)
  | 0x5C0 => x.scurslot + (if x.scurValid then 2 ^ 8 else 0)
  | 0x5C1 => x.sevie.toNat
  | 0xDC0 => (List.range 4).foldl (fun t c =>
      let y := s.core (hartCore h c)
      t + y.down.length * 2 ^ (8 * c) + (fifoDepth - y.up.length) * 2 ^ (32 + 8 * c)) 0
  | _ => (s.stamp (hartDom h)).toNat
/-- Reading a CSR. -/
def State.csrValue (s : State) (c : RvCore) (n : Nat) : W64 :=
  let x := s.rv c
  let own : Option Nat := match c with
    | .corrie h => if customCsr n then some h else none
    | .ridge _ => none
  match own with
  | some h => BitVec.ofNat 64 (s.customValue h n)
  | none => match n with
    | 0x001 => x.rcsr csrFcsr &&& 0x1F#64
    | 0x002 => (x.rcsr csrFcsr >>> 5) &&& 7#64
    | 0x100 => s.mstatus c &&& 0x80000003000C6122#64
    | 0x104 => s.mie c &&& x.rcsr csrMideleg
    | 0x144 => s.mip c &&& x.rcsr csrMideleg
    | 0x300 => s.mstatus c
    | 0x301 => if c.full then 0x800000000014112D#64 else 0x8000000000101105#64
    | 0x304 => s.mie c
    | 0x344 => s.mip c
    | 0xC00 => x.rcsr csrMcycle
    | 0xC01 => BitVec.ofNat 64 s.now
    | 0xC02 => x.rcsr csrMinstret
    | 0xF14 => BitVec.ofNat 64 c.id
    | _ => x.rcsr n
/-- Writing one of the Corrie's own CSRs. In one that is a single field a value above its range stores the largest; elsewhere the bits
outside the fields are RES0 (R385). -/
def Hart.customWrite (x : Hart) (n : Nat) (v : W64) : Hart :=
  match n with
  | 0x7C0 => { x with mepsel := min v.toNat 7 }
  | 0x7C2 => x.updSlot x.mepsel fun k => { k with insBud := min v.toNat (2 ^ 48 - 1) }
  | 0x7C3 => x.updSlot x.mepsel fun k => { k with cycBud := min v.toNat (2 ^ 48 - 1) }
  | 0x7C7 => { x with park := v.getLsbD 1 }
  | 0x5C0 => { x with scurslot := v.toNat % 8, scurValid := v.getLsbD 8 }
  | 0x5C1 => { x with sevie := v.extractLsb' 0 16 }
  | _ => x

/-- The configuration and the address of a PMP entry. -/
def Hart.pmpCfg (x : Hart) (i : Nat) : Nat := (x.rcsr (0x3A0 + i / 8 * 2)).toNat / 2 ^ (8 * (i % 8)) % 2 ^ 8
def Hart.pmpAddr (x : Hart) (i : Nat) : Nat := (x.rcsr (0x3B0 + i)).toNat
def pmpLocked (cfg : Nat) : Bool := bitOf cfg 7
/-- A written configuration byte: bits 6 and 5 read 0, and W without R is reserved and not taken. -/
def pmpLegal (b : Nat) : Nat :=
  let b := b % 2 ^ 8 - b % 2 ^ 7 / 2 ^ 5 * 2 ^ 5
  if b % 4 == 2 then b - 2 else b
/-- Writing a PMP CSR: a locked entry keeps its configuration and its address, and the entry below a locked one that takes it as its base
keeps its address. -/
def Hart.pmpWrite (x : Hart) (n : Nat) (v : W64) : Hart :=
  if n < 0x3B0 then
    let first := (n - 0x3A0) / 2 * 8
    x.wcsr n (BitVec.ofNat 64 ((List.range 8).map fun i =>
      (if pmpLocked (x.pmpCfg (first + i)) then x.pmpCfg (first + i) else pmpLegal (v.toNat / 2 ^ (8 * i) % 2 ^ 8)) * 2 ^ (8 * i)).sum)
  else
    let i := n - 0x3B0
    let above := x.pmpCfg (i + 1)
    if pmpLocked (x.pmpCfg i) || (i < 15 && pmpLocked above && above / 8 % 4 == 1) then x else x.wcsr n (v &&& 0x3FFFFFFFFFFFFF#64)

/-- The bits of a CSR that take a write, where others keep what they hold. -/
def Hart.wbits (x : Hart) (n : Nat) (mask v : W64) : Hart := x.wcsr n ((x.rcsr n &&& ~~~ mask) ||| (v &&& mask))
/-- Writing `mstatus`: MPP takes only a mode that the core has. -/
def Hart.wmstatus (x : Hart) (full : Bool) (v : W64) : Hart :=
  let mpp := bitsOf v.toNat 12 11
  let v := if mpp == 2 || (mpp == 1 && !full) then v &&& ~~~ 0x1800#64 else v
  x.wbits csrMstatus (if full then 0x7E79AA#64 else 0x221888#64) v
/-- Writing a CSR. -/
def State.csrWrite (s : State) (c : RvCore) (n : Nat) (v : W64) : State :=
  let own : Option Nat := match c with
    | .corrie h => if customCsr n then some h else none
    | .ridge _ => none
  match own with
  | some h => if n == 0x7C1 then s.arbSend h 60 (.command h (s.hart h).mepsel v) else s.updHart h fun x => x.customWrite n v
  | none => s.updRv c fun x =>
    let deleg := x.rcsr csrMideleg
    let full := c.full
    match n with
    | 0x001 => (x.wbits csrFcsr 0x1F#64 v).dirty
    | 0x002 => (x.wbits csrFcsr 0xE0#64 (v <<< 5)).dirty
    | 0x003 => (x.wbits csrFcsr 0xFF#64 v).dirty
    | 0x100 => x.wbits csrMstatus 0xC6122#64 v
    | 0x104 => x.wbits csrMie (deleg &&& delegable) v
    | 0x144 => x.wbits csrMip (deleg &&& 2#64) v
    | 0x180 => if bitsOf v.toNat 63 60 == 0 || bitsOf v.toNat 63 60 == 8 then x.wcsr n v else x
    | 0x300 => x.wmstatus full v
    | 0x302 => x.wbits n 0xB35D#64 v
    | 0x303 => x.wbits n delegable v
    | 0x304 => x.wbits n (if full then 0x50AAA#64 else 0x888#64) v
    | 0x344 => x.wbits n (if full then mipSoft else 0#64) v
    | 0x105 | 0x305 => x.wbits n (~~~ 2#64) v
    | 0x141 | 0x341 => x.wbits n (~~~ 1#64) v
    | 0x106 | 0x306 => x.wbits n 7#64 v
    | 0x320 => x.wbits n 5#64 v
    | 0x10A | 0x30A => x.wbits n 1#64 v
    | 0x140 | 0x142 | 0x143 | 0x340 | 0x342 | 0x343 | 0xB00 | 0xB02 => x.wcsr n v
    | _ => if 0x3A0 ≤ n && n < 0x3C0 then x.pmpWrite n v else x

/-! ## Physical accesses (R374, R377, R409) -/

/-- What a hart's physical address names. -/
inductive HartPlace where
  | sram (off : Nat)
  | step (slot off : Nat)
  | fifo (col off : Nat)
  | window (part : Nat)
  | none
  deriving DecidableEq, Repr
/-- The part of the window that an access of n bytes lies in, which it may not cross: 0 the part that a hart reads, 1 the
observation payloads, 2 the private memory. -/
def windowPart (w : Window) (off n : Nat) : Option Nat :=
  let k (o : Nat) : Nat := if o < 0x2000 + 16 * w.p then 0 else if o < 0x2000 + 32 * w.p then 1 else 2
  if off + n ≤ 2 ^ 16 * w.size && n != 0 && k off == k (off + n - 1) then some (k off) else none
/-- The base of the hart-local region. -/
def hartLocal : Nat := 2 ^ 42
def State.hartPlace (s : State) (h a n : Nat) : HartPlace :=
  let base := hartLocal
  if base ≤ a && a + n ≤ base + 2 ^ 20 then .sram (a - base)
  else if base + 0x100000 ≤ a && a < base + 0x100200 then
    if n == 8 && a % 8 == 0 then .step ((a - base - 0x100000) / 64) (a % 64) else .none
  else if base + 0x101000 ≤ a && a < base + 0x101400 then
    if n == 8 && a % 8 == 0 then .fifo ((a - base - 0x101000) / 256) (a % 256) else .none
  else
    match (List.range 8).findSome? fun i => match s.window (epOf h i) with
      | some w => if w.base ≤ a then windowPart w (a - w.base) n else Option.none
      | none => Option.none with
    | some k => .window k
    | none => .none
/-- A port read (R381, R388). -/
def State.portRead (s : State) (h : Nat) (p : HartPlace) : Nat :=
  match p with
  | .step slot off => if off == 0x10 then ((s.hart h).slotRec slot).pstat else 0
  | .fifo col off =>
    if off < 0x40 then natOfBytes ((((s.core (hartCore h col)).down.headD []).drop off).take 8)
    else if off == 0x90 then ((s.hart h).fstat.getD col 0#2).toNat else 0
  | _ => 0
/-- A port write. TAKE and POST set out for the arbiter, 60 cc away (R392). -/
def State.portWrite (s : State) (h : Nat) (p : HartPlace) (v : Nat) : State :=
  match p with
  | .step slot off =>
    if off == 0 then s.arbSend h 60 (.take h slot)
    else if off == 8 then s.arbSend h 60 (.post h slot (BitVec.ofNat 64 v)) else s
  | .fifo col off =>
    if 0x40 ≤ off && off < 0x80 then
      let put (l : List Byte) : List Byte := l.take (off - 0x40) ++ bytesOfNat 8 v ++ l.drop (off - 0x38)
      s.updHart h fun x => { x with pushbuf := x.pushbuf.upd col (List.replicate 64 0#8) put }
    else if off == 0x80 then s.popPort h col
    else if off == 0x88 then s.pushPort h col
    else if off == 0x90 then s.fstatPort h col (BitVec.ofNat 64 v) else s
  | _ => s
/-- A TAKE or POST of the hart, or a command of it, is on its way. -/
def State.portsBusy (s : State) (h : Nat) : Bool := (s.dom (hartDom h)).arb.any fun r =>
  match r.op with
  | .take k _ | .post k _ _ => k == h
  | _ => false
def State.commandsBusy (s : State) (h : Nat) : Bool := (s.dom (hartDom h)).arb.any fun r =>
  match r.op with
  | .command k _ _ => k == h
  | _ => false
/-- What an access meets: a value, an access fault, or a port whose earlier accesses have not been performed yet (R374). -/
inductive RvMem where
  | ok (v : Nat)
  | fault
  | wait
  deriving DecidableEq, Repr
/-- The oldest n of the stores that a hart has left for later are performed. -/
def State.landStores (s : State) (h : Nat) : Nat → State
  | 0 => s
  | n + 1 => match (s.hart h).stores with
    | [] => s
    | (pa, k, v) :: t => ((s.updHart h fun x => { x with stores := t }).homeWrite pa k v).landStores h n
/-- All of them: what a fence, a release and a port write wait for (R296, R374). -/
def State.landAll (s : State) (h : Nat) : State := s.landStores h (s.hart h).stores.length
/-- The stores up to the last that overlaps an access, which come before it. -/
def Hart.storesOn (x : Hart) (pa n : Nat) : Nat :=
  x.stores.zipIdx.foldl (fun m y => if overlap pa n y.1.1 y.1.2.1 then y.2 + 1 else m) 0
/-- A later store is performed, unless an older one overlaps it. -/
def State.landOne (s : State) (h k : Nat) : State :=
  let l := (s.hart h).stores
  match l[k]? with
  | none => s
  | some (pa, n, v) =>
    if (l.take k).any (fun y => overlap pa n y.1 y.2.1) then s
    else (s.updHart h fun x => { x with stores := x.stores.eraseIdx k }).homeWrite pa n v
/-- A hart's store of n bytes to a window: performed, or left for later (R296). -/
def State.hartStore (s : State) (h pa n v : Nat) : State :=
  if (s.hart h).late then s.updHart h fun x => { x with late := false, stores := x.stores ++ [(pa, n, v)] }
  else (s.landStores h ((s.hart h).storesOn pa n)).homeWrite pa n v
/-- Reading n bytes at a physical address. -/
def State.rvRead (s : State) (c : RvCore) (pa n : Nat) : State × RvMem :=
  match c with
  | .corrie h => match s.hartPlace h pa n with
    | .sram o => (s, .ok ((s.hart h).sram.read o n))
    | .window _ =>
      let s := s.landStores h ((s.hart h).storesOn pa n)
      if s.badIn pa n then (s, .fault) else let (s, v) := s.homeRead pa n; (s, .ok v)
    | .none => (s, .fault)
    | p => if s.portsBusy h then (s, .wait) else (s, .ok (s.portRead h p))
  | .ridge _ =>
    if hartLocal ≤ pa && pa + n ≤ hartLocal + 2 ^ 21 then (s, .ok ((s.rv c).sram.read (pa - hartLocal) n))
    else if s.badIn pa n || !s.sysUp pa then (s, .fault)
    else match s.place pa with
      | .none => (s, .fault)
      | .dram _ _ | .host _ _ | .peer _ _ => let (s, v) := s.homeRead pa n; (s, .ok v)
      | _ =>
        if (List.range n).any (fun k => s.windowBad (pa + k)) then (s, .fault) else
        let (s, l) := (List.range n).foldl (fun (x : State × List Byte) k => let (s, b) := x.1.windowByte (pa + k); (s, x.2 ++ [b])) (s, [])
        (s, .ok (natOfBytes l))
/-- Writing n bytes at a physical address. -/
def State.rvWrite (s : State) (c : RvCore) (pa n v : Nat) : State × RvMem :=
  match c with
  | .corrie h => match s.hartPlace h pa n with
    | .sram o => (s.updRv c fun x => { x with sram := x.sram.write o n v }, .ok 0)
    | .window k => if k == 0 then (s, .fault) else (s.hartStore h pa n v, .ok 0)
    | .none => (s, .fault)
    | .step slot off => ((s.landAll h).portWrite h (.step slot off) v, .ok 0)
    | p => if s.portsBusy h then (s, .wait) else ((s.landAll h).portWrite h p v, .ok 0)
  | .ridge _ =>
    if hartLocal ≤ pa && pa + n ≤ hartLocal + 2 ^ 21 then (s.updRv c fun x => { x with sram := x.sram.write (pa - hartLocal) n v }, .ok 0)
    else match s.place pa with
      | .none => (s, .fault)
      | .dram _ _ | .host _ _ | .peer _ _ => (s.homeWrite pa n v, .ok 0)
      | _ => (foldState (fun s (k : Nat) => s.setWindowByte (pa + k) (BitVec.ofNat 8 (v / 2 ^ (8 * k)))) (List.range n) s, .ok 0)
/-- Memory that takes AMOs, `lr` and `sc`: local SRAM, and what may be read and written of the windows and of DRAM (R296, R374). -/
def State.rvAtomic (s : State) (c : RvCore) (pa n : Nat) : Bool :=
  match c with
  | .corrie h => match s.hartPlace h pa n with
    | .sram _ => true
    | .window k => k != 0
    | _ => false
  | .ridge _ => (hartLocal ≤ pa && pa + n ≤ hartLocal + 2 ^ 21) || (match s.place pa with
    | .dram _ _ => true
    | _ => false)
/-- The write of an AMO or `sc`, which the sync engine of its home performs (R316). -/
def State.rvAtomWrite (s : State) (c : RvCore) (pa n v : Nat) : State :=
  let far := match c with
    | .corrie h => match s.hartPlace h pa n with
      | .window _ => true
      | _ => false
    | .ridge _ => !(hartLocal ≤ pa && pa + n ≤ hartLocal + 2 ^ 21)
  if far then s.homeAtom pa n v else (s.rvWrite c pa n v).1
/-- The core's number among those that hold reservations. -/
def RvCore.key (c : RvCore) : Nat :=
  match c with
  | .corrie h => h
  | .ridge k => 2 ^ 16 + k
/-- The reservation of a core ends, and another may begin. -/
def State.reserve (s : State) (c : RvCore) (r : Option (Nat × Nat)) : State :=
  { s with resv := s.resv.filter (fun y => y.1 != c.key) ++ r.toList.map fun y => (c.key, y.1, y.2) }
/-- What a fence or a release of a core waits for. -/
def State.rvFence (s : State) (c : RvCore) : State :=
  match c with
  | .corrie h => s.landAll h
  | .ridge _ => s
/-- Memory that holds code. -/
def State.rvCode (s : State) (c : RvCore) (pa n : Nat) : Bool :=
  match c with
  | .corrie h => match s.hartPlace h pa n with
    | .sram _ => true
    | .window k => k == 2
    | _ => false
  | .ridge _ => s.rvAtomic c pa n

/-! ## Protection and translation (R373) -/

/-- What an access is for. -/
inductive RvAcc where
  | fetch | load | store
  deriving DecidableEq, Repr
/-- The exceptions of an access: misaligned, access fault, page fault. -/
def RvAcc.misaligned (a : RvAcc) : Nat :=
  match a with
  | .fetch => 0 | .load => 4 | .store => 6
def RvAcc.fault (a : RvAcc) : Nat :=
  match a with
  | .fetch => 1 | .load => 5 | .store => 7
def RvAcc.page (a : RvAcc) : Nat :=
  match a with
  | .fetch => 12 | .load => 13 | .store => 15
/-- The number of ones at the low end of a number. -/
def lowOnes : Nat → Nat → Nat
  | 0, _ => 0
  | k + 1, n => if n % 2 == 1 then 1 + lowOnes k (n / 2) else 0
/-- The addresses that a PMP entry covers: base and end. -/
def Hart.pmpRange (x : Hart) (i : Nat) : Option (Nat × Nat) :=
  let a := x.pmpAddr i
  match x.pmpCfg i / 8 % 4 with
  | 0 => none
  | 1 => some (4 * (if i == 0 then 0 else x.pmpAddr (i - 1)), 4 * a)
  | 2 => some (4 * a, 4 * a + 4)
  | _ =>
    let t := lowOnes 54 a
    let base := a / 2 ^ (t + 1) * 2 ^ (t + 1) * 4
    some (base, base + 2 ^ (t + 3))
/-- The PMP allows an access: the lowest entry that covers a byte of it covers all of it and permits it; M-mode is bound only by a
locked entry, and another mode needs an entry unless all are off, as they are at a hart's start (R375, R512; DEDUCED, log entry 130). -/
def Hart.pmpAllows (x : Hart) (m : HartMode) (pa n : Nat) (a : RvAcc) : Bool :=
  match (List.range 16).findSome? fun i => match x.pmpRange i with
    | some (lo, hi) => if pa < hi && lo < pa + n then some (i, lo ≤ pa && pa + n ≤ hi) else none
    | none => none with
  | none => m == .machine || (List.range 16).all fun i => (x.pmpRange i).isNone
  | some (i, whole) =>
    let cfg := x.pmpCfg i
    let bit := match a with
      | .load => 0 | .store => 1 | .fetch => 2
    whole && ((m == .machine && !pmpLocked cfg) || bitOf cfg bit)
/-- The mode whose rights an access has: with MPRV, that of MPP for loads and stores. -/
def Hart.rights (x : Hart) (a : RvAcc) : HartMode :=
  if a != .fetch && x.mode == .machine && x.ms 17 then modeOf (bitsOf (x.rcsr csrMstatus).toNat 12 11) else x.mode
/-- A leaf permits an access in a mode. One whose A bit, or on a store whose D bit, is 0 does not: software sets them. -/
def Hart.leafPermits (x : Hart) (m : HartMode) (a : RvAcc) (pte : Nat) : Bool :=
  (if m == .user then bitOf pte 4 else !bitOf pte 4 || (x.ms 18 && a != .fetch)) &&
  (match a with
   | .load => bitOf pte 1 || (x.ms 19 && bitOf pte 3)
   | .store => bitOf pte 2 && bitOf pte 7
   | .fetch => bitOf pte 3) && bitOf pte 6
/-- The Sv39 walk from a level's table, the levels left counted from 1; the physical address, or the exception. -/
def State.sv39 (c : RvCore) (m : HartMode) (a : RvAcc) (va : Nat) : Nat → Nat → State → State × Except Nat Nat
  | 0, _, s => (s, .error a.page)
  | k + 1, table, s =>
    let x := s.rv c
    let place := table * 2 ^ 12 + 8 * (va / 2 ^ (12 + 9 * k) % 2 ^ 9)
    if !x.pmpAllows .supervisor place 8 .load then (s, .error a.fault)
    else match s.rvRead c place 8 with
      | (s, .ok pte) =>
        let r := bitOf pte 1
        let w := bitOf pte 2
        if !bitOf pte 0 || (!r && w) || 2 ^ 54 ≤ pte then (s, .error a.page)
        else if r || bitOf pte 3 then
          let ppn := bitsOf pte 53 10
          if !x.leafPermits m a pte || ppn % 2 ^ (9 * k) != 0 then (s, .error a.page)
          else (s, .ok (ppn * 2 ^ 12 + va % 2 ^ (12 + 9 * k)))
        else if bitOf pte 4 || bitOf pte 6 || bitOf pte 7 then (s, .error a.page)
        else State.sv39 c m a va k (bitsOf pte 53 10) s
      | (s, _) => (s, .error a.fault)
/-- The physical address that an access of n bytes reaches, or its exception: misaligned, of its translation, or of the PMP. -/
def State.rvReach (s : State) (c : RvCore) (va : W64) (n : Nat) (a : RvAcc) : State × Except Nat Nat :=
  let x := s.rv c
  let m := x.rights a
  let v := va.toNat
  if a != .fetch && v % n != 0 then (s, .error a.misaligned)
  else
    let satp := (x.rcsr csrSatp).toNat
    let (s, r) : State × Except Nat Nat :=
      if m == .machine || bitsOf satp 63 60 != 8 then (s, .ok v)
      else if va != rvSx 39 v then (s, .error a.page)
      else State.sv39 c m a (v % 2 ^ 39) 3 (bitsOf satp 43 0) s
    match r with
    | .ok pa => if x.pmpAllows m pa n a then (s, .ok pa) else (s, .error a.fault)
    | .error e => (s, .error e)

/-! ## Execution -/

/-- An instruction retires; the next one stands at pc. It counts in `minstret`, and for the step of the slot that S or U code runs for
(R375, R386). -/
def Hart.retires (x : Hart) (pc : W64) : Hart :=
  let x := { x with pc := pc }
  let x := if (x.rcsr 0x320).getLsbD 2 then x else x.wcsr csrMinstret (x.rcsr csrMinstret + 1#64)
  if x.scurValid && x.mode != .machine
  then x.updSlot x.scurslot fun k => if k.active && !k.stopped then { k with ins := k.ins + 1 } else k else x
/-- A load, and a store, at a virtual address: they go on with the value, raise their exception, or wait. -/
def State.rvLoad (s : State) (c : RvCore) (va : W64) (n : Nat) (go : State → Nat → State) : State :=
  match s.rvReach c va n .load with
  | (s, .error e) => s.rvRaise c e va
  | (s, .ok pa) => match s.rvRead c pa n with
    | (s, .ok v) => go s v
    | (s, .fault) => s.rvRaise c 5 va
    | (s, .wait) => s
def State.rvStore (s : State) (c : RvCore) (va : W64) (n v : Nat) (go : State → State) : State :=
  match s.rvReach c va n .store with
  | (s, .error e) => s.rvRaise c e va
  | (s, .ok pa) => match s.rvWrite c pa n v with
    | (s, .ok _) => go s
    | (s, .fault) => s.rvRaise c 7 va
    | (s, .wait) => s
/-- An AMO, `lr` or `sc` of 4 or 8 bytes. `sc` succeeds where the reservation names its bytes and no store has reached them since
`lr`. -/
def State.rvAtom (s0 : State) (c : RvCore) (w : Nat) (next : W64) : State :=
  let s := if bitOf w 25 then s0.rvFence c else s0
  let x := s.rv c
  let f5 := bitsOf w 31 27
  let n := if rvF3 w == 2 then 4 else 8
  let va := x.xr (rvRs1 w)
  let b := (x.xr (rvRs2 w)).toNat % 2 ^ (8 * n)
  let done (s : State) (v : W64) (r : Option (Nat × Nat × Nat)) : State :=
    s.updRv c fun x => { (x.setX (rvRd w) v).retires next with res := r }
  let acc : RvAcc := if f5 == 2 then .load else .store
  if (rvF3 w != 2 && rvF3 w != 3) || (f5 == 2 && rvRs2 w != 0) || (f5 != 2 && f5 != 3 && (rvAmo f5 n 0 0).isNone) then s.rvRaise c 2 0#64
  else match s.rvReach c va n acc with
    | (s, .error e) => s.rvRaise c e va
    | (s, .ok pa) =>
      if !s.rvAtomic c pa n then s.rvRaise c acc.fault va
      else match s.rvRead c pa n with
        | (s, .ok old) =>
          if f5 == 2 then done (s.reserve c (some (pa, n))) (rvSx (8 * n) old) (some (pa, n, old))
          else if f5 == 3 then
            if x.res == some (pa, n, old) && s.resv.contains (c.key, pa, n)
            then done ((s.reserve c none).rvAtomWrite c pa n b) 0#64 none else done (s.reserve c none) 1#64 none
          else done (s.rvAtomWrite c pa n ((rvAmo f5 n old b).getD 0)) (rvSx (8 * n) old) x.res
        | (s, _) => s.rvRaise c acc.fault va
/-- A CSR instruction. A read of `mepcmd` waits for the hart's earlier commands (R385). -/
def State.rvCsr (s : State) (c : RvCore) (w : Nat) (next : W64) : State :=
  let x := s.rv c
  let n := bitsOf w 31 20
  let op := rvF3 w % 4
  let src : W64 := if rvF3 w < 4 then x.xr (rvRs1 w) else BitVec.ofNat 64 (rvRs1 w)
  let writes := op == 1 || rvRs1 w != 0
  let reads := op != 1 || rvRd w != 0
  let busy := match c with
    | .corrie h => reads && n == 0x7C1 && s.commandsBusy h
    | .ridge _ => false
  if !s.csrAllowed c n writes then s.rvRaise c 2 0#64
  else if busy then s
  else
    let old := s.csrValue c n
    let new := match op with
      | 1 => src
      | 2 => old ||| src
      | _ => old &&& ~~~ src
    let s := s.updRv c fun x => (x.setX (rvRd w) (if reads then old else 0#64)).retires next
    if writes then s.csrWrite c n new else s
/-- The system instructions. -/
def State.rvSystem (s : State) (c : RvCore) (w : Nat) (next : W64) : State :=
  let x := s.rv c
  let illegal := s.rvRaise c 2 0#64
  let go (ok : Bool) (f : Hart → Hart) : State := if ok then s.updRv c fun x => f (x.retires next) else illegal
  if rvF3 w % 4 != 0 then s.rvCsr c w next
  else if rvF3 w == 4 then illegal
  else if w == 0x00000073 then s.rvRaise c (8 + x.mode.num) 0#64
  else if w == 0x00100073 then s.rvRaise c 3 0#64
  else if w == 0x30200073 then go (x.mode == .machine) Hart.mret
  else if w == 0x10200073 then go (c.full && (x.mode == .machine || (x.mode == .supervisor && !x.ms 22))) Hart.sret
  else if w == 0x10500073 then
    go (x.mode == .machine || (!x.ms 21 && (x.mode == .supervisor || !c.full))) fun x => { x with wfi := true }
  else if rvF7 w == 9 && rvRd w == 0 then
    go (c.full && (x.mode == .machine || (x.mode == .supervisor && !x.ms 20))) id
  else illegal
/-- The computational floating-point instructions. -/
def State.rvFpExec (s : State) (c : RvCore) (w : Nat) (next : W64) : State :=
  let x := s.rv c
  let op := w % 128
  let k := rvRound (rvF3 w) (bitsOf (x.rcsr csrFcsr).toNat 7 5)
  let a := x.fr (rvRs1 w)
  let b := x.fr (rvRs2 w)
  let out : Option RvFpOut :=
    if !c.full || x.fs == 0 then none
    else if op == 0x53 then rvFp (bitsOf w 31 27) (bitsOf w 26 25) (rvRs2 w) (rvF3 w) k a b (x.xr (rvRs1 w))
    else k.bind fun k => rvFpMadd op (bitsOf w 26 25) k a b (x.fr (rvRs3 w))
  match out with
  | none => s.rvRaise c 2 0#64
  | some (.toX v fl) => s.updRv c fun x => ((x.setX (rvRd w) v).orFlags fl).retires next
  | some (.toF v fl) => s.updRv c fun x => ((x.setF (rvRd w) v).orFlags fl).retires next
/-- Executing an instruction of 32 bits that took `len` bytes. -/
def State.rvExec (s : State) (c : RvCore) (w len : Nat) : State :=
  let x := s.rv c
  let next := x.pc + BitVec.ofNat 64 len
  let rd := rvRd w
  let f3 := rvF3 w
  let a := x.xr (rvRs1 w)
  let b := x.xr (rvRs2 w)
  let illegal := s.rvRaise c 2 0#64
  let put (v : Option W64) : State := match v with
    | some v => s.updRv c fun x => (x.setX rd v).retires next
    | none => illegal
  let load (n : Nat) (f : Nat → W64) : State := s.rvLoad c (a + rvImmI w) n fun s v => s.updRv c fun x => (x.setX rd (f v)).retires next
  let fpOn := c.full && x.fs != 0 && 1 ≤ f3 && f3 ≤ 3
  match w % 128 with
  | 0x37 => put (some (rvImmU w))
  | 0x17 => put (some (x.pc + rvImmU w))
  | 0x6F => s.updRv c fun y => (y.setX rd next).retires (x.pc + rvImmJ w)
  | 0x67 => if f3 == 0 then s.updRv c fun y => (y.setX rd next).retires ((a + rvImmI w) &&& ~~~ 1#64) else illegal
  | 0x63 => match rvBranch f3 a b with
    | some t => s.updRv c fun y => y.retires (if t then x.pc + rvImmB w else next)
    | none => illegal
  | 0x03 =>
    if f3 == 7 then illegal
    else
      let n := 2 ^ (f3 % 4)
      load n fun v => if f3 < 4 then rvSx (8 * n) v else BitVec.ofNat 64 v
  | 0x23 => if 3 < f3 then illegal else s.rvStore c (a + rvImmS w) (2 ^ f3) b.toNat fun s => s.updRv c fun x => x.retires next
  | 0x13 => put (rvOpImm c.full f3 (bitsOf w 31 20) a (rvImmI w))
  | 0x33 => put (rvOp c.full (rvF7 w) f3 a b)
  | 0x1B => put (rvOpImm32 c.full f3 (bitsOf w 31 20) a (rvImmI w))
  | 0x3B => put (rvOp32 c.full (rvF7 w) f3 (rvRs2 w) a b)
  | 0x0F =>
    if 1 < f3 then illegal
    else (s.rvFence c).updRv c fun x => { x.retires next with stall := if c.full && w == 0x0100000F then 64 else x.stall }
  | 0x2F => s.rvAtom c w next
  | 0x73 => s.rvSystem c w next
  | 0x07 =>
    if !fpOn then illegal
    else s.rvLoad c (a + rvImmI w) (2 ^ f3) fun s v => s.updRv c fun x =>
      (x.setF rd (BitVec.ofNat 64 (v + (2 ^ 64 - 2 ^ (8 * 2 ^ f3))))).retires next
  | 0x27 =>
    if !fpOn then illegal
    else s.rvStore c (a + rvImmS w) (2 ^ f3) (x.fr (rvRs2 w)).toNat fun s => s.updRv c fun x => x.retires next
  | 0x43 | 0x47 | 0x4B | 0x4F | 0x53 => s.rvFpExec c w next
  | _ => illegal

/-- Fetching 2 bytes of code: they go on, or raise. -/
def State.rvFetch (s : State) (c : RvCore) (pc : W64) (go : State → Nat → State) : State :=
  match s.rvReach c pc 2 .fetch with
  | (s, .error e) => s.rvRaise c e pc
  | (s, .ok pa) =>
    if !s.rvCode c pa 2 then s.rvRaise c 1 pc
    else match s.rvRead c pa 2 with
      | (s, .ok v) => go s v
      | (s, _) => s.rvRaise c 1 pc
/-- One step of a core: an interrupt is taken, or its next instruction runs unless it stands in `wfi` or `pause`. -/
def State.rvStep (s : State) (c : RvCore) : State :=
  let x := s.rv c
  if !s.rvOn c then s
  else match s.pickInt c with
    | some (n, toS) => s.takeInt c n toS
    | none =>
      if (x.wfi || x.stall != 0) && (s.intReady c).isEmpty then s
      else
        let s := s.updRv c fun x => { x with wfi := false, stall := 0 }
        s.rvFetch c x.pc fun s lo =>
          if lo % 4 == 3 then s.rvFetch c (x.pc + 2#64) fun s hi => s.rvExec c (lo + 2 ^ 16 * hi) 4
          else match rvExpand c.full lo with
            | some w => s.rvExec c w 2
            | none => s.rvRaise c 2 0#64
/-- n cycles of a core: `mcycle` and a `pause`, and for a Corrie hart the steps of its slots and its gating. -/
def Hart.tick (n : Nat) (x : Hart) : Hart :=
  let x := if (x.rcsr 0x320).getLsbD 0 then x else x.wcsr csrMcycle (x.rcsr csrMcycle + BitVec.ofNat 64 n)
  { x with stall := x.stall - n, steps := x.steps.mapVal fun _ k => k.tick n, gateWait := if x.gateReq then x.gateWait + n else x.gateWait }

end Sys2Proof.Machine
end

