-- ==== Sys2Proof/Machine/Launch.lean ====
section
/-!
DEFINITION. Work from its packet to its completion (15_scheduling.md R345 to R354, R356, R361 to R363): LAUNCH
(04_control_stream.md R112 to R114), activation, the aggregator, block placement, gangs and grid completion.
-/

namespace Sys2Proof.Machine

/-! ## LAUNCH -/

/-- Pool entries of a domain that LAUNCH finds taken (R353): children of an open window count each. -/
def Domain.poolUsed (m : Domain) : Nat := (m.pool.map fun x => if x.2.window == 0 then 1 else 1 + x.2.rest.length).sum
/-- Two children may merge (R354). -/
def mergeable (p q : Packet) : Bool :=
  p.cbase == q.cbase && p.lbase == q.lbase && p.d0 ||| 0x8000#64 == q.d0 ||| 0x8000#64 &&
  p.d1 <<< 1 == q.d1 <<< 1 && p.d2 &&& 0xFFFFFFFF003FFFFF#64 == q.d2 &&& 0xFFFFFFFF003FFFFF#64
/-- A child enters the pool of a domain: it joins an open window, or takes an entry, which opens one unless
NOAGG is set. -/
def State.poolAdd (s : State) (d asid : Nat) (c : Child) : State :=
  let joins (e : PoolEntry) : Bool :=
    1 < e.window && e.asid == asid && e.rest.length < 255 && mergeable e.first.pkt c.pkt
  let m := s.dom d
  let m' := match (if c.pkt.noagg then none else m.pool.find? fun x => joins x.2) with
    | some (k, e) => { m with pool := m.pool.set k { e with rest := e.rest ++ [c] } }
    | none =>
      match (List.range 4032).find? fun k => (m.pool.get? k).isNone with
      | some k => { m with pool := m.pool.set k { asid := asid, first := c, window := if c.pkt.noagg then 0 else 513 } }
      | none => m
  s.updDom d fun _ => m'
/-- The status of a LAUNCH, the checks in the order of R113, and the state after it. -/
def State.launchChecked (s : State) (p : Packet) : State × Nat :=
  let g := s.cg
  let n := s.gridOf g.grid
  let d := coreDom g.core
  let own := if p.dlimField == 0 then 8 else p.dlimField
  if !s.packetOk p none then (s, 4)
  else if min 8 (min n.dlim own) < n.depth + 1 then (s, 3)
  else if s.cctx.lquota.toNat ≤ s.cctx.launches then (s, 2)
  else if 4032 ≤ (s.dom d).poolUsed then (s, 1)
  else
    let (order, s) := s.newId
    let c : Child := { pkt := p, depth := n.depth + 1, dlim := n.dlim, g := s.cur.g, order := order,
                       key := (g.grid, (s.blk g.block).num, g.gidx) }
    let s := (s.poolAdd d s.casid c).updCtx s.casid fun x => { x with launches := x.launches + 1 }
    (s.updCg fun x => { x with childOut := x.childOut + 1 }, 0)
/-- Eight doublewords at a physical address, as a control access reads them. -/
def State.loadDwords (s : State) (pa coh : Nat) : Nat → State × List W64
  | 0 => (s, [])
  | n + 1 =>
    let (s, v) := s.coreLoad s.cg.core pa 8 coh .none false
    let (s, l) := s.loadDwords (pa + 8) coh n
    (s, BitVec.ofNat 64 v :: l)
/-- A packet from its doublewords, its addresses sign-extended (R345). -/
def packetOf (l : List W64) : Packet :=
  let d (k : Nat) : W64 := l.getD k 0#64
  let sx (k : Nat) : W64 := canon53 ((d k).toNat % 2 ^ 53)
  { d0 := d 0, d1 := d 1, d2 := d 2, cbase := sx 3, lbase := sx 4, args := sx 5, sig := sx 6, d7 := d 7 }
def execLaunch (d a : BitVec 6) (s : State) : Out :=
  .next (s.ctlGo [d.toNat, a.toNat] fun s =>
    let va := s.cg.rs a.toNat
    s.ctlAt va 64 .load fun s pa coh =>
      if !s.sysUp pa then s.trapCtl cAddrFault 0 0 va
      else if s.badCtl pa 64 coh then s.trapCtl cUncorrectable 0 0 va pa
      else
        let (s, l) := s.loadDwords pa coh 8
        let (s, st) := s.launchChecked (packetOf l)
        s.ctlDone d.toNat (BitVec.ofNat 64 st))

/-- Merge windows close after 512 cc or 256 children (R354). -/
def execAggregatorMerge (dom : Nat) (s : State) : Out :=
  .next (s.updDom dom fun m => { m with pool := m.pool.mapVal fun _ e =>
    if e.window == 1 || (e.window != 0 && 255 ≤ e.rest.length) then { e with window := 0 } else e })

/-! ## Activation (R349 to R352) -/

/-- Whether a packet may be activated. -/
inductive Elig where
  | wait
  | go
  | bad
  | fault
  deriving DecidableEq, Repr

/-- The addresses of a packet's dependency words (R351). -/
def Packet.depVas (p : Packet) : List W64 :=
  (List.range (min p.ndep 2)).map fun i =>
    p.sig + 8#64 * ((BitVec.ofNat 32 (bitsOf p.d7.toNat (32 * i + 31) (32 * i))).signExtend 64)
/-- The attribute of the page of an address. -/
def State.cohAt (s : State) (asid : Nat) (va : W64) : Nat :=
  match s.walkAt s.ridge.crest asid va with
  | .leaf _ e _ => pteCoh e
  | .absent _ _ _ => 0
/-- Reading dependency words at their homes until one holds the packet back or faults; the word that holds it back, with its page's
attribute. -/
def State.deps (s : State) (asid : Nat) : List W64 → State × Elig × Option (Nat × Nat)
  | [] => (s, .go, none)
  | va :: t =>
    match s.fwAccess asid va false with
    | (s, .fault) => (s, .fault, none)
    | (s, .held) => (s, .wait, none)
    | (s, .ok pa) =>
      let (s, v) := s.homeRead pa 8
      if s.badIn pa 8 then (s.reportBad pa, .fault, none)
      else if v == 0 then (s, .wait, some (pa, s.cohAt asid va)) else s.deps asid t
/-- Eligibility of a kernel packet: one that fails its checks waits for nothing; wafer co-residency waits for the program
channel (R361). -/
def State.eligibleOne (s : State) (asid : Nat) (p : Packet) : State × Elig × Option (Nat × Nat) :=
  if !s.packetOk p none then (s, .bad, none)
  else if p.cor == 2 && s.wbarGrid.isSome then (s, .wait, none)
  else s.deps asid p.depVas
/-- Eligibility of packets that are activated together, each its own; none, and the word, where one of them waits. -/
def State.eligible (s : State) (asid : Nat) : List Packet → State × Option (List Elig) × Option (Nat × Nat)
  | [] => (s, some [], none)
  | p :: t =>
    match s.eligibleOne asid p with
    | (s, .wait, w) => (s, none, w)
    | (s, e, _) => match s.eligible asid t with
      | (s, l, w) => (s, l.map fun l => e :: l, w)
/-- The master distributor gives up the monitor that it holds for a place of the ring. -/
def State.dropDep (s : State) (key : Nat) : State :=
  match s.depMon.get? key with
  | some pa => { s.freeMonitor pa with depMon := s.depMon.erase key }
  | none => s
/-- The word on which a candidate waits is reread under a condition monitor, where one is free (R195, R351). -/
def State.watchDep (s : State) (key : Nat) (w : Option (Nat × Nat)) : State :=
  let s := if (s.depMon.get? key).isSome && s.depMon.get? key != w.map (·.1) then s.dropDep key else s
  match w with
  | some (pa, coh) =>
    if (s.depMon.get? key).isSome || !s.canArm pa coh then s else { s.armMonitor 0 pa coh with depMon := s.depMon.set key pa }
  | none => s

/-- Where a candidate waits. -/
inductive Src where
  | regen (d n : Nat)
  | host (q : Nat)
  | pool (d n : Nat)
  deriving DecidableEq, Repr

/-- A candidate of R350 that may be activated: its priority, the number of its queue, and what becomes of each of its packets. -/
structure Cand where
  prio : Nat
  ring : Nat
  src : Src
  eligs : List Elig
  deriving DecidableEq, Repr

/-- Host memory at a bus address over a link (R397). -/
def hostPa (link : Nat) (a : W64) : Nat := (link + 1) * 2 ^ 48 + a.toNat % 2 ^ 48
/-- The physical address of a slot of a submission ring. -/
def Queue.slotPa (q : Queue) (link slot : Nat) : Nat :=
  hostPa link ((q.sqbase &&& 0xFFFFFFFFFFFFFFC0#64) + BitVec.ofNat 64 (64 * (slot % 2 ^ q.sqlog)))
/-- Slots that wait in a ring. -/
def Queue.waiting (q : Queue) : Nat := (q.sqtail + 2 ^ q.sqlog - q.sqhead) % 2 ^ q.sqlog
/-- A gang packet's own fields (R346, R347). -/
def gangOk (g0 sig : Nat) (ds : List Nat) : Bool :=
  let n := bitsOf g0 19 16
  let inside (x : Nat) : Bool := bitsOf x 5 3 + bitsOf x 58 56 ≤ 7 && bitsOf x 2 0 + bitsOf x 55 53 ≤ 7
  1 ≤ n && n ≤ 8 && sig % 8 == 0 && (ds.take n).all inside
/-- The doublewords of a slot. -/
def State.slotWords (s : State) (pa : Nat) : List W64 := (List.range 8).map fun k => BitVec.ofNat 64 (s.peek (pa + 8 * k) 8)
/-- The first n slots of a queue, each read once, when its packet becomes a candidate (R400). -/
def State.readSlots (s : State) (k f n : Nat) (q : Queue) : State :=
  let more := (List.range n).drop q.slots.length
  if more.isEmpty then s
  else s.updRidge fun r =>
    { r with queues := r.queues.set k { q with slots := q.slots ++ more.map fun i => s.slotWords (q.slotPa f (q.sqhead + i)) } }
/-- A gang is taken and its reservation is not decided: no other gang is taken, and its queue does not move on (R362). -/
def State.gangOpen (s : State) (k : Option Nat) : Bool := s.gangs.any fun g => g.2.phase == 0 && k.all (· == g.2.q)
/-- The candidate at the head of a host queue, if it may be activated. -/
def State.queueCand (s : State) (k : Nat) : State × Option Cand :=
  let q := s.ridge.queues.getD k {}
  match q.owner with
  | none => (s.dropDep k, none)
  | some f =>
    if !q.enabled || q.waiting == 0 then (s.dropDep k, none)
    else if !s.ridge.linksUp.getLsbD f || s.gangOpen (some k) then (s, none)
    else
      let s := s.readSlots k f 1 q
      let q := s.ridge.queues.getD k {}
      let p := packetOf (q.slots.getD 0 [])
      if p.ty == 2 then
        if q.waiting < 2 || s.gangOpen none then (s, none)
        else (s.readSlots k f 2 q, some { prio := p.prio, ring := k, src := .host k, eligs := [.go] })
      else
        let (s, e, w) := s.eligible (Config.queueContext f k) [p]
        (s.watchDep k w, e.map fun l => { prio := p.prio, ring := k, src := .host k, eligs := l })
/-- The packets of a pool entry. -/
def PoolEntry.packets (e : PoolEntry) : List Packet := (e.first :: e.rest).map (·.pkt)
/-- The oldest closed pool entry of a priority, over all domains. -/
def State.poolHead (s : State) (prio : Nat) : Option (Nat × Nat × PoolEntry) :=
  minBy (fun (x : Nat × Nat × PoolEntry) => x.2.2.first.order) (s.doms.flatMap fun m =>
    (m.2.pool.filter fun e => e.2.window == 0 && e.2.first.pkt.prio == prio).map fun e => (m.1, e.1, e.2))
/-- The candidate of the device pool of a priority, if it may be activated. -/
def State.poolCand (s : State) (prio : Nat) : State × Option Cand :=
  match s.poolHead prio with
  | none => (s.dropDep (256 + prio), none)
  | some (d, n, e) =>
    let (s, l, w) := s.eligible e.asid e.packets
    (s.watchDep (256 + prio) w, l.map fun l => { prio := prio, ring := 256, src := .pool d n, eligs := l })
/-- Every candidate of R350 that may be activated. -/
def State.candidates (s : State) : State × List Cand :=
  let add (acc : State × List Cand) (r : State × Option Cand) : State × List Cand := (r.1, acc.2 ++ r.2.toList)
  let acc := s.ridge.queues.keys.foldl (fun (acc : State × List Cand) k => add acc (acc.1.queueCand k)) (s, [])
  [3, 2, 1, 0].foldl (fun (acc : State × List Cand) p => add acc (acc.1.poolCand p)) acc
/-- The oldest regeneration that has not started; one with wafer co-residency waits for the program channel (R361). -/
def State.nextRegen (s : State) : Option (Nat × Nat × Regen) :=
  minBy (fun (x : Nat × Nat × Regen) => x.2.2.order) (s.doms.flatMap fun m =>
    (m.2.regens.filter fun r => r.2.grid == 0 && !r.2.ended && !(r.2.pkt.cor == 2 && s.wbarGrid.isSome)).map fun r => (m.1, r.1, r.2))
/-- Entries of the grid table in use. -/
def State.gridEntries (s : State) : Nat := (s.grids.map (fun x => x.2.lead) ++ s.gangs.keys).eraseDups.length

/-- The sequence number of a packet that is activated: a child that a rollback's code has launched again has its original one
(R432), as a part of a gang that runs again has, and another packet the next (R352). -/
def State.takeSeq (s : State) (asid : Nat) (p : Packet) (o : Origin) (key : Nat × Nat × Nat := (0, 0, 0)) : Nat × State :=
  let next : Nat × State := (s.nextSeq, { s with nextSeq := s.nextSeq + 1 })
  match o with
  | .device _ _ => match (s.ctx asid).again.find? fun (x : (Nat × Nat × Nat) × Packet × Nat) => x.1 == key && x.2.1 == p with
    | some x => (x.2.2, s.updCtx asid fun c => { c with again := c.again.erase x })
    | none => next
  | .part g k => match ((s.gangs.get? g).map (·.seqs)).bind fun l => l[k]? with
    | some n => (n, s)
    | none => next
  | _ => next
/-- Core 4 remembers a child's number until the next commit, where the code that launched it would run again. -/
def Context.launched (c : Context) (o : Origin) (key : Nat × Nat × Nat) (p : Packet) (seq : Nat) : Context :=
  match o with
  | .device _ _ => if c.ckptAddr == 0 then c else { c with children := c.children ++ [(key, p, seq)] }
  | _ => c
/-- A new active grid (R352), and its number: the launch sequence number. Core 4 keeps packets activated since the
commit (R430): `keep` is false where the code that launched it would run again. -/
def State.newGrid (s : State) (asid : Nat) (p : Packet) (depth dlim : Nat) (o : Origin) (e : Elig) (lead : Nat)
    (m : Option (Nat × Nat × Nat × Nat)) (keep : Bool) (key : Nat × Nat × Nat := (0, 0, 0)) : State × Nat :=
  let (seq, s) := s.takeSeq asid p o key
  let status := if e == .bad then 2 else if e == .fault then 3 else 0
  let n : Grid := { seq := seq, asid := asid, ident := (s.ctx asid).nextIdent, pkt := p, prio := p.prio, depth := depth, dlim := dlim,
                    origin := o, nextBlock := if e == .go then 0 else p.blocks, status := status, lead := if lead == 0 then seq else lead, massif := m }
  let s := { s with grids := s.grids.set seq n }
  let s := s.updCtx asid fun c =>
    let c := { c with nextIdent := c.nextIdent + 1, kept := if keep && c.ckptAddr != 0 then c.kept ++ [n] else c.kept }
    if keep then c else c.launched o key p seq
  let s := if e == .fault then s.logErr { seq := seq, stamp := s.stamp s.ridge.crest } else s
  (if p.cor == 2 && e == .go && s.wbarGrid.isNone then { s with wbarGrid := some seq, wbarArrived := [] } else s, seq)
/-- A queue gives up n slots for one activation. -/
def State.takeSlots (s : State) (q n : Nat) : State :=
  s.updRidge fun r => { r with queues := r.queues.upd q {} fun x =>
    { x with sqhead := (x.sqhead + n) % 2 ^ x.sqlog, active := x.active + 1, slots := [] } }
/-- The depth limit of a root grid. -/
def Packet.rootDlim (p : Packet) : Nat := if p.dlimField == 0 then 8 else p.dlimField
/-- The gang of the two slots at the head of a queue. -/
def State.takeGang (s : State) (q f : Nat) (x : Queue) : State :=
  let d (slot k : Nat) : Nat := ((x.slots.getD slot []).getD k 0#64).toNat
  let g0 := d 0 0
  let sig := canon53 (d 0 1 % 2 ^ 53)
  let ds := (List.range 8).map fun k => d 1 k
  let ok := gangOk g0 sig.toNat ds
  let part (y : Nat) : Nat × Nat × Nat × Nat × W64 :=
    (bitsOf y 5 3, bitsOf y 2 0, bitsOf y 58 56 + 1, bitsOf y 55 53 + 1, canon53 (bitsOf y 52 6 * 64))
  let parts := if ok then (ds.take (bitsOf g0 19 16)).map part else []
  let a := Config.queueContext f q
  let g : Gang := { seq := s.nextSeq, asid := a, fn := f, q := q, slot := x.sqhead, sig := sig, prio := bitsOf g0 9 8, parts := parts,
                    phase := if ok then 0 else 3, left := parts.length, status := if ok then 0 else 2 }
  let s := s.updCtx a fun c => { c with keptGangs := if c.ckptAddr != 0 then c.keptGangs ++ [g] else c.keptGangs }
  { s.takeSlots q 2 with gangs := s.gangs.set s.nextSeq g, nextSeq := s.nextSeq + 1 }
/-- Activating a chosen candidate. -/
def State.activate (s : State) (c : Cand) : State :=
  let s := { s with lastQueue := c.ring }
  match c.src with
  | .regen _ _ => s
  | .host k =>
    let q := s.ridge.queues.getD k {}
    let f := q.owner.getD 0
    let p := packetOf (q.slots.getD 0 [])
    if p.ty == 2 then s.takeGang k f q
    else ((s.takeSlots k 1).newGrid (Config.queueContext f k) p 0 p.rootDlim (.host f k q.sqhead) (c.eligs.headD .go) 0 none true).1
  | .pool d n =>
    match (s.dom d).pool.get? n with
    | none => s
    | some e =>
      let s := s.updDom d fun m => { m with pool := m.pool.erase n }
      let lead := (s.takeSeq e.asid e.first.pkt (.device e.first.g e.first.order) e.first.key).1
      foldState (fun s (x : Child × Elig) =>
        (s.newGrid e.asid x.1.pkt x.1.depth x.1.dlim (.device x.1.g x.1.order) x.2 lead none (x.1.order < (s.ctx e.asid).commitMark) x.1.key).1)
        ((e.first :: e.rest).zip c.eligs) s
/-- A packet of before a rollback becomes active again, with the numbers it had (R432). -/
def State.reactivate (s : State) (asid : Nat) (x : Grid ⊕ Gang) (e : Elig) : State :=
  let s := s.updCtx asid fun c => { c with replay := c.replay.erase x }
  match x with
  | .inr g => { s with gangs := s.gangs.set g.seq g }
  | .inl n =>
    let n' : Grid := { n with nextBlock := if e == .go then 0 else n.pkt.blocks, status := if e == .bad then 2 else if e == .fault then 3 else 0 }
    let t := { s with grids := s.grids.set n.seq n' }
    let t := if e == .fault then t.logErr { seq := n.seq, stamp := s.stamp s.ridge.crest } else t
    if n.pkt.cor == 2 && e == .go && s.wbarGrid.isNone then { t with wbarGrid := some n.seq, wbarArrived := [] } else t
/-- The next packet of a context that a rollback activates again, where it may be: its dependences hold (R351), and no gang is open
before a gang. -/
def State.replayOne (s : State) (asid : Nat) : State × Option State :=
  match (s.ctx asid).replay.head? with
  | none => (s, none)
  | some (.inr g) => (s, if s.gangOpen none then none else some (s.reactivate asid (.inr g) .go))
  | some (.inl n) => match s.eligibleOne asid n.pkt with
    | (s, .wait, _) => (s, none)
    | (s, e, _) => (s, some (s.reactivate asid (.inl n) e))
/-- The first context that has one. Such packets are activated after regenerations and before others (DESIGN CHOICE, log entry 132). -/
def State.replayNext (s : State) : List Nat → State × Option State
  | [] => (s, none)
  | a :: l => match s.replayOne a with
    | (s, none) => s.replayNext l
    | x => x
/-- The packet chosen by R350 is activated when the grid table has room: a regeneration first, else the
eligible candidate of highest priority, next in the ring. -/
def execGridActivation (s : State) : Out :=
  .next (if s.ridge.state != .ready || 1024 ≤ s.gridEntries then s
    else match s.nextRegen with
      | some (d, n, r) =>
        if !s.packetOk r.pkt none then
          s.updDom d fun m => { m with regens := m.regens.set n { r with ended := true, failed := true } }
        else
          let (s, seq) := s.newGrid r.asid r.pkt 0 r.pkt.rootDlim (.regen d n) .go 0 none false
          s.updDom d fun m => { m with regens := m.regens.set n { r with grid := seq } }
      | none => match s.replayNext s.ctxs.keys with
      | (_, some t) => t
      | (s, none) =>
        let (s', l) := s.candidates
        let best := minBy (fun (c : Cand) => (3 - c.prio) * 257 + (c.ring + 256 - s.lastQueue) % 257) l
        match best with
        | none => s'
        | some c => s'.activate c)

/-! ## Placement (R356, R361) -/

/-- Active grids in the order in which R356 takes them. -/
def State.gridOrder (s : State) : List Nat :=
  (List.range 4).reverse.flatMap fun p => (s.grids.keep fun _ n => n.prio == p).keys
/-- The grid has an unstarted block. -/
def Grid.unstarted (n : Grid) : Bool := n.nextBlock < n.pkt.blocks
/-- A place for the next block of a grid that is neither co-resident nor part of a gang, or for all blocks
of a co-resident one, which with wafer co-residency holds the program channel (R361); then the state with them placed. -/
def State.placeNext (s : State) (seq : Nat) : Option State :=
  let n := s.gridOf seq
  if !n.unstarted || n.pkt.cor == 2 && s.wbarGrid != some seq then none
  else if n.pkt.cor != 0 then s.placeWhole seq false (n.pkt.blocks - n.nextBlock + 1)
  else match s.placeFor n n.nextBlock n.pkt.need fun _ => true with
    | (s, some f) => some (s.launchBlock seq n.nextBlock f false)
    | (_, none) => none
/-- A regenerator's mark on its entry, for a grid that ends a regeneration (R340). -/
def State.endRegen (s : State) (d n : Nat) (failed : Bool) : State :=
  match (s.dom d).regens.get? n with
  | none => s
  | some r => s.updDom d fun m => { m with regens := m.regens.set n { r with ended := true, failed := failed } }

/-! ## Gangs (R362, R363) -/

/-- Part k's packet with the gang's priority. -/
def Gang.withPrio (g : Gang) (p : Packet) : Packet :=
  { p with d0 := (p.d0 &&& ~~~ 0x300#64) ||| BitVec.ofNat 64 (g.prio * 256) }
/-- The part packets of a gang, or why it does not run. -/
def State.gangParts (s : State) (g : Gang) : List (Nat × Nat × Nat × Nat × W64) → State × (List Packet ⊕ Elig)
  | [] => (s, .inl [])
  | (r, c, h, w, va) :: t =>
    match s.fwAccess g.asid va false with
    | (s, .fault) => (s, .inr .fault)
    | (s, .held) => (s, .inr .wait)
    | (s, .ok pa) =>
      let s := (s.homeRead pa 64).1
      let p := g.withPrio (s.readPacket pa)
      if s.badIn pa 64 then (s.reportBad pa, .inr .fault)
      else if p.ndep != 0 || !s.packetOk p (some (r, c, h, w)) then (s, .inr .bad)
      else if p.cor == 2 && s.wbarGrid.isSome then (s, .inr .wait)
      else match s.gangParts g t with
        | (s, .inl l) => (s, .inl (p :: l))
        | x => x
/-- Placing every block of every part, or nothing (R362). -/
def State.reserveParts (s : State) (g : Gang) : Nat → List ((Nat × Nat × Nat × Nat × W64) × Packet) → Option State
  | _, [] => some s
  | k, ((r, c, h, w, _), p) :: t =>
    let (s, seq) := s.newGrid g.asid p 0 p.rootDlim (.part g.seq k) .go g.seq (some (r, c, h, w)) false
    match s.placeWhole seq true (p.blocks + 1) with
    | none => none
    | some s => s.reserveParts g (k + 1) t
/-- The gang will not run: it completes with a status. -/
def State.failGang (s : State) (g : Gang) (status : Nat) : State :=
  let s := if status == 3 then s.logErr { seq := g.seq, stamp := s.stamp s.ridge.crest } else s
  { s with gangs := s.gangs.set g.seq { g with phase := 3, left := 0, status := status } }
/-- The oldest gang is reserved whole or completes with RETRY; a rebuild comes first (R431). A committed gang waits for a firmware barrier on
the heartbeat channel, which starts unless one is in progress. -/
def execGangReservation (s : State) : Out :=
  .next (if !s.ridge.rebuildUnits.isEmpty then s
    else match s.gangs.find? fun x => x.2.phase == 0 with
    | none => s
    | some (_, g) =>
      match s.gangParts g g.parts with
      | (s, .inr .wait) => s
      | (s, .inr .fault) => s.failGang g 3
      | (s, .inr _) => s.failGang g 2
      | (s, .inl ps) =>
        match s.reserveParts g 0 (g.parts.zip ps) with
        | none => s.failGang g 1
        | some t =>
          let seqs := if g.seqs.isEmpty then fromTo s.nextSeq g.parts.length else g.seqs
          let t := t.updCtx g.asid fun c => { c with keptGangs := c.keptGangs.map fun x => if x.seq == g.seq then { x with seqs := seqs } else x }
          { t with gangs := t.gangs.set g.seq { g with phase := 1, seqs := seqs }, heartbeat := some (t.heartbeat.getD 0) })
/-- The blocks of a gang whose domain shows round T and 8,192 local cc begin (R363). A round that has moved
past T has passed the start. -/
def State.beginGang (s : State) (g : Gang) : State :=
  let due (d : Nat) : Bool := s.round.toNat != g.round || 8192 ≤ (s.dom d).stamp16 / 16
  let mine (b : Block) : Bool := match (s.gridOf b.grid).origin with
    | .part k _ => k == g.seq
    | _ => false
  let s := { s with blocks := s.blocks.mapVal fun _ b => if b.waits && mine b && due (quadDom b.quad) then { b with waits := false } else b }
  if s.blocks.any fun b => b.2.waits && mine b.2 then s
  else { s with gangs := s.gangs.set g.seq { g with phase := 3 } }
def execGangStart (s : State) : Out :=
  .next (foldState (fun s (x : Nat × Gang) => s.beginGang x.2) (s.gangs.filter fun x => x.2.phase == 2) s)

/-- The heartbeat (R439): it starts 2^22 crest cycles after the last advance, and completes 2,000 cc later,
which gives the committed gangs their round (R363). -/
def execHeartbeatBarrier (s : State) : Out :=
  .next (match s.heartbeat with
    | none => if 2 ^ 22 ≤ s.sinceRound then { s with heartbeat := some 0 } else s
    | some n =>
      if n < 2000 then s
      else
        let s := { s.advanceRound with heartbeat := none }
        { s with gangs := s.gangs.mapVal fun _ g => if g.phase == 1 then { g with phase := 2, round := s.round.toNat } else g })

/-! ## Completion (R348) -/

/-- Writing a completion signal (R348). False: its page is being brought back, and the completion waits.
A word that cannot be written is logged. -/
def State.writeSignal (s : State) (asid seq status : Nat) (sig : W64) : State × Bool :=
  if sig == 0#64 then (s, true)
  else match s.fwAccess asid sig true with
    | (s, .ok pa) => (s.homeWrite pa 8 (1 + status * 2 ^ 32), true)
    | (s, .held) => (s, false)
    | (s, .fault) => (s.logErr { seq := seq, faddr := sig, stamp := s.stamp s.ridge.crest }, true)
/-- A completion entry without its phase (R403). -/
def completionEntry (seq cause cause2 status q slot : Nat) : BitVec 128 :=
  BitVec.ofNat 64 seq ++ BitVec.ofNat 8 cause ++ BitVec.ofNat 8 cause2 ++ 0#16 ++ BitVec.ofNat 8 status ++ BitVec.ofNat 8 q ++ BitVec.ofNat 16 slot
/-- A completion goes to the writer (R405). -/
def State.post (s : State) (c : Completion) : State := s.updRidge fun r => { r with completions := r.completions ++ [{ c with arrived := s.now }] }
/-- A part of a gang has completed. -/
def Gang.partDone (g : Gang) (n : Grid) : Gang :=
  if n.status == 3 && g.status != 3 then { g with left := g.left - 1, status := 3, cause := n.cause, cause2 := n.cause2 }
  else { g with left := g.left - 1, status := max g.status n.status }
/-- A gang that completes TRAPPED has a record of its own: that of the part that trapped, under the gang's number (R412). -/
def State.logGang (s : State) (g : Gang) (n : Grid) : State :=
  if n.status == 3 && g.status != 3 then
    s.logErr (match s.ridge.errlog.find? fun r => r.seq == n.seq with
      | some r => { r with seq := g.seq }
      | none => { seq := g.seq, cause := BitVec.ofNat 64 n.cause, stamp := s.stamp s.ridge.crest })
  else s
/-- What a completed grid does for the one that launched it. -/
def State.grantCompletion (s : State) (n : Grid) : State :=
  match n.origin with
  | .host f q slot =>
    s.post { fn := f, q := q, entry := completionEntry n.seq n.cause n.cause2 n.status q slot }
  | .device g _ =>
    let s := s.updCtx n.asid fun c => { c with launches := c.launches - 1 }
    if (s.groups.get? g).isNone then s
    else s.updGrp g fun x => { x with childOut := x.childOut - 1, childDone := x.childDone + 1,
                                      childTrap := x.childTrap + (if n.status == 3 then 1 else 0) }
  | .regen d k => s.endRegen d k (n.status != 0)
  | .part k _ =>
    match s.gangs.get? k with
    | none => s
    | some g => { s.logGang g n with gangs := s.gangs.set k (g.partDone n) }
/-- A grid leaves the grid table: its barriers are free, and so is its channel, which a grid that a rollback
brought back without it takes. -/
def State.dropGrid (s : State) (seq : Nat) : State :=
  let s := { s with grids := s.grids.erase seq, colls := s.colls.filter (·.grid != seq),
                    doms := s.doms.mapVal fun _ m => { m with dbars := m.dbars.keep fun _ b => b.grid != seq } }
  let next := (s.grids.find? fun n => n.2.pkt.cor == 2 && n.2.status == 0).map fun n => n.1
  if s.wbarGrid == some seq then { s with wbarGrid := next, wbarArrived := [] } else s
/-- Every block of the grid has ended. -/
def Grid.finished (n : Grid) : Bool := !n.unstarted && n.live == 0
/-- A grid, or a gang by its own sequence number, completes. -/
def execGridCompletion (seq : Nat) (s : State) : Out :=
  .next (match s.grids.get? seq, s.gangs.get? seq with
    | some n, _ =>
      if !n.finished then s
      else match s.writeSignal n.asid seq n.status n.pkt.sig with
        | (s, false) => s
        | (s, true) => (s.grantCompletion n).dropGrid seq
    | none, some g =>
      if g.left != 0 || g.phase != 3 then s
      else match s.writeSignal g.asid seq g.status g.sig with
        | (s, false) => s
        | (s, true) =>
          { s.post { fn := g.fn, q := g.q, entry := completionEntry seq g.cause g.cause2 g.status g.q g.slot } with gangs := s.gangs.erase seq }
    | none, none => s)

end Sys2Proof.Machine
end

