-- ==== Sys2Proof/Machine/Swap.lean ====
section
/-!
DEFINITION. Moving resident work (11_system_and_traps.md R275 to R277; 15_scheduling.md R364 to R366, R370,
R371): stopping a block, swapping it out, resuming it, time-slicing, and the migration of a hot domain.
-/

namespace Sys2Proof.Machine

/-! ## Stopping (R275, R276) -/

/-- No entry of a group's chains is in progress: an ALGOP runs to completion, and owed advances are made; a REDUCE whose
contribution is deposited is at a boundary (R259). -/
def State.enginesStand (s : State) (g : Nat) : Bool := s.chains.all fun c => c.2.g != g || (c.2.adv.isEmpty && c.2.slow.isNone && c.2.busy.all fun n => n == 0)
/-- Every group of the block stands between runs and outside a region, and its chains at entry boundaries (R275). -/
def State.atBoundary (s : State) (b : Nat) : Bool :=
  (s.blk b).groups.all fun g => let x := s.grp g; x.exited || (x.run.isNone && !x.region && s.enginesStand g)
/-- A FIFO of one of the block's cores pins it (R277). -/
def State.pinnedTo (s : State) (b core : Nat) : Bool :=
  (s.blk b).fifoCores.contains core && !((s.core core).down.isEmpty && (s.core core).up.isEmpty)
def State.pinned (s : State) (b : Nat) : Bool := (s.blk b).fifoCores.any fun c => s.pinnedTo b c
/-- A group of the block is in a non-pre-emptible region (R117). -/
def State.inRegion (s : State) (b : Nat) : Bool := (s.blk b).groups.any fun g => (s.grp g).region
/-- The accesses in flight of a group complete, those left for later too (R275, R282). -/
def State.drain (s : State) (g : Nat) : State :=
  let s := foldState (fun s _ => s.performLate g 0) (s.grp g).lates s
  let s := foldState (fun s (l : PendLoad) => s.dataArrives g l.id) (s.grp g).loads s
  let s := foldState (fun s (o : LaneOp) => if o.array then s else s.completeOp g o.id) (s.grp g).ops s
  (s.readSlds g).updGrp g Group.landSlds

/-! ## Swapping out (R276) -/

/-- A group leaves its core: what the core held of it goes into its record. -/
def State.unseat (s : State) (g : Nat) : State :=
  let x := s.grp g
  let c := s.core x.core
  let place (k : Nat) : Nat := (x.accs.findIdx? fun t => t == k).getD 64
  let s := s.updGrp g fun x =>
    { x with savedTiles := x.accs.map c.tile, savedSlots := c.opslots.keep fun _ o => o.holder == g,
             savedArr := (c.arrayQ.filter (·.g == g)).map fun (e : ArrEntry) => { e with tile := place e.tile, started := false },
             savedFills := c.fills.filter (·.g == g), resident := false, run := none }
  let mine (k : Nat) : Bool := match s.chains.get? k with
    | some y => y.g == g
    | none => false
  let drop (l : List Nat) : List Nat := l.filter fun k => !mine k
  let s := s.updCore x.core fun c =>
    { c with slots := c.slots.erase x.slot, chunks := c.chunks - x.nregs / 96,
             tilesUsed := c.tilesUsed.filter fun t => !x.accs.contains t,
             opslots := c.opslots.keep fun _ o => o.holder != g,
             sclmQ := c.sclmQ.filter (· != g), arrayQ := c.arrayQ.filter (·.g != g), fills := c.fills.filter (·.g != g),
             running := c.running.keep fun _ k => k != x.slot, given := c.given.erase x.slot,
             chainQ := c.chainQ.mapVal fun _ l => drop l, chainCtx := c.chainCtx.mapVal fun _ l => drop l }
  let order (k : Nat) (y : Chain) : Nat :=
    if y.cls == 3 then ((s.dom (coreDom x.core)).chainCtx ++ (s.dom (coreDom x.core)).chainQ).findIdx (· == k)
    else (c.chainCtx.getD y.cls [] ++ c.chainQ.getD y.cls []).findIdx (· == k)
  let chains := s.chains.mapVal fun k y =>
    if y.g == g then { y with phase := if y.phase == 1 then 0 else y.phase, place := order k y } else y
  let s := s.updDom (coreDom x.core) fun m => { m with chainQ := drop m.chainQ, chainCtx := drop m.chainCtx }
  { s with chains := chains }
/-- The bytes of a block's shares, by column (R276). -/
def State.sharesOf (s : State) (x : Block) : Tab Byte :=
  (List.range 4).flatMap fun k =>
    (Memory.slice s.mem (scratchPa (quadCore x.quad k) x.sbase) x.share).map fun c => (2 ^ 23 * k + c.1, c.2)
/-- A resident block is swapped out. An uncorrectable error in its shares has no consumer, and is reported (R11, R321). -/
def State.swapOut (s0 : State) (b : Nat) : State :=
  let x := s0.blk b
  let s := foldState State.reportBad ((s0.bad.filter (s0.inShare x)).take 1) s0
  let gs := x.groups.filter fun g => !(s.grp g).exited
  let s := foldState State.drain gs s
  let tabs := x.tables.map fun t => (t.1, t.2.map fun k => (s.core t.1).tables.getD k realTable)
  let s := s.updBlk b fun x => { x with savedScr := s.sharesOf x, savedTabs := tabs }
  let s := foldState State.unseat gs s
  let s := (foldState (fun s t => s.freeTables b t.1) x.tables s).freeRun b
  s.updBlk b fun x => { x with resident := false, waitTime := 0, woken := 0, tables := [] }

/-! ## Resuming (R276, R360) -/

/-- The groups of a block that have not exited. -/
def State.liveGroups (s : State) (b : Nat) : List Nat := (s.blk b).groups.filter fun g => !(s.grp g).exited
/-- What a swapped-out block needs (R277, R360). -/
def State.needOf (s : State) (b : Nat) : Need :=
  let p := (s.gridOf (s.blk b).grid).pkt
  { p.need with groups := (s.liveGroups b).map fun g =>
      ((s.grp g).savedSlots.keys, if s.pinnedTo b (s.grp g).core then some (s.grp g).core else none) }
/-- A group that waits in DBAR comes to another domain: its arrival, where its phase is not complete, goes with it (DESIGN CHOICE, log
entry 128); where another grid has bound the id there, the instruction executes again (R204). -/
def State.moveArrival (s : State) (g old new : Nat) : State :=
  let x := s.grp g
  match x.wait with
  | some w =>
    if w.kind != .dbar || w.woken || old == new then s
    else
      let k := 16 * s.asidOf g + w.obj
      let s := s.updDom old fun m => { m with dbars := m.dbars.mapVal fun _ b => { b with arrived := b.arrived.filter (· != g) } }
      let b := ((s.dom new).dbars.get? k).getD { grid := x.grid }
      if b.grid != x.grid then s.updGrp g fun x => { x with wait := none }
      else s.updDom new fun m => { m with dbars := m.dbars.set k { b with arrived := b.arrived ++ [g] } }
  | none => s
/-- A group's record returns to a core. A group that waits for a slot rejoins the others in issue order (R217), and one in
BWAIT waits on its object where the block's share now lies (R201). -/
def State.reseat (s : State) (g core slot : Nat) : State :=
  let x := s.grp g
  let s := s.seat g core slot (x.nregs / 96) x.savedTiles.length
  let accs := (s.grp g).accs
  let entries := x.savedArr.map fun (e : ArrEntry) => { e with tile := accs.getD e.tile 64 }
  let order (k : Nat) : Nat := match (s.grp k).wait with
    | some w => w.obj
    | none => 0
  let waits : Bool := match x.wait with
    | some w => w.kind == .sclm
    | none => false
  let s := s.updCore core fun c =>
    { c with tiles := (accs.zip x.savedTiles).foldl (fun t y => t.put y.1 y.2 {}) c.tiles,
             opslots := x.savedSlots.foldl (fun t y => t.set y.1 y.2) c.opslots,
             arrayQ := c.arrayQ ++ entries, fills := c.fills ++ x.savedFills,
             sclmQ := if waits then sortBy order (c.sclmQ ++ [g]) else c.sclmQ }
  let moved (w : CtlWait) : CtlWait := match w.kind, s.scratchAt x.block w.obj 16 with
    | .bwait, some (c, off) => { w with pa := scratchPa c off }
    | _, _ => w
  (s.moveArrival g (coreDom x.core) (coreDom core)).updGrp g fun x => { x with wait := x.wait.map moved, savedTiles := [], savedSlots := [], savedArr := [], savedFills := [] }
/-- The chains of a group rejoin their queues in their order (R259). -/
def State.requeue (s : State) (g core : Nat) : State :=
  foldState (fun s k =>
    let s := s.updChain k fun c => { c with core := core }
    match s.chains.get? k with
    | some c => if c.phase == 0 then s.enqueueChain k c else s
    | none => s) (Tab.keys (sortBy (fun (x : Nat × Chain) => x.2.place) (s.chains.keep fun _ c => c.g == g))) s
/-- The shares of a block are written back. -/
def State.restoreShares (s : State) (b : Nat) : State :=
  let x := s.blk b
  foldState (fun s k =>
    let a := scratchPa (quadCore x.quad k) x.sbase
    let l := (x.savedScr.filter fun c => c.1 / 2 ^ 23 == k).map fun c => (a + c.1 % 2 ^ 23, c.2)
    { s with mem := l.foldl (fun (m : Memory) c => m.setByte c.1 c.2) (s.mem.clear a x.share),
             bad := s.bad.filter fun y => y < a || a + x.share ≤ y }) (List.range 4) s
/-- What a block that comes back finds on a core: no L1 copy from before its own accesses, and in another domain no copy of a
software-coherent line that misses what it wrote in the old one (R281; DEDUCED, log entry 115). -/
def State.freshCore (s : State) (old core : Nat) : State :=
  if old == core then s
  else
    let s := s.acquire core .wfr
    if coreDom old == coreDom core then s else (s.evictSoft (coreDom old)).evictSoft (coreDom core)
/-- A swapped-out block resumes at a place. Its tables on a core are those of its first group there. A
parked group is named anew (R445). -/
def State.resume (s : State) (b : Nat) (f : Fit) : State :=
  let x := s.blk b
  let gs := s.liveGroups b
  let old (core : Nat) : List AlgTable :=
    match (gs.zip f.places).find? fun y => quadCore f.quad y.2.1 == core with
    | some y => ((x.savedTabs.find? fun t => t.1 == (s.grp y.1).core).map fun t => t.2).getD []
    | none => []
  let tabs := f.cores.map fun c => (c, old c)
  let s := (s.seatRun b f.quad f.base (roundUp x.share 8192)).restoreShares b
  let s := foldState (fun s (y : Nat × Nat × Nat) =>
    let core := quadCore f.quad y.2.1
    ((s.freshCore (s.grp y.1).core core).reseat y.1 core y.2.2).requeue y.1 core) (gs.zip f.places) s
  let s := foldState (fun s (t : Nat × List AlgTable) => s.seatTables b t.1 x.nalg t.2) tabs s
  let s := s.updBlk b fun x => { x with resident := true, fresh := false, moving := false, heldMove := false, waitTime := 0, woken := 0, savedScr := [], savedTabs := [] }
  let s := foldState (fun s g => match (s.grp g).parked with
    | some p => s.stopRecord g p 5
    | none => s) gs s
  s.updGrid x.grid fun n => { n with lastResumed := x.num }

/-! ## Time-slicing (R364 to R366) -/

/-- A group is waiting (R364, R336). One whose lane stream waits on a held access is waiting while its control stream runs
no instruction. -/
def Group.waiting (g : Group) : Bool :=
  g.exited || (g.parked.isNone && g.run.isNone && (g.laneHeld.isSome || g.laneIdle) &&
    (g.ctlHeld.isSome ||
      (match g.wait with
       | some w => g.laneHeld.isSome || w.kind == .waitcmp || w.kind == .bwait || w.kind == .dbar || w.kind == .wbar || w.kind == .yield ||
                   w.kind == .waitchild || w.kind == .sclm
       | none => false)))
/-- Something that a swapped-out group waited on has completed (R366). -/
def State.groupWoken (s : State) (g : Nat) : Bool :=
  let x := s.grp g
  let free (h : Option W64) : Bool := h.any fun va => !s.holdsOn (coreDom x.core) (s.asidOf g) va
  free x.ctlHeld || free x.laneHeld || x.ctlRegen.isSome || x.laneRegen.isSome ||
  match x.wait with
  | some w => w.woken || (w.kind == .waitchild && x.childOut == 0) || (w.kind == .yield && x.rcnt w.obj ≤ w.n)
  | none => false
/-- Marking the swapped-out blocks that have woken since the last mark: those of one cycle in block order. -/
def State.markWoken (s : State) : State :=
  foldState (fun s b =>
    if (s.blk b).groups.any s.groupWoken then { s.updBlk b fun x => { x with woken := s.use + 1 } with use := s.use + 1 } else s)
    (s.blocks.keep fun _ x => !x.resident && !x.fresh && x.woken == 0).keys s
/-- A place for a swapped-out block. -/
def State.resumePlace (s : State) (b : Nat) : State × Option Fit :=
  let x := s.blk b
  s.placeFor (s.gridOf x.grid) x.num (s.needOf b) fun d => x.fifoCores.all fun c => !s.pinnedTo b c || coreDom c == d
/-- The first block of a list that fits resumes. -/
def State.resumeFirst (s : State) : List Nat → Option State
  | [] => none
  | b :: t => match s.resumePlace b with
    | (s, some f) => some (s.resume b f)
    | (_, none) => s.resumeFirst t
/-- The blocks of a grid's image that have not been placed since a rollback, in linear order (R432). -/
def State.freshBlocks (s : State) (seq : Nat) : List Nat :=
  Tab.keys (sortBy (fun (x : Nat × Block) => x.2.num) (s.blocks.keep fun _ b => b.grid == seq && !b.resident && b.fresh))
/-- The swapped-out blocks of a grid in the order of R366: woken ones as they woke; then as a new block the next of an image (R432);
then the others, where no unstarted block is placed before them, round-robin from the one resumed last. A grid with wafer
co-residency waits for the program channel (R205). -/
def State.resumeOrder (s : State) (seq : Nat) : List Nat :=
  let n := s.gridOf seq
  let fresh := s.freshBlocks seq
  let l := s.blocks.keep fun _ b => b.grid == seq && !b.resident && !b.fresh
  let woken := Tab.keys (sortBy (fun (x : Nat × Block) => x.2.woken) (l.keep fun _ b => b.woken != 0))
  let rest := l.keep fun _ b => b.woken == 0
  let rr := (rest.keep fun _ b => n.lastResumed < b.num).keys ++ (rest.keep fun _ b => b.num ≤ n.lastResumed).keys
  if n.pkt.cor == 2 && s.wbarGrid != some seq then []
  else if !fresh.isEmpty then woken ++ fresh.take 1 ++ rr
  else if n.unstarted && (s.placeNext seq).isSome then woken else woken ++ rr
/-- What the master distributor places in a cycle, one block across the wafer: for the first grid in order that has a block it can
place, a swapped-out block or an unstarted one, as R366 orders them; true for a swapped-out one (R356). Nothing is placed before a
rebuild is done (R431). -/
def State.placing (s : State) : Option (Bool × State) :=
  if s.placedAt == some s.now || !s.ridge.rebuildUnits.isEmpty then none
  else (s.gridOrder.findSome? fun seq =>
      if (s.ctx (s.gridOf seq).asid).switched then none
      else match s.resumeFirst (s.resumeOrder seq) with
        | some t => some (true, t)
        | none => if !(s.freshBlocks seq).isEmpty then none else (s.placeNext seq).map fun t => (false, t)).map fun x => (x.1, { x.2 with placedAt := some s.now })
/-- An unstarted block is placed (R356). -/
def execBlockPlacement (s : State) : Out :=
  let s := s.markWoken
  .next (match s.placing with
    | some (false, t) => t
    | _ => s)
/-- A swapped-out block is placed again (R366). -/
def execBlockResume (s : State) : Out :=
  let s := s.markWoken
  .next (match s.placing with
    | some (true, t) => t
    | _ => s)

/-- A grid has an unstarted block, or a swapped-out one, that fits nowhere (R365). -/
def State.starved (s : State) (seq : Nat) : Bool :=
  ((s.gridOf seq).unstarted && (s.placeNext seq).isNone) ||
  (s.blocks.keep fun _ b => b.grid == seq && !b.resident).keys.any fun b => ((s.resumePlace b).2).isNone
/-- A grid whose blocks are never swapped for others: co-resident, or part of a gang (R365). -/
def Grid.whole (n : Grid) : Bool :=
  n.pkt.cor != 0 || (match n.origin with
    | .part _ _ => true
    | _ => false)
/-- The block that has waited longest, at least 2^16 cc, is swapped out to make room for its grid (R365). -/
def execBlockSwapOut (s : State) : Out :=
  .next ((s.gridOrder.findSome? fun seq =>
    if (s.gridOf seq).whole || (s.ctx (s.gridOf seq).asid).switched || !s.starved seq then none
    else
      let l := s.blocks.filter fun x => x.2.grid == seq && x.2.resident && 2 ^ 16 ≤ x.2.waitTime && s.atBoundary x.1 && !s.pinned x.1
      let longest := l.foldl (fun m x => max m x.2.waitTime) 0
      (minBy (fun (x : Nat × Block) => (longest - x.2.waitTime) * 2 ^ 63 + x.2.num) l).map fun x => s.swapOut x.1).getD s)

/-! ## Ended grids and the shutdown limit (R414, R435) -/

/-- An active grid completes TRAPPED, with a record in the log. -/
def State.endGrid (s : State) (seq cause : Nat) : State :=
  if (s.gridOf seq).status == 3 then s
  else (s.trapGrid seq cause 0).logErr { seq := seq, cause := BitVec.ofNat 64 cause, stamp := s.stamp s.ridge.crest }
/-- A gang completes TRAPPED, with a record of its own, when its parts have ended. -/
def State.endGang (s : State) (cause : Nat) (g : Gang) : State :=
  if g.status == 3 then s
  else
    let s := s.logErr { seq := g.seq, cause := BitVec.ofNat 64 cause, stamp := s.stamp s.ridge.crest }
    { s with gangs := s.gangs.set g.seq { g with phase := 3, left := if g.phase == 0 then 0 else g.left, status := 3, cause := cause } }
/-- A sensor reads above the shutdown limit of the image that runs: every active grid completes TRAPPED with cause 0, and no packet is
taken until a restart (R414). -/
def State.thermal (s : State) (temp : Nat) : State :=
  if temp ≤ s.ridge.shutdown || !(s.ridge.state == .ready || s.ridge.state == .loader || s.ridge.state == .firmware) then s
  else
    let s := foldState (fun s seq => s.endGrid seq 0) s.grids.keys s
    let s := foldState (fun s (g : Nat × Gang) => s.endGang 0 g.2) (s.gangs.keep fun _ g => g.phase != 3 || g.left != 0) s
    s.updRidge fun r => { r with state := .thermalStop }

/-! ## Hot domains (R370, R371) -/

/-- A domain's temperature is read, in 1/16 °C: the mark is set above the limit and cleared below the limit
less the hysteresis, which returns the clock to 1.3 GHz and ends what migrations wait. -/
def execDomainHotMark (dom temp : Nat) (s : State) : Out :=
  let m := { s.dom dom with temp := temp }
  let t := if s.ridge.hotLimit < temp then s.updDom dom fun _ => { m with hot := true }
    else if temp + s.ridge.hotHyst < s.ridge.hotLimit then
      { s.updDom dom fun _ => { m with hot := false, clock := if m.hot then 0 else m.clock } with
        blocks := s.blocks.mapVal fun _ x => if quadDom x.quad == dom then { x with moving := false, heldMove := false } else x }
    else s.updDom dom fun _ => m
  .next (t.thermal temp)
/-- Resident blocks of a domain, lowest quad first and then lowest block number. -/
def State.residents (s : State) (d : Nat) : List Nat :=
  Tab.keys (sortBy (fun (x : Nat × Block) => x.2.quad * 2 ^ 63 + x.2.num) (s.blocks.keep fun _ b => b.resident && quadDom b.quad == d))
/-- A region or a pin holds the migration of a block (R371). -/
def State.heldBack (s : State) (b : Nat) : Bool := s.inRegion b || s.pinned b
/-- The order in which blocks leave a hot domain: the one already stopping, those whose migration was held, and the others as R370
gives (R371). -/
def State.leaving (s : State) (d : Nat) : List Nat :=
  let l := s.residents d
  l.filter (fun b => (s.blk b).moving) ++ l.filter (fun b => !(s.blk b).moving && (s.blk b).heldMove) ++
    l.filter fun b => !(s.blk b).moving && !(s.blk b).heldMove
/-- A block that can leave its domain has a place elsewhere: the state with it there. -/
def State.migrated (s : State) (b : Nat) : Option State :=
  if s.heldBack b then none
  else match (s.swapOut b).resumePlace b with
    | (t, some f) => some (t.resume b f)
    | (_, none) => none
/-- The blocks of a hot domain whose turn has come and whose migration is held are remembered, and one block is stopping at
most. -/
def State.noteLeaving (s : State) (dom : Nat) (passed : List Nat) (next : Option Nat) : State :=
  { s with blocks := s.blocks.mapVal fun k x =>
      if quadDom x.quad != dom then x
      else { x with moving := next == some k, heldMove := x.heldMove || passed.contains k && s.heldBack k } }
/-- The first block of a hot domain that is in no region, is not pinned and has a place elsewhere leaves it; while a
group of it is not at its boundary, the block is being stopped (R275, R370, R371). A rebuild comes first (R431). -/
def execBlockMigration (dom : Nat) (s : State) : Out :=
  let l := s.leaving dom
  .next (if !(s.dom dom).hot || !s.ridge.rebuildUnits.isEmpty then s
    else match l.find? fun b => (s.migrated b).isSome with
      | none => s.noteLeaving dom l none
      | some b =>
        let s := s.noteLeaving dom (l.takeWhile (· != b)) (some b)
        if !s.atBoundary b || s.placedAt == some s.now then s
        else match s.migrated b with
          | some t => { t with placedAt := some s.now }
          | none => s)
/-- While a migration is held by a region or a pin, the power core lowers the clock a step, to no less than
0.65 GHz. -/
def execDomainClockStep (dom : Nat) (s : State) : Out :=
  .next (if (s.dom dom).hot && (s.residents dom).any s.heldBack
    then s.updDom dom fun m => { m with clock := min 8 (m.clock + 1) } else s)

/-! ## Context switches (R277) -/

/-- The resident blocks of contexts that are switched out, and whose groups stand at their boundaries, are swapped out. -/
def State.switchSwaps (s : State) : State :=
  foldState (fun s b => if s.atBoundary b then s.swapOut b else s)
    (s.blocks.keep fun _ b => b.resident && (s.ctx (s.gridOf b.grid).asid).switched).keys s
/-- A context switch takes a context off the module, or lets its blocks be placed again. -/
def State.contextSwitch (s : State) (asid : Nat) (out : Bool) : State :=
  if !(s.ctx asid).live then s else (s.updCtx asid fun c => { c with switched := out }).switchSwaps

end Sys2Proof.Machine
end

