-- ==== Sys2Proof/Machine/Health.lean ====
section
/-!
DEFINITION. Checkpoints, faults, rebuilds and rollbacks (18_wafer_health_and_time.md R428 to R435;
11_system_and_traps.md R272; 13_memory_hierarchy.md R321), and the start, cooling and stop of the module
(17_host_ridge_firmware.md R413 to R417; 00_scope.md R10).
-/

namespace Sys2Proof.Machine

/-! ## Jobs (R430) -/

/-- The grids of a job, in order. -/
def State.jobGrids (s : State) (asid : Nat) : List Nat := (s.grids.keep fun _ n => n.asid == asid).keys
/-- Its blocks. -/
def State.jobBlocks (s : State) (asid : Nat) : List Nat := (s.blocks.keep fun _ b => (s.gridOf b.grid).asid == asid).keys
/-- A physical address in a frame of the list. -/
def inFrames (l : List (Nat × Nat)) (pa : Nat) : Bool := l.any fun f => f.1 ≤ pa && pa < f.1 + f.2

/-! ## Checkpoints (R272, R430) -/

/-- CKPT: denied at once without storage; otherwise it waits, and joins a checkpoint in progress. -/
def execCkpt (d : BitVec 6) (s : State) : Out :=
  .next (s.ctlGo [d.toNat] fun s =>
    let first := (s.updCtx s.casid fun c => { c with ckptBusy := true }).standIn { kind := .ckpt, n := d.toNat }
    if s.cctx.ckptAddr == 0 then s.ctlDone d.toNat 2#64
    else match s.cg.wait with
      | some w => if w.kind == .ckpt then s else first
      | none => first)
/-- Core 4 begins a checkpoint 2^38 cc after the last commit; one that was skipped (R411) is due again after as long. -/
def execPeriodicCheckpoint (asid : Nat) (s : State) : Out :=
  let c := s.ctx asid
  .next (if c.live && c.ckptAddr != 0 && !c.ckptBusy && 2 ^ 38 ≤ c.sinceCommit && 2 ^ 38 ≤ c.sinceTry
    then s.updCtx asid fun c => { c with ckptBusy := true } else s)

/-- The waiters of a checkpoint receive their status. -/
def Group.ckptDone (st : W64) (g : Group) : Group :=
  match g.wait with
  | some w => if w.kind == .ckpt && g.parked.isNone then { (g.sets w.n st) with cpc := g.cpc + 4#64, wait := none, noBreak := false } else g
  | none => g
/-- Every waiting CKPT of a job. -/
def State.ckptStatus (s : State) (asid : Nat) (st : W64) : State :=
  { s with groups := s.groups.mapVal fun _ g => if (s.gridOf g.grid).asid == asid then g.ckptDone st else g }
/-- A page that a regeneration made present is recorded as regenerable: its frame returns to the frame list. -/
def State.asRegenerable (s : State) (asid page : Nat) (old : W64) : State :=
  match s.walk asid (pageVa page) with
  | .leaf _ e addr => (s.homeWrite addr 8 old.toNat).poolPush asid (pteFrame e)
  | .absent _ _ _ => s
/-- A regeneration in progress is recorded in the same way; its grid is not part of the image. -/
def State.cancelRegen (s : State) (r : Regen) : State := (s.poolPush r.asid r.frame).homeWrite r.leaf 8 r.old.toNat
/-- A grid that the image does not hold: a regenerator's, or a part of a gang that has not started, which
the image holds as a gang. -/
def State.notSaved (s : State) (seq : Nat) : Bool :=
  match (s.gridOf seq).origin with
  | .regen _ _ => true
  | .part k _ => match s.gangs.get? k with
    | some g => g.phase != 3
    | none => false
  | _ => false
/-- The image of a job: what swapping out its blocks would save, its memory, and its packets. -/
def State.imageOf (s : State) (asid : Nat) : Image :=
  let keep (seq : Nat) : Bool := (s.gridOf seq).asid == asid && !s.notSaved seq
  let regens := s.doms.flatMap fun d => (d.2.regens.filter fun r => r.2.asid == asid).map fun r => r.2
  let frames := (s.ctx asid).frames
  let t := foldState State.swapOut ((s.jobBlocks asid).filter fun b => (s.blk b).resident) s
  let t := foldState (fun t (r : Regen) => t.cancelRegen r) regens t
  let t := foldState (fun t (x : Nat × W64) => t.asRegenerable asid x.1 x.2) (t.ctx asid).regened t
  let t := foldState (fun t (f : Nat × Nat) => t.flushLines (f.1 / 128) (f.2 / 128)) frames t
  { ctx := { t.ctx asid with regened := [] }
    groups := t.groups.keep fun _ g => keep g.grid
    blocks := t.blocks.keep fun _ b => keep b.grid
    grids := t.grids.keep fun k _ => keep k
    gangs := (t.gangs.keep fun _ g => g.asid == asid).mapVal fun _ g => if g.phase == 3 then g else { g with phase := 0 }
    pool := t.doms.flatMap fun d => (d.2.pool.filter fun e => e.2.asid == asid).map fun e => (d.1, e.2)
    chains := t.chains.keep fun _ c => keep (t.grp c.g).grid
    cntOps := t.cntOps.keep fun g _ => keep (t.grp g).grid
    colls := t.colls.filter fun c => keep c.grid
    mem := t.mem.filter fun (c : Host.Cell) => inFrames frames c.1 }
/-- The system address of an image slot of a job's storage, over the link of the command that named it (R411). -/
def State.slotPa (s : State) (asid slot : Nat) : Nat :=
  let c := s.ctx asid
  hostPa c.ckptFn (BitVec.ofNat 64 (c.ckptAddr + slot * (c.ckptSize / 2)))
/-- The writes of an image into a slot would not fail (R398): its link is up, and no target of its bytes answers with an error. -/
def State.slotUp (s : State) (asid slot : Nat) : Bool :=
  let a := s.slotPa asid slot
  s.ridge.linksUp.getLsbD (s.ctx asid).ckptFn && !s.ridge.errPages.any fun p => overlap a ((s.ctx asid).ckptSize / 2) (2 ^ 13 * p) (2 ^ 13)
/-- The image's bytes reach its slot of the storage in host memory (R411, R430). -/
def State.storeImage (s : State) (asid slot : Nat) : State :=
  { s with mem := s.mem.setBytes (s.slotPa asid slot) ((Config.imageCode s.free).take ((s.ctx asid).ckptSize / 2)), free := s.free + 1 }
/-- What of a job's memory, shares and registers an image would read with an uncorrectable error (R11, R321): no image is made of it. -/
def State.jobBad (s : State) (asid : Nat) : List Nat :=
  let frames := (s.ctx asid).frames
  s.bad.filter (fun a => inFrames frames a || (s.jobBlocks asid).any fun b => s.inShare (s.blk b) a) ++
  (s.groups.filter fun g => (s.gridOf g.2.grid).asid == asid && g.2.resident).flatMap fun g => g.2.badV.map fun k => g.2.regPa (k / 32) (k % 32)
/-- The records of a context at a commit (R430, R433): the numbers of grids that still run stay posted, since they may run again. -/
def Context.committed (c : Context) (s : State) : Context :=
  { c with sinceCommit := 0, posted := c.posted.filter fun q => (s.grids.get? q).isSome || (s.gangs.get? q).isSome,
           kept := [], keptGangs := [], children := [], again := [], commitMark := s.nextId }
/-- A checkpoint commits when the groups of the job stand at the boundaries of R275. An image that does not
fit one slot is not taken (R411), nor one whose writes would fail (R398; DESIGN CHOICE, log entry 133), and that of a job that a rebuild affects is discarded (R431). -/
def execCheckpointCommit (asid : Nat) (s : State) : Out :=
  let c := s.ctx asid
  .next (if !c.live || !c.ckptBusy || s.ridge.rebuildJobs.any (fun j => j.1 == asid) || !(s.jobBlocks asid).all (fun b => !(s.blk b).resident || s.atBoundary b) then s
    else
      let s' := s.updCtx asid fun c => { c with ckptBusy := false }
      let slot := s.ridge.ckptSlot.getD asid 0
      if !(s.jobBad asid).isEmpty then
        (foldState State.reportBad (s.jobBad asid) s).updRidge fun r => { r with rebuildJobs := r.rebuildJobs ++ [(asid, cUncorrectable)] }
      else if c.ckptSize / 2 < Config.imageBytes (c.frames.map fun f => f.2).sum || !s.slotUp asid slot then
        ((s'.ckptStatus asid 2#64).updCtx asid fun c => { c with sinceTry := 0 }).logErr
          { pa := if s.slotUp asid slot then 0 else s.slotPa asid slot, stamp := s.stamp s.ridge.crest }
      else
        let s' := (s'.storeImage asid slot).updRidge fun r =>
          { r with images := r.images.set (2 * asid + slot) (s.imageOf asid), ckptSlot := r.ckptSlot.set asid (1 - slot) }
        (s'.ckptStatus asid 0#64).updCtx asid fun c => c.committed s)
/-- The latest committed image of a job. -/
def State.imageFor (s : State) (asid : Nat) : Option Image :=
  if (s.ctx asid).ckptAddr == 0 then none else s.ridge.images.get? (2 * asid + (1 - s.ridge.ckptSlot.getD asid 0))

/-! ## Ending a job (R435) -/

/-- A pending child completes TRAPPED. -/
def State.endChild (s : State) (asid cause : Nat) (x : Child) : State :=
  let (s, seq) := s.newGrid asid x.pkt x.depth x.dlim (.device x.g x.order) .fault 0 none false x.key
  s.updGrid seq fun n => { n with cause := cause }
/-- Every grid of a context and every packet that waits completes TRAPPED. -/
def State.endJob (s : State) (asid cause : Nat) : State :=
  let s := foldState (fun s seq => s.endGrid seq cause) (s.jobGrids asid) s
  let pend := s.doms.flatMap fun d => (d.2.pool.filter fun e => e.2.asid == asid).map fun e => e.2
  let s := { s with
    doms := s.doms.mapVal fun _ m =>
      { m with pool := m.pool.keep fun _ e => e.asid != asid
               regenWait := m.regenWait.filter (·.asid != asid)
               regens := m.regens.mapVal fun _ r => if r.asid == asid && r.grid == 0 then { r with ended := true, failed := true } else r } }
  let s := foldState (fun s (g : Nat × Gang) => s.endGang cause g.2) (s.gangs.keep fun _ g => g.asid == asid && (g.phase != 3 || g.left != 0)) s
  let s := foldState (fun s x => match x with
    | .inl n => { s.reactivate asid (.inl n) .fault with grids := s.grids.set n.seq { n with nextBlock := n.pkt.blocks, status := 3, cause := cause } }
    | .inr g => (s.reactivate asid (.inr g) .fault).endGang cause g) (s.ctx asid).replay s
  let s := foldState (fun s (e : PoolEntry) => foldState (fun s x => s.endChild asid cause x) (e.first :: e.rest) s) pend s
  s.updCtx asid fun c => { c with ckptBusy := false }
/-- Every open episode bound to a context closes (R433). -/
def State.abortEpisodes (s : State) (asid : Nat) : State :=
  let gen := (s.ctx asid).gen
  let eps := s.doms.flatMap fun d => (d.2.windows.filter fun w => w.2.asid == asid && w.2.gen == gen).map fun w => 256 * d.1 + w.1
  foldState (fun s e => s.closeEpisode e 6) eps s

/-! ## Rollback (R432 to R434) -/

/-- All of a job's resident state and accesses in flight are discarded, and the FIFOs its blocks were pinned to. -/
def State.discardJob (s : State) (asid : Nat) : State :=
  let fifos := (s.jobBlocks asid).flatMap fun b => (s.blk b).fifoCores
  let s := foldState (fun s c => s.updCore c fun x => { x with down := [], up := [] }) fifos s
  let s := foldState (fun s seq => (s.dropBlocks seq).dropGrid seq) (s.jobGrids asid) s
  { s with
    gangs := s.gangs.keep fun _ g => g.asid != asid
    doms := s.doms.mapVal fun _ m => { m with pool := m.pool.keep fun _ e => e.asid != asid, regens := m.regens.keep fun _ r => r.asid != asid, regenWait := m.regenWait.filter (·.asid != asid) } }
/-- The caches lose the lines of a frame, and memory its bytes. -/
def State.wipe (s : State) (f : Nat × Nat) : State :=
  let here (l : Nat) : Bool := f.1 / 128 ≤ l && l < (f.1 + f.2) / 128
  { s with
    mem := s.mem.clear f.1 f.2
    bad := s.bad.filter fun a => !inFrames [f] a
    cores := s.cores.mapVal fun _ c => { c with l1 := c.l1.keep fun _ x => !here x.line }
    doms := s.doms.mapVal fun _ d =>
      { d with l2 := d.l2.keep fun _ x => !here x.line, dir := d.dir.keep fun l _ => !here l, sync := d.sync.filter fun l => !here l } }
/-- The record of a group at its resumption after a rollback (R272, R434): it is RESTORED from CKPT, it executes
DBAR and WBAR again, its barrier timeouts begin again, and it rereads the word it waits for. -/
def Group.restored (x : Group) : Group :=
  let g := x.ckptDone 1#64
  match g.wait with
  | some w =>
    if w.kind == .dbar || w.kind == .wbar then { g with wait := none }
    else if w.kind == .bwait then { g with wait := some { w with age := 0 } }
    else if w.kind == .waitcmp then { g with wait := some { w with armed := false, reread := 256 } }
    else g
  | none => g
/-- The child entries of an image that have not been activated since its commit. -/
def stillPending (kept : List Grid) (e : PoolEntry) : Option PoolEntry :=
  let gone (x : Child) : Bool := kept.any fun n => match n.origin with
    | .device _ o => o == x.order
    | _ => false
  match (e.first :: e.rest).filter fun x => !gone x with
  | [] => none
  | x :: t => some { e with first := x, rest := t, window := 0 }
/-- A pool entry returns to the first free place of its domain. -/
def Domain.poolPut (m : Domain) (e : PoolEntry) : Domain :=
  match (List.range 4032).find? fun k => (m.pool.get? k).isNone with
  | some k => { m with pool := m.pool.set k e }
  | none => m
/-- The sequence number of a packet that is to be activated again. -/
def replayKey (x : Grid ⊕ Gang) : Nat :=
  match x with
  | .inl n => n.seq
  | .inr g => g.seq
/-- The context after a rollback: the image's records with a new epoch, and the packets and completions that
are younger than the commit. -/
def Context.restored (now img : Context) : Context :=
  { img with epoch := now.epoch + 1, posted := now.posted, kept := now.kept, keptGangs := now.keptGangs,
             replay := sortBy replayKey (now.kept.map .inl ++ now.keptGangs.map .inr), children := [], again := now.children ++ now.again, commitMark := now.commitMark,
             nextIdent := max now.nextIdent img.nextIdent, attached := now.attached, sinceCommit := now.sinceCommit, sinceTry := now.sinceTry, ckptBusy := false }
/-- Memory and records from an image. -/
def State.restore (s : State) (asid : Nat) (i : Image) : State :=
  let now := s.ctx asid
  let s := foldState State.wipe now.frames s
  let s := { s with
    mem := i.mem.foldl (fun (m : Memory) (c : Host.Cell) => m.setByte c.1 c.2) s.mem
    groups := s.groups.merge (i.groups.mapVal fun _ g => g.restored)
    blocks := s.blocks.merge (i.blocks.mapVal fun _ b => { b with fifoCores := [], waits := false, fresh := true, woken := 0 })
    grids := s.grids.merge i.grids
    gangs := s.gangs.merge i.gangs
    chains := s.chains.merge i.chains
    cntOps := s.cntOps.merge i.cntOps
    colls := s.colls ++ i.colls }
  let s := foldState (fun s (x : Nat × PoolEntry) => match stillPending now.kept x.2 with
    | some e => s.updDom x.1 fun m => m.poolPut e
    | none => s) i.pool s
  let s := s.updCtx asid fun _ => now.restored i.ctx
  let s := s.updRidge fun r => { r with freeFrames := r.freeFrames ++ now.frames.filter fun f => !i.ctx.frames.contains f }
  let s := s.shootTlb asid none
  if s.wbarGrid.isSome then s
  else { s with wbarGrid := (s.grids.find? fun (n : Nat × Grid) => n.2.pkt.cor == 2 && n.2.status == 0).map fun n => n.1 }
/-- A job goes back to its latest committed image, or ends where it has none (R11, R435). -/
def State.rollback (s : State) (asid cause : Nat) : State :=
  match s.imageFor asid with
  | some i => ((s.abortEpisodes asid).discardJob asid).restore asid i
  | none => s.endJob asid cause

/-! ## Faults (R321, R428, R429) -/

/-- The jobs that a unit's retirement affects (R428): those with a block on the quad, and those with a block
pinned to a core below a Corrie core. -/
def State.affected (s : State) (u : FaultUnit) : List Nat :=
  let onQuad (q : Nat) : List Nat := (s.blocks.filter fun b => b.2.resident && b.2.quad == q).map fun b => (s.gridOf b.2.grid).asid
  match u with
  | .strand c _ | .core c _ => onQuad (coreQuad c)
  | .corrie d c =>
    (s.blocks.filter fun b => (List.range 4).any fun k => s.pinnedTo b.1 (quadCore (28 * d + c) k)).map fun b => (s.gridOf b.2.grid).asid
  | _ => []
/-- The unit's errors are memory or link errors, whose record names an address (R412). -/
def memUnit (u : FaultUnit) : Bool :=
  match u with
  | .core _ .control | .core _ .array | .strand _ _ | .corrie _ _ => false
  | _ => true
/-- A lasting fault: a record, and the rebuild or the mark that the table of R428 names. A rebuild's jobs are being stopped from
now on (R431). -/
def State.lasting (s : State) (u : FaultUnit) : State :=
  let s := s.logErr { pa := if memUnit u then s.ridge.errPa else 0, stamp := s.stamp s.ridge.crest }
  match u with
  | .slice _ _ | .channel _ _ | .domain _ _ => { s with topo := { s.topo with marked := s.topo.marked ++ [u] } }
  | _ => s.updRidge fun r =>
      { r with rebuildUnits := r.rebuildUnits ++ [u], rebuildJobs := r.rebuildJobs ++ (s.affected u).map fun a => (a, 0) }
/-- A result whose residue does not agree on its replay (R429): a lasting fault, and the instruction that the strand runs, or the chunk
of the array, delivers no result. -/
def State.residue (s : State) (u : FaultUnit) : State :=
  let s := match u with
    | .strand c k => match s.onStrand c (k % 16) with
      | some g => s.updGrp g fun x => { x with noResult := true }
      | none => s
    | .core c .array => s.updCore c fun x => { x with arrayStuck := true }
    | _ => s
  s.lasting u
/-- A corrected error counts; the fourth of a unit in a window of 2^40 cycles of the crest domain is lasting. -/
def State.corrected (s : State) (u : FaultUnit) : State :=
  let w := (s.dom s.ridge.crest).cyc16 / 16 / 2 ^ 40
  let old := if s.ridge.errWindow == w then s.ridge.errors else []
  let n := ((old.find? fun x => x.1 == u).map fun x => x.2).getD 0 + 1
  let s := s.updRidge fun r => { r with errWindow := w, errors := (old.filter fun x => x.1 != u) ++ [(u, n)] }
  if n == 4 then s.lasting u else s
def execCorrectedError (u : FaultUnit) (s : State) : Out := .next (s.corrected u)
/-- An uncorrectable error that no access consumes: every job that maps the page is handed to core 4. -/
def execScrubUncorrectable (pa : Nat) (s : State) : Out :=
  .next (s.foundBad pa)

/-- An error arises in a memory of the module. A sector of L1 with a parity error is dropped, and fetched again: a corrected error of
that L1 (R306, R321). -/
def State.softError (s : State) (e : ErrAt) : State :=
  match e with
  | .byte pa => { s with bad := s.bad.filter (· ≠ pa) ++ [pa] }
  | .copy d line k => match s.l2Line d line with
    | some x => s.l2Set d line { x with bad := x.bad ||| (1#128 <<< (k % 128)) }
    | none => s
  | .reg g r lane => s.updGrp g fun x => { x with badV := x.badV ++ [32 * r + lane % 32] }
  | .acc core tile row word => s.updCore core fun c => c.updTile tile fun t => { t with bad := t.bad ++ [64 * row + word % 64] }
  | .operand core slot => s.updCore core fun c => { c with opslots := c.opslots.upd slot { holder := 0 } fun o => { o with bad := true } }
  | .entry line => s.reportBad (128 * line)
  | .parity core key sector => (s.corrected (.core core .l1)).updCore core fun c => c.l1DropSector key sector

/-! ## Rebuilds (R431) -/

/-- Sound strands in a mask. -/
def strandCount (m : BitVec 16) : Nat := ((List.range 16).filter fun k => m.getLsbD k).length
/-- The other end of a stitched link. -/
def linkFar (dom dir : Nat) : Nat :=
  match dir with
  | 0 => 4 * (dom - 8) + 2
  | 1 => 4 * (dom + 1) + 3
  | 2 => 4 * (dom + 8)
  | _ => 4 * (dom - 1) + 1
/-- The unit is one of the core's SRAMs (R428). -/
def sramUnit (u : CoreUnit) : Bool :=
  match u with
  | .registers | .scratchpad | .accumulators | .operands => true
  | .control | .array | .l1 => false
/-- The table after a unit's retirement (R424, R428). -/
def Topology.retire (t : Topology) (u : FaultUnit) : Topology :=
  let compute (c : Nat) : Bool := t.sites.getD c 1 == 1
  match u with
  | .strand c k =>
    let m := t.strands.getD c 0xFFFF#16 &&& ~~~ (1#16 <<< (k % 16))
    if !compute c then t
    else if 8 ≤ strandCount m then { t with strands := t.strands.set c m } else { t with sites := t.sites.set c 2 }
  | .core c k => if sramUnit k then { t with sites := t.sites.set c 0 } else if compute c then { t with sites := t.sites.set c 2 } else t
  | .link d k => { t with linksDown := t.linksDown ++ [4 * d + k, linkFar d k] }
  | .corrie d c => { t with corrieOff := t.corrieOff ++ [28 * d + c] }
  | _ => t
/-- What else a retirement ends: the episodes of a Corrie core, and the L1 and TLB of a core that is no
longer a compute core. -/
def State.retireUnit (s : State) (u : FaultUnit) : State :=
  let s := { s with topo := s.topo.retire u }
  match u with
  | .corrie d c => foldState (fun s k => s.closeEpisode (epOf (28 * d + c) k) 6) (List.range 8) s
  | .strand c _ | .core c _ =>
    if s.siteState c == 1 then s else s.updCore c fun x => { x with l1 := [], l1plru := [], tlb := [], arrayStuck := false }
  | _ => s
/-- One job of each ASID, with the cause that is given first. -/
def eachJob : List (Nat × Nat) → List (Nat × Nat)
  | [] => []
  | x :: t => x :: (eachJob t).filter fun y => y.1 != x.1
/-- The jobs of a rebuild, with the cause given first: those handed over, and those whose blocks stand on the units found. -/
def State.rebuildList (s : State) : List (Nat × Nat) :=
  eachJob (s.ridge.rebuildJobs ++ (s.ridge.rebuildUnits.flatMap s.affected).map fun a => (a, 0))
/-- A block of an affected job has stopped (R431): it stands at its boundaries, or waits for a result that never comes (R429). -/
def State.hasStopped (s : State) (b : Nat) : Bool :=
  !(s.blk b).resident || s.atBoundary b ||
  (s.blk b).groups.any fun g => (s.grp g).noResult || (s.core (s.grp g).core).arrayStuck
/-- The rebuild of the lasting faults found so far, once the jobs that they affect have stopped, and the rollback of those jobs and of
the ones that consumed an uncorrectable error. -/
def execRebuild (s : State) : Out :=
  let units := s.ridge.rebuildUnits
  let jobs := s.rebuildList
  let go :=
    let s := foldState (fun s (j : Nat × Nat) => s.updCtx j.1 fun c => { c with ckptBusy := false }) jobs s
    let s := foldState State.retireUnit units s
    let s := if units.isEmpty then s else { s with topo := { s.topo with gen := s.topo.gen + 1, round := s.round.toNat } }
    let s := foldState (fun s (j : Nat × Nat) => s.rollback j.1 j.2) jobs s
    s.updRidge fun r => { r with rebuildUnits := [], rebuildJobs := [] }
  .next (if jobs.all fun j => (s.jobBlocks j.1).all s.hasStopped then go else s)

/-! ## Start (R10, R413 to R417) -/

/-- A measurement register is extended (R415). -/
def extendMv (m : Tab (BitVec 256)) (i : Nat) (x : BitVec 256) : Tab (BitVec 256) :=
  let bytes (v : BitVec 256) : List Byte := bytesOfNat 32 v.toNat
  m.put i (Config.sm3 (bytes (m.getD i 0#256) ++ bytes x)) 0#256
/-- The digest of a stage. -/
def stageDigest (b : BootStage) : BitVec 256 := Config.sm3 b.code
/-- The security configuration (R415): the debug enables, and each stage's security version number (its layout: log entry 119). -/
def securityBytes (b : BootImage) : List Byte :=
  bytesOfNat 8 b.debugOn.toNat ++ [b.loader, b.ridge, b.defects, b.monitor].flatMap fun x => bytesOfNat 4 x.version.toNat
/-- The measurements of an image. -/
def measuresOf (b : BootImage) : Tab (BitVec 256) :=
  [stageDigest b.loader, stageDigest b.ridge, stageDigest b.defects, stageDigest b.monitor, Config.sm3 (securityBytes b)].zipIdx.foldl
    (fun m x => extendMv m x.2 x.1) []
/-- The image's signing key is the one whose digest the boot ROM holds, and the signature of each stage is that key's (R416). -/
def keyMatches (b : BootImage) : Bool := Config.sm3 b.key == Config.sm3 Config.standards.romKey
def sigsMatch (b : BootImage) : Bool :=
  [b.loader, b.ridge, b.defects, b.monitor].all fun x => Config.standards.verify b.key (stageDigest x) x.sig
/-- A remapping in which every retired unit is served by one that is left: where the one named is retired too, by the lowest that is
left of its domain (R322). -/
def settled (n : Nat) (m : List (Nat × Nat)) : List (Nat × Nat) :=
  let gone (k : Nat) : Bool := m.any fun x => x.1 == k
  m.map fun x =>
    let base := x.1 / n * n
    if gone (base + x.2) then (x.1, ((List.range n).find? fun i => !gone (base + i)).getD x.2) else x
/-- A slice or channel that the self-test finds faulty is served by one left of its domain (R322). -/
def remap (m : List (Nat × Nat)) (d n k : Nat) : List (Nat × Nat) :=
  if m.any fun x => x.1 == n * d + k then m else settled n (m ++ [(n * d + k, k)])
/-- The table after what the self-test finds (R421, R428). -/
def Topology.found (t : Topology) (u : FaultUnit) : Topology :=
  match u with
  | .slice d k => { t with sliceMap := remap t.sliceMap d 128 k }
  | .channel d k => { t with chanMap := remap t.chanMap d 32 k }
  | _ => t.retire u
/-- The topology table that the defect map and the self-test give (R421, R424): a site with fewer than eight sound strands is no
compute core. How the bytes of the signed stage encode the map is no rule's (R8): the decoded map stands beside the measured bytes in
the image, and nothing links the two (DESIGN CHOICE, log entry 134). -/
def topologyOf (b : BootImage) : Topology :=
  let few := (b.strands.filter fun x => strandCount x.2 < 8 && !b.sites.any fun y => y.1 == x.1).map fun x => (x.1, 2)
  let t : Topology :=
    { sites := (b.sites ++ few).foldl (fun t x => t.set x.1 x.2) [], strands := b.strands.foldl (fun t x => t.put x.1 x.2 0xFFFF#16) [],
      corrieOff := b.corrieOff, linksDown := b.linksDown.flatMap fun x => [4 * x.1 + x.2, linkFar x.1 x.2], sliceMap := settled 128 b.sliceMap,
      chanMap := settled 32 b.chanMap }
  b.found.foldl Topology.found t
/-- The bytes of other machines' memories, which the module's supply does not hold. -/
def outsideMem (m : Memory) : Memory := m.filter fun (c : Host.Cell) => 2 ^ 48 ≤ c.1
/-- The module without its state: what stands outside it, and the plan, remain. -/
def State.unpowered (s : State) : State :=
  { State.reset with agenda := s.agenda, free := s.free, mem := outsideMem s.mem,
                     ridge := { State.reset.ridge with linksUp := s.ridge.linksUp, tports := s.ridge.tports, msi := s.ridge.msi } }
/-- The boot fails with a reason. -/
def State.bootFails (s : State) (reason : Nat) : State := s.updRidge fun r => { r with state := .bootFail, reason := reason }
/-- Ridge cores that run a stage from their private SRAM (R409): core 0 the loader, all eight the firmware. -/
def ridgeCores (n : Nat) (x : BootStage) : Tab Hart :=
  (List.range n).map fun k =>
    (k, { started := true, pc := BitVec.ofNat 64 hartLocal, sram := Memory.setBytes [] 0 (x.code.take (2 ^ 21)) })
/-- A start, as far as a state of DEVSTAT (R395, R413): the lowest candidate that passes becomes the crest domain, and the image is
checked and measured, each stage before it runs; with nothing kept. -/
def State.start (s : State) (selfTest : BitVec 4) (img : BootImage) (upTo : DevState) : State :=
  let s := s.unpowered
  match ([27, 28, 35, 36].zipIdx.find? fun x => selfTest.getLsbD x.2) with
  | none => s.bootFails 1
  | some (crest, _) =>
    let s := s.updRidge fun r => { r with crest := crest }
    if !keyMatches img then s.bootFails 2
    else if !sigsMatch img then s.bootFails 3
    else if !img.formOk then s.bootFails 4
    else match upTo with
      | .loader => s.updRidge fun r =>
        { r with shutdown := img.shutdown, hotLimit := img.hotLimit, hotHyst := img.hotHyst, state := .loader, mv := (measuresOf img).take 1, cores := ridgeCores 1 img.loader }
      | .firmware => s.updRidge fun r =>
        { r with shutdown := img.shutdown, hotLimit := img.hotLimit, hotHyst := img.hotHyst, state := .firmware, mv := (measuresOf img).take 2, cores := ridgeCores 8 img.ridge }
      | _ =>
        { s.updRidge fun r =>
            { r with state := .ready, certOk := img.certKey == Config.publicKey, mv := measuresOf img, shutdown := img.shutdown,
                     hotLimit := img.hotLimit, hotHyst := img.hotHyst, cores := ridgeCores 8 img.ridge } with topo := topologyOf img }
/-- The module starts, and becomes READY. -/
def execModuleStart (selfTest : BitVec 4) (img : BootImage) (s : State) : Out := .next (s.start selfTest img .ready)
/-- The supply goes, and with it everything that the module holds. -/
def execPowerLoss (s : State) : Out := .next s.unpowered

/-! ## Cooling (R414) -/

/-- Core 7 follows the inlet temperature, in 1/16 °C: a clock step down every 10 ms above 45 °C, and a step up
below 44 °C where the domain is not hot. -/
def execCoolantThrottle (inlet : Nat) (s : State) : Out :=
  let s := s.updRidge fun r => { r with inlet := inlet }
  .next (if s.ridge.coolAge < 13000000 then s
    else if 45 * 16 < inlet then
      { s.updRidge fun r => { r with coolAge := 0 } with
        doms := (List.range 64).foldl (fun t d => t.upd d {} fun m => { m with clock := min 8 (m.clock + 1) }) s.doms }
    else if inlet < 44 * 16 then
      { s.updRidge fun r => { r with coolAge := 0 } with doms := s.doms.mapVal fun _ m => if m.hot then m else { m with clock := m.clock - 1 } }
    else s)
/-- A sensor reads above the shutdown limit: every active grid completes TRAPPED with cause 0, and no packet is
taken until a restart. -/
def execThermalStop (temp : Nat) (s : State) : Out := .next (s.thermal temp)

end Sys2Proof.Machine
end

