-- ==== Sys2Proof/Machine/HostIf.lean ====
section
/-!
DEFINITION. The host's view of the module (17_host_ridge_firmware.md R393 to R408, R419, R420): BAR 0
registers, queues, the completion writer, interrupts, BAR 2, and Traverse links.
-/

namespace Sys2Proof.Machine

/-! ## Queues (R399 to R402) -/

/-- The number that stands for a function's admin queue. -/
def adminQ : Nat := 256
/-- A queue block, and changing it. -/
def State.hq (s : State) (fn q : Nat) : Queue := if q == adminQ then s.ridge.admin.getD fn {} else s.ridge.queues.getD q {}
def State.updHq (s : State) (fn q : Nat) (f : Queue → Queue) : State :=
  s.updRidge fun r => if q == adminQ then { r with admin := r.admin.upd fn {} f } else { r with queues := r.queues.upd q {} f }
/-- The queue registers answer (R396). -/
def State.hostOn (s : State) : Bool := s.ridge.state == .ready || s.ridge.state == .thermalStop
/-- A write of a function to a queue register: one to a queue that another function owns sets ERR. -/
def State.hqWrite (s : State) (fn q : Nat) (f : Queue → Queue) : State :=
  if !s.hostOn || adminQ < q then s
  else if q != adminQ && (s.hq fn q).owner.any (· != fn) then s.updHq fn q fun x => { x with err := true }
  else s.updHq fn q f
/-- The submission doorbell. -/
def Queue.doorbell (x : Queue) (v : W64) : Queue :=
  let t := v.toNat % 2 ^ 12
  if 2 ^ x.sqlog ≤ t then { x with err := true } else if !x.enabled then x else { x with sqtail := t }
/-- The completion doorbell (R404). -/
def Queue.release (x : Queue) (v : W64) : Queue :=
  let size := 2 ^ x.cqlog
  let h := v.toNat % 2 ^ 12
  let r := if h == x.cqhead && x.used == size then size else (h + size - x.cqhead % size) % size
  if size ≤ h || x.used < r then { x with err := true } else { x with cqhead := h, used := x.used - r }
/-- A disabled queue takes nothing more; its ownership ends when nothing of it is active. -/
def Queue.disable (x : Queue) : Queue :=
  { x with enabled := false, sqtail := x.sqhead, slots := [], owner := if x.active == 0 then none else x.owner }
/-- A write of QCFG. -/
def Queue.cfg (x : Queue) (fn : Nat) (v : W64) : Queue :=
  let n := v.toNat
  let size (k : Nat) : Bool := 1 ≤ k && k ≤ 12
  let x' := { x with vector := bitsOf n 15 8 }
  if x.enabled then (if bitOf n 16 then x' else x'.disable)
  else
    let y := { x' with sqlog := bitsOf n 3 0, cqlog := bitsOf n 7 4 }
    if !bitOf n 16 then y
    else if x.active != 0 then { x with err := true }
    else if !size y.sqlog || !size y.cqlog then { y with err := true }
    else { y with enabled := true, owner := some fn, sqhead := 0, sqtail := 0, cqtail := 0, cqhead := 0, used := 0, phase := true, slots := [] }

def execSqtail (fn q : Nat) (v : W64) (s : State) : Out := .next (s.hqWrite fn q fun x => x.doorbell v)
def execCqhead (fn q : Nat) (v : W64) (s : State) : Out := .next (s.hqWrite fn q fun x => x.release v)
def execQueueEnable (fn q : Nat) (v : W64) (s : State) : Out := .next (s.hqWrite fn q fun x => x.cfg fn (v ||| 0x10000#64))
def execQueueDisable (fn q : Nat) (v : W64) (s : State) : Out := .next (s.hqWrite fn q fun x => x.cfg fn (v &&& ~~~ 0x10000#64))
/-- Writing 1 to QSTAT [0] clears ERR. -/
def execQstatClear (fn q : Nat) (v : W64) (s : State) : Out :=
  .next (s.hqWrite fn q fun x => if v.getLsbD 0 then { x with err := false } else x)
/-- A Function Level Reset writes ENABLE = 0 to every queue of the function (R402). -/
def execFunctionLevelReset (fn : Nat) (s : State) : Out :=
  .next (s.updRidge fun r => { r with queues := r.queues.mapVal fun _ x => if x.owner == some fn then x.disable else x })
/-- A link goes down. -/
def execLinkDown (fn : Nat) (s : State) : Out := .next (s.updRidge fun r => { r with linksUp := r.linksUp &&& ~~~ (1#8 <<< (fn % 8)) })

/-! ## BAR 0 (R395, R396) -/

/-- Coalescing of a vector: a field written 0 stores 1 (R407). -/
def State.coalWrite (s : State) (fn v : Nat) (w : W64) : State :=
  let c := bitsOf w.toNat 7 0
  let t := bitsOf w.toNat 17 8
  s.updRidge fun r => { r with vectors := r.vectors.upd (256 * fn + v % 256) {} fun x =>
    { x with count := if c == 0 then 1 else c, timer := if t == 0 then 1 else t } }
def execCoal (fn v : Nat) (w : W64) (s : State) : Out := .next (s.coalWrite fn v w)
/-- The queue block and the register of a BAR 0 offset; only the listed registers are there (R395, R399). -/
def queueReg (off : Nat) : Option (Nat × Nat) :=
  let listed (r : Nat) : Bool := r % 8 == 0 && r < 0x38
  if 0x100 ≤ off && off < 0x140 then (if listed (off - 0x100) then some (adminQ, off - 0x100) else none)
  else if 0x10000 ≤ off && off < 0x14000 then
    (if listed ((off - 0x10000) % 64) then some ((off - 0x10000) / 64, (off - 0x10000) % 64) else none)
  else none
/-- A write of one queue register. -/
def Queue.write (x : Queue) (fn r : Nat) (w : W64) : Queue :=
  match r with
  | 0x00 => if x.enabled then x else { x with sqbase := w &&& 0xFFFFFFFFFFFFFFC0#64 }
  | 0x08 => if x.enabled then x else { x with cqbase := w &&& 0xFFFFFFFFFFFFFFF0#64 }
  | 0x10 => x.cfg fn w
  | 0x18 => x.doorbell w
  | 0x28 => x.release w
  | 0x30 => if w.getLsbD 0 then { x with err := false } else x
  | _ => x
/-- A write of a BAR 0 register; unlisted registers and RES0 bits ignore it. -/
def execRegisterWrite (fn off : Nat) (w : W64) (s : State) : Out :=
  .next (match queueReg off with
    | some (q, r) => s.hqWrite fn q fun x => x.write fn r w
    | none => if 0x20000 ≤ off && off < 0x20800 && off % 8 == 0 then s.coalWrite fn ((off - 0x20000) / 8) w else s)
/-- The state code of DEVSTAT. -/
def DevState.num (d : DevState) : Nat :=
  match d with
  | .rom => 0 | .loader => 1 | .firmware => 2 | .ready => 3 | .thermalStop => 0xFE | .bootFail => 0xFF
/-- A completion waits for room in its queue. -/
def State.cqWaits (s : State) (fn q : Nat) : Bool :=
  let x := s.hq fn q
  2 ^ x.cqlog ≤ x.used && s.ridge.completions.any fun c => c.q == q && (q != adminQ || c.fn == fn)
/-- A read of one queue register. -/
def State.queueRead (s : State) (fn q r : Nat) : Nat :=
  let x := s.hq fn q
  let b (p : Bool) (k : Nat) : Nat := if p then 2 ^ k else 0
  match r with
  | 0x00 => x.sqbase.toNat
  | 0x08 => x.cqbase.toNat
  | 0x10 => x.sqlog + 16 * x.cqlog + 256 * x.vector + b x.enabled 16
  | 0x20 => x.sqhead
  | 0x30 => b x.err 0 + b (!x.enabled && x.active != 0) 1 + b (s.cqWaits fn q) 2
  | _ => 0
/-- The value of a BAR 0 register; an unlisted one reads 0. -/
def State.bar0 (s : State) (fn off : Nat) : Nat :=
  let r := s.ridge
  let port (n : Nat) : Nat := let p := r.tports.getD n {}; (if p.up then 1 else 0) + p.peer % 128 * 2 + p.peerPort % 512 * 256
  let temp (d : Nat) : Nat := let m := s.dom d; m.temp % 2 ^ 16 + (if m.hot then 2 ^ 16 else 0) + m.clock * 2 ^ 24
  let coal (v : Nat) : Nat := let x := r.vectors.getD (256 * fn + v) {}; x.count + 256 * x.timer
  match queueReg off with
  | some (q, k) => if s.hostOn then s.queueRead fn q k else 0
  | none =>
    if off == 0 then r.state.num + r.crest * 2 ^ 8 + r.reason * 2 ^ 16
    else if off == 8 then Config.serial.toNat
    else if off % 8 != 0 then 0
    else if off == 0x1000 then r.power % 2 ^ 32
    else if off == 0x1008 then r.inlet % 2 ^ 16 + r.outlet % 2 ^ 16 * 2 ^ 16
    else if 0x1100 ≤ off && off < 0x1300 then temp ((off - 0x1100) / 8)
    else if 0x20000 ≤ off && off < 0x20800 then coal ((off - 0x20000) / 8)
    else if 0x30000 ≤ off && off < 0x30900 then port ((off - 0x30000) / 8)
    else 0
/-- A read by the host leaves its bytes in `lastRead`. -/
def State.bar0Read (s : State) (fn off : Nat) : State := s.updRidge fun r => { r with lastRead := some (bytesOfNat 8 (s.bar0 fn off)) }

/-! ## The completion writer and interrupts (R403 to R408) -/

/-- The first completion of its queue in the list. -/
def heads : List Completion → List Completion
  | [] => []
  | c :: t => c :: (heads t).filter fun x => !(x.q == c.q && (c.q != adminQ || x.fn == c.fn))
/-- The writer can take the completion: its ring has room, or its link is down. -/
def State.canWrite (s : State) (c : Completion) : Bool :=
  !s.ridge.linksUp.getLsbD c.fn || (s.hq c.fn c.q).used < 2 ^ (s.hq c.fn c.q).cqlog
/-- A queue has one grid fewer to complete; a disabled one gives up its owner with the last (R402). -/
def Queue.completed (x : Queue) : Queue :=
  let n := x.active - 1
  { x with active := n, owner := if !x.enabled && n == 0 then none else x.owner }
/-- The system address of the next entry of a completion's ring. -/
def State.entryPa (s : State) (c : Completion) : Nat :=
  hostPa c.fn ((s.hq c.fn c.q).cqbase + BitVec.ofNat 64 (16 * (s.hq c.fn c.q).cqtail))
/-- An entry written into its ring, and counted at its vector. -/
def State.putEntry (s : State) (c : Completion) : State :=
  let x := s.hq c.fn c.q
  let a := s.entryPa c
  let e := c.entry.toNat + (if x.phase then 2 ^ 32 else 0)
  let s := (s.pokeOut a 8 (e % 2 ^ 64)).pokeOut (a + 8) 8 (e / 2 ^ 64)
  let t := (x.cqtail + 1) % 2 ^ x.cqlog
  let s := s.updHq c.fn c.q fun x => { x with cqtail := t, phase := if t == 0 then !x.phase else x.phase, used := x.used + 1 }
  s.updRidge fun r => { r with vectors := r.vectors.upd (256 * c.fn + x.vector) {} fun y =>
    { y with seen := y.seen + 1, age := if y.seen == 0 then 0 else y.age } }
/-- One completion in 4 cc, in the order of arrival, the lowest queue first in one cycle. One that was posted
since the job's commit is not posted again (R433); one whose link is down is discarded and recorded. -/
def execCompletionWrite (s : State) : Out :=
  .next (if s.now < s.ridge.writerAt then s
    else match minBy (fun (c : Completion) => 512 * c.arrived + c.q) ((heads s.ridge.completions).filter s.canWrite) with
      | none => s
      | some c =>
        let s := s.updRidge fun r => { r with completions := r.completions.erase c, writerAt := s.now + 4 }
        let seq := (c.entry.extractLsb' 64 64).toNat
        let a := Config.queueContext c.fn c.q
        let host := c.q != adminQ
        if host && (s.ctx a).posted.contains seq then s
        else
          let s := if host then s.updHq c.fn c.q Queue.completed else s
          if !s.ridge.linksUp.getLsbD c.fn then s.logErr { seq := seq, pa := s.entryPa c, stamp := s.stamp s.ridge.crest }
          else
            let s := s.putEntry c
            if host && (s.ctx a).ckptAddr != 0 then s.updCtx a fun k => { k with posted := k.posted ++ [seq] } else s)

/-- A message leaves on the owner's link: a posted write of the vector's data at its address (R408), which is recorded where it fails
(R398). -/
def State.sendMsi (s : State) (fn v : Nat) : State :=
  let x := s.ridge.vectors.getD (256 * fn + v) {}
  if !s.sysUp (hostPa fn x.addr) then s.logErr { pa := hostPa fn x.addr, stamp := s.stamp s.ridge.crest }
  else
    (s.pokeOut (hostPa fn x.addr) 4 x.data.toNat).updRidge fun r => { r with msi := r.msi ++ [{ fn := fn, vector := v }] }
/-- A message of a vector: a masked one sets its pending bit. -/
def State.message (s : State) (fn v : Nat) : State :=
  let k := 256 * fn + v
  let x := s.ridge.vectors.getD k {}
  let s := s.updRidge fun r => { r with vectors := r.vectors.set k { x with seen := 0, age := 0, pending := x.pending || x.masked } }
  if x.masked then s else s.sendMsi fn v
def execInterruptMessage (fn v : Nat) (s : State) : Out :=
  let x := s.ridge.vectors.getD (256 * fn + v) {}
  .next (if x.seen != 0 && x.count ≤ x.seen then s.message fn v else s)
/-- The timer counts µs of 1,300 cc. -/
def execCoalescingTimerExpiry (fn v : Nat) (s : State) : Out :=
  let x := s.ridge.vectors.getD (256 * fn + v) {}
  .next (if x.seen != 0 && 1300 * x.timer ≤ x.age then s.message fn v else s)
/-- The host unmasks a vector: a pending message is sent. -/
def State.vectorUnmask (s : State) (fn v : Nat) : State :=
  let k := 256 * fn + v
  let x := s.ridge.vectors.getD k {}
  let s := s.updRidge fun r => { r with vectors := r.vectors.set k { x with masked := false, pending := false } }
  if x.masked && x.pending then s.sendMsi fn v else s
def execVectorUnmask (fn v : Nat) (s : State) : Out := .next (s.vectorUnmask fn v)
def State.vectorMask (s : State) (fn v : Nat) : State :=
  s.updRidge fun r => { r with vectors := r.vectors.upd (256 * fn + v) {} fun x => { x with masked := true } }

/-- BAR 4 (R393): the MSI-X table at 0, entries of 16 bytes, and the pending bits at 0x8000 (log entry 118). -/
def pbaBase : Nat := 0x8000
/-- A write of a doubleword of the table: message address, data, and the mask bit of the vector control. -/
def State.bar4Write (s : State) (fn off : Nat) (v : W32) : State :=
  let n := off / 16
  let k := 256 * fn + n
  let field (f : Vector → Vector) : State := s.updRidge fun r => { r with vectors := r.vectors.upd k {} f }
  if 0x1000 ≤ off || off % 4 != 0 then s
  else match off % 16 with
    | 0 => field fun x => { x with addr := (x.addr &&& 0xFFFFFFFF00000000#64) ||| (v &&& 0xFFFFFFFC#32).setWidth 64 }
    | 4 => field fun x => { x with addr := (x.addr &&& 0xFFFFFFFF#64) ||| (v.setWidth 64 <<< 32) }
    | 8 => field fun x => { x with data := v }
    | _ => if v.getLsbD 0 then s.vectorMask fn n else s.vectorUnmask fn n
/-- A doubleword of BAR 4; one that holds nothing reads 0. -/
def State.bar4 (s : State) (fn off : Nat) : Nat :=
  let x := s.ridge.vectors.getD (256 * fn + off / 16) {}
  if off % 4 != 0 then 0
  else if off < 0x1000 then
    match off % 16 with
    | 0 => x.addr.toNat % 2 ^ 32
    | 4 => x.addr.toNat / 2 ^ 32
    | 8 => x.data.toNat
    | _ => if x.masked then 1 else 0
  else if pbaBase ≤ off && off < pbaBase + 32 then
    ((List.range 32).map fun i => if (s.ridge.vectors.getD (256 * fn + 8 * (off - pbaBase) + i) {}).pending then 2 ^ i else 0).sum
  else 0
def State.bar4Read (s : State) (fn off : Nat) : State := s.updRidge fun r => { r with lastRead := some (bytesOfNat 4 (s.bar4 fn off)) }

/-! ## BAR 2 and peers (R393, R394, R420) -/

/-- The address is populated DRAM. -/
def State.isDram (s : State) (pa : Nat) : Bool :=
  match s.place pa with
  | .dram _ _ => pa < 2 ^ 42
  | _ => false
/-- Reading bytes at their homes; unpopulated ones read as ones. -/
def State.outerRead (s : State) (pa : Nat) : Nat → State × List Byte
  | 0 => (s, [])
  | n + 1 =>
    let (s, b) := if s.isDram pa then (let (s, v) := s.homeRead pa 1; (s, BitVec.ofNat 8 v)) else (s, 0xFF#8)
    let (s, l) := s.outerRead (pa + 1) n
    (s, b :: l)
/-- Writing bytes at their homes; those to unpopulated places are dropped. -/
def State.outerWrite (s : State) (pa : Nat) : List Byte → State
  | [] => s
  | b :: t => (if s.isDram pa then s.homeWrite pa 1 b.toNat else s).outerWrite (pa + 1) t
/-- The accesses that R394 records: an unpopulated place, and an uncorrectable error. -/
def State.outerLog (s : State) (pa n : Nat) (read : Bool) : State :=
  if (List.range n).all (fun k => s.isDram (pa + k)) && !(read && s.badIn pa n) then s
  else s.logErr { pa := pa, stamp := s.stamp s.ridge.crest }
/-- A read from outside, and its answer. -/
def State.outerGet (s : State) (pa n : Nat) : State :=
  let t := s.outerLog pa n true
  if s.badIn pa n then t.updRidge fun r => { r with lastRead := none }
  else
    let (t, l) := t.outerRead pa n
    t.updRidge fun r => { r with lastRead := some l }
def execBar2Read (fn addr n : Nat) (s : State) : Out := .next (if s.ridge.linksUp.getLsbD fn then s.outerGet addr n else s)
def execBar2Write (fn addr : Nat) (bytes : List Byte) (s : State) : Out :=
  .next (if s.ridge.linksUp.getLsbD fn then (s.outerLog addr bytes.length false).outerWrite addr bytes else s)
/-- A host atomic on 32 or 64 bits; for CAS, x is compared and y stored. It answers with the old value. -/
def execBar2Atomicop (fn addr n : Nat) (op : HostAtom) (x y : W64) (s : State) : Out :=
  .next (if !s.ridge.linksUp.getLsbD fn || !(n == 4 || n == 8) || addr % n != 0 then s
    else if !s.isDram addr || s.badIn addr n then s.outerGet addr n
    else
      let (t, old) := s.homeRead addr n
      let new := match op with
        | .fetchAdd => (old + x.toNat) % 2 ^ (8 * n)
        | .swap => x.toNat % 2 ^ (8 * n)
        | .cas => if old == x.toNat % 2 ^ (8 * n) then y.toNat % 2 ^ (8 * n) else old
      (t.homeAtom addr n new).updRidge fun r => { r with lastRead := some (bytesOfNat n old) })
/-- Some port to the peer is up. -/
def State.peerUp (s : State) (peer : Nat) : Bool := s.ridge.tports.any fun p => p.2.up && p.2.peer == peer
def execPeerWrite (peer addr : Nat) (bytes : List Byte) (s : State) : Out :=
  .next (if s.peerUp peer then (s.outerLog addr bytes.length false).outerWrite addr bytes else s)
/-- A Traverse link trains or fails (R419). -/
def execTraverseLinkChange (port : Nat) (up : Bool) (peer peerPort : Nat) (s : State) : Out :=
  .next (if 288 ≤ port then s
    else s.updRidge fun r => { r with tports := r.tports.set port { up := up, peer := peer % 128, peerPort := peerPort % 512 } })

end Sys2Proof.Machine
end

