-- ==== Sys2Proof/Machine/Admin.lean ====
section
/-!
DEFINITION. Admin commands (17_host_ridge_firmware.md R410 to R412, R418): contexts, episode bindings, quotes,
the error log and the topology table (18_wafer_health_and_time.md R421 to R424).
-/

namespace Sys2Proof.Machine

/-! ## Commands and their completions -/

/-- STATUS of an admin completion. -/
def stDone : Nat := 0
def stRefused : Nat := 4
def stBad : Nat := 5
/-- An admin completion. SQID is not stated for it, nor SEQ for a command that returns nothing: both are free. -/
def State.adminDone (s : State) (c : AdminCmd) (st : Nat) (seq : Option Nat) : State :=
  let (f, s) := s.fresh
  let (g, s) := s.fresh
  s.post { fn := c.fn, q := adminQ, entry := completionEntry (seq.getD (g % 2 ^ 64)) 0 0 st (f % 256) c.tag.toNat }
/-- A command that ends with a status alone. -/
def State.adminEnd (s : State) (c : AdminCmd) (st : Nat) : State := s.adminDone c st none
/-- Every one of the doublewords is 0. -/
def allZero (l : List W64) : Bool := l.all (· == 0#64)
/-- Bytes of host memory over a link. -/
def State.hostWrite (s : State) (fn : Nat) (a : W64) (l : List Byte) : State :=
  foldState (fun s (x : Byte × Nat) => s.pokeOut (hostPa fn (a + BitVec.ofNat 64 x.2)) 1 x.1.toNat) l.zipIdx s

/-! ## CREATE_CONTEXT (R411) -/

/-- A mapping record. -/
structure MapRec where
  va : Nat
  attr : Nat
  len : Nat
  src : W64
  deriving DecidableEq, Repr

/-- The records of an image. -/
def State.mapRecs (s : State) (fn : Nat) (img : W64) (n : Nat) : List MapRec :=
  (List.range n).map fun k =>
    let d (j : Nat) : Nat := s.peek (hostPa fn (img + BitVec.ofNat 64 (32 * k + 8 * j))) 8
    { va := d 0, attr := d 1, len := d 2, src := BitVec.ofNat 64 (d 3) }
def MapRec.kind (r : MapRec) : Nat := bitsOf r.attr 3 1
/-- RES0 bits of a record are 0. -/
def MapRec.res0 (r : MapRec) : Bool :=
  r.attr % 2 == 0 && bitsOf r.attr 31 20 == 0 && (r.kind == 2 || (bitsOf r.attr 19 10 == 0 && r.attr / 2 ^ 32 == 0))
/-- A record that can be mapped. -/
def MapRec.ok (r : MapRec) : Bool :=
  r.kind ≤ 2 && bitsOf r.attr 9 8 != 3 && r.va % 2 ^ 13 == 0 && r.len % 2 ^ 13 == 0 && r.len != 0 &&
  canonical (BitVec.ofNat 64 r.va) && r.va % 2 ^ 52 + r.len ≤ 2 ^ 52
/-- No two records overlap. -/
def disjointRecs : List MapRec → Bool
  | [] => true
  | r :: t => t.all (fun x => !overlap r.va r.len x.va x.len) && disjointRecs t
/-- The leaves of a range, the largest that alignment and length allow: offset in the range, and level. -/
def leafCuts (va len : Nat) : Nat → Nat → List (Nat × Nat)
  | 0, _ => []
  | fuel + 1, off =>
    if len ≤ off then []
    else
      let level := if (va + off) % 2 ^ 33 == 0 && off + 2 ^ 33 ≤ len then 1
        else if (va + off) % 2 ^ 23 == 0 && off + 2 ^ 23 ≤ len then 2 else 3
      (off, level) :: leafCuts va len fuel (off + 2 ^ pageBits level)

/-- A frame for a context, zeroed. -/
def State.ctxFrame (s : State) (asid n : Nat) : Option (Nat × State) :=
  (s.takeFrame n).map fun (x : Nat × State) =>
    (x.1, (x.2.wipe (x.1, n)).updCtx asid fun c => { c with frames := c.frames ++ [(x.1, n)] })
/-- Writing an entry so many levels below a table, with the tables on the way. -/
def State.mapEntry (s : State) (asid : Nat) (va : W64) (w : Nat) : Nat → Nat → Nat → Option State
  | 0, level, table => some (s.homeWrite (table + 8 * tableIndex va level) 8 w)
  | k + 1, level, table =>
    let a := table + 8 * tableIndex va level
    let e := s.mem.read a 8
    if pteP e then s.mapEntry asid va w k (level + 1) (pteTable e)
    else match s.ctxFrame asid (2 ^ 13) with
      | none => none
      | some (f, s) => (s.homeWrite a 8 (f + 1)).mapEntry asid va w k (level + 1) f
/-- One leaf of a record. A core-private page's owner is firmware's choice. -/
def State.mapCut (s : State) (fn asid : Nat) (r : MapRec) (off level : Nat) : Option State :=
  let va := BitVec.ofNat 64 (r.va + off)
  let root := (s.ctx asid).root
  if r.kind != 0 then s.mapEntry asid va r.attr 3 0 root
  else
    let n := 2 ^ pageBits level
    match s.ctxFrame asid n with
    | none => none
    | some (f, s) =>
      let (own, s) := s.fresh
      let src := hostPa fn (r.src + BitVec.ofNat 64 off)
      let bytes : Memory := if r.src == 0#64 then [] else s.mem.slice src n
      let s := { s with mem := bytes.foldl (fun (m : Memory) (c : Host.Cell) => m.setByte (f + c.1) c.2) s.mem }
      s.mapEntry asid va (leafWord (bitsOf r.attr 9 4 * 16) f (own % 7168)) level 0 root
/-- Every record. -/
def State.mapAll (s : State) (fn asid : Nat) : List (MapRec × Nat × Nat) → Option State
  | [] => some s
  | x :: t => match s.mapCut fn asid x.1 x.2.1 x.2.2 with
    | none => none
    | some s => s.mapAll fn asid t
/-- The cuts of a record; a not-present one has 8 KiB entries. -/
def MapRec.cuts (r : MapRec) : List (MapRec × Nat × Nat) :=
  if r.kind == 0 then (leafCuts r.va r.len (r.len / 2 ^ 13) 0).map fun c => (r, c.1, c.2)
  else (List.range (r.len / 2 ^ 13)).map fun k => (r, 2 ^ 13 * k, 3)
/-- The base of the frame list: at 0x000F_0000_0000_0000, or just above a record. -/
def listBase (rs : List MapRec) (n : Nat) : Nat :=
  (((0xF * 2 ^ 48) :: rs.map fun r => r.va + r.len).find? fun b =>
    b % 2 ^ 52 + n ≤ 2 ^ 52 && canonical (BitVec.ofNat 64 b) && rs.all fun r => !overlap b n r.va r.len).getD 0
/-- Free frames pushed on the frame list. -/
def State.fillPool (s : State) (asid : Nat) : Nat → Option State
  | 0 => some s
  | n + 1 => match s.ctxFrame asid (2 ^ 13) with
    | none => none
    | some (f, s) => (s.poolPush asid f).fillPool asid n
/-- Every TLB entry of an ASID goes, whatever its generation (R335). -/
def State.shootGens (s : State) (asid : Nat) : State :=
  { s with
    cores := s.cores.mapVal fun _ c => { c with tlb := c.tlb.keep fun _ t => t.asid != asid, lcode := c.lcode.keep fun _ x => x.asid != asid,
                                                ccode := c.ccode.keep fun _ x => x.asid != asid }
    quadTlb := s.quadTlb.mapVal fun _ l => l.filter fun t => t.asid != asid
    doms := s.doms.mapVal fun _ d => { d with walk := d.walk.filter fun w => w.asid != asid } }
/-- The context that the records describe, in the order of R411, or nothing for want of memory. -/
def State.buildContext (s : State) (c : AdminCmd) (asid : Nat) (rs : List MapRec) : Option State :=
  let old := s.ctxs.get? asid
  let gen := (old.map fun x => (x.gen + 1) % 16).getD 0
  let s := if gen == 0 && old.isSome then s.shootGens asid else s
  let new : Context := { live := true, gen := gen, ckptAddr := c.d3.toNat, ckptFn := c.fn, ckptSize := if c.d3 == 0#64 then 0 else c.d4.toNat }
  let s := s.updCtx asid fun _ => new
  let pool := c.d5.toNat
  let pages := ((rs.filter fun r => r.kind == 0).map fun r => r.len / 2 ^ 13).sum
  let list := roundUp (8 * (pool + pages)) (2 ^ 13)
  let base := listBase rs list
  let lrec : MapRec := { va := base, attr := 0x30, len := list, src := 0#64 }
  match s.ctxFrame asid (2 ^ 13) with
  | none => none
  | some (root, s) =>
    match (s.updCtx asid fun x => { x with root := root }).mapAll c.fn asid (rs.flatMap MapRec.cuts) with
    | none => none
    | some s =>
      if list == 0 then some s
      else match s.mapAll c.fn asid lrec.cuts with
        | none => none
        | some s => (s.updCtx asid fun x => { x with poolbase := BitVec.ofNat 64 base }).fillPool asid pool
def execCreateContext (c : AdminCmd) (s : State) : Out :=
  let n := c.d2.toNat % 2 ^ 32
  let rs := s.mapRecs c.fn c.d1 (if n ≤ 2 ^ 20 then n else 0)
  .next (if 2 ^ 32 ≤ c.d2.toNat || 2 ^ 48 ≤ c.d4.toNat || 2 ^ 32 ≤ c.d5.toNat || !allZero [c.d6, c.d7] || !rs.all MapRec.res0
      then s.adminEnd c stBad
    else if n == 0 || 2 ^ 20 < n || c.d1.toNat % 32 != 0 || c.d3.toNat % 2 ^ 13 != 0 || (c.d3 != 0#64 && c.d4.toNat % 2 ^ 14 != 0) ||
        !rs.all MapRec.ok || !disjointRecs rs then s.adminEnd c stRefused
    else match (fromTo 1 65535).find? fun a => !(s.ctx a).live with
      | none => s.adminEnd c stRefused
      | some asid => match s.buildContext c asid rs with
        | none => s.adminEnd c stRefused
        | some s => s.adminDone c stDone (some (asid + (s.ctx asid).gen * 2 ^ 16)))

/-! ## DESTROY_CONTEXT -/

/-- A grid or gang of the context completes at once. -/
def State.completeNow (s : State) (seq : Nat) : State :=
  let n := s.gridOf seq
  ((s.writeSignal n.asid seq n.status n.pkt.sig).1.grantCompletion n).dropGrid seq
def State.gangNow (s : State) (g : Gang) : State :=
  let g := (s.gangs.get? g.seq).getD g
  let s := (s.writeSignal g.asid g.seq g.status g.sig).1
  { s.post { fn := g.fn, q := g.q, entry := completionEntry g.seq g.cause g.cause2 g.status g.q g.slot } with gangs := s.gangs.erase g.seq }
/-- The context's grids end with TRAPPED, its episodes close, and its memory is free. -/
def State.destroy (s : State) (asid : Nat) : State :=
  let s := (s.abortEpisodes asid).endJob asid 0
  let s := foldState State.completeNow (s.jobGrids asid) s
  let s := foldState (fun s (g : Nat × Gang) => s.gangNow g.2) (s.gangs.keep fun _ g => g.asid == asid) s
  let s := { s with doms := s.doms.mapVal fun _ m => { m with regens := m.regens.keep fun _ r => r.asid != asid, regenWait := m.regenWait.filter (·.asid != asid) } }
  let c := s.ctx asid
  let s := s.updRidge fun r => { r with freeFrames := r.freeFrames ++ c.frames, images := (r.images.erase (2 * asid)).erase (2 * asid + 1),
                                        ckptSlot := r.ckptSlot.erase asid }
  s.updCtx asid fun x => { gen := x.gen }
def execDestroyContext (c : AdminCmd) (s : State) : Out :=
  .next (if 2 ^ 16 ≤ c.d1.toNat || !allZero [c.d2, c.d3, c.d4, c.d5, c.d6, c.d7] then s.adminEnd c stBad
    else if !(s.ctx c.d1.toNat).live then s.adminEnd c stRefused
    else (s.destroy c.d1.toNat).adminEnd c stDone)

/-! ## BIND_EPISODE (16_corrie.md R376, R377) -/

/-- Room for a window of n bytes in a domain: where firmware has chosen an offset among the bytes that it keeps, there, and else above
the frames in use (DESIGN CHOICE, log entry 53). -/
def State.windowRoom (s : State) (d n : Nat) : Option (Nat × State) :=
  let a := roundUp (s.ridge.nextFrame.getD d frameBase) (2 ^ 16)
  let chosen := s.ridge.windowAt.filter fun k => k % 2 ^ 16 == 0 && k + n ≤ frameBase
  match chosen with
  | some k => some (d * 2 ^ 36 + k, s.updRidge fun r => { r with windowAt := none })
  | none =>
  if dramSize < a + n then none
  else some (d * 2 ^ 36 + a, s.updRidge fun r => { r with nextFrame := r.nextFrame.set d (a + n) })
/-- The device takes a write of the window table (R376): the window is of this domain, large enough for its rings, and overlaps no
other valid window of the domain. -/
def State.windowOk (s : State) (e : Nat) (w : Window) : Bool :=
  let k := 8 * epCore e + epSlot e
  w.base / 2 ^ 36 == epDom e && 2 ^ 13 + 32 * w.p ≤ w.size * 2 ^ 16 &&
  (s.dom (epDom e)).windows.all fun x => x.1 == k || !overlap x.2.base (x.2.size * 2 ^ 16) w.base (w.size * 2 ^ 16)
/-- Where the 8 KiB page is mapped no more. -/
def State.unmapPage (s : State) (asid page : Nat) : State :=
  match s.walk asid (pageVa page) with
  | .leaf 3 _ addr => (s.homeWrite addr 8 0).shootdown asid (some ((pageVa page).toNat, 2 ^ 13))
  | _ => s
/-- The page for a window in a context: the first unmapped one from firmware's choice on. -/
def State.windowPageFor (s : State) (e asid : Nat) : Option Nat :=
  ((List.range 4096).map fun k => (Config.windowPage e asid + k) % 2 ^ 40).find? fun p =>
    match s.walk asid (pageVa p) with
    | .absent 0 _ _ => true
    | _ => false
/-- The page of a slot's earlier window is unmapped. -/
def State.unbindSlot (s : State) (e : Nat) : State :=
  match (s.dom (epDom e)).windows.get? (8 * epCore e + epSlot e) with
  | some old => if (s.ctx old.asid).gen == old.gen then s.unmapPage old.asid old.page else s
  | none => s
/-- The table entry of a slot is written, and the window's first 8 KiB are cleared and mapped. -/
def State.bindPage (s : State) (e : Nat) (w : Window) : Option State :=
  if !s.windowOk e w then none
  else
    let s := s.updDom (epDom e) fun m => { m with windows := m.windows.set (8 * epCore e + epSlot e) w }
    let s := (s.wipe (w.base, 2 ^ 13)).updStep e fun x => { insBud := x.insBud, cycBud := x.cycBud }
    s.mapEntry w.asid (pageVa w.page) (w.base + 0x13) 3 0 (s.ctx w.asid).root
/-- Binding a slot: its earlier window's page is unmapped, the table entry is written, the window's first 8 KiB are cleared and mapped into
the context read-only, hardware-coherent, at a page of firmware's choice (R376, R377). None where the device refuses the write or the page
cannot be mapped. -/
def State.bind (s : State) (e asid base size psize : Nat) : Option (Nat × State) :=
  let s := s.unbindSlot e
  (s.windowPageFor e asid).bind fun page =>
    let w : Window := { asid := asid, gen := (s.ctx asid).gen, psize := psize, size := size, base := base, page := page }
    (s.bindPage e w).map fun t => (page, t)
/-- Operands in the order in which R410 lists them: episode id, ASID, SIZE, PSIZE. A slot whose episode is open
is not bound again. -/
def execBindEpisode (c : AdminCmd) (s : State) : Out :=
  let e := c.d1.toNat
  let a := c.d2.toNat
  let size := c.d3.toNat
  let psize := c.d4.toNat
  let isOpen : Bool := match s.window e with
    | some w => (s.epRec w).isOpen
    | none => false
  .next (if !allZero [c.d5, c.d6, c.d7] then s.adminEnd c stBad
    else if !epOk e || !(s.ctx a).live || size == 0 || 1024 < size || psize == 0 || 16384 < psize || isOpen ||
        size * 2 ^ 16 < 2 ^ 13 + 32 * 64 * psize then s.adminEnd c stRefused
    else match s.windowRoom (epDom e) (size * 2 ^ 16) with
      | none => s.adminEnd c stRefused
      | some (base, t) => match t.bind e a base size psize with
        | none => s.adminEnd c stRefused
        | some (page, t) => t.adminDone c stDone (some (pageVa page).toNat))

/-! ## QUOTE (R418) -/

/-- A quote report. -/
def State.quoteReport (s : State) (nonce : List Byte) : State × List Byte :=
  let r := s.ridge
  let mvs := (List.range 16).flatMap fun k => bytesOfNat 32 (r.mv.getD k 0#256).toNat
  let body := nonce ++ mvs ++ bytesOfNat 8 Config.serial.toNat ++ bytesOfNat 8 (r.crest % 256) ++ bytesOfNat 64 Config.publicKey.toNat
  let sig := Config.signature body s.free
  ({ s with free := s.free + 1 }, body ++ bytesOfNat 64 sig.toNat)
def execQuote (c : AdminCmd) (s : State) : Out :=
  .next (if !allZero [c.d6, c.d7] then s.adminEnd c stBad
    else if !s.ridge.certOk then s.adminEnd c stRefused
    else
      let (s, l) := s.quoteReport ([c.d1, c.d2, c.d3, c.d4].flatMap fun x => bytesOfNat 8 x.toNat)
      (s.hostWrite c.fn c.d5 l).adminEnd c stDone)
/-- The same report for a Traverse peer. -/
def execTraverseQuote (peer : Nat) (nonce : BitVec 256) (s : State) : Out :=
  .next (if !s.ridge.certOk || !s.hostOn then s
    else
      let (s, l) := s.quoteReport (bytesOfNat 32 nonce.toNat)
      s.updRidge fun r => { r with peerQuotes := r.peerQuotes ++ [(peer, l)] })

/-! ## READ_LOG and READ_TOPOLOGY (R412, R421 to R424) -/

/-- A log record's 64 bytes: its parts in the order in which R412 names them, then the handle (R426). -/
def LogRec.bytes (r : LogRec) : List Byte :=
  [r.seq, r.cause.toNat, r.faddr.toNat, r.epc.toNat, r.elpc.toNat, r.pa, r.stamp.toNat, r.handle.toNat].flatMap fun x => bytesOfNat 8 x
/-- The newest records, oldest first: D1 host bus address, D2 count. -/
def execReadLog (c : AdminCmd) (s : State) : Out :=
  let l := s.ridge.errlog
  .next (if !allZero [c.d3, c.d4, c.d5, c.d6, c.d7] then s.adminEnd c stBad
    else (s.hostWrite c.fn c.d1 ((l.drop (l.length - c.d2.toNat)).flatMap LogRec.bytes)).adminEnd c stDone)

/-- The header (R422). -/
def State.topoHeader (s : State) : Nat :=
  let off := (s.topo.sites.filter fun x => x.2 == 0).length
  let memo := (s.topo.sites.filter fun x => x.2 == 2).length
  0x4B425731 + s.topo.gen % 2 ^ 16 * 2 ^ 32 + s.ridge.crest * 2 ^ 48 + (7168 - off - memo) * 2 ^ 64 + memo * 2 ^ 80 + s.topo.round * 2 ^ 96
/-- A stitched link is up; a wafer edge has none. -/
def State.linkUpAt (s : State) (d k : Nat) : Bool :=
  (match k with
   | 0 => 8 ≤ d
   | 1 => d % 8 != 7
   | 2 => d < 56
   | _ => d % 8 != 0) && !s.topo.linksDown.contains (4 * d + k)
/-- A mask of the numbers below n that pass a test. -/
def maskOf (n : Nat) (f : Nat → Bool) : Nat := ((List.range n).map fun k => if f k then 2 ^ k else 0).sum
/-- A domain record (R423). -/
def State.topoDomain (s : State) (d : Nat) : Nat :=
  let n (st : Nat) : Nat := ((List.range 112).filter fun k => s.siteState (112 * d + k) == st).length
  let slice (k : Nat) : Bool := !s.topo.sliceMap.any fun x => x.1 == 128 * d + k
  let chan (k : Nat) : Bool := !s.topo.chanMap.any fun x => x.1 == 32 * d + k
  let count (m : Nat) (f : Nat → Bool) : Nat := ((List.range m).filter f).length
  n 1 + n 2 * 2 ^ 8 + n 0 * 2 ^ 16 + count 128 slice * 2 ^ 24 + count 32 chan * 2 ^ 32 + maskOf 4 (s.linkUpAt d) * 2 ^ 40 +
  maskOf 128 slice * 2 ^ 64 + maskOf 32 chan * 2 ^ 192 + maskOf 28 (fun k => s.corriePresent (28 * d + k)) * 2 ^ 224
/-- A column of a quad record (R424). -/
def State.topoSite (s : State) (c : Nat) : Nat :=
  let st := s.siteState c
  st + (if st == 1 then (s.strandsOf c).toNat * 2 ^ 8 else 0)
/-- The table. -/
def State.topoBytes (s : State) : List Byte :=
  bytesOfNat 64 s.topoHeader ++ (List.range 64).flatMap fun d =>
    bytesOfNat 64 (s.topoDomain d) ++ (List.range 112).flatMap fun k => bytesOfNat 4 (s.topoSite (112 * d + k))
/-- D1 host bus address. -/
def execReadTopology (c : AdminCmd) (s : State) : Out :=
  .next (if !allZero [c.d2, c.d3, c.d4, c.d5, c.d6, c.d7] then s.adminEnd c stBad
    else (s.hostWrite c.fn c.d1 s.topoBytes).adminEnd c stDone)

end Sys2Proof.Machine
end

