-- ==== Sys2Proof/Machine/Coherence.lean ====
section
/-!
DEFINITION. The requests and notices that reach a home directory slice (13_memory_hierarchy.md R312 to R314).
Each is performed whole, so no busy state remains. A request that the sending domain has no reason to
make changes nothing.
-/

namespace Sys2Proof.Machine

/-- A domain other than the home of a DRAM line. -/
def State.remote (s : State) (line q : Nat) : Bool := s.cached (128 * line) && q < 64 && q != homeOf (128 * line)

/-- A domain without the line asks to read it, and holds a copy afterwards. -/
def execDirReadRequest (line q : Nat) (s : State) : Out :=
  .next (if s.remote line q && (s.l2Line q line).isNone then (s.dirRead line q).l2Alloc q line 0 .none 0xF#4 else s)

/-- A domain that does not own the line asks to write it. In state H the store goes to the home, and no
copy remains. -/
def execDirWriteRequest (line q : Nat) (s : State) : Out :=
  .next (if s.remote line q && !s.ownsLine q line then
      let t := s.dirWrite line q
      if t.ownsLine q line then t.l2Alloc q line 0 .none 0xF#4 else t
    else s)

/-- A domain evicts its copy; dirty bytes of M were written home as they were stored. -/
def execDirEvictionNotice (line q : Nat) (s : State) : Out :=
  .next (if s.remote line q then
      match s.l2Line q line with
      | some x => if x.coh == 0 then s.l2Evict q x else s
      | none => s.dirEvict line q
    else s)

/-- The sync engine takes the line (R312); where a ninth way of the set would be in H, it releases it at
once (R314). A monitor enters H by WAITCMP (R195). -/
def execDirHold (line : Nat) (s : State) : Out :=
  .next (if s.cached (128 * line) then
      if s.mayHold line then s.syncTake line else (s.syncTake line).syncRelease line
    else s)

/-- The sync engine releases the line; H ends where no monitor remains. -/
def execDirHoldRelease (line : Nat) (s : State) : Out := .next (s.syncRelease line)

end Sys2Proof.Machine
end

