-- ==== Sys2Proof/Machine/Debug.lean ====
section
/-!
DEFINITION. Debug commands, dumps, trace rings, Cairn messages and the trigger sequencer
(19_debug_trace_profiling.md R444 to R455), and the taking of admin commands (17_host_ridge_firmware.md R410).
-/

namespace Sys2Proof.Machine

/-! ## Groups that a command names (R446) -/

/-- The groups of a context that have not exited. -/
def State.ctxGroups (s : State) (asid : Nat) : List Nat :=
  (s.groups.keep fun _ g => g.live && !g.exited && (s.gridOf g.grid).asid == asid).keys
/-- The groups that a handle and a slot name; a handle of 0 names all. -/
def State.namedGroups (s : State) (asid : Nat) (handle : W64) (slot : Nat) : List Nat :=
  let l := s.ctxGroups asid
  if handle == 0#64 then l
  else l.filter fun g => (s.grp g).resident && (s.grp g).slot == slot && s.handle asid (s.grp g).core == handle
/-- The operands of a command on groups: RES0 bits, then a live context with a debugger, then the groups. -/
def State.onGroups (s : State) (c : AdminCmd) (rest : List W64) (eff : List Nat → State) : State :=
  if 2 ^ 16 ≤ c.d1.toNat || 64 ≤ c.d3.toNat || !allZero rest then s.adminEnd c stBad
  else if !(s.ctx c.d1.toNat).live || !(s.ctx c.d1.toNat).attached then s.adminEnd c stRefused
  else eff (s.namedGroups c.d1.toNat c.d2 c.d3.toNat)

/-- DEBUG_ATTACH: D1 ASID. -/
def execDebugAttach (c : AdminCmd) (s : State) : Out :=
  let a := c.d1.toNat
  .next (if 2 ^ 16 ≤ a || !allZero [c.d2, c.d3, c.d4, c.d5, c.d6, c.d7] then s.adminEnd c stBad
    else if !(s.ctx a).live then s.adminEnd c stRefused
    else (s.updCtx a fun x => { x with attached := true }).adminEnd c stDone)
/-- The stop of a group by a command. A control stream that is to issue once without matching still does so at the
resumption (R442). -/
def State.debugPark (s : State) (g : Nat) : State :=
  let x := s.grp g
  s.park g true { code := 0, pc := x.cpc, resume := x.cpc, reason := 4, viaBreakReg := x.noBreak }
/-- DEBUG_STOP parks the named groups that are not parked; with none to park it is refused. -/
def execDebugStop (c : AdminCmd) (s : State) : Out :=
  .next (s.onGroups c [c.d4, c.d5, c.d6, c.d7] fun l =>
    match l.filter fun g => (s.grp g).parked.isNone with
    | [] => s.adminEnd c stRefused
    | l => (foldState State.debugPark l s).adminEnd c stDone)
/-- A parked group goes on: the stream that stopped continues at its resume point as TRET would continue it. -/
def Group.unpark (x : Group) : Group :=
  match x.parked with
  | none => x
  | some p =>
    let x := { x with parked := none }
    if p.ctl then { x with cpc := p.trap.resume, noBreak := p.trap.viaBreakReg }
    else x.updSplit p.trap.split fun y => { y with pc := p.trap.resume, wait := .ready, noBreak := p.trap.viaBreakReg }
def State.unparkAll (s : State) (l : List Nat) : State := foldState (fun s g => s.updGrp g Group.unpark) l s
/-- DEBUG_RESUME resumes the named groups that are parked; with none it is refused. -/
def execDebugResume (c : AdminCmd) (s : State) : Out :=
  .next (s.onGroups c [c.d4, c.d5, c.d6, c.d7] fun l =>
    match l.filter fun g => (s.grp g).parked.isSome with
    | [] => s.adminEnd c stRefused
    | l => (s.unparkAll l).adminEnd c stDone)
/-- DEBUG_DETACH: D1 ASID. -/
def execDebugDetach (c : AdminCmd) (s : State) : Out :=
  let a := c.d1.toNat
  .next (if 2 ^ 16 ≤ a || !allZero [c.d2, c.d3, c.d4, c.d5, c.d6, c.d7] then s.adminEnd c stBad
    else if !(s.ctx a).live || !(s.ctx a).attached then s.adminEnd c stRefused
    else ((s.unparkAll (s.ctxGroups a)).updCtx a fun x => { x with attached := false }).adminEnd c stDone)

/-! ## Dumps and pokes (R446, R447) -/

/-- The 256-bit image of a split: mask, lane PC and join PC. -/
def Split.image (x : Split) : Nat := x.mask.toNat + x.pc.toNat % 2 ^ 53 * 2 ^ 64 + x.joinPc.toNat % 2 ^ 53 * 2 ^ 128
/-- The predicates of a lane; p0 reads 1. -/
def Group.lanePreds (g : Group) (l : Nat) : Nat := maskOf 32 fun k => g.rp k l
/-- The dump of a group. -/
def Group.dump (g : Group) : List Byte :=
  let w64 (l : List W64) : List Byte := l.flatMap fun x => bytesOfNat 8 x.toNat
  let bytes (l : List Nat) : List Byte := l.map fun x => BitVec.ofNat 8 x
  w64 ((List.range 8).map fun k => g.stopRec.getD k 0#64) ++
  w64 ((List.range 64).map g.rs) ++
  w64 [g.cause, g.faddr, g.fmask, g.epc, g.elpc, 0, 0, 0] ++
  (lanes.flatMap fun l => bytesOfNat 4 (g.lanePreds l)) ++
  ((List.range 4).flatMap fun k => bytesOfNat 32 ((g.splits[k]?.map Split.image).getD 0)) ++
  bytes [g.tile, g.flags.toNat, 0, 0] ++
  ((List.range 4).flatMap fun k => bytesOfNat 4 (g.rmag k).toNat) ++
  bytes ((fromTo 1 7).map g.rsb) ++ bytes [0] ++ bytes ((List.range 4).map g.rcnt) ++
  bytesOfNat 4 g.laneq.length ++ bytesOfNat 4 g.livelanes.toNat ++ bytesOfNat 24 0 ++
  (List.range g.nregs).flatMap fun r => lanes.flatMap fun l => bytesOfNat 4 (g.rv r l).toNat
/-- DEBUG_DUMP: D4 host bus address. -/
def execDebugDump (c : AdminCmd) (s : State) : Out :=
  .next (s.onGroups c [c.d5, c.d6, c.d7] fun l =>
    match l with
    | g :: _ =>
      if c.d2 == 0#64 || (s.grp g).parked.isNone then s.adminEnd c stRefused
      else (s.hostWrite c.fn c.d4 (s.grp g).dump).adminEnd c stDone
    | [] => s.adminEnd c stRefused)
/-- The poke of a register, or none for a register outside the allocation. -/
def Group.poke (g : Group) (kind r lane : Nat) (v : W64) : Option Group :=
  match kind with
  | 0 => if r < g.nregs then some (g.setv r lane (v.extractLsb' 0 32)) else none
  | 1 => if r < 64 then some (g.sets r v) else none
  | 2 => if r != 0 && r < 32 then some (g.setp r (1#32 <<< lane) (if v.getLsbD 0 then 0xFFFFFFFF#32 else 0#32)) else none
  | _ => none
/-- DEBUG_POKE: D4 kind, register and lane; D5 value. -/
def execDebugPoke (c : AdminCmd) (s : State) : Out :=
  let x := c.d4.toNat
  .next (s.onGroups c [c.d6, c.d7] fun l =>
    if 2 ^ 18 ≤ x then s.adminEnd c stBad
    else match l with
      | g :: _ =>
        if c.d2 == 0#64 || (s.grp g).parked.isNone then s.adminEnd c stRefused
        else match (s.grp g).poke (bitsOf x 1 0) (bitsOf x 12 2) (bitsOf x 17 13) c.d5 with
          | some y => (s.setGrp g y).adminEnd c stDone
          | none => s.adminEnd c stRefused
      | [] => s.adminEnd c stRefused)

/-! ## Trace rings (R450) -/

/-- A debugger is attached to some context: TRACE_CONFIG and SEQ_LOAD name none (R446). -/
def State.anyAttached (s : State) : Bool := s.ctxs.any fun c => c.2.live && c.2.attached
/-- TRACE_CONFIG: D1 domain, D2 base, D3 log₂ records. -/
def execTraceConfig (c : AdminCmd) (s : State) : Out :=
  let d := c.d1.toNat
  let base := c.d2.toNat
  let n := c.d3.toNat
  let last := base + 64 + 64 * 2 ^ n
  .next (if 32 ≤ n || !allZero [c.d4, c.d5, c.d6, c.d7] then s.adminEnd c stBad
    else if !s.anyAttached || 64 ≤ d || n < 7 || 20 < n || base / 2 ^ 36 != d || base % 2 ^ 13 != 0 || dramSize < last - d * 2 ^ 36
      then s.adminEnd c stRefused
    else
      let r : Ring := { base := base, log2 := n }
      (((s.homeWrite base 64 0)).updDom d fun m => { m with ring := some r, traceQ := [], traceAt := s.now }).adminEnd c stDone)

/-! ## The trigger sequencer (R454, R455) -/

/-- A doubleword of a program. -/
def progWord (p : List Byte) (off : Nat) : Nat := natOfBytes ((p.drop off).take 8)
/-- A program is well made: RES0 bits 0, assigned sources and modes. -/
def progOk (p : List Byte) : Bool :=
  let cmp (k : Nat) : Bool :=
    let q := progWord p (32 * k)
    q % 16 ≤ 7 && bitsOf q 22 21 ≤ 1 && q / 2 ^ 23 == 0 && progWord p (32 * k + 24) == 0
  let cnt (k : Nat) : Bool := progWord p (256 + 8 * k) / 2 ^ 45 == 0
  let rule (k : Nat) : Bool := progWord p (288 + 8 * k) / 2 ^ 25 == 0
  (List.range 8).all cmp && (List.range 4).all cnt && (List.range 8).all rule && progWord p 352 / 2 == 0 && ((p.drop 360).take 24).all (· == 0#8)
/-- A SEQ record of a domain (R452): old and new state, the rule and the counters. -/
def State.seqRecord (s : State) (d old new rule : Nat) (cs : List Nat) : State :=
  let c (k : Nat) : Nat := cs.getD k 0 % 2 ^ 32
  s.traceRecord d seqUnit [s.stamp d, 0, 4#4 ++ 0#60, 0xFFFFFFFF#32 ++ 0#32, BitVec.ofNat 64 (old + 4 * new + 16 * rule),
    BitVec.ofNat 64 (c 0 + c 1 * 2 ^ 32), BitVec.ofNat 64 (c 2 + c 3 * 2 ^ 32), 0]
/-- Loading the sequencer of a domain. -/
def State.loadSeq (s : State) (p : List Byte) (d : Nat) : State :=
  let old := (s.dom d).seqr.st
  let q : Sequencer := { prog := p, recording := ((p.drop 352).headD 0#8).getLsbD 0, due := s.now + 1 }
  (s.updDom d fun m => { m with seqr := q }).seqRecord d old 0 3 [0, 0, 0, 0]
/-- SEQ_LOAD: D1 domain mask, D2 host bus address of the program. -/
def execSeqLoad (c : AdminCmd) (s : State) : Out :=
  let p := s.mem.bytes (hostPa c.fn c.d2) 384
  .next (if !allZero [c.d3, c.d4, c.d5, c.d6, c.d7] || !progOk p then s.adminEnd c stBad
    else if !s.anyAttached then s.adminEnd c stRefused
    else (foldState (fun s d => s.loadSeq p d) ((List.range 64).filter fun d => c.d1.getLsbD d) s).adminEnd c stDone)

/-- A comparator reports a match for one of the events. -/
def Sequencer.matched (q : Sequencer) (evs : List SeqEvent) (k : Nat) : Bool :=
  let w := progWord q.prog (32 * k)
  let value := BitVec.ofNat 64 (progWord q.prog (32 * k + 8))
  let mask := BitVec.ofNat 64 (progWord q.prog (32 * k + 16))
  w % 16 != 0 && evs.any fun e =>
    e.src == w % 16 && (bitOf w 20 || e.asid == bitsOf w 19 4) &&
    (if bitsOf w 22 21 == 0 then e.value &&& mask == value &&& mask else value.ule (e.value &&& mask))
/-- The comparators that matched. -/
def Sequencer.hits (q : Sequencer) (evs : List SeqEvent) : Nat := maskOf 8 (q.matched evs)
/-- Counter k after the matches m. -/
def Sequencer.counted (q : Sequencer) (m k : Nat) : Nat :=
  let w := progWord q.prog (256 + 8 * k)
  let c := q.counters.getD k 0
  if bitOf (bitsOf w 43 40) q.st then min (w % 2 ^ 32) (c + ((List.range 8).filter fun j => bitOf m j && bitOf (bitsOf w 39 32) j).length) else c
/-- The rule that is taken: 0 or 1. -/
def Sequencer.rule (q : Sequencer) (m done : Nat) : Option Nat :=
  (List.range 2).find? fun r =>
    let w := progWord q.prog (288 + 16 * q.st + 8 * r)
    bitOf w 0 && (bitsOf w 8 1 &&& m != 0 || bitsOf w 12 9 &&& done != 0)
/-- Counters that stand at their limits. -/
def Sequencer.done (q : Sequencer) (cs : List Nat) : Nat := maskOf 4 fun k => cs.getD k 0 == progWord q.prog (256 + 8 * k) % 2 ^ 32
/-- What the rule that was taken in the cycle before does: its action, the next state, the record and the counters that it
clears. -/
def State.seqAct (s : State) (d : Nat) : State :=
  let q := (s.dom d).seqr
  match q.taken with
  | none => s
  | some (r, cs) =>
    let w := progWord q.prog (288 + 16 * q.st + 8 * r)
    let next := bitsOf w 14 13
    let act := bitsOf w 16 15
    let s := s.seqRecord d q.st next r cs
    let cleared := (List.range 4).map fun k => if bitOf (progWord q.prog (256 + 8 * k)) 44 then 0 else cs.getD k 0
    let rec' := if act == 1 then true else if act == 2 then false else q.recording
    let s := s.updDom d fun x => { x with seqr := { x.seqr with st := next, counters := cleared, recording := rec', taken := none } }
    if act == 3 then s.sendCairn d seqUnit (bitsOf w 24 17) [s.stamp d, 0, 3#4 ++ 0#60, 0xFFFFFFFF#32 ++ 0#32] else s
/-- One cycle of a domain's sequencer (R455): what the rule of the cycle before does, and then the events that arrive. -/
def State.seqCycle (s : State) (d : Nat) (evs : List SeqEvent) : State :=
  if (s.dom d).seqr.prog.isEmpty then s
  else
    let s := s.seqAct d
    let q := (s.dom d).seqr
    let m := q.hits evs
    let cs := (List.range 4).map (q.counted m)
    s.updDom d fun x => { x with seqr := { q with counters := cs, due := s.now + 1, taken := (q.rule m (q.done cs)).map fun r => (r, cs) } }
def execSequencerRuleTaken (dom : Nat) (evs : List SeqEvent) (s : State) : Out := .next (s.seqCycle dom evs)

/-! ## Cairn messages (R453) -/

/-- Every domain's oldest waiting message goes out to all domains, lowest origin first. -/
def State.sendCairns (s : State) : State :=
  foldState (fun s d => match (s.dom d).cairnOut with
    | [] => s
    | m :: t =>
      let s := s.updDom d fun x => { x with cairnOut := t }
      { s with doms := (List.range 64).foldl (fun l k => l.upd k {} fun x => { x with cairnIn := x.cairnIn ++ [m] }) s.doms }) s.doms.keys s
/-- A message reaches a domain: its record, and an event of the sequencer. -/
def State.cairnArrives (dom : Nat) (s : State) (m : Cairn) : State :=
  let x := BitVec.ofNat 64 (m.tag % 256 + 256 * m.origin)
  let s := if (s.dom dom).seqr.recording
    then s.traceRecord dom seqUnit [s.stamp dom, 0, 3#4 ++ 0#60, 0xFFFFFFFF#32 ++ 0#32, x, m.stamp, 0, 0] else s
  s.seqEvent dom 5 x 0
/-- The messages that a domain receives in a cycle, lowest origin first. -/
def execCairnReceive (dom : Nat) (s : State) : Out :=
  .next (foldState (State.cairnArrives dom) (sortBy (fun (m : Cairn) => m.origin) (s.dom dom).cairnIn)
    (s.updDom dom fun x => { x with cairnIn := [] }))

/-! ## The admin queue (R410) -/

/-- The state after a meaning. -/
def after (o : Out) (s : State) : State :=
  match o with
  | .next t => t
  | _ => s
/-- The meaning of an opcode's command. -/
def adminRun (opc : Nat) (c : AdminCmd) (s : State) : Out :=
  match opc with
  | 0x01 => execCreateContext c s
  | 0x02 => execDestroyContext c s
  | 0x10 => execBindEpisode c s
  | 0x20 => execQuote c s
  | 0x21 => execReadLog c s
  | 0x22 => execReadTopology c s
  | 0x30 => execDebugAttach c s
  | 0x31 => execDebugStop c s
  | 0x32 => execDebugResume c s
  | 0x33 => execDebugDump c s
  | 0x34 => execDebugPoke c s
  | 0x35 => execDebugDetach c s
  | 0x36 => execTraceConfig c s
  | 0x37 => execSeqLoad c s
  | _ => .next (s.adminEnd c stBad)
/-- Core 1 takes the next command of a function's ring, and it runs. -/
def State.adminTake (s : State) (fn : Nat) : State :=
  let x := s.hq fn adminQ
  if !s.hostOn || !x.enabled || x.waiting == 0 || !s.ridge.linksUp.getLsbD fn then s
  else
    let d (k : Nat) : W64 := BitVec.ofNat 64 (s.peek (x.slotPa fn x.sqhead + 8 * k) 8)
    let d0 := (d 0).toNat
    let c : AdminCmd := { fn := fn, tag := BitVec.ofNat 16 (d0 / 2 ^ 16), d1 := d 1, d2 := d 2, d3 := d 3, d4 := d 4, d5 := d 5, d6 := d 6, d7 := d 7 }
    let s := s.updHq fn adminQ fun y => { y with sqhead := (y.sqhead + 1) % 2 ^ y.sqlog }
    if bitsOf d0 15 8 == 0 && d0 / 2 ^ 32 == 0 then after (adminRun (d0 % 256) c s) s else s.adminEnd c stBad

end Sys2Proof.Machine
end

