-- ==== Sys2Proof/Machine/Fetch.lean ====
section
/-!
DEFINITION. Fetching instructions: the code caches (20_timing_and_arbitration.md R460), the faults of a fetch
(04_control_stream.md R97, 11_system_and_traps.md R261), instruction breakpoints (19_debug_trace_profiling.md R442),
and which group may issue.
-/

namespace Sys2Proof.Machine

/-! ## Code caches (R460) -/

/-- Sets of a code cache: 16 KiB for control code, 64 KiB for lane code, with 4 ways of 128 bytes. -/
def codeSets (ctl : Bool) : Nat := if ctl then 32 else 128
/-- The code cache of a stream. -/
def Core.code (c : Core) (ctl : Bool) : Tab CodeLine := if ctl then c.ccode else c.lcode
/-- The line of an address in a code cache. -/
def codeFind (t : Tab CodeLine) (asid gen line : Nat) : Option CodeLine :=
  (t.find? fun x => x.2.asid == asid && x.2.gen == gen && x.2.line == line).map fun x => x.2
/-- Filling a line: a free way of its set, or the way that a free value picks. -/
def codeFill (t : Tab CodeLine) (sets pick : Nat) (l : CodeLine) : Tab CodeLine :=
  let base := 4 * (l.line % sets)
  let way := ((List.range 4).find? fun w => (t.get? (base + w)).isNone).getD (pick % 4)
  t.set (base + way) l
/-- The word of a line that holds an address. -/
def CodeLine.word (l : CodeLine) (va : W64) : W32 := l.data.extractLsb' (8 * (va.toNat % 128 / 4 * 4)) 32

/-- What a fetch gives. -/
inductive Fetched where
  | word (w : W32)
  /-- A cause, at the address of the word. -/
  | trap (cause : Nat) (va : W64)
  /-- Held under R336. -/
  | held (va : W64)
  deriving DecidableEq, Repr

/-- The word at the physical address of a code word: from the stream's code cache, which a miss fills with the
line, or directly where no cache holds the place. -/
def State.codeWord (s : State) (ctl : Bool) (core asid : Nat) (va : W64) (pa coh : Nat) : State × Fetched :=
  let gen := (s.ctx asid).gen
  let line := va.toNat / 128
  if !s.sysUp pa then (s, .trap cAddrFault va)
  else match (if s.cached pa then codeFind ((s.core core).code ctl) asid gen line else none) with
    | some l => (s, .word (l.word va))
    | none =>
      if s.badRead core pa 4 coh then (s, .trap cUncorrectable va)
      else if !s.cached pa || s.badRead core (pa / 128 * 128) 128 coh then (s, .word (BitVec.ofNat 32 (s.peek pa 4)))
      else
        let (s, data) := s.l2Read (coreDom core) (pa / 128) coh .none 0xF#4
        let (k, s) := s.fresh
        let l : CodeLine := { asid := asid, gen := gen, line := line, data := data }
        let s := s.updCore core fun c =>
          if ctl then { c with ccode := codeFill c.ccode (codeSets true) k l } else { c with lcode := codeFill c.lcode (codeSets false) k l }
        (s, .word (l.word va))
/-- Fetching the code word at a virtual address for a stream of a group: canonical, aligned, translated with the
permission of its stream (R328). -/
def State.fetchWord (s : State) (ctl : Bool) (core asid grid : Nat) (va : W64) : State × Fetched :=
  if !canonical va then (s, .trap cAddrFault va)
  else if va.toNat % 4 != 0 then (s, .trap cAlign va)
  else match s.translate core asid grid va (if ctl then .ctlFetch else .laneFetch) with
    | (s, .ok pa coh _ _ _ _) => s.codeWord ctl core asid va pa coh
    | (s, .trap c) => (s, .trap c va)
    | (s, .held) => (s, .held va)

/-! ## The chosen group's next instruction -/

/-- The control word at the chosen group's PC, or the trap of its fetch with EPC and FADDR at the PC (R97). -/
def State.fetchCtl (s : State) : State × Option W32 :=
  let va := s.cg.cpc
  if regenFailed s.cg.ctlRegen va then
    ((s.updCg fun g => { g with ctlRegen := none, ctlHeld := none }).trapCtl cRegenWait 0 0 va, none)
  else match s.fetchWord true s.cg.core s.casid s.cg.grid va with
    | (s, .word w) => (s.updCg fun g => { g with ctlHeld := none }, some w)
    | (s, .trap c va) => (s.trapCtl c 0 0 va, none)
    | (s, .held va) => (s.updCg fun g => { g with ctlHeld := some va }, none)

/-- The chosen split's word at an offset from its PC; a fault traps with the split's mask. -/
def State.laneWord (s : State) (off : Nat) : State × Option W32 :=
  let va := s.csplit.pc + BitVec.ofNat 64 off
  let m := s.csplit.mask
  if regenFailed s.cg.laneRegen va then
    ((s.updCg fun g => { g with laneRegen := none, laneHeld := none }).trapLane cRegenWait m 0 0 va, none)
  else match s.fetchWord false s.cg.core s.casid s.cg.grid va with
    | (s, .word w) => (s.updCg fun g => { g with laneHeld := none }, some w)
    | (s, .trap c va) => (s.trapLane c m 0 0 va, none)
    | (s, .held va) => (s.updCg fun g => { g with laneHeld := some va, laneHolds := [], run := none }, none)
/-- Further words of an instruction. -/
def State.laneWords (s : State) : List Nat → State × Option (List W32)
  | [] => (s, some [])
  | off :: t => match s.laneWord off with
    | (s, none) => (s, none)
    | (s, some w) => match s.laneWords t with
      | (s, none) => (s, none)
      | (s, some l) => (s, some (w :: l))
/-- The words of the chosen split's instruction: as many as its first word says (R75), or the first alone where
that gives no length. -/
def State.fetchLane (s : State) : State × Option (List W32) :=
  match s.laneWord 0 with
  | (s, none) => (s, none)
  | (s, some w) =>
    let n := match laneLen w with
      | .ok n => n
      | .error _ => 1
    match s.laneWords ((List.range (n - 1)).map fun k => 4 * (k + 1)) with
    | (s, none) => (s, none)
    | (s, some l) => (s, some (w :: l))

/-! ## Breakpoints (R442) -/

/-- The lowest armed breakpoint of a stream that matches a PC. -/
def breakAt (c : Context) (ctl : Bool) (pc : W64) : Option Nat :=
  (List.range 8).find? fun i => c.bpctl.getLsbD (2 * i) && c.bpctl.getLsbD (2 * i + 1) == ctl &&
    ((c.bpc.getD i 0#64).extractLsb' 2 51 == pc.extractLsb' 2 51)

/-! ## Who may issue -/

/-- The group is on its core and its block has begun. -/
def State.seated (s : State) (g : Nat) : Bool :=
  let x := s.grp g
  x.live && !x.exited && x.resident && !(s.blk x.block).waits
/-- The control stream may issue: it is not parked, by debug or by YIELD, and not stopped at a boundary. -/
def State.mayCtl (s : State) (g : Nat) : Bool :=
  let x := s.grp g
  s.seated g && x.parked.isNone && !s.stopsHere g &&
  (match x.wait with
   | some w => w.kind != .yield
   | none => true)
/-- The lane stream may issue on its strand: a run in progress goes on to its end; a new one begins where the
strand runs no other group, and the group is not parked or stopped at a boundary. -/
def State.mayLane (s : State) (g : Nat) : Bool :=
  let x := s.grp g
  let strand := x.slot % 16
  s.seated g && x.laneBusy && !x.noResult &&
  (match x.parked with
   | none => true
   | some p => p.ctl && x.run.isSome) &&
  (!s.stopsHere g || x.run.isSome) &&
  (s.strandsOf x.core).getLsbD strand &&
  (s.onStrand x.core strand).all fun k => k == g
/-- The split that issues: that of the run in progress, or the ready one that holds the lowest lane (R136). -/
def State.pickSplit (s : State) (x : Group) : Option Split :=
  match x.run with
  | some (i, _) => x.splits.find? fun y => y.id == i
  | none => minBy (fun (y : Split) => (lowLane y.mask).getD 32) (x.splits.filter (s.splitReady x))
/-- A group has run an instruction: the wait time of its block starts again (R364). -/
def State.ranOne (s : State) (g : Nat) : State :=
  if (s.blocks.get? (s.grp g).block).isSome then s.updBlk (s.grp g).block fun b => { b with waitTime := 0 } else s
/-- The control unit has issued an instruction of the group in a slot (R96), and with `gives` one that gives up its place
(R111): the slot that it served last, and what the groups that gave up their places have seen issue since. -/
def State.served (s : State) (core slot : Nat) (gives : Bool) : State :=
  s.updCore core fun c =>
    let others := (c.given.erase slot).mapVal fun _ l => slot :: l
    { c with lastCtl := slot, ctlAt := some s.now, given := if gives then others.set slot [] else others }
/-- The strand of a group is free when the run has ended. -/
def State.settle (s : State) (g : Nat) : State :=
  let s := s.ranOne g
  let x := s.grp g
  if x.run.isNone && ((s.core x.core).running.get? (x.slot % 16)) == some x.slot
  then s.updCore x.core fun c => { c with running := c.running.erase (x.slot % 16) } else s

/-- A pending lane trap is taken before the group issues anything (R263, R275). -/
def execTrapEntryLane (g : Nat) (s : State) : Out :=
  .next (if s.seated g && (s.grp g).parked.isNone then s.takeLane g else s)
/-- A pending control trap is taken at a control boundary (R264). -/
def execTrapEntryControl (g : Nat) (s : State) : Out :=
  .next (if s.mayCtl g && (s.grp g).cpend.isSome then s.takeCtl g else s)

/-! ## Starting a run (R136, R368, R369, R456) -/

/-- A flow instruction, which waits for every issued lane instruction of its group (R81). -/
def isFlow (i : Instr) : Bool :=
  match i with
  | .lbra _ _ | .join _ | .joinL32 _ | .lstop _ | .lstopL32 _ | .lexit _ | .lexitL32 _ | .tile _ | .tileL32 _ _ => true
  | _ => false
/-- An instruction that is not lane-local whatever its U bit, and so waits for the whole of what it waits for (R457). -/
def wholeGroup (i : Instr) : Bool :=
  match i with
  | .vote _ _ | .shfl _ _ | .iredux _ _ | .fredux _ _ _ | .cvtk4 _ _ _ | .cvtw _ _ | .magrd _ _ | .magclr _ _ | .ldt _ _ | .stt _ _
  | .mma _ _ | .accrd _ _ _ _ _ _ => true
  | _ => false
/-- The U bit of a short instruction. -/
def uniformShort (i : Instr) : Bool :=
  match i with
  | .movL32 _ _ _ u | .notL32 _ _ _ u | .iabsL32 _ _ _ u | .popcL32 _ _ _ u | .clzL32 _ _ _ u | .brevL32 _ _ _ u => u
  | _ => false
/-- The chosen split stands at a flow instruction. -/
def State.atFlow (s : State) : Bool :=
  match s.fetchLane with
  | (_, some l) => (match decodeLaneWords l with
    | .ok i => isFlow i
    | .error _ => false)
  | (_, none) => false
/-- Splits that have come to a rejoin point before the last of their families wait there (R138). -/
def State.gathered (s : State) (g : Nat) : State :=
  foldState (fun s (y : Split) =>
      let t := { s with cur := { s.cur with g := g, split := y.id } }
      if !t.kin.isEmpty && t.csplit.wait == .ready && !(t.kin.all fun z => z.wait == .family) && t.atFlow
      then s.updGrp g fun x => x.updSplit y.id fun z => { z with wait := .family }
      else s)
    (if (s.grp g).parted then (s.grp g).splits else []) s
/-- The waits of R81 and R82 of a split's next instruction would be met at its issue. An instruction that would
trap, or whose fetch is held (R336), waits for nothing. -/
def State.runReady (s : State) (g : Nat) (y : Split) : Bool :=
  let x := s.grp g
  match ({ s with cur := { s.cur with g := g, split := y.id } }).fetchLane with
  | (_, none) => true
  | (_, some l) =>
    match decodeLaneWords l with
    | .error _ => true
    | .ok i =>
      let e := (LongWord.of (l.headD 0#32) (if l.length == 1 then 0#32 else l.getD 1 0#32) 0#32).enc .l64
      if isFlow i then x.lanesDone else !x.laneStalls y.id e (e.u || uniformShort i || wholeGroup i)
/-- A held access of a group stays held (R336). -/
def State.staysHeld (s : State) (g : Nat) (h : Option W64) : Bool := h.any (s.holdsOn (coreDom (s.grp g).core) (s.asidOf g))
/-- The group's run could start on a strand: its lane stream is between runs, and holds no access. -/
def State.canStart (s0 : State) (g : Nat) : Bool :=
  let s := s0.gathered g
  let x := s.grp g
  x.run.isNone && x.lpend.isNone && s.mayLane g && (x.laneRegen.isSome || !s.staysHeld g x.laneHeld) &&
  (match s.pickSplit x with
   | some y => s.runReady g y
   | none => false)
/-- A strand between runs chooses: a group passed over 64 times, else the highest PRIO, the lowest sequence
number, the lowest slot. The others count. -/
def execStrandRunStart (core strand : Nat) (s : State) : Out :=
  let c := s.core core
  let l := ((c.slots.filter fun x => x.1 % 16 == strand).map fun x => x.2).filter s.canStart
  let late := l.filter fun g => 64 ≤ (s.grp g).pass
  let top := l.foldl (fun m g => max m (s.gridOf (s.grp g).grid).prio) 0
  let high := l.filter fun g => (s.gridOf (s.grp g).grid).prio == top
  let pick := match minBy (fun g => (s.grp g).slot) late with
    | some g => some g
    | none => minBy (fun g => (s.gridOf (s.grp g).grid).seq * 64 + (s.grp g).slot) high
  .next (if (s.onStrand core strand).isSome then s
    else match pick with
      | none => s
      | some g =>
        let s := (foldState (fun s k => if k == g then s else s.updGrp k fun x => { x with pass := x.pass + 1 }) l s).gathered g
        match s.pickSplit (s.grp g) with
        | none => s
        | some y =>
          (s.updGrp g fun x => { x with pass := 0, run := some (y.id, 0) }).updCore core fun c =>
            { c with running := c.running.set strand (s.grp g).slot })

end Sys2Proof.Machine
end

