-- ==== Sys2Proof/Machine/Dispatch.lean ====
section
/-!
DEFINITION. The meaning of every instruction: one arm for each constructor of `Instr`.
-/

namespace Sys2Proof.Machine

def exec (i : Instr) (s : State) : Host.Outcome State Fault Refusal :=
  match i with
  | .sadd d a b => Sys2Proof.Machine.execSadd d a b s
  | .ssub d a b => Sys2Proof.Machine.execSsub d a b s
  | .smul d a b => Sys2Proof.Machine.execSmul d a b s
  | .smulh d a b uns => Sys2Proof.Machine.execSmulh d a b uns s
  | .sdiv d a b uns => Sys2Proof.Machine.execSdiv d a b uns s
  | .srem d a b uns => Sys2Proof.Machine.execSrem d a b uns s
  | .sand d a b => Sys2Proof.Machine.execSand d a b s
  | .sor d a b => Sys2Proof.Machine.execSor d a b s
  | .sxor d a b => Sys2Proof.Machine.execSxor d a b s
  | .sshl d a b => Sys2Proof.Machine.execSshl d a b s
  | .sshr d a b => Sys2Proof.Machine.execSshr d a b s
  | .ssra d a b => Sys2Proof.Machine.execSsra d a b s
  | .smin d a b uns => Sys2Proof.Machine.execSmin d a b uns s
  | .smax d a b uns => Sys2Proof.Machine.execSmax d a b uns s
  | .ssel d a b => Sys2Proof.Machine.execSsel d a b s
  | .scmp d a b c => Sys2Proof.Machine.execScmp d a b c s
  | .saddi d a imm => Sys2Proof.Machine.execSaddi d a imm s
  | .sandi d a imm => Sys2Proof.Machine.execSandi d a imm s
  | .sori d a imm => Sys2Proof.Machine.execSori d a imm s
  | .smovw d idx imm => Sys2Proof.Machine.execSmovw d idx imm s
  | .smovwZ d idx imm => Sys2Proof.Machine.execSmovwZ d idx imm s
  | .sldB64 d a imm => Sys2Proof.Machine.execSldB64 d a imm s
  | .sldB32 d a imm => Sys2Proof.Machine.execSldB32 d a imm s
  | .sstB64 d a imm => Sys2Proof.Machine.execSstB64 d a imm s
  | .sstB32 d a imm => Sys2Proof.Machine.execSstB32 d a imm s
  | .br off => Sys2Proof.Machine.execBr off s
  | .call off => Sys2Proof.Machine.execCall off s
  | .bcmp a b c off => Sys2Proof.Machine.execBcmp a b c off s
  | .ret a => Sys2Proof.Machine.execRet a s
  | .run a imm => Sys2Proof.Machine.execRun a imm s
  | .lsync => Sys2Proof.Machine.execLsync s
  | .xlat x a => Sys2Proof.Machine.execXlat x a s
  | .xclr x => Sys2Proof.Machine.execXclr x s
  | .waitcnt c n => Sys2Proof.Machine.execWaitcnt c n s
  | .yield c n off => Sys2Proof.Machine.execYield c n off s
  | .launch d a => Sys2Proof.Machine.execLaunch d a s
  | .waitchild d => Sys2Proof.Machine.execWaitchild d s
  | .sreadFlags d => Sys2Proof.Machine.execSreadFlags d s
  | .sreadHandle d => Sys2Proof.Machine.execSreadHandle d s
  | .sreadStamp d => Sys2Proof.Machine.execSreadStamp d s
  | .sreadCycle d => Sys2Proof.Machine.execSreadCycle d s
  | .nopreBegin => Sys2Proof.Machine.execNopreBegin s
  | .nopreEnd => Sys2Proof.Machine.execNopreEnd s
  | .exit => Sys2Proof.Machine.execExit s
  | .nop => Sys2Proof.Machine.execNop s
  | .engchain a c => Sys2Proof.Machine.execEngchain a c s
  | .cbinit d a => Sys2Proof.Machine.execCbinit d a s
  | .cbadvProd d a => Sys2Proof.Machine.execCbadvProd d a s
  | .cbadvCons d a => Sys2Proof.Machine.execCbadvCons d a s
  | .waitcmp d a b t sc c => Sys2Proof.Machine.execWaitcmp d a b t sc c s
  | .binit a b => Sys2Proof.Machine.execBinit a b s
  | .barv a b => Sys2Proof.Machine.execBarv a b s
  | .bwait d a t => Sys2Proof.Machine.execBwait d a t s
  | .bexp a b => Sys2Proof.Machine.execBexp a b s
  | .dbar id => Sys2Proof.Machine.execDbar id s
  | .wbar d => Sys2Proof.Machine.execWbar d s
  | .mbxsend d a b => Sys2Proof.Machine.execMbxsend d a b s
  | .mbxrecv d a b => Sys2Proof.Machine.execMbxrecv d a b s
  | .mbxstat d a => Sys2Proof.Machine.execMbxstat d a s
  | .vstat d up => Sys2Proof.Machine.execVstat d up s
  | .atab t a => Sys2Proof.Machine.execAtab t a s
  | .sclm d => Sys2Proof.Machine.execSclm d s
  | .sclmNw d => Sys2Proof.Machine.execSclmNw d s
  | .srel a => Sys2Proof.Machine.execSrel a s
  | .sfill d a b w dim conj o => Sys2Proof.Machine.execSfill d a b w dim conj o s
  | .aqry d h => Sys2Proof.Machine.execAqry d h s
  | .trap code => Sys2Proof.Machine.execTrap code s
  | .tret => Sys2Proof.Machine.execTret s
  | .sysrd d r => Sys2Proof.Machine.execSysrd d r s
  | .syswr a r => Sys2Proof.Machine.execSyswr a r s
  | .tlbinvRange a b => Sys2Proof.Machine.execTlbinvRange a b s
  | .tlbinvAsid => Sys2Proof.Machine.execTlbinvAsid s
  | .ckpt d => Sys2Proof.Machine.execCkpt d s
  | .bkpt code => Sys2Proof.Machine.execBkpt code s
  | .sample a => Sys2Proof.Machine.execSample a s
  | .trig tag => Sys2Proof.Machine.execTrig tag s
  | .park => Sys2Proof.Machine.execPark s
  | .movL32 run d sc u => Sys2Proof.Machine.execMovL32 run d sc u s
  | .notL32 run d sc u => Sys2Proof.Machine.execNotL32 run d sc u s
  | .iabsL32 run d sc u => Sys2Proof.Machine.execIabsL32 run d sc u s
  | .popcL32 run d sc u => Sys2Proof.Machine.execPopcL32 run d sc u s
  | .clzL32 run d sc u => Sys2Proof.Machine.execClzL32 run d sc u s
  | .brevL32 run d sc u => Sys2Proof.Machine.execBrevL32 run d sc u s
  | .tileL32 run sc => Sys2Proof.Machine.execTileL32 run sc s
  | .joinL32 run => Sys2Proof.Machine.execJoinL32 run s
  | .lstopL32 run => Sys2Proof.Machine.execLstopL32 run s
  | .lexitL32 run => Sys2Proof.Machine.execLexitL32 run s
  | .iadd e m => Sys2Proof.Machine.execIadd e m s
  | .isub e m => Sys2Proof.Machine.execIsub e m s
  | .imul e => Sys2Proof.Machine.execImul e s
  | .imulh e uns => Sys2Proof.Machine.execImulh e uns s
  | .imad e => Sys2Proof.Machine.execImad e s
  | .iaddw e uns => Sys2Proof.Machine.execIaddw e uns s
  | .idiv e uns => Sys2Proof.Machine.execIdiv e uns s
  | .irem e uns => Sys2Proof.Machine.execIrem e uns s
  | .imin e uns => Sys2Proof.Machine.execImin e uns s
  | .imax e uns => Sys2Proof.Machine.execImax e uns s
  | .iabs e sat => Sys2Proof.Machine.execIabs e sat s
  | .and e => Sys2Proof.Machine.execAnd e s
  | .or e => Sys2Proof.Machine.execOr e s
  | .xor e => Sys2Proof.Machine.execXor e s
  | .not e => Sys2Proof.Machine.execNot e s
  | .shl e clamp => Sys2Proof.Machine.execShl e clamp s
  | .shr e clamp => Sys2Proof.Machine.execShr e clamp s
  | .sra e clamp => Sys2Proof.Machine.execSra e clamp s
  | .fshf e right => Sys2Proof.Machine.execFshf e right s
  | .bfx e uns => Sys2Proof.Machine.execBfx e uns s
  | .bfi e => Sys2Proof.Machine.execBfi e s
  | .popc e => Sys2Proof.Machine.execPopc e s
  | .clz e => Sys2Proof.Machine.execClz e s
  | .brev e => Sys2Proof.Machine.execBrev e s
  | .perm e => Sys2Proof.Machine.execPerm e s
  | .iset e f => Sys2Proof.Machine.execIset e f s
  | .plop e op => Sys2Proof.Machine.execPlop e op s
  | .pmov e tov => Sys2Proof.Machine.execPmov e tov s
  | .sel e => Sys2Proof.Machine.execSel e s
  | .mov e => Sys2Proof.Machine.execMov e s
  | .movk e hi imm => Sys2Proof.Machine.execMovk e hi imm s
  | .vote e op => Sys2Proof.Machine.execVote e op s
  | .shfl e op => Sys2Proof.Machine.execShfl e op s
  | .iredux e op => Sys2Proof.Machine.execIredux e op s
  | .tile e => Sys2Proof.Machine.execTile e s
  | .lbra e off => Sys2Proof.Machine.execLbra e off s
  | .join e => Sys2Proof.Machine.execJoin e s
  | .lstop e => Sys2Proof.Machine.execLstop e s
  | .lexit e => Sys2Proof.Machine.execLexit e s
  | .fadd e w m => Sys2Proof.Machine.execFadd e w m s
  | .fsub e w m => Sys2Proof.Machine.execFsub e w m s
  | .fmul e w m => Sys2Proof.Machine.execFmul e w m s
  | .ffma e w m => Sys2Proof.Machine.execFfma e w m s
  | .fmin e w num => Sys2Proof.Machine.execFmin e w num s
  | .fmax e w num => Sys2Proof.Machine.execFmax e w num s
  | .fset e f => Sys2Proof.Machine.execFset e f s
  | .fclass e => Sys2Proof.Machine.execFclass e s
  | .frcp e w => Sys2Proof.Machine.execFrcp e w s
  | .frsq e w => Sys2Proof.Machine.execFrsq e w s
  | .fsqrt e w => Sys2Proof.Machine.execFsqrt e w s
  | .fdiv e => Sys2Proof.Machine.execFdiv e s
  | .fex2 e w => Sys2Proof.Machine.execFex2 e w s
  | .flg2 e w => Sys2Proof.Machine.execFlg2 e w s
  | .fsin e w => Sys2Proof.Machine.execFsin e w s
  | .fcos e w => Sys2Proof.Machine.execFcos e w s
  | .ftanh e w => Sys2Proof.Machine.execFtanh e w s
  | .frnd e w k => Sys2Proof.Machine.execFrnd e w k s
  | .fredux e w op => Sys2Proof.Machine.execFredux e w op s
  | .cvtfi e m => Sys2Proof.Machine.execCvtfi e m s
  | .cvtif e m => Sys2Proof.Machine.execCvtif e m s
  | .cvtff e m kt => Sys2Proof.Machine.execCvtff e m kt s
  | .cvtn e m => Sys2Proof.Machine.execCvtn e m s
  | .cvtk4 e m kt => Sys2Proof.Machine.execCvtk4 e m kt s
  | .cvtw e m => Sys2Proof.Machine.execCvtw e m s
  | .magrd e mag => Sys2Proof.Machine.execMagrd e mag s
  | .magclr e mag => Sys2Proof.Machine.execMagclr e mag s
  | .amul e w tab => Sys2Proof.Machine.execAmul e w tab s
  | .amad e w tab => Sys2Proof.Machine.execAmad e w tab s
  | .aconj e w tab => Sys2Proof.Machine.execAconj e w tab s
  | .anorm e w tab => Sys2Proof.Machine.execAnorm e w tab s
  | .ainv e w tab => Sys2Proof.Machine.execAinv e w tab s
  | .ldg e m => Sys2Proof.Machine.execLdg e m s
  | .stg e m => Sys2Proof.Machine.execStg e m s
  | .lds e m => Sys2Proof.Machine.execLds e m s
  | .sts e m => Sys2Proof.Machine.execSts e m s
  | .ldt e m => Sys2Proof.Machine.execLdt e m s
  | .stt e m => Sys2Proof.Machine.execStt e m s
  | .pfg e m => Sys2Proof.Machine.execPfg e m s
  | .wbr e m => Sys2Proof.Machine.execWbr e m s
  | .invr e m => Sys2Proof.Machine.execInvr e m s
  | .fence e ord sc => Sys2Proof.Machine.execFence e ord sc s
  | .atom e m op => Sys2Proof.Machine.execAtom e m op s
  | .red e m op => Sys2Proof.Machine.execRed e m op s
  | .atomf e m op ra => Sys2Proof.Machine.execAtomf e m op ra s
  | .redf e m op ra => Sys2Proof.Machine.execRedf e m op ra s
  | .atoms e m op => Sys2Proof.Machine.execAtoms e m op s
  | .mma e m => Sys2Proof.Machine.execMma e m s
  | .accz e h => Sys2Proof.Machine.execAccz e h s
  | .accrd e h n mg mag dfmt => Sys2Proof.Machine.execAccrd e h n mg mag dfmt s
  | .accwr e h => Sys2Proof.Machine.execAccwr e h s
  | .vpush e half => Sys2Proof.Machine.execVpush e half s
  | .vpop e half => Sys2Proof.Machine.execVpop e half s
  | .trapLane e code => Sys2Proof.Machine.execTrapLane e code s
  | .tretLane e => Sys2Proof.Machine.execTretLane e s
  | .sysrdLane e r => Sys2Proof.Machine.execSysrdLane e r s
  | .syswrLane e r => Sys2Proof.Machine.execSyswrLane e r s
  | .mapf e => Sys2Proof.Machine.execMapf e s
  | .bkptLane e code => Sys2Proof.Machine.execBkptLane e code s
  | .laneEntryStart g => Sys2Proof.Machine.execLaneEntryStart g s
  | .strandRunStart core strand => Sys2Proof.Machine.execStrandRunStart core strand s
  | .joinMerge g => Sys2Proof.Machine.execJoinMerge g s
  | .loadDataArrival g k => Sys2Proof.Machine.execLoadDataArrival g k s
  | .laneInstructionComplete g k => Sys2Proof.Machine.execLaneInstructionComplete g k s
  | .yieldReactivate g => Sys2Proof.Machine.execYieldReactivate g s
  | .trapEntryLane g => Sys2Proof.Machine.execTrapEntryLane g s
  | .trapEntryControl g => Sys2Proof.Machine.execTrapEntryControl g s
  | .nonpreemptOverrun g => Sys2Proof.Machine.execNonpreemptOverrun g s
  | .engineFaultDelivery g => Sys2Proof.Machine.execEngineFaultDelivery g s
  | .monitorWake g => Sys2Proof.Machine.execMonitorWake g s
  | .monitorReread g => Sys2Proof.Machine.execMonitorReread g s
  | .waitcmpTimeout g => Sys2Proof.Machine.execWaitcmpTimeout g s
  | .barrierTimeout g => Sys2Proof.Machine.execBarrierTimeout g s
  | .domainBarrierCompletion asid dom id => Sys2Proof.Machine.execDomainBarrierCompletion asid dom id s
  | .waferBarrierCompletion => Sys2Proof.Machine.execWaferBarrierCompletion s
  | .heartbeatBarrier => Sys2Proof.Machine.execHeartbeatBarrier s
  | .chainStart core c => Sys2Proof.Machine.execChainStart core c s
  | .chainGiveUp chain => Sys2Proof.Machine.execChainGiveUp chain s
  | .copy q => Sys2Proof.Machine.execCopy q s
  | .mcast q => Sys2Proof.Machine.execMcast q s
  | .conv q => Sys2Proof.Machine.execConv q s
  | .gather q => Sys2Proof.Machine.execGather q s
  | .scatter q => Sys2Proof.Machine.execScatter q s
  | .reduce q => Sys2Proof.Machine.execReduce q s
  | .algop q => Sys2Proof.Machine.execAlgop q s
  | .loop q => Sys2Proof.Machine.execLoop q s
  | .cond q => Sys2Proof.Machine.execCond q s
  | .signal q => Sys2Proof.Machine.execSignal q s
  | .endEntry q => Sys2Proof.Machine.execEndEntry q s
  | .mmaStart core => Sys2Proof.Machine.execMmaStart core s
  | .mmaChunk core => Sys2Proof.Machine.execMmaChunk core s
  | .sfillComplete core => Sys2Proof.Machine.execSfillComplete core s
  | .sclmGrant core => Sys2Proof.Machine.execSclmGrant core s
  | .pageWalk core asid va acc => Sys2Proof.Machine.execPageWalk core asid va acc s
  | .regenerationEnd dom entry => Sys2Proof.Machine.execRegenerationEnd dom entry s
  | .gridActivation => Sys2Proof.Machine.execGridActivation s
  | .aggregatorMerge dom => Sys2Proof.Machine.execAggregatorMerge dom s
  | .freeCountReport dom => Sys2Proof.Machine.execFreeCountReport dom s
  | .blockPlacement => Sys2Proof.Machine.execBlockPlacement s
  | .gangReservation => Sys2Proof.Machine.execGangReservation s
  | .gangStart => Sys2Proof.Machine.execGangStart s
  | .blockSwapOut => Sys2Proof.Machine.execBlockSwapOut s
  | .blockResume => Sys2Proof.Machine.execBlockResume s
  | .domainHotMark dom temp => Sys2Proof.Machine.execDomainHotMark dom temp s
  | .blockMigration dom => Sys2Proof.Machine.execBlockMigration dom s
  | .gridCompletion grid => Sys2Proof.Machine.execGridCompletion grid s
  | .dirReadRequest line q => Sys2Proof.Machine.execDirReadRequest line q s
  | .dirWriteRequest line q => Sys2Proof.Machine.execDirWriteRequest line q s
  | .dirEvictionNotice line q => Sys2Proof.Machine.execDirEvictionNotice line q s
  | .dirHold line => Sys2Proof.Machine.execDirHold line s
  | .dirHoldRelease line => Sys2Proof.Machine.execDirHoldRelease line s
  | .scrubUncorrectable pa => Sys2Proof.Machine.execScrubUncorrectable pa s
  | .correctedError u => Sys2Proof.Machine.execCorrectedError u s
  | .rebuild => Sys2Proof.Machine.execRebuild s
  | .periodicCheckpoint asid => Sys2Proof.Machine.execPeriodicCheckpoint asid s
  | .checkpointCommit asid => Sys2Proof.Machine.execCheckpointCommit asid s
  | .moduleStart selfTest img => Sys2Proof.Machine.execModuleStart selfTest img s
  | .coolantThrottle inlet => Sys2Proof.Machine.execCoolantThrottle inlet s
  | .thermalStop temp => Sys2Proof.Machine.execThermalStop temp s
  | .bar2Read fn addr n => Sys2Proof.Machine.execBar2Read fn addr n s
  | .bar2Write fn addr bytes => Sys2Proof.Machine.execBar2Write fn addr bytes s
  | .peerWrite peer addr bytes => Sys2Proof.Machine.execPeerWrite peer addr bytes s
  | .sqtail fn q v => Sys2Proof.Machine.execSqtail fn q v s
  | .cqhead fn q v => Sys2Proof.Machine.execCqhead fn q v s
  | .queueEnable fn q v => Sys2Proof.Machine.execQueueEnable fn q v s
  | .queueDisable fn q v => Sys2Proof.Machine.execQueueDisable fn q v s
  | .qstatClear fn q v => Sys2Proof.Machine.execQstatClear fn q v s
  | .coal fn v w => Sys2Proof.Machine.execCoal fn v w s
  | .registerWrite fn off w => Sys2Proof.Machine.execRegisterWrite fn off w s
  | .functionLevelReset fn => Sys2Proof.Machine.execFunctionLevelReset fn s
  | .linkDown fn => Sys2Proof.Machine.execLinkDown fn s
  | .completionWrite => Sys2Proof.Machine.execCompletionWrite s
  | .interruptMessage fn v => Sys2Proof.Machine.execInterruptMessage fn v s
  | .coalescingTimerExpiry fn v => Sys2Proof.Machine.execCoalescingTimerExpiry fn v s
  | .createContext c => Sys2Proof.Machine.execCreateContext c s
  | .destroyContext c => Sys2Proof.Machine.execDestroyContext c s
  | .bindEpisode c => Sys2Proof.Machine.execBindEpisode c s
  | .quote c => Sys2Proof.Machine.execQuote c s
  | .traverseQuote peer nonce => Sys2Proof.Machine.execTraverseQuote peer nonce s
  | .readLog c => Sys2Proof.Machine.execReadLog c s
  | .readTopology c => Sys2Proof.Machine.execReadTopology c s
  | .debugAttach c => Sys2Proof.Machine.execDebugAttach c s
  | .debugStop c => Sys2Proof.Machine.execDebugStop c s
  | .debugResume c => Sys2Proof.Machine.execDebugResume c s
  | .debugDump c => Sys2Proof.Machine.execDebugDump c s
  | .debugPoke c => Sys2Proof.Machine.execDebugPoke c s
  | .debugDetach c => Sys2Proof.Machine.execDebugDetach c s
  | .traceConfig c => Sys2Proof.Machine.execTraceConfig c s
  | .seqLoad c => Sys2Proof.Machine.execSeqLoad c s
  | .traverseLinkChange port up peer peerPort => Sys2Proof.Machine.execTraverseLinkChange port up peer peerPort s
  | .cairnReceive dom => Sys2Proof.Machine.execCairnReceive dom s
  | .sequencerRuleTaken dom evs => Sys2Proof.Machine.execSequencerRuleTaken dom evs s
  | .take h slot v => Sys2Proof.Machine.execTake h slot v s
  | .post h slot v => Sys2Proof.Machine.execPost h slot v s
  | .openEp h v => Sys2Proof.Machine.execOpenEp h v s
  | .closeEp h v => Sys2Proof.Machine.execCloseEp h v s
  | .stepWatchdogExpiry h slot => Sys2Proof.Machine.execStepWatchdogExpiry h slot s
  | .watchdogHardwareClose h slot => Sys2Proof.Machine.execWatchdogHardwareClose h slot s
  | .pop h col => Sys2Proof.Machine.execPop h col s
  | .push h col => Sys2Proof.Machine.execPush h col s
  | .fstatClear h col v => Sys2Proof.Machine.execFstatClear h col v s
  | .gateRequest h => Sys2Proof.Machine.execGateRequest h s
  | .gateComplete h => Sys2Proof.Machine.execGateComplete h s
  | .gateCancel h => Sys2Proof.Machine.execGateCancel h s
  | .corrieHartStart h image => Sys2Proof.Machine.execCorrieHartStart h image s
  | .controlAccessComplete g => Sys2Proof.Machine.execControlAccessComplete g s
  | .domainClockStep dom => Sys2Proof.Machine.execDomainClockStep dom s
  | .victimRemoval asid => Sys2Proof.Machine.execVictimRemoval asid s
  | .evictedPageReturn asid va => Sys2Proof.Machine.execEvictedPageReturn asid va s
  | .attributeChange asid va coh => Sys2Proof.Machine.execAttributeChange asid va coh s
  | .powerLoss => Sys2Proof.Machine.execPowerLoss s
  | .bar2Atomicop fn addr n op x y => Sys2Proof.Machine.execBar2Atomicop fn addr n op x y s
  | .vectorUnmask fn v => Sys2Proof.Machine.execVectorUnmask fn v s
  | .speculativeAccess core asid va => Sys2Proof.Machine.execSpeculativeAccess core asid va s
  | .platformInterrupt h => Sys2Proof.Machine.execPlatformInterrupt h s

end Sys2Proof.Machine
end

