-- ==== Sys2Proof/Machine/Sched.lean ====
section
/-!
DEFINITION. What each agent of the module does in one step, the passing of time, and the built-in schedule that
acts when the state's own plan is empty (04_control_stream.md R96; 15_scheduling.md R367 to R369;
20_timing_and_arbitration.md R456, R468).
-/

namespace Sys2Proof.Machine

/-- A change of the state after a meaning, where it gives a next state. -/
def andThen (o : Out) (f : State → State) : Out :=
  match o with
  | .next s => .next (f s)
  | .fault r => .fault r
  | .refused r => .refused r

/-! ## Issue -/

/-- A branch that issues, though it may leave its group as it was: no outstanding SLD writes a register that it reads or writes (R95). -/
def branchGoes (x : Group) (i : Instr) : Bool :=
  match i with
  | .br _ | .yield _ _ _ => true
  | .call _ => !x.pendingS 63
  | .bcmp a b _ _ => !x.pendingS a.toNat && !x.pendingS b.toNat
  | .ret a => !x.pendingS a.toNat
  | _ => false
/-- An instruction that gives up its group's place (R111). -/
def givesPlace (i : Instr) : Bool :=
  match i with
  | .yield _ n _ => n == 255#8
  | _ => false
/-- An instruction of a group has taken a cycle of the control unit between two states (R96): it does not stand before its
issue, and it changed its group or is a branch. -/
def tookCycle (s t : State) (g : Nat) (branch : Bool) : Bool := !(t.grp g).standsBack && (branch || t.grp g != s.grp g)
/-- Register arithmetic, branches, SLD and SST, which nothing orders after control accesses to other bytes (R103, R282). -/
def anyOrder (i : Instr) : Bool :=
  match i with
  | .sadd _ _ _ | .ssub _ _ _ | .smul _ _ _ | .smulh _ _ _ _ | .sdiv _ _ _ _ | .srem _ _ _ _ | .sand _ _ _ | .sor _ _ _ | .sxor _ _ _
  | .sshl _ _ _ | .sshr _ _ _ | .ssra _ _ _ | .smin _ _ _ _ | .smax _ _ _ _ | .ssel _ _ _ | .scmp _ _ _ _ | .saddi _ _ _ | .sandi _ _ _
  | .sori _ _ _ | .smovw _ _ _ | .smovwZ _ _ _ | .sldB64 _ _ _ | .sldB32 _ _ _ | .sstB64 _ _ _ | .sstB32 _ _ _ | .br _ | .call _
  | .bcmp _ _ _ _ | .ret _ => true
  | _ => false
/-- Every control access of a group that was left for later is performed. -/
def State.landCtl (s : State) (g : Nat) : State :=
  let late (x : Group) : Option Nat := x.lates.findIdx? fun y => y.lane == ctlLane
  (foldState (fun s _ => match late (s.grp g) with
    | some k => s.performLate g k
    | none => s) (s.grp g).lates s).readSlds g
/-- Before a control instruction of another kind they have been performed: RUN, a release and the other instructions come after them
(R107, R282). -/
def State.ordered (s : State) (g : Nat) (i : Instr) : State := if anyOrder i then s else s.landCtl g
/-- A control instruction executes, and the control unit counts its issue. -/
def State.ctlExec (s : State) (g : Nat) (i : Instr) : Out :=
  let s := s.ordered g i
  andThen (exec i s) fun t =>
    if tookCycle s t g (branchGoes (s.grp g) i) then (t.served (s.grp g).core (s.grp g).slot (givesPlace i)).ranOne g else t
/-- The control stream tries its next instruction: at the boundary before it a pending trap, a fault of a chain, an overrun
of its region or a breakpoint is taken first. A waiting instruction has passed its breakpoint. -/
def State.ctlTry (s : State) (g : Nat) : Out :=
  let s := { s with cur := { s.cur with g := g } }
  let x := s.cg
  if s.faultDue g then execEngineFaultDelivery g s
  else if !s.mayCtl g || s.faultWaits g then .next s
  else if x.cpend.isSome then .next (s.takeCtl g)
  else if s.laneTrapDue g then .next (s.takeLane g)
  else if s.overrunDue g then execNonpreemptOverrun g s
  else match (if x.ctlSup || x.noBreak || x.wait.isSome then none else breakAt s.cctx true x.cpc) with
    | some i => .next (s.raiseCtl { code := cDebugBreak, detail := i, pc := x.cpc, resume := x.cpc, viaBreakReg := true })
    | none => match s.fetchCtl with
      | (s, none) => .next s
      | (s, some w) => match decodeCtl w with
        | .error _ => .next (s.trapCtl cIllegalInstr)
        | .ok i => s.ctlExec g i
/-- The control stream of a group could issue (R96): its instruction is there, its registers are available, and its wait
condition holds. -/
def State.ctlCould (s : State) (g : Nat) : Bool :=
  let t := { s with cur := { s.cur with g := g } }
  s.mayCtl g && tookCycle s (after (s.ctlTry g) s) g
    (match t.fetchCtl with
     | (_, some w) => (match decodeCtl w with
       | .ok i => branchGoes (s.grp g) i
       | .error _ => false)
     | _ => false)
/-- The group has given up its place, and another group of its core that could issue has not issued since (R111). -/
def State.givesWay (s : State) (g : Nat) : Bool :=
  let c := s.core (s.grp g).core
  match c.given.get? (s.grp g).slot with
  | none => false
  | some l => c.slots.any fun y => y.2 != g && !l.contains y.1 && (c.given.get? y.1).isNone && s.ctlCould y.2
/-- The control stream of a group issues. -/
def State.ctlRun (s : State) (g : Nat) : Out :=
  if s.givesWay g then .next s else s.ctlTry g
/-- A split issues the instruction at its PC, after a pending trap and its breakpoints. At a rejoin point its family comes first: a
member that waits for the others is not about to issue (R138, R442). -/
def State.laneIssue (s : State) : Out :=
  match (if !s.kin.isEmpty && s.atFlow then s.gather else (s, true)) with
  | (s, false) => .next s
  | (s, true) =>
  let x := s.cg
  let y := s.csplit
  match (if x.laneSup || y.noBreak then none else breakAt s.cctx false y.pc) with
  | some i => .next (s.raiseLane { code := cDebugBreak, detail := i, fmask := y.mask, pc := y.pc, resume := y.pc, split := y.id, viaBreakReg := true })
  | none => match s.fetchLane with
    | (s, none) => .next s
    | (s, some l) => match decodeLaneWords l with
      | .error .illegalLength => .next (s.trapLane cIllegalLength y.mask)
      | .error .illegalInstr => .next (s.trapLane cIllegalInstr y.mask)
      | .ok i => exec i s
/-- The strand of a group, where it stands between runs, makes its choice (R368). -/
def State.begun (s : State) (g : Nat) : State :=
  let x := s.grp g
  if x.run.isSome then s else after (execStrandRunStart x.core (x.slot % 16) s) s
/-- The lane stream of a group issues the next instruction of its run, which its strand may first have to choose
(R136, R368). -/
def State.laneRun (s : State) (g : Nat) : Out :=
  let s := { s with cur := { s.cur with g := g } }
  if !s.mayLane g then .next s
  else if s.ctlTrapDue g then .next (s.takeCtl g)
  else if s.cg.lpend.isSome then .next (s.takeLane g)
  else
    let s := s.begun g
    match (if s.cg.run.isNone then none else s.pickSplit s.cg) with
    | none => .next s
    | some y => andThen ({ s with cur := { s.cur with split := y.id } }).laneIssue fun s => s.settle g
/-- A chain's entry has started between two states: the chain has changed other than in what it is held at. -/
def startedEntry (t : State) (k : Nat) (c : Chain) : Bool :=
  match t.chains.get? k with
  | some d => { d with held := c.held } != c
  | none => true
/-- The engine of a chain has started an entry of its context (R256). -/
def State.engineStarted (s : State) (c : Chain) : State :=
  if c.cls == 3 then s.updDom (coreDom c.core) fun d => { d with lastCtx := c.ctx, startAt := some s.now }
  else s.updCore c.core fun x => { x with lastCtx := x.lastCtx.set c.cls c.ctx, startAt := x.startAt.set c.cls s.now }
/-- An entry executes, and its engine counts the start. -/
def State.chainExec (s : State) (k : Nat) (c : Chain) (i : Instr) : Out :=
  andThen (exec i s) fun t => if startedEntry t k c then t.engineStarted c else t
/-- A chain acts: its entry advances the pointers it owes, or the entry that it stands at runs (R240, R254). An entry that
cannot be read stops the chain. -/
def State.chainRun (s : State) (k : Nat) (c : Chain) : Out :=
  let s := { s with cur := { s.cur with chain := k, g := c.g } }
  if !c.adv.isEmpty then .next (if (s.grp c.g).resident then s.advanceAll c.adv else s)
  else if c.slow.isSome then .next (s.slowAll k)
  else if !s.chainRuns c || s.stopsHere c.g then .next s
  else match s.scrSeg c.block c.entry 32 with
    | .inr e => .next (s.chainStop 0 e)
    | .inl x =>
      if s.badIn x.pa 32 then .next (s.chainStop 0 (.cause cUncorrectable x.va x.pa))
      else
        let q (i : Nat) : W64 := BitVec.ofNat 64 (s.peek (x.pa + 8 * i) 8)
        if !kindTaken c.cls ((q 0).toNat % 16) then .next (s.chainStop ((q 0).toNat % 16) (.reason rBadKind 0#64))
        else match decodeEntry (q 0) (q 1) (q 2) (q 3) with
        | .error .badKind => .next (s.chainStop ((q 0).toNat % 16) (.reason rBadKind 0#64))
        | .error .badField => .next (s.chainStop ((q 0).toNat % 16) (.reason rBadField 0#64))
        | .ok i => s.chainExec k c i
/-- An event of the opcode table: an instruction that neither a stream nor an engine decodes. -/
def isEvent (i : Instr) : Bool := (encode i).isEmpty && (encodeEntry i).isNone

/-! ## Time -/

/-- The cycles of a domain's clock in n cc. -/
def State.passed (s : State) (d n : Nat) : Nat := (s.dom d).passed n
/-- n cc of a group, in cycles of its domain's clock (R371). -/
def State.tickGroup (s : State) (n : Nat) (x : Group) : Group :=
  if !x.live || x.exited || !x.resident then x
  else
    let n := s.passed (coreDom x.core) n
    let count := if x.region && x.parked.isNone then x.regionCnt + n else x.regionCnt
    let age (w : CtlWait) : CtlWait :=
      if s.standsStill x w then w
      else { w with age := w.age + n, reread := if w.kind == .waitcmp && !w.armed then w.reread + n else w.reread }
    { x with regionCnt := count, wait := x.wait.map age }
/-- n cc of a domain: its cycle counters, its stamp count and its report period at its clock (R355, R371, R440), and its merge
windows run (R354). -/
def Domain.tick (n : Nat) (m : Domain) : Domain :=
  { m with cyc16 := m.cyc16 + n * (16 - m.clock), stamp16 := m.stamp16 + n * (16 - m.clock),
           sinceReport := m.sinceReport + m.passed n,
           pool := m.pool.mapVal fun _ e => if 1 < e.window then { e with window := max 1 (e.window - m.passed n) } else e }
/-- A block's wait time (R364). -/
def State.tickBlock (s : State) (n : Nat) (b : Block) : Block :=
  if !b.resident then b
  else { b with waitTime := if b.groups.all (fun g => (s.grp g).waiting) then b.waitTime + n else 0 }
/-- n cc pass. The blocks that have woken by now woke before those that wake later (R366). -/
def State.tick (s : State) (n : Nat) : State :=
  let s := s.markWoken
  { s with
    now := s.now + n
    sinceRound := s.sinceRound + s.passed s.ridge.crest n
    heartbeat := s.heartbeat.map (· + s.passed s.ridge.crest n)
    groups := s.groups.mapVal fun _ x => s.tickGroup n x
    blocks := s.blocks.mapVal fun _ b => s.tickBlock (s.passed (quadDom b.quad) n) b
    chains := s.chains.mapVal fun _ c => if (c.phase == 1 || c.phase == 2) && c.busy.isNone && c.slow.isNone then { c with idle := c.idle + s.passed (coreDom c.core) n } else c
    ctxs := s.ctxs.mapVal fun _ c => { c with sinceCommit := c.sinceCommit + s.passed s.ridge.crest n, sinceTry := c.sinceTry + s.passed s.ridge.crest n }
    doms := (List.range 64).foldl (fun t d => t.upd d {} (Domain.tick n)) s.doms
    harts := s.harts.mapVal fun h x => if x.started && !x.gated then x.tick (s.passed (hartDom h) n) else x
    ridge := { s.ridge with
      coolAge := s.ridge.coolAge + n
      cores := s.ridge.cores.mapVal fun _ x => x.tick (s.passed s.ridge.crest n)
      vectors := s.ridge.vectors.mapVal fun _ v => if v.seen == 0 then v else { v with age := v.age + n } } }

/-! ## The agents -/

/-- A mailbox between two Ridge cores (R409). -/
def mailboxKey (src dst : Nat) : Nat := 8 * (src % 8) + dst % 8
/-- A sender puts an entry in its mailbox, and waits at a full one. -/
def State.ridgeSend (s : State) (src dst : Nat) (m : BitVec 512) : State :=
  s.updRidge fun r =>
    let l := r.mailboxes.getD (mailboxKey src dst) []
    if 16 ≤ l.length then r else { r with mailboxes := r.mailboxes.set (mailboxKey src dst) (l ++ [m]) }
/-- The receiver takes the oldest entry. -/
def State.ridgeTake (s : State) (src dst : Nat) : State :=
  s.updRidge fun r => { r with mailboxes := r.mailboxes.upd (mailboxKey src dst) [] List.tail }
/-- Bytes that an agent outside the module stores in its own memory. -/
def State.outsideStore (s : State) (pa : Nat) (l : List Byte) : State :=
  if 2 ^ 48 ≤ pa && pa + l.length ≤ 2 ^ 56 then { s with mem := s.mem.setBytes pa l } else s
/-- A control instruction that stands before its issue is seen to wait (R364), without a cycle of the control unit. -/
def State.noteWait (s : State) (g : Nat) : State :=
  let t := after (s.ctlRun g) s
  if (t.grp g).standsBack then t else s
/-- The control stream of a group is ready (R96, R111). -/
def State.ctlReady (s : State) (g : Nat) : Bool := s.ctlCould g && !s.givesWay g
/-- The group that a core's control unit serves: round-robin by slot, after the one that issued last (R96). -/
def State.ctlPick (s : State) (c : Nat) : Option Nat :=
  let k := s.core c
  ((sortBy (fun (x : Nat × Nat) => (x.1 + 63 - k.lastCtl) % 64) k.slots).find? fun x => s.ctlReady x.2).map fun x => x.2
/-- It is the turn of a group: the control unit of its core has issued nothing in this cycle, and serves the group (R96, R468). -/
def State.ctlTurn (s : State) (g : Nat) : Bool :=
  let c := (s.grp g).core
  (s.core c).ctlAt != some s.now && s.ctlPick c == some g
/-- A chain's entry would start. -/
def State.chainCould (s : State) (k : Nat) : Bool :=
  match s.chains.get? k with
  | some c => s.chainRuns c && startedEntry (after (s.chainRun k c) s) k c
  | none => false
/-- The entry that an engine starts in a cycle: its contexts take turns, after the one that started one last, and one whose
entry cannot fire is passed over (R256). -/
def State.enginePick (s : State) (ctxs : List Nat) (n last : Nat) : Option Nat :=
  let ctx (k : Nat) : Nat := match s.chains.get? k with
    | some c => c.ctx
    | none => 0
  (sortBy (fun k => (ctx k + 2 * n - 1 - last) % n) ctxs).find? s.chainCould
/-- What the engine of a class starts next, where it has started nothing in this cycle (R256). -/
def State.engineNext (s : State) (core cls : Nat) : Option Nat :=
  let n := engContexts cls
  if cls == 3 then
    let d := s.dom (coreDom core)
    if d.startAt == some s.now then none else s.enginePick d.chainCtx n d.lastCtx
  else
    let c := s.core core
    if c.startAt.get? cls == some s.now then none else s.enginePick (c.chainCtx.getD cls []) n (c.lastCtx.getD cls (n - 1))
/-- An entry that is held under R336 is seen to wait. -/
def State.noteHeld (s : State) (k : Nat) : State :=
  match s.chains.get? k with
  | some c => if s.chainRuns c && !s.chainCould k then after (s.chainRun k c) s else s
  | none => s
/-- A chain acts: an entry that is in progress goes on, and one that is to start does so in its turn (R256). -/
def State.chainAct (s : State) (k : Nat) (c : Chain) : Out :=
  if !s.chainRuns c || s.engineNext c.core c.cls == some k then s.chainRun k c else .next (s.noteHeld k)

/-- One act of the plan. A group or chain that the state does not hold is no agent, and does nothing. -/
def State.act (s : State) (a : Act) : Out :=
  match a with
  | .ctl g => if (s.groups.get? g).isNone then .next s else if s.ctlTurn g then s.ctlRun g else .next (s.noteWait g)
  | .lane g => if (s.groups.get? g).isNone then .next s else s.laneRun g
  | .late g => .next (if (s.groups.get? g).isNone then s else s.updGrp g fun x => { x with late := true })
  | .apart k => .next (if (s.chains.get? k).isNone then s else s.updChain k fun c => { c with apart := true })
  | .move k i => .next (s.slowStep k i)
  | .perform g k => .next (if (s.groups.get? g).isNone then s else s.performLate g k)
  | .chain k => match s.chains.get? k with
    | none => .next s
    | some c => s.chainAct k c
  | .ev i => if isEvent i then exec i s else .next s
  | .tick n => .next (s.tick n)
  | .hart h => .next (s.rvStep (.corrie h))
  | .hartLate h => .next (if (s.harts.get? h).isNone then s else s.updHart h fun x => { x with late := true })
  | .hartStore h k => .next (s.landOne h k)
  | .windowAt off => .next (s.updRidge fun r => { r with windowAt := some off })
  | .errorAt pa => .next (s.updRidge fun r => { r with errPa := pa })
  | .ridgeCore k => .next (s.rvStep (.ridge k))
  | .arbiter d => .next (s.arbStep d)
  | .ridgeSend src dst m => .next (s.ridgeSend src dst m)
  | .ridgeTake src dst => .next (s.ridgeTake src dst)
  | .outside pa l => .next (s.outsideStore pa l)
  | .residue u => .next (s.residue u)
  | .targetError page on => .next (s.updRidge fun r =>
      { r with errPages := if on then r.errPages.filter (· != page) ++ [page] else r.errPages.filter (· != page) })
  | .bar4Write fn off v => .next (s.bar4Write fn off v)
  | .bar4Read fn off => .next (s.bar4Read fn off)
  | .bootStage test img fw => .next (s.start test img (if fw then .firmware else .loader))
  | .wrongPath core asid va => .next (s.specFetch core asid va)
  | .softError e => .next (s.softError e)
  | .contextSwitch asid out => .next (s.contextSwitch asid out)
  | .adminTake fn => .next (s.adminTake fn)
  | .bar0Read fn off => .next (s.bar0Read fn off)
  | .vectorMask fn v => .next (s.vectorMask fn v)
  | .peerRead peer addr n => .next (if s.peerUp peer then s.outerGet addr n else s)
  | .linkUp fn => .next (s.updRidge fun r => { r with linksUp := r.linksUp ||| (1#8 <<< (fn % 8)) })
  | .telemetry power inlet outlet => .next (s.updRidge fun r => { r with power := power, inlet := inlet, outlet := outlet })

/-! ## The built-in schedule

What hardware and firmware do by themselves, in a fixed order. Inputs and choices that the manual leaves to the
outside world or to firmware are acts of the plan alone. -/

/-- Meanings run in turn. -/
def State.runAll (s : State) (l : List (State → Out)) : State := foldState (fun s f => after (f s) s) l s
/-- A meaning of each of a list. -/
def State.runEach {α : Type} (s : State) (l : List α) (f : α → State → Out) : State := foldState (fun s x => after (f x s) s) l s

/-- The accesses that a group, and the chains, hold (R336). -/
def State.heldVas (s : State) : List (Nat × W64) :=
  let one (g : Nat) (h : Option W64) : List (Nat × W64) := h.toList.map fun va => (s.asidOf g, va)
  (s.groups.flatMap fun x => one x.1 x.2.ctlHeld ++ one x.1 x.2.laneHeld ++
    (if x.2.laneHeld.isSome then x.2.laneHolds else []).map fun va => (s.asidOf x.1, va)) ++ s.chains.flatMap fun x => one x.2.g x.2.held
/-- The events of one resident group. -/
def State.groupServices (s : State) (g : Nat) : State :=
  let on (s : State) : Bool := (s.groups.get? g).isSome && (s.grp g).resident
  let run (s : State) (f : State → Out) : State := if on s then after (f s) s else s
  let s := foldState (fun s _ => s.performLate g 0) (s.grp g).lates s
  let s := foldState (fun s (l : PendLoad) => run s (execLoadDataArrival g l.id)) (s.grp g).loads s
  let s := foldState (fun s (o : LaneOp) => if o.done then s else run s (execLaneInstructionComplete g o.id)) (s.grp g).ops s
  foldState run [execControlAccessComplete g, execMonitorWake g, execMonitorReread g, execWaitcmpTimeout g, execBarrierTimeout g,
    execEngineFaultDelivery g, execYieldReactivate g, execNonpreemptOverrun g, execTrapEntryControl g, execTrapEntryLane g,
    execJoinMerge g, execLaneEntryStart g] s
/-- The engines, the array and the barriers. -/
def State.unitServices (s : State) : State :=
  let s := foldState (fun s (d : Nat × Domain) => s.runEach d.2.dbars.keys fun k => execDomainBarrierCompletion (k / 16) d.1 (BitVec.ofNat 4 k)) s.doms s
  let s := s.runAll [execWaferBarrierCompletion, execHeartbeatBarrier]
  let s := foldState (fun s c => s.runAll
    [execSfillComplete c, execMmaChunk c, execMmaStart c, execSclmGrant c, execChainStart c .copy, execChainStart c .gath,
     execChainStart c .alg, execChainStart c .coll]) s.cores.keys s
  (s.runEach s.chains.keys execChainGiveUp).collAll
/-- The distributors and the memory manager. -/
def State.schedServices (s : State) : State :=
  let s := s.runEach s.heldVas fun x => execEvictedPageReturn x.1 x.2
  let s := foldState (fun s (d : Nat × Domain) => (s.runEach d.2.regens.keys (execRegenerationEnd d.1)).takeClaim d.1) s.doms s
  let s := s.runEach s.doms.keys execAggregatorMerge
  let s := s.runEach (s.grids.keys ++ s.gangs.keys) execGridCompletion
  let s := s.runEach s.doms.keys execFreeCountReport
  let s := s.runAll [execGridActivation, execGangReservation, execGangStart]
  let s := s.switchSwaps.runAll [execBlockResume, execBlockPlacement, execBlockSwapOut]
  s.runEach s.doms.keys execBlockMigration
/-- The Ridge cores and the host interface. -/
def State.ridgeServices (s : State) : State :=
  let s := if s.ridge.rebuildUnits.isEmpty && s.ridge.rebuildJobs.isEmpty then s else after (execRebuild s) s
  let s := s.runEach s.ctxs.keys execPeriodicCheckpoint
  let s := s.runEach s.ctxs.keys execCheckpointCommit
  let s := foldState (fun s fn => s.adminTake fn) (List.range 8) s
  let s := after (execCompletionWrite s) s
  let s := s.runEach s.ridge.vectors.keys fun k => execInterruptMessage (k / 256) (k % 256)
  s.runEach s.ridge.vectors.keys fun k => execCoalescingTimerExpiry (k / 256) (k % 256)
/-- The Corrie harts, and the mailbox arbiters. -/
def State.hartServices (s : State) : State :=
  let s := foldState State.landAll s.harts.keys s
  let s := foldState (fun s h => (s.runEach (List.range 8) (execStepWatchdogExpiry h)).runAll [execGateComplete h]) s.harts.keys s
  foldState State.arbStep s.doms.keys s
/-- The sequencer of a domain acts once a cycle, on the events that have arrived (R455). -/
def State.seqService (s : State) (d : Nat) : State :=
  let m := s.dom d
  if m.seqr.prog.isEmpty || s.now < m.seqr.due then s
  else
    let evs := (m.seqIn.filter fun e => e.1 ≤ s.now).map fun e => e.2
    let s := s.updDom d fun x => { x with seqIn := x.seqIn.filter fun e => s.now < e.1 }
    after (execSequencerRuleTaken d evs s) s
/-- Sequencers, Cairn messages and trace units. What a sequencer does in a cycle comes before the events of that cycle (R455). -/
def State.traceServices (s : State) : State :=
  let s := (foldState State.seqService s.doms.keys s).sendCairns
  let s := s.runEach s.doms.keys execCairnReceive
  foldState State.traceWrites s.doms.keys s
/-- Everything that acts by itself. -/
def State.services (s : State) : State :=
  let s := foldState State.groupServices s.groups.keys s.traceServices
  let s := (((s.unitServices).schedServices).ridgeServices).hartServices
  foldState (fun s c => s.runEach (List.range 16) (execStrandRunStart c)) s.cores.keys s

/-- The entries that the engines start in a cycle. -/
def State.engineStarts (s : State) : List Nat :=
  (s.cores.flatMap fun c => (List.range 3).filterMap (s.engineNext c.1)) ++ s.doms.filterMap fun d => s.engineNext (112 * d.1) 3
/-- What issues in a cycle: one control instruction of each core, those in lower group slots first (R256), one lane
instruction of each strand that runs a group, one entry of each engine, the advances of entries in progress, and one instruction of
each Corrie hart (log entry 121). -/
def State.issues (s : State) : List Act :=
  (sortBy (fun g => (s.grp g).slot) (s.cores.filterMap fun c => s.ctlPick c.1)).map Act.ctl ++
  (s.cores.flatMap fun c => ((List.range 16).filterMap (s.onStrand c.1)).map Act.lane) ++
  (s.engineStarts ++ (s.chains.keep fun _ c => !c.adv.isEmpty || c.slow.isSome).keys).map Act.chain ++
  (s.harts.keys.filter s.hartOn).map Act.hart
/-- One cycle of the built-in schedule: what acts by itself has acted, and the plan holds the issues and the
passing of one cc. -/
def State.cycle (s : State) : State :=
  let s := foldState State.noteWait s.groups.keys s.services
  let s := foldState State.noteHeld s.chains.keys s
  { s with agenda := s.issues ++ [.tick 1] }

end Sys2Proof.Machine
end

