-- ==== Sys2Proof/Machine/Loader.lean ====
section
/-!
DEFINITION. The load of one instruction from outside the machine: what boot, CREATE_CONTEXT, a launch packet and
placement would have set up for a grid of one block of one group, so that the next step fetches the instruction
(assumption 5). The manual names no program that runs from reset.
-/

namespace Sys2Proof.Machine

/-- The virtual address of the loaded code, and its frame. -/
def loadVa : W64 := 0x10000#64
def loadFrame : Nat := 0x108000
/-- The tables of the loaded context, one of each level. -/
def loadRoot : Nat := 0x100000
/-- A page of every permission, accessed and dirty. -/
def loadLeaf : Nat := 0xCF3 + loadFrame
/-- The tables that map the page. -/
def State.loadTables (s : State) : State :=
  (((s.poke loadRoot 8 (0x102000 + 1)).poke 0x102000 8 (0x104000 + 1)).poke 0x104000 8 (0x106000 + 1)).poke
    (0x106000 + 8 * tableIndex loadVa 3) 8 loadLeaf
/-- A packet of one block of 32 lanes. -/
def loadPacket : Packet := { d0 := BitVec.ofNat 64 (1 + 2 * 2 ^ 10 + 31 * 2 ^ 24), d1 := 0x0000800080000001#64, cbase := loadVa, lbase := loadVa }
/-- The context, grid, block and group that run the code on core 0. -/
def State.loadGroup (s : State) (lane : Bool) : State :=
  let n : Grid := { seq := 1, asid := 1, ident := 1, pkt := loadPacket, nextBlock := 1, live := 1, lead := 1 }
  let g : Group := launchGroup 1 n 1 0 0
  let y : Split := { id := 1, mask := 0xFFFFFFFF#32, pc := loadVa, family := 1 }
  let g : Group := if lane then { g with laneBusy := true, runPc := loadVa, splits := [y], nextSplit := 2 } else g
  let c : Context := { live := true, gen := 1, root := loadRoot }
  let b : Block := { grid := 1, groups := [1] }
  let s := { s with ctxs := s.ctxs.set 1 c, grids := s.grids.set 1 n, blocks := s.blocks.set 1 b, groups := s.groups.set 1 g,
                    nextSeq := max 2 s.nextSeq, nextId := max 2 s.nextId }
  (s.updCore 0 fun k => { k with slots := k.slots.set 0 1, chunks := 1, running := [], given := [] }).shootTlb 1 none
/-- The words placed at the code address, and the act that issues them put first in the plan. -/
def State.loadWord (s : State) (lane : Bool) (w : Nat) : State :=
  let s := (s.loadGroup lane).loadTables.poke (loadFrame + loadVa.toNat % 2 ^ 13) 12 (w % 2 ^ 96)
  { s with agenda := (if lane then .lane 1 else .ctl 1) :: s.agenda }

end Sys2Proof.Machine
end

