-- ==== Sys2Proof/Machine/Step.lean ====
section
/-!
DEFINITION. One step of the module: the next act of the plan, or, when the plan is empty, one cycle of the built-in
schedule; and the placing of one instruction where the next step fetches it.
-/

namespace Sys2Proof.Machine

/-- One step. -/
def step (s : State) : Host.Outcome State Fault Refusal :=
  match s.agenda with
  | [] => .next s.cycle
  | a :: t => ({ s with agenda := t }).act a

/-- The state with an instruction of the opcode table placed where the next step fetches it: in the stream that
`decodeTableWord` reads it for (assumption 5). -/
def State.withFetchWord (s : State) (nbits w : Nat) : State := s.loadWord (tableLane nbits (w % 2 ^ nbits)) (w % 2 ^ nbits)

end Sys2Proof.Machine
end

