-- ==== Sys2Proof/Safety.lean ====
section
/-!
DEFINITION. The words in which statements about the module are made: what an instruction needs before it issues,
what it changes, what it leaves alone, and the invariant that every step keeps.
-/

namespace Sys2Proof.Machine

/-! ## What stays as it was -/

/-- Every byte of memory reads as before. -/
def SameMemory (s t : State) : Prop := ∀ a, t.mem.byte a = s.mem.byte a

/-- Every byte of memory outside n bytes at an address reads as before. -/
def SameOutside (s t : State) (pa n : Nat) : Prop := ∀ a, (a < pa ∨ pa + n ≤ a) → t.mem.byte a = s.mem.byte a

/-- Of the whole module only the chosen group has changed, and what trigger sequencers still have to see. -/
def OnlyGroup (s t : State) : Prop :=
  t = { s with groups := t.groups, doms := t.doms } ∧ (∀ g, g ≠ s.cur.g → t.grp g = s.grp g) ∧
  (∀ d, t.dom d = { s.dom d with seqIn := (t.dom d).seqIn }) ∧ SameMemory s t

/-- Only the chosen group has changed, to a group; memory is as it was. -/
def GroupIs (s t : State) (g : Group) : Prop := OnlyGroup s t ∧ t.cg = g

/-- No line of a domain's L2 holds bytes that its home does not have (R309). -/
abbrev State.Clean (s : State) (d : Nat) : Prop := ∀ c ∈ (s.dom d).l2, c.2.dirty = 0#128

/-- No copy in a domain's L2 would write a byte home: none holds it dirty, and no core-private one holds a byte of its sector dirty (R309). -/
abbrev State.Undirty (s : State) (d a : Nat) : Prop := ∀ c ∈ (s.dom d).l2, c.2.line = a / 128 →
  ∀ k, k < 128 → c.2.dirty.getLsbD k = true → k ≠ a % 128 ∧ (c.2.coh = 2 → k / 32 ≠ a % 128 / 32)

/-- Every byte of memory reads as before, but for bytes that a copy in a domain's L2 would write home, and may have written (R309). -/
def SameButWrittenBack (s t : State) (d : Nat) : Prop := ∀ a, s.Undirty d a → t.mem.byte a = s.mem.byte a

/-- A store of n bytes has been made and the chosen group has become a given one: memory outside the bytes reads as
before, no other group has changed but for whether the condition it waits for has been met, and nothing else has
changed but what sequencers still have to see. -/
def StoredIs (s t : State) (g : Group) (pa n : Nat) : Prop :=
  t = { s with mem := t.mem, bad := t.bad, groups := t.groups, doms := t.doms, resv := t.resv } ∧
  (∀ h, h ≠ s.cur.g → t.grp h = { s.grp h with wait := (t.grp h).wait }) ∧
  (∀ d, t.dom d = { s.dom d with seqIn := (t.dom d).seqIn }) ∧ SameOutside s t pa n ∧ t.cg = g

/-- Nothing has changed but groups, cores and what sequencers still have to see; of the groups only the chosen one,
which has become a given one. -/
def CoresAndGroup (s t : State) (g : Group) : Prop :=
  t = { s with groups := t.groups, cores := t.cores, doms := t.doms } ∧ (∀ h, h ≠ s.cur.g → t.grp h = s.grp h) ∧
  (∀ d, t.dom d = { s.dom d with seqIn := (t.dom d).seqIn }) ∧ SameMemory s t ∧ t.cg = g

/-- The L1 of a core has lost the lines that an acquire at a scope drops (R175), and no other core has changed. -/
def Acquired (s t : State) (core : Nat) (sc : Scope) : Prop :=
  ∀ c, t.core c = if c = core then { s.core c with l1 := (s.core c).l1.keep fun _ x => !acquireDrops sc (coreDom core) x } else s.core c

/-! ## The control stream -/

/-- No outstanding SLD of the chosen group writes one of the registers (R95). -/
abbrev State.Quiet (s : State) (l : List Nat) : Prop := ∀ p ∈ s.cg.slds, p.d ∉ l

/-- Every outstanding SLD of the group has read its value. -/
abbrev Group.sldsRead (g : Group) : Prop := ∀ p ∈ g.slds, p.src = none

/-- The group goes on at an address with nothing else changed. -/
def Group.at (g : Group) (pc : W64) : Group := { g with cpc := pc, wait := none, noBreak := false }

/-- The group that waits at its instruction. -/
def Group.waits (g : Group) (w : CtlWait) : Group := { g with wait := some w }

/-- A control instruction has issued: the PC is at an address, each s register holds what a function says, and
nothing else has changed but that a wait is over. -/
def CtlNext (s t : State) (pc : W64) (f : Nat → W64) : Prop :=
  GroupIs s t { s.cg.at pc with s := t.cg.s } ∧ ∀ r, t.cg.rs r = f r

/-- An outcome is a next state in which the control stream has gone on to an address with these s registers. -/
def GoesTo (o : Out) (s : State) (pc : W64) (f : Nat → W64) : Prop := ∃ t, o = .next t ∧ CtlNext s t pc f

/-- An outcome is a next state in which S[d] holds a value, every other s register what it held, and the control
stream has gone on to the next word. -/
def Writes (o : Out) (s : State) (d : BitVec 6) (x : W64) : Prop :=
  GoesTo o s (s.cg.cpc + 4#64) fun r => if r = d.toNat then x else s.cg.rs r

/-- An outcome is a next state in which the chosen group is a given one, and nothing else has changed. -/
def Becomes (o : Out) (s : State) (g : Group) : Prop := ∃ t, o = .next t ∧ GroupIs s t g

/-- The control stream no longer waits on a held access (R336). -/
def State.unheld (s : State) : State := s.updCg fun g => { g with ctlHeld := none, ctlRegen := none }

/-- No watchpoint matches an access of n bytes of the control stream (R443). -/
abbrev State.Unwatched (s : State) (va : W64) (n : Nat) (rd wr : Bool) : Prop :=
  s.cg.ctlSup = true ∨ watchOf s.cctx va n rd wr = none

/-- A control access of n bytes is canonical and aligned, and its page is not one whose regeneration failed (R102,
R340). -/
abbrev State.CtlAddress (s : State) (va : W64) (n : Nat) : Prop :=
  canonical va = true ∧ va.toNat % n = 0 ∧ regenFailed s.cg.ctlRegen va = false

/-- The translation of the chosen group's access of its control stream. -/
def State.ctlXlat (s : State) (va : W64) (acc : Access) : State × TrRes := s.translate s.cg.core s.casid s.cg.grid va acc

/-! ## The lane stream -/

/-- The chosen split is in the split table, no operand field of its instruction fails a check of R89, the
instruction waits for nothing (R81, R82), and no source register holds an uncorrectable error (R321). `whole` says that the
instruction is not lane-local, and so waits for what other splits have outstanding too (R457). -/
abbrev State.LaneReady (s : State) (e : LaneEnc) (flds : List Fld) (whole : Bool := e.u) : Prop :=
  (s.cg.splits.any fun y => y.id == s.cur.split) = true ∧ s.cg.operandFault s.cur.split e flds = none ∧
  s.cg.laneStalls s.cur.split e whole = false ∧ s.badRegs e flds = []

/-- What the issue of a lane instruction leaves alone in its group: everything but v registers, predicates,
scoreboard counts, open windows, the split table and the run. No register gains an error. -/
def LaneRest (s t : State) : Prop :=
  GroupIs s t { s.cg with v := t.cg.v, badV := t.cg.badV, p := t.cg.p, sb := t.cg.sb, ops := t.cg.ops, nextOp := t.cg.nextOp,
                          splits := t.cg.splits, run := t.cg.run } ∧
  ∀ k ∈ t.cg.badV, k ∈ s.cg.badV

/-- The split table after the issue of an instruction of some bytes: the chosen split has moved past it, the others
stand as they stood. -/
def Moved (s t : State) (len : Nat) : Prop :=
  t.cg.splits = s.cg.splits.map fun y =>
    if y.id = s.cur.split then { y with pc := y.pc + BitVec.ofNat 64 len, wait := .ready, noBreak := false } else y

/-- The slot that an instruction sets counts one more outstanding instruction, and no other slot changes (R82). -/
def Counted (s t : State) (e : LaneEnc) : Prop :=
  ∀ k, t.cg.rsb k = if k = e.sbs.toNat ∧ k ≠ 0 then s.cg.rsb k + 1 else s.cg.rsb k

/-- A lane instruction of some bytes has issued, and each v register and each predicate of each lane holds what the
two functions say. -/
def LaneNext (s t : State) (e : LaneEnc) (len : Nat) (fv : Nat → Nat → W32) (fp : Nat → Nat → Bool) : Prop :=
  LaneRest s t ∧ Moved s t len ∧ Counted s t e ∧ (∀ r l, l < 32 → t.cg.rv r l = fv r l) ∧
  ∀ n l, l < 32 → t.cg.rp n l = fp n l

/-- A lane executes the instruction: it is active in the chosen split and passes the guard (R43). -/
def State.executes (s : State) (e : LaneEnc) (l : Nat) : Bool := (s.execMask e).getLsbD l

/-- An outcome is a next state in which every executed lane of v register d holds the value that a function gives for
the lane it computes from (R44), and every other word and predicate what it held. -/
def WritesV (o : Out) (s : State) (e : LaneEnc) (len : Nat) (f : Nat → W32) : Prop :=
  ∃ t, o = .next t ∧ LaneNext s t e len
    (fun r l => if r = e.dst.toNat ∧ s.executes e l then f (s.srcLane e l) else s.cg.rv r l) s.cg.rp

/-- As `WritesV` for the pair of d and the register after it. -/
def WritesV64 (o : Out) (s : State) (e : LaneEnc) (len : Nat) (f : Nat → W64) : Prop :=
  ∃ t, o = .next t ∧ LaneNext s t e len
    (fun r l =>
      if r = e.dst.toNat ∧ s.executes e l then (f (s.srcLane e l)).extractLsb' 0 32
      else if r = e.dst.toNat + 1 ∧ s.executes e l then (f (s.srcLane e l)).extractLsb' 32 32 else s.cg.rv r l) s.cg.rp

/-- An outcome is a next state in which every executed lane of a predicate holds the truth that a function gives for
the lane it computes from, p0 excepted, and every other word and predicate what it held. -/
def WritesP (o : Out) (s : State) (e : LaneEnc) (len pd : Nat) (f : Nat → Bool) : Prop :=
  ∃ t, o = .next t ∧ LaneNext s t e len s.cg.rv
    (fun n l => if n = pd ∧ n ≠ 0 ∧ s.executes e l then f (s.srcLane e l) else s.cg.rp n l)

/-- An outcome is a next state in which a lane instruction has issued that writes no register. -/
def WritesNone (o : Out) (s : State) (e : LaneEnc) (len : Nat) : Prop :=
  ∃ t, o = .next t ∧ LaneNext s t e len s.cg.rv s.cg.rp

/-- A flow instruction of the chosen split can take effect: its fields are sound, the split has no family to wait for, and
every issued lane instruction of the group has completed (R81, R138), with no other wait of the instruction's own. -/
abbrev State.FlowReady (s : State) (e : LaneEnc) (flds : List Fld) (others : State → Bool := fun _ => false) : Prop :=
  (s.cg.splits.any fun y => y.id == s.cur.split) = true ∧ s.cg.operandFault s.cur.split e flds = none ∧
  (∀ y ∈ s.cg.splits, y.id ≠ s.cur.split → y.family ≠ s.csplit.family) ∧ s.cg.lanesDone = true ∧ others s = false

/-- The group whose chosen split has changed, with every window and the run ended. -/
def Group.flowed (g : Group) (id : Nat) (f : Split → Split) : Group :=
  { g with splits := g.splits.map fun y => if y.id = id then f y else y
           ops := [], run := none }

/-- No lane that computes takes UNINIT_REG or FP_TRAP, given the words it reads and what it computes (R41, R147). -/
abbrev State.FpQuiet (s : State) (e : LaneEnc) (srcs : Nat → List W32) (f : Nat → LaneRes) : Prop :=
  ∀ l ∈ s.calcLanes e, (s.cctx.trapen.getLsbD 0 = true → ∀ x ∈ srcs l, isMarker x = false) ∧
    fpTraps s.cctx.trapen (f l).flags (f l).counts = false

/-- The flags of every lane that computes. -/
def State.laneFlags (s : State) (e : LaneEnc) (f : Nat → LaneRes) : BitVec 5 :=
  (s.calcLanes e).foldl (fun x l => x ||| (f l).flags) 0#5

/-- The instruction that has just issued raises some flags when it completes (R41, R82). -/
def RaisesAtCompletion (s t : State) (flags : BitVec 5) : Prop :=
  ∃ o ∈ t.cg.ops, o.id = s.cg.nextOp ∧ o.done = false ∧ o.flags = flags

/-- What the words of a lane are after the results of the lane it computes from are written into the listed registers. -/
def State.wordAfter (s : State) (e : LaneEnc) (regs : List Nat) (f : Nat → LaneRes) (r l : Nat) : W32 :=
  if s.executes e l then ((regs.zip (f (s.srcLane e l)).vals).lookup r).getD (s.cg.rv r l) else s.cg.rv r l

/-- An outcome is a next state in which every executed lane holds, in the listed registers, the results of the lane it
computes from, every other word and predicate is what it was, and the flags are raised at completion. -/
def WritesFp (o : Out) (s : State) (e : LaneEnc) (regs : List Nat) (f : Nat → LaneRes) : Prop :=
  ∃ t, o = .next t ∧ LaneNext s t e e.bytes (s.wordAfter e regs f) s.cg.rp ∧ RaisesAtCompletion s t (s.laneFlags e f)

/-- As `WritesFp`, for an instruction that may also change max-magnitude registers, which hold what a function says. -/
def WritesFpMag (o : Out) (s : State) (e : LaneEnc) (regs : List Nat) (f : Nat → LaneRes) (mag : Nat → W32) : Prop :=
  ∃ t, o = .next t ∧
    GroupIs s t { s.cg with v := t.cg.v, badV := t.cg.badV, sb := t.cg.sb, ops := t.cg.ops, nextOp := t.cg.nextOp, splits := t.cg.splits
                            run := t.cg.run, mag := t.cg.mag } ∧
    (∀ k ∈ t.cg.badV, k ∈ s.cg.badV) ∧
    Moved s t e.bytes ∧ Counted s t e ∧ (∀ r l, l < 32 → t.cg.rv r l = s.wordAfter e regs f r l) ∧
    (∀ n, t.cg.rmag n = mag n) ∧ RaisesAtCompletion s t (s.laneFlags e f)

/-! ## Memory instructions of the lane stream -/

/-- The lane stream no longer stands held at an access (R336). -/
def State.laneUnheld (s : State) : State := s.updCg fun g => { g with laneHeld := none, laneRegen := none }

/-- Counting an issue for a sampler changes nothing but the sampler of the chosen group's core (R448). -/
def SampledOnly (s t : State) : Prop :=
  t = { s with cores := t.cores } ∧
  ∀ c, t.core c = if c = s.cg.core then { s.core c with sampling := (t.core c).sampling } else s.core c

/-- The bytes of a list of n bytes at an address hold a number, the lowest first. -/
abbrev State.holds (s : State) (pa n v : Nat) : Prop := ∀ k, k < n → (s.mem.byte (pa + k)).toNat = v / 256 ^ k % 256

/-- Word j of register d + j of a load of some registers (R170). -/
def loadedWord (d n : Nat) (value : Nat → Nat) (old : Nat → Nat → W32) (executes : Nat → Bool) (src : Nat → Nat) (r l : Nat) : W32 :=
  if executes l = true ∧ d ≤ r ∧ r < d + n then BitVec.ofNat 32 (value (src l) / 2 ^ (32 * (r - d))) else old r l

/-- The Ridge complex has at most recorded errors that no access consumed (R321). -/
def ErrorsNoted (s t : State) : Prop := t.ridge = { s.ridge with errlog := t.ridge.errlog, rebuildJobs := t.ridge.rebuildJobs }

/-- Nothing has changed but memory, caches, directories, sync stores, TLBs, samplers, what sequencers still have to see, the
errors noted, and the groups, of which the others only for whether the condition they wait for has been met. -/
def CachesOnly (s t : State) : Prop :=
  t = { s with mem := t.mem, bad := t.bad, groups := t.groups, cores := t.cores, doms := t.doms, quadTlb := t.quadTlb, ridge := t.ridge,
               use := t.use, resv := t.resv } ∧ ErrorsNoted s t ∧
  (∀ c, t.core c = { s.core c with l1 := (t.core c).l1, l1plru := (t.core c).l1plru, tlb := (t.core c).tlb
                                   tlbPlru := (t.core c).tlbPlru, dspec := (t.core c).dspec, sampling := (t.core c).sampling }) ∧
  (∀ d, t.dom d = { s.dom d with l2 := (t.dom d).l2, dir := (t.dom d).dir, sync := (t.dom d).sync, walk := (t.dom d).walk
                                 seqIn := (t.dom d).seqIn }) ∧
  ∀ h, h ≠ s.cur.g → t.grp h = { s.grp h with wait := (t.grp h).wait }

/-- A memory instruction has issued from a state in which memory, caches and samplers may already have changed: groups
whose condition may be met by a store keep all but their waits, and the chosen group has issued. -/
def LaneAccess (s t : State) (e : LaneEnc) (fv : Nat → Nat → W32) : Prop :=
  t = { s with mem := t.mem, bad := t.bad, groups := t.groups, cores := t.cores, doms := t.doms, resv := t.resv } ∧
  (∀ h, h ≠ s.cur.g → t.grp h = { s.grp h with wait := (t.grp h).wait }) ∧
  (∀ d, t.dom d = { s.dom d with seqIn := (t.dom d).seqIn }) ∧
  t.cg = { s.cg with v := t.cg.v, badV := t.cg.badV, sb := t.cg.sb, ops := t.cg.ops, nextOp := t.cg.nextOp, splits := t.cg.splits
                     run := t.cg.run, wait := t.cg.wait, laneHeld := t.cg.laneHeld, laneRegen := t.cg.laneRegen } ∧
  (∀ k ∈ t.cg.badV, k ∈ s.cg.badV) ∧ Moved s t e.bytes ∧ Counted s t e ∧ ∀ r l, l < 32 → t.cg.rv r l = fv r l

/-! ## The invariant -/

/-- Memory is in its canonical form, so that equal memories are equal data. -/
abbrev State.Inv (s : State) : Prop := s.mem.wf = true

/-! ## Events -/

/-- One group has become another, and nothing else has changed. -/
def GroupNow (s t : State) (g : Nat) (x : Group) : Prop :=
  t = { s with groups := t.groups } ∧ (∀ h, h ≠ g → t.grp h = s.grp h) ∧ t.grp g = x

end Sys2Proof.Machine
end

