-- ==== Sys2Proof/Certificates/Slice0/Obligations.lean ====
section
/-!
DEFINITION. The statements of this row, each a proposition. A statement that an instruction completes says which state
it answers, for every state and operands that meet the hypotheses.
-/

open Sys2Proof Sys2Proof.Machine

/-! ## The control stream -/

/-- R98, R99. The scalar ALU group writes S[d] from S[a] and S[b], and changes nothing else. -/
def scalarAluWritesItsResult : Prop :=
  ∀ (s : State) (d a b : BitVec 6), s.Quiet [d.toNat, a.toNat, b.toNat] →
    let x := s.cg.rs a.toNat
    let y := s.cg.rs b.toNat
    let n := y.toNat % 64
    Writes (exec (.sadd d a b) s) s d (BitVec.ofNat 64 (x.toNat + y.toNat)) ∧
    Writes (exec (.ssub d a b) s) s d (BitVec.ofInt 64 (x.toInt - y.toInt)) ∧
    Writes (exec (.smul d a b) s) s d (BitVec.ofNat 64 (x.toNat * y.toNat)) ∧
    Writes (exec (.smulh d a b true) s) s d (BitVec.ofNat 64 (x.toNat * y.toNat / 2 ^ 64)) ∧
    Writes (exec (.smulh d a b false) s) s d (BitVec.ofInt 64 (x.toInt * y.toInt / 2 ^ 64)) ∧
    (y ≠ 0#64 → Writes (exec (.sdiv d a b true) s) s d (BitVec.ofNat 64 (x.toNat / y.toNat)) ∧
      Writes (exec (.sdiv d a b false) s) s d (BitVec.ofInt 64 (x.toInt.tdiv y.toInt)) ∧
      Writes (exec (.srem d a b true) s) s d (BitVec.ofNat 64 (x.toNat % y.toNat)) ∧
      Writes (exec (.srem d a b false) s) s d (BitVec.ofInt 64 (x.toInt.tmod y.toInt))) ∧
    (y = 0#64 → ∀ u : Bool, Writes (exec (.sdiv d a b u) s) s d 0xFFFFFFFFFFFFFFFF#64 ∧ Writes (exec (.srem d a b u) s) s d x) ∧
    Writes (exec (.sand d a b) s) s d (x &&& y) ∧
    Writes (exec (.sor d a b) s) s d (x ||| y) ∧
    Writes (exec (.sxor d a b) s) s d (x ^^^ y) ∧
    Writes (exec (.sshl d a b) s) s d (BitVec.ofNat 64 (x.toNat * 2 ^ n)) ∧
    Writes (exec (.sshr d a b) s) s d (BitVec.ofNat 64 (x.toNat / 2 ^ n)) ∧
    Writes (exec (.ssra d a b) s) s d (BitVec.ofInt 64 (x.toInt / 2 ^ n)) ∧
    Writes (exec (.smin d a b true) s) s d (if x.toNat < y.toNat then x else y) ∧
    Writes (exec (.smin d a b false) s) s d (if x.toInt < y.toInt then x else y) ∧
    Writes (exec (.smax d a b true) s) s d (if x.toNat < y.toNat then y else x) ∧
    Writes (exec (.smax d a b false) s) s d (if x.toInt < y.toInt then y else x) ∧
    Writes (exec (.ssel d a b) s) s d (if s.cg.rs d.toNat = 0#64 then y else x)

/-- The condition of R72 on two doublewords. -/
abbrev conditionHolds (c : Cond) (x y : W64) : Prop :=
  match c with
  | .eq => x = y
  | .ne => x ≠ y
  | .lt => x.toInt < y.toInt
  | .ge => y.toInt ≤ x.toInt
  | .ltu => x.toNat < y.toNat
  | .geu => y.toNat ≤ x.toNat

/-- R100. SCMP, the immediate forms and SMOVW. -/
def scalarCompareAndImmediatesWriteTheirResults : Prop :=
  (∀ (s : State) (d a b : BitVec 6) (c : Cond), s.Quiet [d.toNat, a.toNat, b.toNat] →
    (conditionHolds c (s.cg.rs a.toNat) (s.cg.rs b.toNat) → Writes (exec (.scmp d a b c) s) s d 1#64) ∧
    (¬ conditionHolds c (s.cg.rs a.toNat) (s.cg.rs b.toNat) → Writes (exec (.scmp d a b c) s) s d 0#64)) ∧
  (∀ (s : State) (d a : BitVec 6) (imm : BitVec 14), s.Quiet [d.toNat, a.toNat] →
    let x := s.cg.rs a.toNat
    let k := BitVec.ofInt 64 imm.toInt
    Writes (exec (.saddi d a imm) s) s d (x + k) ∧
    Writes (exec (.sandi d a imm) s) s d (x &&& k) ∧
    Writes (exec (.sori d a imm) s) s d (x ||| k)) ∧
  ∀ (s : State) (d : BitVec 6) (idx : BitVec 2) (imm : BitVec 16), s.Quiet [d.toNat] →
    (∃ x : W64, Writes (exec (.smovw d idx imm) s) s d x ∧
      ∀ k, k < 64 → x.getLsbD k = if 16 * idx.toNat ≤ k ∧ k < 16 * idx.toNat + 16 then imm.getLsbD (k - 16 * idx.toNat)
        else (s.cg.rs d.toNat).getLsbD k) ∧
    Writes (exec (.smovwZ d idx imm) s) s d (BitVec.ofNat 64 (imm.toNat * 2 ^ (16 * idx.toNat)))

/-- R95. An instruction that names the destination of an outstanding SLD waits: the state stays as it is. That it waits for its own
destination alone too is the model's reading (log entry 19); R95 speaks of the registers that are read. -/
def controlInstructionsWaitForPendingRegisters : Prop :=
  ∀ (s : State) (d a b : BitVec 6) (c : Cond) (imm : BitVec 14), ¬ s.Quiet [d.toNat, a.toNat, b.toNat] →
    exec (.sadd d a b) s = .next s ∧ exec (.sdiv d a b true) s = .next s ∧ exec (.ssel d a b) s = .next s ∧
    exec (.scmp d a b c) s = .next s ∧
    (¬ s.Quiet [d.toNat, a.toNat] → exec (.saddi d a imm) s = .next s ∧ exec (.sstB64 d a imm) s = .next s ∧
      exec (.launch d a) s = .next s)

/-- R95, R98 to R100. The scalar ALU group, the compare, the immediate forms and SMOVW write their results, or wait for an
outstanding SLD of one of their registers, the destination among them (the model's reading, log entry 19). -/
def Obligations.ScalarInstructionsWriteTheirResult : Prop :=
  scalarAluWritesItsResult ∧ scalarCompareAndImmediatesWriteTheirResults ∧ controlInstructionsWaitForPendingRegisters

/-- R116, R426. SREAD: the flags are read and cleared in one step, the others change nothing but S[d]; a handle is nonzero, and
within one placement two handles are equal exactly when they name one core. -/
def uniformReadsWriteTheirSpecials : Prop :=
  ∀ (s : State) (d : BitVec 6), s.Quiet [d.toNat] →
    (∃ t, exec (.sreadFlags d) s = .next t ∧
      GroupIs s t { s.cg.at (s.cg.cpc + 4#64) with s := t.cg.s, flags := 0#5 } ∧
      ∀ r, t.cg.rs r = if r = d.toNat then BitVec.ofNat 64 s.cg.flags.toNat else s.cg.rs r) ∧
    (∃ h : W64, h ≠ 0#64 ∧ h = s.handle s.casid s.cg.core ∧ Writes (exec (.sreadHandle d) s) s d h) ∧
    (∀ c e, c < 7168 → e < 7168 → (s.handle s.casid c = s.handle s.casid e ↔ c = e)) ∧
    Writes (exec (.sreadStamp d) s) s d
      (BitVec.ofNat 64 (s.round.toNat * 2 ^ 32 + min ((s.dom (s.cg.core / 112)).stamp16 / 16) (2 ^ 32 - 1))) ∧
    Writes (exec (.sreadCycle d) s) s d (BitVec.ofNat 64 ((s.dom (s.cg.core / 112)).cyc16 / 16))

/-- R104, R119. Branches go to PC + 4 × offset or on to the next word; CALL leaves the return address in s63. -/
def Obligations.BranchesSetThePc : Prop :=
  ∀ (s : State) (a b : BitVec 6) (c : Cond) (o26 : BitVec 26) (o11 : BitVec 11),
    let pc := s.cg.cpc
    GoesTo (exec (.br o26) s) s (pc + BitVec.ofInt 64 (4 * o26.toInt)) s.cg.rs ∧
    (s.Quiet [63] → GoesTo (exec (.call o26) s) s (pc + BitVec.ofInt 64 (4 * o26.toInt))
      fun r => if r = 63 then pc + 4#64 else s.cg.rs r) ∧
    (s.Quiet [a.toNat, b.toNat] →
      (conditionHolds c (s.cg.rs a.toNat) (s.cg.rs b.toNat) →
        GoesTo (exec (.bcmp a b c o11) s) s (pc + BitVec.ofInt 64 (4 * o11.toInt)) s.cg.rs) ∧
      (¬ conditionHolds c (s.cg.rs a.toNat) (s.cg.rs b.toNat) → GoesTo (exec (.bcmp a b c o11) s) s (pc + 4#64) s.cg.rs)) ∧
    (s.Quiet [a.toNat] → (s.cg.rs a.toNat).toNat % 4 = 0 → GoesTo (exec (.ret a) s) s (s.cg.rs a.toNat) s.cg.rs) ∧
    GoesTo (exec .nop s) s (pc + 4#64) s.cg.rs

/-- R36, R105, R106. RUN appends its entry to the lane queue, or waits while eight wait; LSYNC goes on when the lane
stream is idle, and otherwise waits. -/
def runAppendsAndLsyncWaits : Prop :=
  ∀ (s : State) (a : BitVec 6) (imm : BitVec 14), s.Quiet [a.toNat] →
    let entry := s.cg.rs a.toNat + BitVec.ofInt 64 (4 * imm.toInt)
    let pc := s.cg.cpc
    (entry.toNat % 4 = 0 → s.cg.laneq.length < 8 →
      Becomes (exec (.run a imm) s) s { s.cg.at (pc + 4#64) with laneq := s.cg.laneq ++ [{ pc := entry, runPc := pc }] }) ∧
    (entry.toNat % 4 = 0 → 8 ≤ s.cg.laneq.length → s.cg.wait = none →
      Becomes (exec (.run a imm) s) s (s.cg.waits { kind := .run })) ∧
    (s.cg.laneq = [] → s.cg.laneBusy = false → s.cg.laneSup = false → s.cg.lpend = none →
      Becomes (exec .lsync s) s (s.cg.at (pc + 4#64))) ∧
    (s.cg.laneq ≠ [] ∨ s.cg.laneBusy = true ∨ s.cg.laneSup = true → s.cg.wait = none →
      Becomes (exec .lsync s) s (s.cg.waits { kind := .lsync }))

/-- R110, R111. WAITCNT goes on, and YIELD branches, when the counter is at most n; otherwise the stream waits, and a
parked YIELD keeps its continuation. -/
def counterWaitsFollowTheirCounter : Prop :=
  ∀ (s : State) (c : EngClass) (n : BitVec 8) (off : BitVec 16),
    let k := s.cg.rcnt (clsNum c)
    let pc := s.cg.cpc
    let goal := pc + BitVec.ofInt 64 (4 * off.toInt)
    (k ≤ n.toNat → Becomes (exec (.waitcnt c n) s) s (s.cg.at (pc + 4#64)) ∧ Becomes (exec (.yield c n off) s) s (s.cg.at goal)) ∧
    (n.toNat = 255 → Becomes (exec (.yield c n off) s) s (s.cg.at goal)) ∧
    (n.toNat < k → s.cg.wait = none → Becomes (exec (.waitcnt c n) s) s (s.cg.waits { kind := .waitcnt })) ∧
    (n.toNat < k → n.toNat ≠ 255 → s.cg.wait = none →
      Becomes (exec (.yield c n off) s) s (s.cg.waits { kind := .yield, obj := clsNum c, n := n.toNat, cont := goal }))

/-- R109, R117. XCLR clears its translation register; regions do not nest. -/
def xclrAndRegionsChangeOnlyTheirState : Prop :=
  ∀ (s : State) (x : BitVec 3),
    (∃ t, exec (.xclr x) s = .next t ∧ GroupIs s t { s.cg.at (s.cg.cpc + 4#64) with xb := t.cg.xb } ∧
      ∀ k, t.cg.rxb k = if k = x.toNat then {} else s.cg.rxb k) ∧
    Becomes (exec .nopreBegin s) s
      { s.cg.at (s.cg.cpc + 4#64) with region := true, regionCnt := if s.cg.region then s.cg.regionCnt else 0 } ∧
    Becomes (exec .nopreEnd s) s { s.cg.at (s.cg.cpc + 4#64) with region := false, regionCnt := 0 }

/-- R36, R105, R106, R109 to R111, R116, R117, R426. RUN, LSYNC, WAITCNT and YIELD go on or wait; SREAD, XCLR and the region
instructions change their own state only. -/
def Obligations.UniformReadsRegionsAndWaitsFollowTheirRules : Prop :=
  runAppendsAndLsyncWaits ∧ counterWaitsFollowTheirCounter ∧ uniformReadsWriteTheirSpecials ∧ xclrAndRegionsChangeOnlyTheirState

/-- The constructor of an SLD, and of an SST, by its size in bytes. -/
def sldOf (n : Nat) (d a : BitVec 6) (imm : BitVec 14) : Instr := if n = 8 then .sldB64 d a imm else .sldB32 d a imm
def sstOf (n : Nat) (d a : BitVec 6) (imm : BitVec 14) : Instr := if n = 8 then .sstB64 d a imm else .sstB32 d a imm

/-- R95, R101, R103, R282. An SLD reads n bytes at S[a] + imm through the core's caches; the value is outstanding, and reaches S[d]
when the access completes, the oldest first. One that the plan leaves for later reads when it completes; one whose bytes an earlier
control access of the group has still to reach waits. -/
def Obligations.ScalarLoadsReadThenWriteTheirRegister : Prop :=
  (∀ (s s1 s2 : State) (d a : BitVec 6) (imm : BitVec 14) (n pa coh left v : Nat) (q w tlb : Bool),
    s.Quiet [d.toNat, a.toNat] →
    let va := s.cg.rs a.toNat + BitVec.ofInt 64 imm.toInt
    (n = 8 ∨ n = 4) → s.CtlAddress va n → s.ctlXlat va .load = (s1, .ok pa coh q w left tlb) →
    s1.sysUp pa = true → s1.unheld.badCtl pa n coh = false → s1.unheld.coreLoad s1.cg.core pa n coh .none false = (s2, v) →
    s2.Unwatched va n true false → s1.Unwatched va n true false →
    (s1.cg.ctlHeldBack pa n = true → exec (sldOf n d a imm) s = .next s1.unheld) ∧
    (s1.cg.ctlHeldBack pa n = false → s1.cg.late = true → s1.cached pa = true → ∃ t, exec (sldOf n d a imm) s = .next t ∧
      GroupIs s1.unheld t { s1.unheld.cg.at (s1.cg.cpc + 4#64) with late := false, slds := s1.cg.slds ++
        [{ d := d.toNat, value := 0#64, src := some { va := va, pc := s1.cg.cpc, pa := pa, n := n, coh := coh } }] }) ∧
    (s1.cg.ctlHeldBack pa n = false → s1.cg.late = false ∨ s1.cached pa = false → ∃ t, exec (sldOf n d a imm) s = .next t ∧
      GroupIs s2 t { s2.cg.at (s2.cg.cpc + 4#64) with slds := s2.cg.slds ++ [{ d := d.toNat, value := BitVec.ofNat 64 v }] }) ∧
    SameButWrittenBack s1 s2 (coreDom s1.cg.core) ∧
    (s1.cached pa = false → pa % n = 0 → v = s1.mem.read pa n ∧ SameMemory s1 s2)) ∧
  ∀ (s : State) (g : Nat) (p : PendSld) (rest : List PendSld), (s.grp g).slds = p :: rest →
    (p.src = none → ∃ t, exec (.controlAccessComplete g) s = .next t ∧ t = { s with groups := t.groups } ∧ (∀ h, h ≠ g → t.grp h = s.grp h) ∧
      t.grp g = { s.grp g with s := (t.grp g).s, slds := rest } ∧
      ∀ r, (t.grp g).rs r = if r = p.d then p.value else (s.grp g).rs r) ∧
    ∀ (x : SldSrc) (u : State) (v : Nat), p.src = some x → s.coreLoad (s.grp g).core x.pa x.n x.coh .none false = (u, v) →
      (∀ c ∈ pieces x.pa x.n x.n, s.badLoad (s.grp g).core c.1 c.2 x.coh false = false) →
      ∃ t, exec (.controlAccessComplete g) s = .next t ∧ t = { u with groups := t.groups } ∧ (∀ h, h ≠ g → t.grp h = u.grp h) ∧
        t.grp g = { u.grp g with s := (t.grp g).s, slds := rest } ∧
        ∀ r, (t.grp g).rs r = if r = p.d then BitVec.ofNat 64 v else (u.grp g).rs r

/-- R101, R103, R282. An SST writes the low n bytes of S[d] at S[a] + imm; no byte of memory outside them changes but by the
write-back of a dirty copy. The bytes are in memory at once where the core's domain keeps no copy of its own. One that the plan leaves
for later is written when it is performed; one whose bytes an earlier control access of the group has still to reach waits. -/
def Obligations.ScalarStoresWriteTheirBytes : Prop :=
  ∀ (s s1 : State) (d a : BitVec 6) (imm : BitVec 14) (n pa coh left : Nat) (q w tlb : Bool),
    s.Quiet [d.toNat, a.toNat] →
    let va := s.cg.rs a.toNat + BitVec.ofInt 64 imm.toInt
    let v := (s.cg.rs d.toNat).toNat % 2 ^ (8 * n)
    (n = 8 ∨ n = 4) → s.CtlAddress va n → s.ctlXlat va .store = (s1, .ok pa coh q w left tlb) →
    let s2 := s1.unheld.coreStore s1.cg.core pa n v coh .none
    let y : LateAcc := { op := s1.cg.nextOp, lane := 32, p := { pa := pa, off := 0, n := n, coh := coh }, v := v, kind := .store, hint := .none }
    s2.Unwatched va n false true → s1.Unwatched va n false true →
    (s1.cg.ctlHeldBack pa n = true → exec (sstOf n d a imm) s = .next s1.unheld) ∧
    (s1.cg.ctlHeldBack pa n = false → s1.cg.late = true → ∃ t, exec (sstOf n d a imm) s = .next t ∧
      GroupIs s1.unheld t { s1.unheld.cg.at (s1.cg.cpc + 4#64) with late := false, lates := s1.cg.lates ++ [y], nextOp := s1.cg.nextOp + 1 }) ∧
    (s1.cg.ctlHeldBack pa n = false → s1.cg.late = false → ∃ t, exec (sstOf n d a imm) s = .next t ∧ GroupIs s2 t (s2.cg.at (s2.cg.cpc + 4#64)) ∧
      (∀ b, (b < pa ∨ pa + n ≤ b) → s1.Undirty (coreDom s1.cg.core) b → t.mem.byte b = s1.mem.byte b) ∧
      (pa % n = 0 → s1.sysUp pa = true → s1.Clean (coreDom s1.cg.core) → ownCopy (coreDom s1.cg.core) (pa / 128) coh = false →
        t.mem.read pa n = v))

/-- R108, R109. XLAT writes its translation register as a whole from the translation of S[a], with the low bit of the page number
of the leaf that its TLB path then holds (R271, R323). The owner of a core-private page beside the register is the model's own field
(log entry 91). -/
def Obligations.XlatBindsThePageOfItsAddress : Prop :=
  ∀ (s s1 : State) (x : BitVec 3) (a : BitVec 6) (pa coh left : Nat) (q w tlb : Bool), s.Quiet [a.toNat] →
    let va := s.cg.rs a.toNat
    regenFailed s.cg.ctlRegen va = false → s.ctlXlat va .bindXb = (s1, .ok pa coh q w left tlb) →
    ∃ t, exec (.xlat x a) s = .next t ∧
      GroupIs s1 t { s1.cg.at (s1.cg.cpc + 4#64) with xb := t.cg.xb, ctlHeld := none } ∧
      ∀ k, t.cg.rxb k = if k = x.toNat then
          { v := true, coh := BitVec.ofNat 2 coh, w := w, q := q, limit := left, pbase := BitVec.ofNat 56 pa,
            vbase := BitVec.ofNat 53 va.toNat, owner := if coh = 2 then s1.cg.core else 0,
            page := (s1.tlbLook s1.cg.core s1.casid va).elim 13 fun x => 43 - 10 * x.2.1 }
        else s1.cg.rxb k

/-- The status of a LAUNCH by the table of R113, the last row first. -/
def launchStatus (s : State) (p : Packet) : Nat :=
  let n := s.gridOf s.cg.grid
  let own := if p.dlimField = 0 then 8 else p.dlimField
  if s.packetOk p none = false then 4
  else if 8 < n.depth + 1 ∨ n.dlim < n.depth + 1 ∨ own < n.depth + 1 then 3
  else if s.cctx.lquota.toNat ≤ s.cctx.launches then 2
  else if 4032 ≤ (s.dom (coreDom s.cg.core)).poolUsed then 1
  else 0

/-- R112, R113, R353. LAUNCH reads its packet and writes the first failing status into S[d]; LAUNCHED puts the child into
the pool of the issuing domain and counts it for the group and its context. -/
def launchPoolsItsChild : Prop :=
  ∀ (s s1 s2 : State) (d a : BitVec 6) (pa coh left : Nat) (q w tlb : Bool) (l : List W64), s.Quiet [d.toNat, a.toNat] →
    let va := s.cg.rs a.toNat
    s.CtlAddress va 64 → s.ctlXlat va .load = (s1, .ok pa coh q w left tlb) → s1.sysUp pa = true →
    s1.unheld.badCtl pa 64 coh = false → s1.unheld.loadDwords pa coh 8 = (s2, l) →
    let st := launchStatus s2 (packetOf l)
    ∃ t, exec (.launch d a) s = .next t ∧
      (∀ r, t.cg.rs r = if r = d.toNat then BitVec.ofNat 64 st else s2.cg.rs r) ∧
      t.cg = { s2.cg.at (s2.cg.cpc + 4#64) with s := t.cg.s, childOut := s2.cg.childOut + (if st = 0 then 1 else 0) } ∧
      SameMemory s2 t ∧ (t.ctx s2.casid).launches = s2.cctx.launches + (if st = 0 then 1 else 0) ∧
      (st ≠ 0 → (t.dom (coreDom s2.cg.core)).pool = (s2.dom (coreDom s2.cg.core)).pool) ∧
      (st = 0 → ∃ k e, (t.dom (coreDom s2.cg.core)).pool.get? k = some e ∧ e.asid = s2.casid ∧
        ({ pkt := packetOf l, depth := (s2.gridOf s2.cg.grid).depth + 1, dlim := (s2.gridOf s2.cg.grid).dlim, g := s2.cur.g,
           order := s2.nextId, key := (s2.cg.grid, (s2.blk s2.cg.block).num, s2.cg.gidx) } : Child) ∈ e.first :: e.rest)

/-- R115, R175. WAITCHILD waits while children are outstanding; then it acquires at `.wfr` and writes the counts. -/
def waitchildCollects : Prop :=
  ∀ (s : State) (d : BitVec 6), s.Quiet [d.toNat] →
    (s.cg.childOut ≠ 0 → s.cg.wait = none → Becomes (exec (.waitchild d) s) s (s.cg.waits { kind := .waitchild })) ∧
    (s.cg.childOut = 0 → ∃ t, exec (.waitchild d) s = .next t ∧ Acquired s t s.cg.core .wfr ∧
      CoresAndGroup s t { s.cg.at (s.cg.cpc + 4#64) with s := t.cg.s, childDone := 0, childTrap := 0 } ∧
      ∀ r, t.cg.rs r = if r = d.toNat then BitVec.ofNat 64 (s.cg.childDone % 2 ^ 32 + s.cg.childTrap % 2 ^ 32 * 2 ^ 32) else s.cg.rs r)

/-- R112, R113, R115, R175, R353. LAUNCH answers a status and puts an accepted child into the pool; WAITCHILD waits for the
children, and then acquires and writes the counts. -/
def Obligations.LaunchPoolsAndWaitchildCollectsChildren : Prop := launchPoolsItsChild ∧ waitchildCollects

/-- R119. EXIT with the lane stream idle and the engine counters at 0 ends the group, and with its last group the block;
otherwise it waits. -/
def Obligations.ExitEndsTheGroup : Prop :=
  ∀ (s : State), s.cg.ctlSup = false →
    let x := s.cg
    let b := s.blk x.block
    let idle := x.laneIdle = true ∧ ∀ c, c < 4 → x.rcnt c = 0
    (¬ idle → x.wait = none → Becomes (exec .exit s) s (x.waits { kind := .exit })) ∧
    (idle → s.cur.g ∈ b.groups → ∃ t, exec .exit s = .next t ∧
      (t.core x.core).slots.get? x.slot = none ∧ (t.core x.core).chunks = (s.core x.core).chunks - x.nregs / 96 ∧
      (∀ k ∈ x.accs, k ∉ (t.core x.core).tilesUsed) ∧ (∀ o ∈ (t.core x.core).opslots, o.2.holder ≠ s.cur.g) ∧
      ((∃ k ∈ b.groups, k ≠ s.cur.g ∧ (s.grp k).exited = false) →
        t.cg.exited = true ∧ t.cg.region = false ∧ t.cg.accs = [] ∧ t.cg.slots = [] ∧ (t.blk x.block).groups = b.groups) ∧
      ((∀ k ∈ b.groups, k ≠ s.cur.g → (s.grp k).exited = true) →
        t.groups.get? s.cur.g = none ∧ t.blocks.get? x.block = none ∧ (t.gridOf b.grid).live = (s.gridOf b.grid).live - 1))

/-! ## Engine chains and buffers on the control stream -/

/-- A scratchpad address that the head of a chain or a buffer descriptor may have (R237, R252), and its physical address. -/
abbrev headPlace (s : State) (x : W64) (pa : Nat) : Prop :=
  x.toNat < 2 ^ 25 ∧ x.toNat % 32 = 0 ∧ s.scratchPaAt x.toNat 32 = some pa

/-- R237, R256. ENGCHAIN starts a chain: it is counted by its class, and waits in the queue of its engine. With the counter full
it waits; with the queue full it has counted its chain, and waits for room. -/
def Obligations.EngchainQueuesAChain : Prop :=
  ∀ (s : State) (a : BitVec 6) (c : EngClass) (pa : Nat), s.Quiet [a.toNat] → headPlace s (s.cg.rs a.toNat) pa →
    let core := s.cg.core
    let queue := s.engQueue core (clsNum c)
    let depth := if c = .coll then 512 else 32
    let chain : Chain := { g := s.cur.g, cls := clsNum c, core := core, block := s.cg.block, grid := s.cg.grid,
                           epc := s.cg.cpc, entry := (s.cg.rs a.toNat).toNat }
    (s.cg.wait = none → s.cg.rcnt (clsNum c) < 255 → queue.length < depth →
      ∃ t, exec (.engchain a c) s = .next t ∧ t.engQueue core (clsNum c) = queue ++ [s.nextId] ∧
        t.chains.get? s.nextId = some chain ∧
        t.cg = { s.cg.at (s.cg.cpc + 4#64) with cnt := t.cg.cnt } ∧
        (∀ k, t.cg.rcnt k = if k = clsNum c then s.cg.rcnt k + 1 else s.cg.rcnt k) ∧
        (∀ h, h ≠ s.cur.g → t.grp h = s.grp h) ∧ SameMemory s t ∧ t.nextId = s.nextId + 1) ∧
    (s.cg.wait = none → 255 ≤ s.cg.rcnt (clsNum c) → Becomes (exec (.engchain a c) s) s (s.cg.waits { kind := .engine })) ∧
    (s.cg.wait = none → s.cg.rcnt (clsNum c) < 255 → depth ≤ queue.length →
      ∃ t, exec (.engchain a c) s = .next t ∧ t.engQueue core (clsNum c) = queue ∧ t.chains = s.chains ∧
        t.cg = { s.cg.waits { kind := .append, obj := s.nextId } with cnt := t.cg.cnt } ∧
        (∀ k, t.cg.rcnt k = if k = clsNum c then s.cg.rcnt k + 1 else s.cg.rcnt k) ∧
        (∀ h, h ≠ s.cur.g → t.grp h = s.grp h) ∧ SameMemory s t ∧ t.nextId = s.nextId + 1) ∧
    ∀ w, s.cg.wait = some w → w.kind = .append →
      (depth ≤ queue.length → exec (.engchain a c) s = .next s) ∧
      (queue.length < depth → ∃ t, exec (.engchain a c) s = .next t ∧ t.engQueue core (clsNum c) = queue ++ [w.obj] ∧
        t.chains.get? w.obj = some chain ∧ t.cg = s.cg.at (s.cg.cpc + 4#64) ∧ (∀ h, h ≠ s.cur.g → t.grp h = s.grp h) ∧
        SameMemory s t ∧ t.nextId = s.nextId)

/-- R251, R252, R253. CBINIT writes a descriptor of an empty buffer; CBADV moves the pointer of its side by n where there is
room, or that much filled. -/
def Obligations.BufferInstructionsWriteTheirDescriptor : Prop :=
  (∀ (s : State) (d a : BitVec 6) (pa : Nat), a.toNat ≤ 61 → s.Quiet [d.toNat, a.toNat, a.toNat + 1, a.toNat + 2] →
    headPlace s (s.cg.rs d.toNat) pa →
    let base := (s.cg.rs a.toNat).toNat
    let size := (s.cg.rs (a.toNat + 1)).toNat
    let esize := (s.cg.rs (a.toNat + 2)).toNat
    base < 2 ^ 25 → base % 16 = 0 → 1 ≤ size → size ≤ 2 ^ 20 → 16 ≤ esize → esize ≤ 4096 → esize % 16 = 0 →
    (s.scratchPaAt base (size * esize)).isSome = true →
    ∃ t, exec (.cbinit d a) s = .next t ∧ StoredIs s t (s.cg.at (s.cg.cpc + 4#64)) pa 32 ∧
      t.readDesc pa = { tag := 0x43425546, base := base, esize := esize, size := size, pptr := 0, cptr := 0 }) ∧
  ∀ (s : State) (d a : BitVec 6) (pa : Nat), s.Quiet [d.toNat, a.toNat] → headPlace s (s.cg.rs d.toNat) pa →
    let n := (s.cg.rs a.toNat).toNat % 2 ^ 32
    let x := s.readDesc pa
    x.tag = 0x43425546 → s.badIn pa 32 = false →
    (n ≤ x.room → ∃ t, exec (.cbadvProd d a) s = .next t ∧ StoredIs s t (s.cg.at (s.cg.cpc + 4#64)) (pa + 16) 4 ∧
      t.readDesc pa = { x with pptr := (x.pptr + n) % 2 ^ 32 }) ∧
    (n ≤ x.filled → ∃ t, exec (.cbadvCons d a) s = .next t ∧ StoredIs s t (s.cg.at (s.cg.cpc + 4#64)) (pa + 20) 4 ∧
      t.readDesc pa = { x with cptr := (x.cptr + n) % 2 ^ 32 })

/-! ## Waiting and barriers -/

/-- R194 to R197. A WAITCMP whose condition holds at its first issue acquires at its scope and completes with status 0; where
it does not hold, the group waits, and with T = 1 the timeout is the low word of S[d]. -/
def Obligations.WaitcmpCompletesOrWaits : Prop :=
  ∀ (s s1 s2 : State) (d a b : BitVec 6) (t : Bool) (sc : Scope) (c : Cond) (pa coh left v : Nat) (q w tlb : Bool),
    s.Quiet [d.toNat, a.toNat, b.toNat] → s.cg.wait = none →
    let va := s.cg.rs a.toNat
    let y := s.cg.rs b.toNat
    s.CtlAddress va 8 → s.ctlXlat va .load = (s1, .ok pa coh q w left tlb) → s1.sysUp pa = true →
    s1.unheld.badLoad s1.cg.core pa 8 coh true = false → (s1.unheld.wordAtHome s1.cg.core pa coh).homeRead pa 8 = (s2, v) →
    (conditionHolds c (BitVec.ofNat 64 v) y → s2.Unwatched va 8 true false →
      ∃ u, exec (.waitcmp d a b t sc c) s = .next u ∧ Acquired s2 u s2.cg.core sc ∧
        CoresAndGroup s2 u { s2.cg.at (s2.cg.cpc + 4#64) with s := u.cg.s } ∧
        ∀ r, u.cg.rs r = if t = true ∧ r = d.toNat then 0#64 else s2.cg.rs r) ∧
    (¬ conditionHolds c (BitVec.ofNat 64 v) y →
      ∃ (u : State) (x : CtlWait), exec (.waitcmp d a b t sc c) s = .next u ∧ u.cg = s2.cg.waits x ∧ x.kind = .waitcmp ∧
        x.va = va ∧ x.pa = pa ∧ x.coh = coh ∧ x.cond = c ∧ x.val = y ∧ x.scope = sc ∧ x.age = 0 ∧ x.woken = false ∧ x.armed = s2.canArm pa coh ∧
        x.limit = if t then (s.cg.rs d.toNat).toNat % 2 ^ 32 else 0)

/-- The fields of a quad barrier object at a physical address (R198), and where an address register names one. -/
abbrev objectIs (s : State) (pa expected arrived phase : Nat) : Prop :=
  s.peek pa 4 = 0x42415231 ∧ s.barExpected pa = expected ∧ s.barArrived pa = arrived ∧ s.barPhase pa = phase
abbrev objectPlace (s : State) (x : W64) (pa : Nat) : Prop := x.toNat % 16 = 0 ∧ s.scratchPaAt x.toNat 16 = some pa

/-- R198 to R201. BINIT makes an object; BARV and BEXP arrive and complete the phase when the count meets the expected one;
BWAIT goes on when the phase is not the recorded one, with an acquire, and otherwise waits. An uncorrectable error in the
object traps (R11). -/
def quadBarriersCountArrivalsAndPhases : Prop :=
  ∀ (s : State) (d a b : BitVec 6) (pa : Nat), s.Quiet [d.toNat, a.toNat, b.toNat] → objectPlace s (s.cg.rs a.toNat) pa →
    let sa := (s.cg.rs a.toNat).toNat
    let k := (s.cg.rs b.toNat).toNat % 2 ^ 32
    let on := s.cg.at (s.cg.cpc + 4#64)
    (∃ t, exec (.binit a b) s = .next t ∧ StoredIs s t { on with arrivals := (s.cg.recordPhase sa 0).arrivals } pa 16 ∧
      objectIs t pa k 0 0) ∧
    (s.badIn pa 16 = true → ∀ i ∈ [Instr.barv a b, .bexp a b], exec i s =
      .next (s.raiseCtl { code := 19, faddr := BitVec.ofNat 64 sa, pc := s.cg.cpc, resume := s.cg.cpc, pa := pa })) ∧
    (∀ e n p, objectIs s pa e n p → s.badIn pa 16 = false →
      (n + k < e ∨ (n + k = e ∧ e = 0) → ∃ t, exec (.barv a b) s = .next t ∧
        StoredIs s t { on with arrivals := (s.cg.recordPhase sa p).arrivals } pa 16 ∧ objectIs t pa e (n + k) p) ∧
      (n + k = e → e ≠ 0 → ∃ t, exec (.barv a b) s = .next t ∧
        StoredIs s t { on with arrivals := (s.cg.recordPhase sa p).arrivals } pa 16 ∧ objectIs t pa e 0 ((p + 1) % 2 ^ 16)) ∧
      (n < k ∨ (n = k ∧ k = 0) → ∃ t, exec (.bexp a b) s = .next t ∧ StoredIs s t on pa 16 ∧ objectIs t pa k n p) ∧
      (n = k → k ≠ 0 → ∃ t, exec (.bexp a b) s = .next t ∧ StoredIs s t on pa 16 ∧ objectIs t pa k 0 ((p + 1) % 2 ^ 16)) ∧
      (∀ (x : Nat) (tm : Bool), s.cg.wait = none → s.cg.arrivals.find? (fun y => y.1 == sa) = some (sa, x) →
        (p ≠ x → ∃ t, exec (.bwait d a tm) s = .next t ∧ Acquired s t s.cg.core .blk ∧
          CoresAndGroup s t { on with arrivals := (s.cg.recordPhase sa p).arrivals }) ∧
        (p = x → Becomes (exec (.bwait d a tm) s) s (s.cg.waits
          { kind := .bwait, obj := sa, pa := pa, phase := x,
            limit := if tm then (s.cg.rs d.toNat).toNat % 2 ^ 32 else (s.gridOf s.cg.grid).pkt.bto }))))

/-- R204, R205. DBAR in a co-resident grid, and WBAR in the grid with the program channel, arrive and wait; when the phase
completes they go on with an acquire, and WBAR writes the new round. -/
def domainAndWaferBarriersArriveThenGoOn : Prop :=
  ∀ (s : State) (id : BitVec 4) (d : BitVec 6), s.Quiet [d.toNat] →
    let k := 16 * s.casid + id.toNat
    let old := ((s.dom (coreDom s.cg.core)).dbars.get? k).getD { grid := s.cg.grid }
    (s.cg.wait = none → (s.gridOf s.cg.grid).pkt.cor ≠ 0 → old.grid = s.cg.grid →
      ∃ t, exec (.dbar id) s = .next t ∧ SameMemory s t ∧ (∀ h, h ≠ s.cur.g → t.grp h = s.grp h) ∧
        t.cg = s.cg.waits { kind := .dbar, limit := (s.gridOf s.cg.grid).pkt.bto, obj := id.toNat } ∧
        ∃ x, (t.dom (coreDom s.cg.core)).dbars.get? k = some x ∧ x.grid = s.cg.grid ∧ x.phase = old.phase ∧
          ∀ h, h ∈ x.arrived ↔ h = s.cur.g ∨ h ∈ old.arrived) ∧
    (∀ w, s.cg.wait = some w → w.kind = .dbar → w.woken = true →
      ∃ t, exec (.dbar id) s = .next t ∧ Acquired s t s.cg.core .dom ∧ CoresAndGroup s t (s.cg.at (s.cg.cpc + 4#64))) ∧
    (s.cg.wait = none → s.wbarGrid = some s.cg.grid →
      ∃ t, exec (.wbar d) s = .next t ∧ t.cg = s.cg.waits { kind := .wbar } ∧ SameMemory s t ∧
        (∀ h, h ∈ t.wbarArrived ↔ h = s.cur.g ∨ h ∈ s.wbarArrived)) ∧
    (∀ w, s.cg.wait = some w → w.kind = .wbar → w.woken = true →
      ∃ t, exec (.wbar d) s = .next t ∧ Acquired s t s.cg.core .wfr ∧
        CoresAndGroup s t { s.cg.at (s.cg.cpc + 4#64) with s := t.cg.s } ∧
        ∀ r, t.cg.rs r = if r = d.toNat then BitVec.ofNat 64 w.n else s.cg.rs r)

/-- R198 to R201, R204, R205. The barriers of a quad, of a domain and of the wafer. -/
def Obligations.BarriersCountArrivalsThenGoOn : Prop :=
  quadBarriersCountArrivalsAndPhases ∧ domainAndWaferBarriersArriveThenGoOn

/-! ## Mailboxes -/

/-- The status word of a mailbox instruction: a code, and a length from bit 8. -/
def mailboxAnswer (code len : Nat) : W64 := BitVec.ofNat 64 (code + len * 2 ^ 8)

/-- An address register names an episode that is bound to the group's context, with a window (R206). -/
abbrev names (s : State) (x : W64) (w : Window) : Prop :=
  x.toNat < 2 ^ 14 ∧ s.window x.toNat = some w ∧ w.asid = s.casid ∧ w.gen = s.cctx.gen

/-- The mailbox arbiter of a domain performs no request in this cycle, and none waits for it (R384). -/
abbrev arbiterIdle (s : State) (d : Nat) : Prop := (s.dom d).arbAt ≠ some s.now ∧ (s.dom d).arb = [] ∧ s.dueCloses d = []
/-- The state whose arbiter has taken the request. -/
def arbiterTaken (s : State) (d : Nat) : State := { s with doms := s.doms.upd d {} fun m => { m with arb := [], arbAt := some s.now } }

/-- R206 to R211, R384. MBXSTAT and VSTAT report the occupancies; MBXSEND and MBXRECV write a status without effect, or move one
entry with its payload and answer the length. An instruction that finds the arbiter of its domain taken waits for its turn. -/
def Obligations.MailboxInstructionsMoveOneEntry : Prop :=
  (∀ (s : State) (d : BitVec 6) (up : Bool), s.Quiet [d.toNat] →
    let c := s.core s.cg.core
    let hart := s.cg.core / 4
    let off := s.corriePresent hart = false ∨ (s.hart hart).gated = true
    (off → Writes (exec (.vstat d up) s) s d 0#64) ∧
    (¬ off → Writes (exec (.vstat d up) s) s d (BitVec.ofNat 64 (if up then c.up.length else 16 - c.down.length)))) ∧
  (∀ (s : State) (d a b : BitVec 6) (w : Window), b.toNat % 2 = 0 → s.Quiet [d.toNat, a.toNat, b.toNat, b.toNat + 1] →
    names s (s.cg.rs a.toNat) w → s.cg.wait = none → (s.dom ((s.cg.rs a.toNat).toNat / 2 ^ 8)).arbAt = some s.now →
    ∀ i ∈ [Instr.mbxstat d a, .mbxsend d a b, .mbxrecv d a b], ∃ t port, exec i s = .next t ∧ SameMemory s t ∧
      t.cg = s.cg.waits { kind := .mailbox, obj := (s.cg.rs a.toNat).toNat / 2 ^ 8 } ∧
      ({ due := s.now, op := .mbx s.cur.g port } : ArbReq) ∈ (t.dom ((s.cg.rs a.toNat).toNat / 2 ^ 8)).arb) ∧
  ∀ (s0 : State) (d a b : BitVec 6) (w : Window), b.toNat % 2 = 0 → s0.Quiet [d.toNat, a.toNat, b.toNat, b.toNat + 1] →
    names s0 (s0.cg.rs a.toNat) w → s0.badIn w.base 0x90 = false → arbiterIdle s0 ((s0.cg.rs a.toNat).toNat / 2 ^ 8) →
    let e := (s0.cg.rs a.toNat).toNat
    let s := arbiterTaken s0 (e / 2 ^ 8)
    let r := s.epRec w
    let va := s.cg.rs b.toNat
    let x := (s.cg.rs (b.toNat + 1)).toNat
    let len := x % 2 ^ 24
    Writes (exec (.mbxstat d a) s0) s d
      (BitVec.ofNat 64 (s.held w false % 32 + s.held w true % 32 * 2 ^ 8 + r.status * 2 ^ 16 + r.v0 * 2 ^ 32)) ∧
    (r.status = 0 → Writes (exec (.mbxsend d a b) s0) s d (mailboxAnswer 5 0) ∧ Writes (exec (.mbxrecv d a b) s0) s d (mailboxAnswer 5 0)) ∧
    (3 ≤ r.status → Writes (exec (.mbxsend d a b) s0) s d (mailboxAnswer 3 0) ∧
      (s.held w true = 0 → Writes (exec (.mbxrecv d a b) s0) s d (mailboxAnswer 3 0))) ∧
    ((r.status = 1 ∨ r.status = 2) →
      (16 ≤ s.held w false → Writes (exec (.mbxsend d a b) s0) s d (mailboxAnswer 1 0)) ∧
      (s.held w false < 16 → w.p < len → Writes (exec (.mbxsend d a b) s0) s d (mailboxAnswer 4 0)) ∧
      (s.held w true = 0 → Writes (exec (.mbxrecv d a b) s0) s d (mailboxAnswer 2 0)) ∧
      (∀ (r' : EpRec) (s1 s2 : State) (l : List Seg) (bytes : List Byte), s.held w false < 16 → len ≤ w.p →
        r.accept (x / 2 ^ 32) = some r' →
        s.engPages s.cg.core s.casid s.cg.grid s.cg.ctlRegen .load (len / 2 ^ 13 + 2) va len = (s1, .inl l) →
        (∀ y ∈ l, s1.badRead s1.cg.core y.pa y.n y.coh = false) → s1.unheld.engGet s1.cg.core (.mem l) = (s2, bytes) →
        let s3 := ((foldState (fun (s : State) (c : Byte × Nat) =>
            s.homeWrite (w.base + payloadOff w false (s2.tail w false) + c.2) 1 c.1.toNat) bytes.zipIdx s2).postHeader
              e w false r.next (x / 2 ^ 32) 0 0 0 len).setRec w r'
        s3.Unwatched va len true false →
        Writes (exec (.mbxsend d a b) s0) s3 d (mailboxAnswer 0 len))) ∧
    (∀ (s1 : State) (l : List Seg), r.status ≠ 0 → s.held w true ≠ 0 →
      let h := s.head w true
      let o := w.base + headerOff true h
      let p := w.base + payloadOff w true h
      let n := bitsOf (s.peek (o + 24) 8) 23 0
      let s' := s.acquire s.cg.core .wfr
      (len < 64 + n → Writes (exec (.mbxrecv d a b) s0) s' d (mailboxAnswer 4 0)) ∧
      (64 + n ≤ len → s'.badIn o 64 = false → s'.badIn p n = false →
        s'.engPages s'.cg.core s'.casid s'.cg.grid s'.cg.ctlRegen .store ((64 + n) / 2 ^ 13 + 2) va (64 + n) = (s1, .inl l) →
        let s2 := s1.unheld.engPut s1.cg.core (.mem l) (s1.mem.bytes o 64 ++ s1.mem.bytes p n)
        let s3 := s2.epWrite w 0x48 (h + 1)
        s3.Unwatched va (64 + n) false true → Writes (exec (.mbxrecv d a b) s0) s3 d (mailboxAnswer 0 n)))

/-! ## The array on the control stream -/

/-- R214, R216 to R219, R221, R234. ATAB loads a legal table; SCLM claims a slot within the quota; SREL releases one; SFILL
is queued and counted, with the rows as memory holds them at issue (the model's choice, log entry 20); AQRY reports a tile. -/
def Obligations.ArrayControlInstructionsActOnTheirCore : Prop :=
  ∀ (s : State) (d a b : BitVec 6),
    let g := s.cg
    let core := s.core g.core
    let on := g.at (g.cpc + 4#64)
    (∀ (t : BitVec 3) (pa : Nat), s.Quiet [a.toNat] →
      let v := (g.rs a.toNat).toNat
      t.toNat < s.cblk.nalg → v < 2 ^ 25 → v % 16 = 0 → s.scratchPaAt v 128 = some pa → s.badIn pa 128 = false →
      tabFault (s.mem.bytes pa 128) = none → ∀ c l, s.cblk.tables.find? (fun x => x.1 == g.core) = some (c, l) → t.toNat < l.length →
      ∃ u, exec (.atab t a) s = .next u ∧ CoresAndGroup s u on ∧
        ∀ k, u.core k = if k = g.core then { core with tables := core.tables.set (l.getD t.toNat 0) (s.mem.bytes pa 128) } else s.core k) ∧
    (s.Quiet [d.toNat] → g.slots.length < g.quota → core.sclmQ = [] → ∀ k rest, core.freeSlots = k :: rest →
      ∀ i, (i = Instr.sclm d ∨ i = Instr.sclmNw d) →
      ∃ u, exec i s = .next u ∧ CoresAndGroup s u { on with s := u.cg.s, slots := g.slots ++ [k] } ∧
        (∀ r, u.cg.rs r = if r = d.toNat then BitVec.ofNat 64 k else g.rs r) ∧
        (u.core g.core).opslots.get? k = some { holder := s.cur.g }) ∧
    (s.Quiet [a.toNat] → (g.rs a.toNat).toNat ∈ g.slots →
      let k := (g.rs a.toNat).toNat
      ∃ u, exec (.srel a) s = .next u ∧ CoresAndGroup s u { on with slots := g.slots.filter fun j => j != k } ∧
        (core.slotIdle k = true → (u.core g.core).opslots.get? k = none) ∧
        (core.slotIdle k = false → ∀ o, core.opslots.get? k = some o → (u.core g.core).opslots.get? k = some { o with released := true })) ∧
    (∀ (w : SWidth) (dim : BitVec 2) (cj : Bool) (o : TOrder) (pas : Nat → Nat), s.Quiet [d.toNat, a.toNat, b.toNat] →
      let va := (g.rs a.toNat).toNat
      let st := (g.rs b.toNat).toNat
      (g.rs d.toNat).toNat ∈ g.slots → va < 2 ^ 25 → st < 2 ^ 25 → va % 16 = 0 → st % 16 = 0 → g.rcnt 2 < 255 →
      (∀ r, r < 32 → s.scratchPaAt (va + r * st) 128 = some (pas r) ∧ s.badIn (pas r) 128 = false) →
      ∃ u, exec (.sfill d a b w dim cj o) s = .next u ∧ u.cg = { on with cnt := u.cg.cnt } ∧
        (∀ k, u.cg.rcnt k = if k = 2 then g.rcnt 2 + 1 else g.rcnt k) ∧ SameMemory s u ∧
        ∃ f, (u.core g.core).fills = core.fills ++ [f] ∧ f.g = s.cur.g ∧ f.slot = (g.rs d.toNat).toNat ∧ f.bad = none ∧
          f.bytes = fillBytes w (2 ^ dim.toNat) cj o ((List.range 32).map fun r => s.mem.read (pas r) 128)) ∧
    (∀ h : BitVec 2, s.Quiet [d.toNat] → h.toNat < g.accs.length →
      let k := g.accs.getD h.toNat 64
      Writes (exec (.aqry d h) s) s d (BitVec.ofNat 64 ((core.arrayQ.filter fun x => x.g == s.cur.g && x.tile == k).length % 2 ^ 32 * 2 ^ 32 +
        (core.tile k).header.toNat)))

/-! ## System instructions of the control stream -/

/-- R38, R70, R97. At user level a privileged control instruction traps ILLEGAL_INSTR at itself. -/
def privilegedControlInstructionsTrapAtUserLevel : Prop :=
  ∀ (s : State) (d a b : BitVec 6) (r : SysReg), s.cg.ctlSup = false →
    ∀ i ∈ [Instr.tret, .sysrd d r, .syswr a r, .tlbinvRange a b, .tlbinvAsid, .sample a, .park],
      exec i s = .next (s.raiseCtl { code := 1, pc := s.cg.cpc, resume := s.cg.cpc })

/-- The value that a system register of R39 reads as. -/
def sysValue (s : State) (r : SysReg) : W64 :=
  let g := s.cg
  let c := s.cctx
  match r with
  | .asid => BitVec.ofNat 64 (s.casid % 2 ^ 16 + c.gen % 2 ^ 4 * 2 ^ 16)
  | .trapen => c.trapen
  | .ltrapvec => c.ltrapvec
  | .ctrapvec => c.ctrapvec
  | .cause => g.cause
  | .faddr => g.faddr
  | .fmask => g.fmask
  | .epc => g.epc
  | .elpc => g.elpc
  | .poolbase => c.poolbase
  | .poolcnt => c.poolcnt
  | .regentab => c.regentab
  | .lquota => c.lquota
  | .aflags => c.aflags.setWidth 64
  | .nplimit => c.nplimit
  | .bpc i => c.bpc.getD i.toNat 0#64
  | .bpctl => c.bpctl
  | .wpa i => c.wpa.getD i.toNat 0#64
  | .wpctl => c.wpctl

/-- The value that a system register holds after a write of a doubleword (R39): read-only registers keep theirs, and fields
out of range hold the nearest bound. -/
def sysStored (old x : W64) : SysReg → W64
  | .trapen => BitVec.ofNat 64 (x.toNat % 2 ^ 7)
  | .lquota => BitVec.ofNat 64 (min 4096 x.toNat)
  | .aflags => BitVec.ofNat 64 (x.toNat % 2 ^ 5)
  | .nplimit => BitVec.ofNat 64 (max 256 (min (2 ^ 20) x.toNat))
  | .bpctl => BitVec.ofNat 64 (x.toNat % 2 ^ 16)
  | .wpctl => wpctlOf x
  | .asid | .cause | .faddr | .fmask => old
  | _ => x

/-- R39, R268, R269, R271, R273, R444. System instructions at supervisor level. That TLBINV waits while any load of the context is in
flight, and that PARK records cause code 0, are the model's readings (log entries 92, 86). -/
def systemInstructionsActAtSupervisorLevel : Prop :=
  ∀ (s : State) (d a b : BitVec 6) (r r' : SysReg), s.cg.ctlSup = true →
    let g := s.cg
    let on := g.at (g.cpc + 4#64)
    (s.Quiet [d.toNat] → Writes (exec (.sysrd d r) s) s d (sysValue s r)) ∧
    (s.Quiet [a.toNat] →
      (∃ t, exec (.syswr a r) s = .next t ∧ SameMemory s t ∧ (∀ h, h ≠ s.cur.g → t.grp h = s.grp h) ∧
        (∀ n, n ≠ s.casid → t.ctx n = s.ctx n) ∧ (∀ n, t.cg.rs n = g.rs n) ∧ t.cg.cpc = g.cpc + 4#64 ∧
        sysValue t r = sysStored (sysValue s r) (g.rs a.toNat) r ∧ (r' ≠ r → sysValue t r' = sysValue s r')) ∧
      (∃ t, exec (.sample a) s = .next t ∧ CoresAndGroup s t on ∧
        (t.core g.core).sampling.get? s.casid = some
          { en := (g.rs a.toNat).getLsbD 0, period := max 6 (min 20 ((g.rs a.toNat).toNat / 2 % 32)), count := 0 })) ∧
    (s.Quiet [a.toNat, b.toNat] → canonical (g.rs a.toNat) = true →
      (g.rs b.toNat = 0#64 → Becomes (exec (.tlbinvRange a b) s) s on) ∧
      (g.rs b.toNat ≠ 0#64 → s.inFlight s.casid = true → exec (.tlbinvRange a b) s = .next s) ∧
      (g.rs b.toNat ≠ 0#64 → s.inFlight s.casid = false →
        let t0 := s.shootdown s.casid (some ((g.rs a.toNat).toNat, (g.rs b.toNat).toNat))
        Becomes (exec (.tlbinvRange a b) s) t0 (t0.cg.at (t0.cg.cpc + 4#64)) ∧
        ∀ c e, e ∈ (t0.core c).tlb → e.2.asid = s.casid → e.2.gen = s.cctx.gen →
          overlap (e.2.vpn * 2 ^ pageBits e.2.level) (2 ^ pageBits e.2.level) (g.rs a.toNat).toNat (g.rs b.toNat).toNat = false)) ∧
    (s.inFlight s.casid = true → exec .tlbinvAsid s = .next s) ∧
    (s.inFlight s.casid = false → let t0 := s.shootdown s.casid none
     Becomes (exec .tlbinvAsid s) t0 (t0.cg.at (t0.cg.cpc + 4#64)) ∧
     (∀ c e, e ∈ (t0.core c).tlb → ¬ (e.2.asid = s.casid ∧ e.2.gen = s.cctx.gen)) ∧
     ∀ h, (s.groups.get? h).isSome = true → s.asidOf h = s.casid → (t0.grp h).xb = []) ∧
    (s.cctx.attached = false → Becomes (exec .park s) s on) ∧
    (s.cctx.attached = true → g.sldsRead → ∃ t, exec .park s = .next t ∧ t.cg = { g.landSlds.trapRegs
      { code := 0, pc := g.cpc, resume := g.cpc + 4#64, reason := 3 } true with
        parked := t.cg.parked, stopRec := t.cg.stopRec, wait := t.cg.wait } ∧
      t.cg.parked = some { reason := 3, ctl := true, trap := { code := 0, pc := g.cpc, resume := g.cpc + 4#64, reason := 3 } })

/-- R272, R453. CKPT is denied at once without checkpoint storage, and otherwise asks for a checkpoint and waits; TRIG sends
a Cairn message where the queue of its domain has room. -/
def checkpointAndTriggerRequests : Prop :=
  ∀ (s : State) (d : BitVec 6) (tag : BitVec 8), s.Quiet [d.toNat] →
    (s.cctx.ckptAddr = 0 → Writes (exec (.ckpt d) s) s d 2#64) ∧
    (s.cctx.ckptAddr ≠ 0 → s.cg.wait = none → ∃ t, exec (.ckpt d) s = .next t ∧
      t.cg = s.cg.waits { kind := .ckpt, n := d.toNat } ∧ (t.ctx s.casid).ckptBusy = true ∧ SameMemory s t ∧
      ∀ h, h ≠ s.cur.g → t.grp h = s.grp h) ∧
    (let dom := coreDom s.cg.core
     (s.dom dom).seqr.recording = false → (s.dom dom).cairnOut.length < 16 →
      ∃ t, exec (.trig tag) s = .next t ∧ t.cg = s.cg.at (s.cg.cpc + 4#64) ∧ SameMemory s t ∧
        (t.dom dom).cairnOut = (s.dom dom).cairnOut ++ [{ tag := tag.toNat, origin := dom, stamp := s.stamp dom }])

/-- R39, R268, R269, R271 to R273, R444, R453. System instructions at supervisor level, CKPT and TRIG (the model's readings in them: log
entries 86, 92). -/
def Obligations.SystemInstructionsAndRequestsTakeEffect : Prop :=
  systemInstructionsActAtSupervisorLevel ∧ checkpointAndTriggerRequests

/-! ## Traps -/

/-- The CAUSE word of a trap (R42): code, flags, operand, stream and detail. -/
def causeOf (p : PendTrap) (ctl : Bool) : Nat :=
  p.code % 2 ^ 8 + p.flags.toNat * 2 ^ 8 + p.opnd % 2 ^ 11 * 2 ^ 16 + (if ctl then 2 ^ 31 else 0) + p.detail % 2 ^ 32 * 2 ^ 32

/-- R261, R264. A control trap that is neither held, nested nor for firmware enters the handler: outstanding SLDs complete,
s56 to s63 and the resume point are saved, the trap registers are written, a region ends, and the stream continues at
`sys.CTRAPVEC` at supervisor level. -/
def Obligations.ControlTrapEntersItsHandler : Prop :=
  ∀ (s : State) (p : PendTrap), s.cg.ctlSup = false → s.cg.laneSup = false → p.code ≠ 19 → s.debugTakes s.cur.g p = false →
    s.stopsHere s.cur.g = false → s.cg.parked = none → s.cg.sldsRead →
    s.vecOk s.cg.core s.casid s.cctx.ctrapvec .ctlFetch = true →
    let g := s.cg.landSlds
    GroupIs s (s.raiseCtl p) { g with
      cshadow := some { s := g.s.keep fun k _ => 56 ≤ k, resPc := p.resume, viaBreakReg := p.viaBreakReg }
      cause := BitVec.ofNat 64 (causeOf p true), faddr := p.faddr, fmask := BitVec.ofNat 64 p.fmask.toNat, epc := p.pc
      region := false, regionCnt := 0, cpend := none, wait := none, noBreak := false, ctlHeld := none
      ctlSup := true, cpc := s.cctx.ctrapvec }

/-- R267. TRAP and BKPT raise their cause with the code as DETAIL; the next instruction is the resume point. -/
def trapAndBkptEnterTheControlHandler : Prop :=
  ∀ (s : State) (code : BitVec 8), s.cg.ctlSup = false → s.cg.laneSup = false → s.cctx.attached = false → s.cg.slds = [] →
    s.stopsHere s.cur.g = false → s.cg.parked = none →
    s.vecOk s.cg.core s.casid s.cctx.ctrapvec .ctlFetch = true →
    ∀ i ∈ [(Instr.trap code, 24), (Instr.bkpt code, 22)], ∃ t, exec i.1 s = .next t ∧
      GroupIs s t { s.cg with
        slds := [], cshadow := some { s := s.cg.s.keep fun k _ => 56 ≤ k, resPc := s.cg.cpc + 4#64, viaBreakReg := false }
        cause := BitVec.ofNat 64 (i.2 + 2 ^ 31 + code.toNat * 2 ^ 32), faddr := 0#64, fmask := 0#64, epc := s.cg.cpc
        region := false, regionCnt := 0, cpend := none, wait := none, noBreak := false, ctlHeld := none
        ctlSup := true, cpc := s.cctx.ctrapvec }

/-- R268. TRET of the control stream restores s56 to s63, continues at the resume point and returns to user level. -/
def tretRestoresTheControlStream : Prop :=
  ∀ (s : State) (h : CtlShadow), s.cg.ctlSup = true → s.cg.slds = [] → s.cg.cshadow = some h → s.cg.lpend = none →
    s.heldChains s.cur.g = [] →
    ∃ t, exec .tret s = .next t ∧
      GroupIs s t { s.cg with s := t.cg.s, cpc := h.resPc, cshadow := none, ctlSup := false, noBreak := h.viaBreakReg } ∧
      ∀ r, t.cg.rs r = if 56 ≤ r ∧ r < 64 then h.s.getD r 0#64 else s.cg.rs r

/-- R267, R268. TRAP and BKPT enter the control handler, and TRET leaves it. -/
def Obligations.ControlTrapsAndReturnsMoveTheStream : Prop :=
  trapAndBkptEnterTheControlHandler ∧ tretRestoresTheControlStream

/-- R40, R262. Once its outstanding SLDs have read, a control trap with no handler, or in the control handler, ends the grid: its blocks
are gone, it completes TRAPPED with the cause, a nested one with both causes. -/
def Obligations.UnhandledTrapsEndTheGrid : Prop :=
  ∀ (s : State) (p : PendTrap), p.code ≠ 19 → p.code < 256 → s.debugTakes s.cur.g p = false → s.stopsHere s.cur.g = false →
    s.cg.parked = none → s.cg.sldsRead →
    let g := s.cg.grid
    (s.cg.ctlSup = false → s.cg.laneSup = false → s.vecOk s.cg.core s.casid s.cctx.ctrapvec .ctlFetch = false →
      let t := s.raiseCtl p
      (t.gridOf g).status = 3 ∧ (t.gridOf g).cause = p.code ∧ (t.gridOf g).cause2 = 0 ∧ ∀ b ∈ t.blocks, b.2.grid ≠ g) ∧
    (s.cg.ctlSup = true →
      let t := s.raiseCtl p
      (t.gridOf g).status = 3 ∧ (t.gridOf g).cause = s.cg.cause.toNat % 2 ^ 8 ∧ (t.gridOf g).cause2 = p.code ∧
      ∀ b ∈ t.blocks, b.2.grid ≠ g)

/-- R68, R102, R104, R105. Misaligned and non-canonical addresses of the control stream trap at their instruction, whatever
ALIGNX holds. -/
def controlAddressesTrapMisalignedOrNonCanonical : Prop :=
  ∀ (s : State) (d a : BitVec 6) (imm : BitVec 14), s.Quiet [d.toNat, a.toNat] →
    let x := s.cg.rs a.toNat
    let va := x + BitVec.ofInt 64 imm.toInt
    let entry := x + BitVec.ofInt 64 (4 * imm.toInt)
    let trap (code : Nat) (f : W64) : State := s.raiseCtl { code := code, faddr := f, pc := s.cg.cpc, resume := s.cg.cpc }
    (x.toNat % 4 ≠ 0 → exec (.ret a) s = .next (trap 11 x)) ∧
    (entry.toNat % 4 ≠ 0 → exec (.run a imm) s = .next (trap 11 entry)) ∧
    (∀ n, n = 4 ∨ n = 8 →
      ((canonical va = false → exec (sldOf n d a imm) s = .next (trap 10 va) ∧ exec (sstOf n d a imm) s = .next (trap 10 va)) ∧
      (canonical va = true → va.toNat % n ≠ 0 →
        exec (sldOf n d a imm) s = .next (trap 11 va) ∧ exec (sstOf n d a imm) s = .next (trap 11 va)))) ∧
    (canonical x = true → x.toNat % 64 ≠ 0 → exec (.launch d a) s = .next (trap 11 x))

/-- R38, R68, R70, R97, R102, R104, R105. A privileged control instruction at user level, and an address that is misaligned or
not canonical, trap at the instruction. -/
def Obligations.ControlInstructionsTrapInPlace : Prop :=
  privilegedControlInstructionsTrapAtUserLevel ∧ controlAddressesTrapMisalignedOrNonCanonical

/-! ## The lane stream: integers, predicates and flow -/

/-- Results of operand b, of a and b, and of a, b and c, written as R44 states. -/
def writesOne (o : Out) (s : State) (e : LaneEnc) (len : Nat) (f : W32 → W32) : Prop :=
  WritesV o s e len fun l => f (s.opB e .f32 l)
def writesTwo (o : Out) (s : State) (e : LaneEnc) (f : W32 → W32 → W32) : Prop :=
  WritesV o s e e.bytes fun l => f (s.opA e .f32 l) (s.opB e .f32 l)
def writesThree (o : Out) (s : State) (e : LaneEnc) (f : W32 → W32 → W32 → W32) : Prop :=
  WritesV o s e e.bytes fun l => f (s.opA e .f32 l) (s.opB e .f32 l) (s.opC e .f32 l)

/-- `Sat` of 01_machine_state.md R43. -/
def saturated (lo hi x : Int) : Int := if x < lo then lo else if hi < x then hi else x

/-- R122, R123. The integer arithmetic of the lanes. -/
def Obligations.LaneArithmeticWritesItsResult : Prop :=
  ∀ (s : State) (e : LaneEnc),
    (s.LaneReady e (fldsTwo e) →
      writesTwo (exec (.iadd e .wrap) s) s e (fun x y => BitVec.ofNat 32 (x.toNat + y.toNat)) ∧
      writesTwo (exec (.isub e .wrap) s) s e (fun x y => BitVec.ofInt 32 (x.toInt - y.toInt)) ∧
      writesTwo (exec (.iadd e .sat) s) s e (fun x y => BitVec.ofInt 32 (saturated (-2 ^ 31) (2 ^ 31 - 1) (x.toInt + y.toInt))) ∧
      writesTwo (exec (.isub e .sat) s) s e (fun x y => BitVec.ofInt 32 (saturated (-2 ^ 31) (2 ^ 31 - 1) (x.toInt - y.toInt))) ∧
      writesTwo (exec (.iadd e .usat) s) s e (fun x y => BitVec.ofNat 32 (min (x.toNat + y.toNat) (2 ^ 32 - 1))) ∧
      writesTwo (exec (.isub e .usat) s) s e (fun x y => BitVec.ofNat 32 (x.toNat - y.toNat)) ∧
      writesTwo (exec (.imul e) s) s e (fun x y => BitVec.ofNat 32 (x.toNat * y.toNat)) ∧
      writesTwo (exec (.imulh e true) s) s e (fun x y => BitVec.ofNat 32 (x.toNat * y.toNat / 2 ^ 32)) ∧
      writesTwo (exec (.imulh e false) s) s e (fun x y => BitVec.ofInt 32 (x.toInt * y.toInt / 2 ^ 32)) ∧
      writesTwo (exec (.idiv e true) s) s e (fun x y => if y = 0#32 then 0xFFFFFFFF#32 else BitVec.ofNat 32 (x.toNat / y.toNat)) ∧
      writesTwo (exec (.idiv e false) s) s e (fun x y => if y = 0#32 then 0xFFFFFFFF#32 else BitVec.ofInt 32 (x.toInt.tdiv y.toInt)) ∧
      writesTwo (exec (.irem e true) s) s e (fun x y => if y = 0#32 then x else BitVec.ofNat 32 (x.toNat % y.toNat)) ∧
      writesTwo (exec (.irem e false) s) s e (fun x y => if y = 0#32 then x else BitVec.ofInt 32 (x.toInt.tmod y.toInt)) ∧
      writesTwo (exec (.imin e true) s) s e (fun x y => if x.toNat < y.toNat then x else y) ∧
      writesTwo (exec (.imin e false) s) s e (fun x y => if x.toInt < y.toInt then x else y) ∧
      writesTwo (exec (.imax e true) s) s e (fun x y => if x.toNat < y.toNat then y else x) ∧
      writesTwo (exec (.imax e false) s) s e (fun x y => if x.toInt < y.toInt then y else x)) ∧
    (s.LaneReady e (fldsThree e) →
      writesThree (exec (.imad e) s) s e fun x y z => BitVec.ofNat 32 (x.toNat * y.toNat + z.toNat)) ∧
    (s.LaneReady e (fldsOne e) →
      writesOne (exec (.iabs e false) s) s e e.bytes (fun y => BitVec.ofInt 32 y.toInt.natAbs) ∧
      writesOne (exec (.iabs e true) s) s e e.bytes (fun y => BitVec.ofInt 32 (min y.toInt.natAbs (2 ^ 31 - 1)))) ∧
    (s.LaneReady e [Fld.dst e.dst 2 2, Fld.vsrc e.a 2 2 e.ha, Fld.b e, Fld.noHi e.hc] →
      WritesV64 (exec (.iaddw e true) s) s e e.bytes (fun l =>
        BitVec.ofNat 64 ((s.cg.rv64 e.a.toNat l).toNat + (s.opB e .f32 l).toNat)) ∧
      WritesV64 (exec (.iaddw e false) s) s e e.bytes fun l =>
        BitVec.ofInt 64 ((s.cg.rv64 e.a.toNat l).toInt + (s.opB e .f32 l).toInt))

/-- A word described by its bits. -/
def bitsAre (x : W32) (f : Nat → Bool) : Prop := ∀ k, k < 32 → x.getLsbD k = f k
/-- Each executed lane of V[d] receives a word that a predicate of its operands describes. -/
def writesSuch (o : Out) (s : State) (e : LaneEnc) (len : Nat) (p : Nat → W32 → Prop) : Prop :=
  ∃ f : Nat → W32, WritesV o s e len f ∧ ∀ l, l < 32 → p l (f l)

/-- R125, R126, R127. The logic, shift, bit-field and byte instructions of the lanes. -/
def Obligations.LaneLogicWritesItsResult : Prop :=
  ∀ (s : State) (e : LaneEnc),
    (s.LaneReady e (fldsTwo e) →
      writesTwo (exec (.and e) s) s e (· &&& ·) ∧
      writesTwo (exec (.or e) s) s e (· ||| ·) ∧
      writesTwo (exec (.xor e) s) s e (· ^^^ ·) ∧
      writesTwo (exec (.shl e false) s) s e (fun x y => BitVec.ofNat 32 (x.toNat * 2 ^ (y.toNat % 32))) ∧
      writesTwo (exec (.shr e false) s) s e (fun x y => BitVec.ofNat 32 (x.toNat / 2 ^ (y.toNat % 32))) ∧
      writesTwo (exec (.sra e false) s) s e (fun x y => BitVec.ofInt 32 (x.toInt / 2 ^ (y.toNat % 32))) ∧
      writesTwo (exec (.shl e true) s) s e (fun x y => if 32 ≤ y.toNat then 0#32 else BitVec.ofNat 32 (x.toNat * 2 ^ y.toNat)) ∧
      writesTwo (exec (.shr e true) s) s e (fun x y => if 32 ≤ y.toNat then 0#32 else BitVec.ofNat 32 (x.toNat / 2 ^ y.toNat)) ∧
      writesTwo (exec (.sra e true) s) s e (fun x y =>
        if 32 ≤ y.toNat then (if x.toInt < 0 then 0xFFFFFFFF#32 else 0#32) else BitVec.ofInt 32 (x.toInt / 2 ^ y.toNat)) ∧
      ∀ uns : Bool, writesSuch (exec (.bfx e uns) s) s e e.bytes fun l r =>
        let x := s.opA e .f32 l
        let y := (s.opB e .f32 l).toNat
        let pos := y % 32
        let w := min (y / 256 % 64) (32 - pos)
        bitsAre r fun k => if k < w then x.getLsbD (pos + k) else !uns && decide (0 < w) && x.getLsbD (pos + w - 1)) ∧
    (s.LaneReady e (fldsOne e) →
      writesSuch (exec (.not e) s) s e e.bytes (fun l r => bitsAre r fun k => !(s.opB e .f32 l).getLsbD k) ∧
      writesSuch (exec (.brev e) s) s e e.bytes (fun l r => bitsAre r fun k => (s.opB e .f32 l).getLsbD (31 - k)) ∧
      writesSuch (exec (.popc e) s) s e e.bytes (fun l r =>
        r.toNat = ((List.range 32).map fun k => ((s.opB e .f32 l).getLsbD k).toNat).sum) ∧
      writesSuch (exec (.clz e) s) s e e.bytes fun l r =>
        (s.opB e .f32 l).toNat < 2 ^ (32 - r.toNat) ∧ r.toNat ≤ 32 ∧
        (r.toNat < 32 → 2 ^ (31 - r.toNat) ≤ (s.opB e .f32 l).toNat)) ∧
    (s.LaneReady e (fldsThree e) →
      writesThree (exec (.fshf e false) s) s e (fun x y z =>
        BitVec.ofNat 32 ((x.toNat * 2 ^ 32 + y.toNat) * 2 ^ (z.toNat % 32) / 2 ^ 32)) ∧
      writesThree (exec (.fshf e true) s) s e (fun x y z =>
        BitVec.ofNat 32 ((x.toNat * 2 ^ 32 + y.toNat) / 2 ^ (z.toNat % 32))) ∧
      writesSuch (exec (.bfi e) s) s e e.bytes (fun l r =>
        let x := s.opA e .f32 l
        let y := s.opB e .f32 l
        let z := (s.opC e .f32 l).toNat
        let pos := z % 32
        let w := min (z / 256 % 64) (32 - pos)
        bitsAre r fun k => if pos ≤ k ∧ k < pos + w then y.getLsbD (k - pos) else x.getLsbD k) ∧
      writesSuch (exec (.perm e) s) s e e.bytes fun l r =>
        let x := s.opA e .f32 l
        let y := s.opB e .f32 l
        let z := (s.opC e .f32 l).toNat
        ∀ k, k < 4 →
          let n := z / 16 ^ k % 16
          let byte := (if n % 8 < 4 then x.toNat / 256 ^ (n % 8) else y.toNat / 256 ^ (n % 8 - 4)) % 256
          r.toNat / 256 ^ k % 256 = if n < 8 then byte else if 128 ≤ byte then 255 else 0)

/-- R79, R130. The moves, and the L32 forms, which are the instructions that they abbreviate. -/
def Obligations.MovesAndShortFormsWriteTheirResult : Prop :=
  (∀ (s : State) (e : LaneEnc), s.LaneReady e (fldsOne e) → writesOne (exec (.mov e) s) s e e.bytes fun y => y) ∧
  (∀ (s : State) (e : LaneEnc) (hi : Bool) (imm : BitVec 16), s.LaneReady e [{ Fld.dst e.dst with reads := [e.dst.toNat] }] →
    writesSuch (exec (.movk e hi imm) s) s e e.bytes fun l r =>
      bitsAre r fun k => if decide (k < 16) = !hi then imm.getLsbD (k % 16) else (s.cg.rv e.dst.toNat l).getLsbD k) ∧
  ∀ (s : State) (run : Bool) (d x : BitVec 11) (u : Bool),
    let e : LaneEnc := { run := run, g := 0#5, gn := false, u := u, dst := d, a := 0#11, b := x, la := 0#4, sbs := 0#3,
                         sbw := 0#3, form := .l64 }
    s.LaneReady e (fldsOne e) →
      writesOne (exec (.movL32 run d x u) s) s e 4 (fun y => y) ∧
      writesOne (exec (.notL32 run d x u) s) s e 4 (fun y => y ^^^ 0xFFFFFFFF#32) ∧
      writesOne (exec (.iabsL32 run d x u) s) s e 4 (fun y => BitVec.ofInt 32 y.toInt.natAbs) ∧
      writesSuch (exec (.brevL32 run d x u) s) s e 4 (fun l r => bitsAre r fun k => (s.opB e .f32 l).getLsbD (31 - k)) ∧
      writesSuch (exec (.popcL32 run d x u) s) s e 4 (fun l r =>
        r.toNat = ((List.range 32).map fun k => ((s.opB e .f32 l).getLsbD k).toNat).sum) ∧
      writesSuch (exec (.clzL32 run d x u) s) s e 4 fun l r =>
        (s.opB e .f32 l).toNat < 2 ^ (32 - r.toNat) ∧ r.toNat ≤ 32 ∧
        (r.toNat < 32 → 2 ^ (31 - r.toNat) ≤ (s.opB e .f32 l).toNat)

/-- A condition of the compare field of R87 on integers. -/
abbrev laneConditionHolds (c : LCond) (uns : Bool) (x y : W32) : Prop :=
  let a : Int := if uns then x.toNat else x.toInt
  let b : Int := if uns then y.toNat else y.toInt
  match c with
  | .eq => a = b
  | .ne => a ≠ b
  | .lt => a < b
  | .le => a ≤ b
  | .gt => b < a
  | .ge => b ≤ a

/-- Each executed lane of a predicate receives a truth that a proposition of its operands describes. -/
def writesTruth (o : Out) (s : State) (e : LaneEnc) (pd : Nat) (p : Nat → Prop) : Prop :=
  ∃ f : Nat → Bool, WritesP o s e e.bytes pd f ∧ ∀ l, l < 32 → (f l = true ↔ p l)

/-- R128, R129, R130. Compares, predicate logic, moves between predicates and registers, and the select. -/
def Obligations.LanePredicateInstructionsWriteTheirTruth : Prop :=
  (∀ (s : State) (e : LaneEnc) (f : CmpField), s.LaneReady e [Fld.pred f.pd.toNat, Fld.a e, Fld.b e, Fld.noHi e.hc] →
    writesTruth (exec (.iset e f) s) s e f.pd.toNat fun l => laneConditionHolds f.cond f.x (s.opA e .f32 l) (s.opB e .f32 l)) ∧
  (∀ (s : State) (e : LaneEnc),
    s.LaneReady e [Fld.pred e.dst.toNat, Fld.pred e.a.toNat, Fld.pred e.b.toNat, Fld.noHi (e.ha || e.hb || e.hc)] →
      let u l := s.cg.rp e.a.toNat l = true
      let v l := s.cg.rp e.b.toNat l = true
      writesTruth (exec (.plop e .and) s) s e e.dst.toNat (fun l => u l ∧ v l) ∧
      writesTruth (exec (.plop e .or) s) s e e.dst.toNat (fun l => u l ∨ v l) ∧
      writesTruth (exec (.plop e .xor) s) s e e.dst.toNat (fun l => ¬ (u l ↔ v l)) ∧
      writesTruth (exec (.plop e .andn) s) s e e.dst.toNat (fun l => u l ∧ ¬ v l)) ∧
  (∀ (s : State) (e : LaneEnc), s.LaneReady e [Fld.pred e.dst.toNat, Fld.noHi e.ha, Fld.b e, Fld.noHi e.hc] →
    writesTruth (exec (.pmov e false) s) s e e.dst.toNat fun l => s.opB e .f32 l ≠ 0#32) ∧
  (∀ (s : State) (e : LaneEnc), s.LaneReady e [Fld.dst e.dst, Fld.pred e.a.toNat, Fld.noHi (e.ha || e.hb || e.hc)] →
    WritesV (exec (.pmov e true) s) s e e.bytes fun l => if s.cg.rp e.a.toNat l then 1#32 else 0#32) ∧
  ∀ (s : State) (e : LaneEnc), s.LaneReady e [Fld.dst e.dst, Fld.a e, Fld.b e, Fld.pred e.c.toNat, Fld.noHi e.hc] →
    WritesV (exec (.sel e) s) s e e.bytes fun l => if s.cg.rp e.c.toNat l then s.opA e .f32 l else s.opB e .f32 l

/-- The lanes that participate with a lane: those of its tile that execute the instruction (R131). -/
def partners (s : State) (e : LaneEnc) (l : Nat) : List Nat :=
  (List.range 32).filter fun k => s.executes e k && k / 2 ^ s.cg.tile == l / 2 ^ s.cg.tile

/-- R131 to R134. The cross-lane instructions give each executed lane a value of its tile's executed lanes. -/
def Obligations.CrossLaneInstructionsStayInTheirTile : Prop :=
  ∀ (s : State) (e : LaneEnc), s.cg.tile ≤ 5 →
    let w := 2 ^ s.cg.tile
    let held l := s.cg.rp e.b.toNat l = true
    (s.LaneReady e [Fld.pred e.dst.toNat, Fld.pred e.b.toNat, Fld.noHi (e.ha || e.hb || e.hc)] true →
      writesTruth (exec (.vote e .all) s) s e e.dst.toNat (fun l => ∀ k ∈ partners s e l, held k) ∧
      writesTruth (exec (.vote e .any) s) s e e.dst.toNat (fun l => ∃ k ∈ partners s e l, held k) ∧
      writesTruth (exec (.vote e .eq) s) s e e.dst.toNat fun l => ∀ j ∈ partners s e l, ∀ k ∈ partners s e l, held j ↔ held k) ∧
    (s.LaneReady e [Fld.dst e.dst, Fld.pred e.b.toNat, Fld.noHi (e.ha || e.hb || e.hc)] true →
      writesSuch (exec (.vote e .ballot) s) s e e.bytes fun l r =>
        bitsAre r fun k => decide (k < w) && (partners s e l).contains (l / w * w + k) && s.cg.rp e.b.toNat (l / w * w + k)) ∧
    (s.LaneReady e (fldsTwo e) true →
      let x l := s.opA e .f32 l
      let y l := (s.opB e .f32 l).toNat
      let base l := l / w * w
      let t l := l % w
      let from' (l k : Nat) : W32 := if k ∈ partners s e l then x k else x l
      WritesV (exec (.shfl e .idx) s) s e e.bytes (fun l => from' l (base l + y l % w)) ∧
      WritesV (exec (.shfl e .up) s) s e e.bytes (fun l => if t l < y l then x l else from' l (l - y l)) ∧
      WritesV (exec (.shfl e .down) s) s e e.bytes (fun l => if w ≤ t l + y l then x l else from' l (l + y l)) ∧
      WritesV (exec (.shfl e .xor) s) s e e.bytes fun l => from' l (base l + (t l ^^^ (y l % w)))) ∧
    (s.LaneReady e [Fld.dst e.dst, Fld.a e, Fld.noHi (e.hb || e.hc)] true →
      let xs l := (partners s e l).map fun k => s.opA e .f32 k
      let least (g : W32 → Int) (l : Nat) (r : W32) : Prop := ∀ x ∈ xs l, g r ≤ g x
      let most (g : W32 → Int) (l : Nat) (r : W32) : Prop := ∀ x ∈ xs l, g x ≤ g r
      let unsigned (x : W32) : Int := x.toNat
      let put (op : IRedOp) (p : Nat → W32 → Prop) : Prop :=
        ∃ f : Nat → W32, WritesV (exec (.iredux e op) s) s e e.bytes f ∧ ∀ l, l < 32 → s.executes e l = true → p l (f l)
      put .add (fun l r => r = BitVec.ofNat 32 ((xs l).map (·.toNat)).sum) ∧
      put .min (fun l r => r ∈ xs l ∧ least BitVec.toInt l r) ∧
      put .max (fun l r => r ∈ xs l ∧ most BitVec.toInt l r) ∧
      put .umin (fun l r => r ∈ xs l ∧ least unsigned l r) ∧
      put .umax (fun l r => r ∈ xs l ∧ most unsigned l r) ∧
      put .and (fun l r => bitsAre r fun k => (xs l).all fun x => x.getLsbD k) ∧
      put .or (fun l r => bitsAre r fun k => (xs l).any fun x => x.getLsbD k) ∧
      put .xor (fun l r => bitsAre r fun k => ((xs l).filter fun x => x.getLsbD k).length % 2 == 1))

/-- R135. TILE sets `%tile`, and the split goes on. -/
def tileSets (s : State) (e : LaneEnc) (len : Nat) (i : Instr) : Prop :=
  ∀ y : W32, s.FlowReady e [Fld.noHi e.ha, Fld.b e, Fld.noHi e.hc] → s.cg.splits.length = 1 →
    1 ≤ y.toNat → y.toNat ≤ 5 → s.csplit.mask ≠ 0#32 →
    (∀ l, l < 32 → s.csplit.mask.getLsbD l = true → s.opB e .f32 l = y) →
    ∃ t, exec i s = .next t ∧ Moved s t len ∧ Counted s t e ∧
      GroupIs s t { s.cg with tile := y.toNat, sb := t.cg.sb, ops := t.cg.ops, nextOp := t.cg.nextOp
                              splits := t.cg.splits, run := t.cg.run }
/-- R139. JOIN: a lone split passes it, and a split among others waits at it. -/
def joinWaits (s : State) (e : LaneEnc) (len : Nat) (i : Instr) : Prop :=
  s.FlowReady e [Fld.noHi (e.ha || e.hb || e.hc)] →
    let x := s.csplit
    (s.cg.splits.length = 1 → Becomes (exec i s) s (s.cg.flowed x.id fun y =>
      { y with pc := y.pc + BitVec.ofNat 64 len, noBreak := false })) ∧
    (1 < s.cg.splits.length → Becomes (exec i s) s (s.cg.flowed x.id fun y =>
      { y with pc := x.pc + BitVec.ofNat 64 len, joinPc := x.pc, wait := .join, noBreak := false }))
/-- R139. LSTOP: the split waits there. -/
def lstopWaits (s : State) (e : LaneEnc) (i : Instr) : Prop :=
  s.FlowReady e [Fld.noHi (e.ha || e.hb || e.hc)] → s.cg.laneSup = false →
    Becomes (exec i s) s (s.cg.flowed s.csplit.id fun y => { y with wait := .stop, noBreak := false })
/-- R140, R141. LEXIT: the lanes are exited, the split goes, and with the last one the entry ends. -/
def lexitEnds (s : State) (e : LaneEnc) (i : Instr) : Prop :=
  s.FlowReady e [Fld.noHi (e.ha || e.hb || e.hc)] → s.cg.laneSup = false →
    let rest := s.cg.splits.filter fun y => y.id != s.csplit.id
    let gone := s.cg.gone ||| s.csplit.mask
    (rest ≠ [] → Becomes (exec i s) s { s.cg with gone := gone, splits := rest, ops := [], run := none }) ∧
    (rest = [] → Becomes (exec i s) s
      { s.cg with gone := gone, ops := [], run := none, laneBusy := false, nextSplit := s.cg.nextSplit + 1
                  splits := [{ id := s.cg.nextSplit, mask := s.cg.present &&& ~~~gone, family := s.cg.nextSplit }] })

/-- R79, R135, R137, R139 to R141. TILE, LBRA, JOIN, LSTOP and LEXIT in both their forms. -/
def Obligations.FlowInstructionsChangeTheSplits : Prop :=
  (∀ (s : State) (e : LaneEnc),
    tileSets s e e.bytes (.tile e) ∧ joinWaits s e e.bytes (.join e) ∧ lstopWaits s e (.lstop e) ∧ lexitEnds s e (.lexit e)) ∧
  (∀ (s : State) (run : Bool) (x : BitVec 11),
    tileSets s (l32Enc run 0#11 x false) 4 (.tileL32 run x) ∧ joinWaits s (l32Enc run 0#11 0#11 false) 4 (.joinL32 run) ∧
    lstopWaits s (l32Enc run 0#11 0#11 false) (.lstopL32 run) ∧ lexitEnds s (l32Enc run 0#11 0#11 false) (.lexitL32 run)) ∧
  ∀ (s : State) (e : LaneEnc) (off : BitVec 22), s.FlowReady e [] →
    let x := s.csplit
    let taken := s.execMask e
    let rest := x.mask &&& ~~~taken
    let goal := x.pc + BitVec.ofInt 64 (4 * off.toInt)
    let k := s.cg.nextSplit
    (rest = 0#32 → Becomes (exec (.lbra e off) s) s (s.cg.flowed x.id fun y => { y with pc := goal, noBreak := false })) ∧
    (rest ≠ 0#32 → taken = 0#32 →
      Becomes (exec (.lbra e off) s) s (s.cg.flowed x.id fun y => { y with pc := x.pc + 8#64, noBreak := false })) ∧
    (rest ≠ 0#32 → taken ≠ 0#32 → s.cg.splits.length < 4 → Becomes (exec (.lbra e off) s) s
      { s.cg with ops := [], run := none, nextSplit := k + 2
                  splits := (s.cg.splits.filter fun y => y.id != x.id) ++
                    [{ id := k, mask := taken, pc := goal, family := k },
                     { id := k + 1, mask := rest, pc := x.pc + 8#64, family := k + 1 }] }) ∧
    (rest ≠ 0#32 → taken ≠ 0#32 → 4 ≤ s.cg.splits.length → s.cg.branches < 4 → Becomes (exec (.lbra e off) s) s
      { s.cg with splits := s.cg.splits.map (fun y => if y.id = s.cur.split then { y with wait := .others } else y), run := none }) ∧
    (rest ≠ 0#32 → taken ≠ 0#32 → 4 ≤ s.cg.branches → ∃ t, exec (.lbra e off) s = .next (t.raiseLane
      { code := 1, detail := 5, fmask := x.mask, pc := x.pc, resume := x.pc, split := x.id }) ∧ GroupIs s t s.cg)

/-! ## The lane stream: floating point, conversions and algebra -/

/-- Element h of an operand of a width, and the format (R146). -/
def elementOf (w : FW) (h : Nat) (x : W32) : Elem :=
  let b := match w with
    | .f32 => x.toNat
    | _ => x.toNat / 2 ^ (16 * h) % 2 ^ 16
  { bits := b, v := (fmtOf w).unpack b (isMarker x) }
/-- The word of the results of the elements, each computed by itself, with the flags of all (R146). -/
def perElement (w : FW) (f : Nat → FpRes) : LaneRes :=
  match w with
  | .f32 => { vals := [BitVec.ofNat 32 (f 0).val], flags := (f 0).flags, counts := (f 0).counts }
  | _ => { vals := [BitVec.ofNat 16 (f 1).val ++ BitVec.ofNat 16 (f 0).val], flags := (f 0).flags ||| (f 1).flags
           counts := (f 0).counts || (f 1).counts }
/-- With no enabled trap, an instruction writes V[d] from each element of operand b. -/
def fpOne (s : State) (e : LaneEnc) (w : FW) (i : Instr) (f : Elem → FpRes) : Prop :=
  let r l := perElement w fun h => f (elementOf w h (s.opB e w l))
  s.FpQuiet e (fun l => [s.opB e w l]) r → WritesFp (exec i s) s e [e.dst.toNat] r
/-- From each pair of elements of operands a and b. -/
def fpTwo (s : State) (e : LaneEnc) (w : FW) (i : Instr) (f : Elem → Elem → FpRes) : Prop :=
  let r l := perElement w fun h => f (elementOf w h (s.opA e w l)) (elementOf w h (s.opB e w l))
  s.FpQuiet e (fun l => [s.opA e w l, s.opB e w l]) r → WritesFp (exec i s) s e [e.dst.toNat] r

/-- The magnitude that a code stands for, the format continued past its largest value, in units of the lowest bit of a
subnormal (R45). -/
def magnitude (f : Format) (c : Nat) : Nat :=
  if c < 2 ^ f.mb then c else (2 ^ f.mb + c % 2 ^ f.mb) * 2 ^ (c / 2 ^ f.mb - 1)
/-- man × 2^exp, a × 2^qmin compared: the first is less. -/
def belowMagnitude (f : Format) (man : Nat) (exp : Int) (a : Nat) : Prop :=
  man * 2 ^ (exp - min exp f.qmin).toNat < a * 2 ^ (f.qmin - min exp f.qmin).toNat
/-- They are equal. -/
def isMagnitude (f : Format) (man : Nat) (exp : Int) (a : Nat) : Prop :=
  man * 2 ^ (exp - min exp f.qmin).toNat = a * 2 ^ (f.qmin - min exp f.qmin).toNat

/-- Rounding man × 2^exp, with man not 0, under a sign and a mode (R46, R56, R57): an exact value stays, any other becomes the
neighbour that the mode chooses, with NX, and UF below the normal values; past the largest value it becomes what R57 says, with OF and
NX. -/
def roundsTo (f : Format) (m : Rnd) (neg : Bool) (man : Nat) (exp : Int) (r : FpRes) : Prop :=
  let top := (2 ^ f.eb - 1) * 2 ^ f.mb - 1
  let away : Bool := (m == .ru && !neg) || (m == .rd && neg)
  let overflowed : FpRes :=
    { val := f.sign neg + (if m == .rn || away then top + 1 else top), flags := fOF ||| fNX }
  let result (c : Nat) : FpRes := if top < c then overflowed else
    { val := f.sign neg + c, flags := fNX ||| (if c < 2 ^ f.mb then fUF else 0#5) }
  (∀ c, isMagnitude f man exp (magnitude f c) → c ≤ top → r = { val := f.sign neg + c }) ∧
  (∀ c, c ≤ top → ¬ belowMagnitude f man exp (magnitude f c) → ¬ isMagnitude f man exp (magnitude f c) →
    belowMagnitude f man exp (magnitude f (c + 1)) →
    let half := magnitude f c + magnitude f (c + 1)
    (m = .rz → r = result c) ∧
    (m = .ru ∨ m = .rd → r = if away then result (c + 1) else result c) ∧
    (m = .rn → (belowMagnitude f (2 * man) exp half → r = result c) ∧
      (isMagnitude f (2 * man) exp half → r = result (if c % 2 = 0 then c else c + 1)) ∧
      (¬ belowMagnitude f (2 * man) exp half → ¬ isMagnitude f (2 * man) exp half → r = result (c + 1)))) ∧
  (¬ belowMagnitude f man exp (magnitude f (top + 1)) → r = overflowed)

/-- An encoding without its sign, and the code of infinity, past which the NaNs lie (R45). -/
def magCode (f : Format) (x : Nat) : Nat := x % 2 ^ (f.eb + f.mb)
def topCode (f : Format) : Nat := (2 ^ f.eb - 1) * 2 ^ f.mb
def minus (f : Format) (x : Nat) : Bool := 2 ^ (f.eb + f.mb) ≤ x
def isNanCode (f : Format) (x : Nat) : Bool := topCode f < magCode f x
def signals (f : Format) (x : Nat) : Bool := isNanCode f x && magCode f x < topCode f + 2 ^ (f.mb - 1)
def isInfCode (f : Format) (x : Nat) : Bool := magCode f x == topCode f
def isZeroCode (f : Format) (x : Nat) : Bool := magCode f x == 0
/-- The value of an encoding that is no NaN, in units of the lowest bit of a subnormal; an infinity lies past every finite value. -/
def valueOf (f : Format) (x : Nat) : Int := if minus f x then -(magnitude f (magCode f x) : Int) else magnitude f (magCode f x)
/-- The canonical NaN, with IV where the operation is invalid or an operand is a signalling NaN; a marker alone is no cause of a trap
(R22, R41, R47). Each operand stands with whether its register held a marker. -/
def nanOf (f : Format) (xs : List (Nat × Bool)) (invalid : Bool) (val : Nat := topCode f + 2 ^ (f.mb - 1)) : FpRes :=
  { val := val, flags := if invalid || xs.any (fun x => signals f x.1) then fIV else 0#5
    counts := invalid || xs.any fun x => signals f x.1 && !x.2 }
/-- An exact sum of t units 2^k, rounded once; a zero sum is − under `.rd`, and where both summands are −0 (R148). -/
def sumTo (f : Format) (m : Rnd) (t k : Int) (bothMinus : Bool) (r : FpRes) : Prop :=
  (t = 0 → r = { val := f.sign (m == .rd || bothMinus) }) ∧ (t ≠ 0 → roundsTo f m (t < 0) t.natAbs k r)

/-- R148. What FADD, FSUB, FMUL and FFMA compute from the encodings of their elements: the exact value rounded once, and the cases of
NaNs, infinities and zeros. -/
def arithmeticIsExact : Prop :=
  ∀ (f : Format) (m : Rnd) (x y z : Nat) (kx ky kz : Bool), f = fp32 ∨ f = fp16 ∨ f = bf16 →
    x < 2 ^ (1 + f.eb + f.mb) → y < 2 ^ (1 + f.eb + f.mb) → z < 2 ^ (1 + f.eb + f.mb) →
    let vx := f.unpack x kx
    let vy := f.unpack y ky
    let vz := f.unpack z kz
    let nan := isNanCode f
    let inf := isInfCode f
    let zero := isZeroCode f
    let neg := minus f x != minus f y
    let clash := (inf x && zero y) || (zero x && inf y)
    (vy.negate = f.unpack (if minus f y then y - 2 ^ (f.eb + f.mb) else y + 2 ^ (f.eb + f.mb)) ky) ∧
    (let r := f.add m vx vy;
      (nan x || nan y → r = nanOf f [(x, kx), (y, ky)] false) ∧
      (inf x → inf y → neg = true → r = nanOf f [] true) ∧
      (inf x → nan y = false → (inf y → neg = false) → r = { val := x }) ∧
      (inf y → nan x = false → (inf x → neg = false) → r = { val := y }) ∧
      (magCode f x < topCode f → magCode f y < topCode f →
        sumTo f m (valueOf f x + valueOf f y) f.qmin (zero x && zero y && minus f x && minus f y) r)) ∧
    (let r := f.mul m vx vy;
      (nan x || nan y → r = nanOf f [(x, kx), (y, ky)] false) ∧
      (clash → r = nanOf f [] true) ∧
      (inf x || inf y → nan x = false → nan y = false → clash = false → r = { val := f.sign neg + topCode f }) ∧
      (magCode f x < topCode f → magCode f y < topCode f →
        (valueOf f x * valueOf f y = 0 → r = { val := f.sign neg }) ∧
        (valueOf f x * valueOf f y ≠ 0 → roundsTo f m neg (valueOf f x * valueOf f y).natAbs (2 * f.qmin) r))) ∧
    (let r := f.fma m vx vy vz;
      (clash → r = nanOf f [] true) ∧
      (clash = false → nan x || nan y || nan z → r = nanOf f [(x, kx), (y, ky), (z, kz)] false) ∧
      (clash = false → nan x = false → nan y = false → inf x || inf y →
        (inf z → minus f z ≠ neg → r = nanOf f [] true) ∧
        (nan z = false → (inf z → minus f z = neg) → r = { val := f.sign neg + topCode f })) ∧
      (magCode f x < topCode f → magCode f y < topCode f →
        (inf z → r = { val := z }) ∧
        (magCode f z < topCode f →
          sumTo f m (valueOf f x * valueOf f y + valueOf f z * 2 ^ (-f.qmin).toNat) (2 * f.qmin)
            ((zero x || zero y) && neg && zero z && minus f z) r)))

/-- One encoding is less than another, −0 less than +0 (R149). -/
def lessCode (f : Format) (x y : Nat) : Bool :=
  valueOf f x < valueOf f y || (isZeroCode f x && isZeroCode f y && minus f x && !minus f y)
/-- R149. FMIN and FMAX return one of their inputs, or the canonical NaN. -/
def extremesAreInputs : Prop :=
  ∀ (f : Format) (big num : Bool) (x y : Nat) (kx ky : Bool), f = fp32 ∨ f = fp16 ∨ f = bf16 →
    x < 2 ^ (1 + f.eb + f.mb) → y < 2 ^ (1 + f.eb + f.mb) →
    let r := f.minMax big num x (f.unpack x kx) y (f.unpack y ky)
    let nan := isNanCode f
    ((nan x && nan y) || (!num && (nan x || nan y)) → r = nanOf f [(x, kx), (y, ky)] false) ∧
    (num → nan x → nan y = false → r = nanOf f [(x, kx)] false y) ∧
    (num → nan y → nan x = false → r = nanOf f [(y, ky)] false x) ∧
    (nan x = false → nan y = false → r = { val := if lessCode f x y == big then y else x })

/-- R146 to R149, R152, R153. The floating-point instructions write, for each element, the result of their operation on
the elements of their operands, unless an enabled trap is raised; what FADD, FSUB, FMUL, FFMA, FMIN and FMAX compute from the bits is
said outright. -/
def Obligations.FloatInstructionsWriteTheirResult : Prop :=
  arithmeticIsExact ∧ extremesAreInputs ∧ ∀ (s : State) (e : LaneEnc) (w : FW),
    let f := fmtOf w
    let fn (g : FV → FpRes) (x : Elem) : FpRes := if w = .f32 then g x.v else packedFn f g x.v
    (s.LaneReady e (fldsTwo e) →
      (∀ m : Rnd, fpTwo s e w (.fadd e w m) (fun x y => f.add m x.v y.v) ∧
        fpTwo s e w (.fsub e w m) (fun x y => f.add m x.v y.v.negate) ∧
        fpTwo s e w (.fmul e w m) (fun x y => f.mul m x.v y.v)) ∧
      (∀ num : Bool, fpTwo s e w (.fmin e w num) (fun x y => f.minMax false num x.bits x.v y.bits y.v) ∧
        fpTwo s e w (.fmax e w num) (fun x y => f.minMax true num x.bits x.v y.bits y.v)) ∧
      (w = .f32 → fpTwo s e w (.fdiv e) (fun x y => f.div x.v y.v))) ∧
    (s.LaneReady e (fldsThree e) → ∀ m : Rnd,
      let r l := perElement w fun h =>
        f.fma m (elementOf w h (s.opA e w l)).v (elementOf w h (s.opB e w l)).v (elementOf w h (s.opC e w l)).v
      s.FpQuiet e (fun l => [s.opA e w l, s.opB e w l, s.opC e w l]) r → WritesFp (exec (.ffma e w m) s) s e [e.dst.toNat] r) ∧
    (s.LaneReady e (fldsOne e) →
      (∀ k : FrndOp, fpOne s e w (.frnd e w k) fun x => f.integral k x.bits x.v) ∧
      fpOne s e w (.fsqrt e w) (fun x => f.sqrt x.v) ∧
      fpOne s e w (.frcp e w) (fn fnRcp) ∧
      fpOne s e w (.frsq e w) (fn fnRsq) ∧
      fpOne s e w (.fex2 e w) (fn fnEx2) ∧
      fpOne s e w (.flg2 e w) (fn fnLg2) ∧
      fpOne s e w (.fsin e w) (fn (fnTrig false)) ∧
      fpOne s e w (.fcos e w) (fn (fnTrig true)) ∧
      fpOne s e w (.ftanh e w) (fn fnTanh))

/-- The class of R151 as a bit number. -/
def classIs (x : W32) (k : Nat) : Prop :=
  let neg := x.getLsbD 31
  let ex := x.toNat / 2 ^ 23 % 256
  let m := x.toNat % 2 ^ 23
  k = if ex = 255 then (if m = 0 then (if neg then 0 else 7) else if m < 2 ^ 22 then 8 else 9)
      else if ex ≠ 0 then (if neg then 1 else 6)
      else if m ≠ 0 then (if neg then 2 else 5) else if neg then 3 else 4

/-- R150. FSET on the encodings of two FP32 operands. -/
def comparesValues : Prop :=
  ∀ (c : CmpField) (x y : Nat) (kx ky : Bool), x < 2 ^ 32 → y < 2 ^ 32 →
    let r := fset fp32 c x (fp32.unpack x kx) y (fp32.unpack y ky)
    let vx := valueOf fp32 x
    let vy := valueOf fp32 y
    let ordered := c.x = false ∧ (c.cond = .lt ∨ c.cond = .le ∨ c.cond = .gt ∨ c.cond = .ge)
    (isNanCode fp32 x || isNanCode fp32 y → r.val = (if c.x = true ∨ c.cond = .ne then 1 else 0) ∧
      r.flags = if signals fp32 x || signals fp32 y || decide ordered then fIV else 0#5) ∧
    (isNanCode fp32 x = false → isNanCode fp32 y = false →
      let holds : Prop := match c.cond with
        | .eq => vx = vy | .ne => vx ≠ vy | .lt => vx < vy | .le => vx ≤ vy | .gt => vy < vx | .ge => vy ≤ vx
      r.flags = 0#5 ∧ r.counts = false ∧ r.val ≤ 1 ∧ (r.val = 1 ↔ holds))

/-- Two elements combined (R154). -/
def combined (f : Format) (op : FRedOp) (x y : Elem) : FpRes :=
  match op with
  | .add => f.add .rn x.v y.v
  | .min => f.minMax false false x.bits x.v y.bits y.v
  | .max => f.minMax true false x.bits x.v y.bits y.v
  | .minnum => f.minMax false true x.bits x.v y.bits y.v
  | .maxnum => f.minMax true true x.bits x.v y.bits y.v
/-- Node i of level n of the tree over leaves by lane, with the flags raised below it: nodes 2i and 2i + 1 of the level below combined,
or the one of them that is not empty (R67). -/
def treeNode (f : Format) (op : FRedOp) (leaf : Nat → Option Elem) : Nat → Nat → Option (Elem × FpRes)
  | 0, i => (leaf i).map fun x => (x, { val := x.bits })
  | n + 1, i =>
    match treeNode f op leaf n (2 * i), treeNode f op leaf n (2 * i + 1) with
    | some x, some y =>
      let r := combined f op x.1 y.1
      some ({ bits := r.val, v := f.unpack r.val },
            { val := r.val, flags := x.2.flags ||| y.2.flags ||| r.flags, counts := x.2.counts || y.2.counts || r.counts })
    | some x, none => some x
    | none, y => y
/-- The root as a result; a NaN that came up alone becomes the canonical one (the model's choice, log entry 13). -/
def rootOf (f : Format) (x : Option (Elem × FpRes)) : FpRes :=
  match x with
  | some (x, r) =>
    if isNanCode f x.bits then
      { val := topCode f + 2 ^ (f.mb - 1), flags := if signals f x.bits then r.flags ||| fIV else r.flags, counts := r.counts || x.v.own }
    else { r with val := x.bits }
  | none => { val := 0 }

/-- R67, R150, R151, R154. FSET writes its predicate, said outright from the bits, FCLASS the class of its operand without a flag or a
trap, and FREDUX the root of the tree over the lanes of the tile that take part; a lone NaN becomes the canonical one (the model's
choice, log entry 13). -/
def Obligations.FloatTestsAndReductionsWriteTheirResult : Prop :=
  comparesValues ∧
  (∀ (s : State) (e : LaneEnc) (f : CmpField),
    s.LaneReady e [Fld.pred f.pd.toNat, Fld.a e, Fld.b e, Fld.noHi e.hc] →
      let r l := perElement .f32 fun _ =>
        let x := elementOf .f32 0 (s.opA e .f32 l)
        let y := elementOf .f32 0 (s.opB e .f32 l)
        fset fp32 f x.bits x.v y.bits y.v
      s.FpQuiet e (fun l => [s.opA e .f32 l, s.opB e .f32 l]) r →
      ∃ t, exec (.fset e f) s = .next t ∧ RaisesAtCompletion s t (s.laneFlags e r) ∧
        LaneNext s t e e.bytes s.cg.rv fun n l =>
          if n = f.pd.toNat ∧ n ≠ 0 ∧ s.executes e l then (r (s.srcLane e l)).vals == [1#32] else s.cg.rp n l) ∧
  (∀ (s : State) (e : LaneEnc), s.LaneReady e (fldsOne e) →
    ∃ (t : State) (f : Nat → W32), exec (.fclass e) s = .next t ∧ RaisesAtCompletion s t 0#5 ∧
      LaneNext s t e e.bytes
        (fun r l => if r = e.dst.toNat ∧ s.executes e l then f (s.srcLane e l) else s.cg.rv r l) s.cg.rp ∧
      ∀ l, l < 32 → ∃ k, classIs (s.opB e .f32 l) k ∧ f l = BitVec.ofNat 32 (2 ^ k)) ∧
  ∀ (s : State) (e : LaneEnc) (w : FW) (op : FRedOp), s.LaneReady e [Fld.dst e.dst, Fld.a e, Fld.noHi (e.hb || e.hc)] true →
    let leaf (h j : Nat) : Option Elem := if s.executes e j then some (elementOf w h (s.opA e w j)) else none
    let r l := perElement w fun h => rootOf (fmtOf w) (treeNode (fmtOf w) op (leaf h) s.cg.tile (l / 2 ^ s.cg.tile))
    s.cg.tile ≤ 5 → s.FpQuiet e (fun l => [s.opA e w l]) r → WritesFp (exec (.fredux e w op) s) s e [e.dst.toNat] r

/-- R46, R56, R57. Rounding in the four modes chooses the neighbour of its mode. -/
def Obligations.RoundingChoosesTheNeighbourOfItsMode : Prop :=
  ∀ (f : Format) (m : Rnd) (neg : Bool) (man : Nat) (exp : Int), f = fp32 ∨ f = fp16 ∨ f = bf16 → man ≠ 0 →
    roundsTo f m neg man exp (f.round (.mode m) false neg man exp)

/-- Word j of the source of a conversion in a lane: its one operand, or a register of its group (R155). -/
def sourceWord (s : State) (e : LaneEnc) (sf : Fmt) (c : CvtShape) (l j : Nat) : W32 :=
  if c.n * c.ws = 32 then s.opA e (fwOf sf) l else s.cg.rv (e.a.toNat + j) l
/-- Element i of the source: width ws at its place in its register, a narrower integer read from the low bits (R155). -/
def sourceElement (s : State) (e : LaneEnc) (sf : Fmt) (kt : Nat) (c : CvtShape) (l i : Nat) : FV :=
  let x := sourceWord s e sf c l (i * c.ws / 32)
  ofFmt sf kt (x.toNat / 2 ^ (i * c.ws % 32) % 2 ^ c.ws) (isMarker x)
/-- The elements of a lane, in order. -/
def sourceElements (s : State) (e : LaneEnc) (sf : Fmt) (kt : Nat) (c : CvtShape) (l : Nat) : List FV :=
  (List.range c.n).map (sourceElement s e sf kt c l)
/-- The words that the marker test looks at (R147). -/
def markWords (s : State) (e : LaneEnc) (sf : Fmt) (c : CvtShape) (l : Nat) : List W32 :=
  if sf.isInt then [] else (List.range (c.n * c.ws / 32)).map (sourceWord s e sf c l)
/-- What a max-magnitude register holds after a conversion (R64, R158). -/
def magAfter (s : State) (e : LaneEnc) (m : ConvMod) (kt : Nat) (c : CvtShape) (n : Nat) : W32 :=
  if m.mg ∧ n = m.mag.toNat then ((s.calcLanes e).flatMap (sourceElements s e m.sfmt kt c)).foldl magMerge (s.cg.rmag n)
  else s.cg.rmag n
/-- A conversion whose results in a lane are known writes them, unless an enabled trap is raised. -/
def converts (s : State) (e : LaneEnc) (i : Instr) (m : ConvMod) (kt : Nat) (c : CvtShape) (regs : List Nat) (r : Nat → LaneRes) : Prop :=
  s.FpQuiet e (markWords s e m.sfmt c) r → WritesFpMag (exec i s) s e regs r (magAfter s e m kt c)
/-- The lanes that compute before a lane in its group of w neighbours. -/
def lanesBefore (s : State) (e : LaneEnc) (w l : Nat) : List Nat := (s.calcLanes e).filter fun k => k / w == l / w && k < l
/-- The results of a lane in a chain over its group of w neighbours (R60). -/
def chained (s : State) (e : LaneEnc) (w n l : Nat) (els : Nat → List FV) (run : List FV → List FpRes) : List FpRes :=
  ((run ((lanesBefore s e w l).flatMap els ++ els l)).drop ((lanesBefore s e w l).length * n)).take n

/-- R60, R64, R155 to R158. The conversions: each element by itself, in chains over the tile with error feedback, or in
blocks under a scale whose byte goes to c; a named max-magnitude register takes in every source element. -/
def conversionsWriteTheirCodes : Prop :=
  ∀ (s : State) (e : LaneEnc) (m : ConvMod) (kt : BitVec 2),
    let one := FV.fin false 0 0
    let regs (c : CvtShape) : List Nat := (List.range (c.n * c.wd / 32)).map (e.dst.toNat + ·)
    let each (c : CvtShape) (i : Instr) (k : Nat) (f : FV → FpRes) : Prop :=
      s.LaneReady e (c.flds e) →
        converts s e i m k c (regs c) fun l => laneCodes c.wd ((sourceElements s e m.sfmt k c l).map f)
    let feed (c : CvtShape) (i : Instr) : Prop :=
      s.LaneReady e (c.flds e) →
        converts s e i m 0 c (regs c) fun l => laneCodes c.wd
          (chained s e (2 ^ s.cg.tile) c.n l (sourceElements s e m.sfmt 0 c) (chain m.dfmt 0 m.sat m.nf 0 one))
    let block (c : CvtShape) (i : Instr) (k : Nat) : Prop :=
      s.LaneReady e (c.fldsScaled e) true →
        converts s e i m 0 c (regs c ++ [e.c.toNat]) fun l =>
          let w := 32 / c.n
          let all := ((s.calcLanes e).filter fun j => j / w == l / w).flatMap (sourceElements s e m.sfmt 0 c)
          let sc := blockScale m.dfmt k all
          laneCodes c.wd (chained s e (min (2 ^ s.cg.tile) w) c.n l (sourceElements s e m.sfmt 0 c) (blockChain m k sc.1 sc.2))
            [BitVec.ofNat 32 sc.1]
    let narrow := cvtShape m.sfmt.width m.dfmt.width
    s.cg.tile ≤ 5 →
    each (cvtShape m.sfmt.width 32) (.cvtfi e m) 0 (fun v =>
      let r := toIntFmt m.dfmt (.mode .rn) v
      { r with val := if (intRange m.dfmt).1 < 0 ∧ 2 ^ (m.dfmt.width - 1) ≤ r.val then 2 ^ 32 - 2 ^ m.dfmt.width + r.val else r.val }) ∧
    each (cvtShape 32 m.dfmt.width) (.cvtif e m) 0 (fun v => (formatOf m.dfmt).convert (.mode .rn) false v) ∧
    (m.sfmt ≠ .f32 → each narrow (.cvtff e m kt) kt.toNat fun v =>
      if v.isNan = true ∧ m.sfmt.narrowFloat = true then { val := (formatOf m.dfmt).qnan }
      else (formatOf m.dfmt).convert (.mode .rn) false v) ∧
    (m.sfmt = .f32 → feed narrow (.cvtff e m kt)) ∧
    (m.sfmt.isInt = true → each narrow (.cvtn e m) 0 fun v => { val := (toIntFmt m.dfmt (.mode .rn) v).val }) ∧
    (m.sfmt.isInt = false → feed narrow (.cvtn e m)) ∧
    block (cvtShape m.sfmt.width 4) (.cvtk4 e m kt) kt.toNat ∧
    block narrow (.cvtw e m) 0

/-- R159. MAGRD reads and MAGCLR clears a max-magnitude register, once no issued instruction that names it is left. -/
def magnitudeRegistersAreReadAndCleared : Prop :=
  ∀ (s : State) (e : LaneEnc) (k : BitVec 2),
    let idle := ∀ o ∈ s.cg.ops, o.done = false → o.mag ≠ some k.toNat
    (s.LaneReady e [Fld.dst e.dst, Fld.noHi (e.ha || e.hb || e.hc)] true →
      (idle → WritesV (exec (.magrd e k) s) s e e.bytes fun _ => s.cg.rmag k.toNat) ∧
      (¬ idle → exec (.magrd e k) s = .next s)) ∧
    (s.LaneReady e [Fld.noHi (e.ha || e.hb || e.hc)] true →
      (idle → ∃ t, exec (.magclr e k) s = .next t ∧ Moved s t e.bytes ∧ Counted s t e ∧
        GroupIs s t { s.cg with sb := t.cg.sb, ops := t.cg.ops, nextOp := t.cg.nextOp, splits := t.cg.splits
                                run := t.cg.run, mag := t.cg.mag } ∧
        ∀ n, t.cg.rmag n = if n = k.toNat ∧ s.execMask e ≠ 0#32 then 0#32 else s.cg.rmag n) ∧
      (¬ idle → exec (.magclr e k) s = .next s))

/-- R60, R64, R155 to R159. The conversions, MAGRD and MAGCLR. -/
def Obligations.ConversionsAndMagnitudeRegistersFollowTheirRules : Prop :=
  conversionsWriteTheirCodes ∧ magnitudeRegistersAreReadAndCleared

/-- The components of a source element of d components in a lane, at half h (R160). -/
def components (s : State) (w : FW) (code : BitVec 11) (hi : Bool) (d l h : Nat) : List Elem :=
  (List.range d).map fun k => elementOf w h (if d = 1 then s.opnd w hi code.toNat l else s.cg.rv (code.toNat + k) l)
/-- The words that a source element reads. -/
def componentWords (s : State) (w : FW) (code : BitVec 11) (hi : Bool) (d l : Nat) : List W32 :=
  (List.range d).map fun k => if d = 1 then s.opnd w hi code.toNat l else s.cg.rv (code.toNat + k) l
/-- Words that each have their own results, with the flags of all. -/
def together (rs : List LaneRes) : LaneRes :=
  { vals := rs.flatMap (·.vals), flags := rs.foldl (fun f r => f ||| r.flags) 0#5, counts := rs.any (·.counts) }

/-- Entry (i, j) of a table: its target, and whether its sign is −; none where the sign is 0 (R213). -/
def termAt (t : AlgTable) (i j : Nat) : Option (Nat × Bool) :=
  let b := (t.getD (8 * i + j) 0#8).toNat
  if b / 8 % 4 = 1 then some (b / 32, false) else if b / 8 % 4 = 2 then some (b / 32, true) else none
/-- The terms of component k, in ascending i and then ascending j (R66). -/
def termsFor (t : AlgTable) (d k : Nat) : List (Nat × Nat × Bool) :=
  (List.range (d * d)).filterMap fun p => (termAt t (p / d) (p % d)).bind fun x => if x.1 = k then some (p / d, p % d, x.2) else none
/-- Each product rounded into the running sum, and the first rounded alone where nothing is there yet (R161). -/
def accumulated (f : Format) (a b : List Elem) : List (Nat × Nat × Bool) → Option (Elem × FpRes) → Option (Elem × FpRes)
  | [], acc => acc
  | (i, j, neg) :: rest, acc =>
    let x := (a.getD i { bits := 0, v := .fin false 0 0 }).v
    let y := (b.getD j { bits := 0, v := .fin false 0 0 }).v
    let x := if neg then x.negate else x
    let before := (acc.map (·.2)).getD { val := 0 }
    let r := match acc with
      | none => f.mul .rn x y
      | some c => f.fma .rn x y c.1.v
    accumulated f a b rest (some ({ bits := r.val, v := f.unpack r.val },
      { val := r.val, flags := before.flags ||| r.flags, counts := before.counts || r.counts }))
/-- Component k of a ⊗ b, or of a ⊗ b + c (R161). -/
def productOf (f : Format) (t : AlgTable) (d : Nat) (a b : List Elem) (c : Option (List Elem)) (k : Nat) : FpRes :=
  rootOf f (accumulated f a b (termsFor t d k) (c.map fun c =>
    let x := c.getD k { bits := 0, v := .fin false 0 0 }
    (x, { val := x.bits })))

/-- R160 to R162. The algebra instructions write the components of the product, the product with c added, the conjugate,
the norm and the inverse under the table that they name, unless an enabled trap is raised. The product and its sum are said term by
term in the order of R161. -/
def Obligations.AlgebraInstructionsFollowTheirTable : Prop :=
  ∀ (s : State) (e : LaneEnc) (w : FW) (tab : BitVec 3),
    let f := fmtOf w
    let t := s.tableOf s.cg tab.toNat
    let d := tabDim t
    let there := Fld.test (s.cblk.nalg ≤ tab.toNat)
    let a := algFld e.a e.ha d
    let b := algFld e.b e.hb d
    let c := algFld e.c e.hc d
    let wa l := componentWords s w e.a e.ha d l
    let wb l := componentWords s w e.b e.hb d l
    let wc l := componentWords s w e.c e.hc d l
    let xa l h := components s w e.a e.ha d l h
    let xb l h := components s w e.b e.hb d l h
    let xc l h := components s w e.c e.hc d l h
    let writes (i : Instr) (n : Nat) (reads : Nat → List W32) (g : Nat → Nat → Nat → FpRes) : Prop :=
      let r l := together ((List.range n).map fun k => perElement w fun h => g l h k)
      s.FpQuiet e reads r → WritesFp (exec i s) s e ((List.range n).map (e.dst.toNat + ·)) r
    (s.LaneReady e [there, Fld.dst e.dst d d, a, b, Fld.noHi e.hc] →
      writes (.amul e w tab) d (fun l => wa l ++ wb l) fun l h k => productOf f t d (xa l h) (xb l h) none k) ∧
    (s.LaneReady e [there, Fld.dst e.dst d d, a, b, c, Fld.noHi false] →
      writes (.amad e w tab) d (fun l => wa l ++ wb l ++ wc l) fun l h k => productOf f t d (xa l h) (xb l h) (some (xc l h)) k) ∧
    (s.LaneReady e [there, Fld.dst e.dst d d, a, Fld.noHi (e.hb || e.hc)] →
      writes (.aconj e w tab) d wa (fun l h k => algConj f t (xa l h) k) ∧
      writes (.ainv e w tab) d wa (fun l h k => algInv f t (xa l h) k)) ∧
    (s.LaneReady e [there, Fld.dst e.dst, a, Fld.noHi (e.hb || e.hc)] →
      writes (.anorm e w tab) 1 wa fun l h _ => algNorm f t (xa l h))

/-! ## The lane stream: memory -/

/-- Bytes of an access (R87). -/
def bytesOf (z : MSize) : Nat :=
  match z with
  | .b8 => 1 | .b16 => 2 | .b32 => 4 | .b64 => 8 | .b128 => 16
/-- No control stream has come nearer to the end of its wait. -/
def SameWaits (s t : State) : Prop := ∀ h, (t.grp h).wait = (s.grp h).wait
/-- The value that a load of an access size leaves in registers (R170). -/
def extended (z : MSize) (sx : Bool) (v : Nat) : Nat :=
  let w := 8 * bytesOf z
  if sx = true ∧ w < 32 ∧ 2 ^ (w - 1) ≤ v then v + 2 ^ 32 - 2 ^ w else v

/-- Data of a store in a lane (R170). -/
def storedData (s : State) (e : LaneEnc) (z : MSize) (l : Nat) : Nat :=
  let word (k : Nat) : Nat := (s.cg.rv (e.b.toNat + k) l).toNat * 2 ^ (32 * k)
  match z with
  | .b64 => word 0 + word 1
  | .b128 => word 0 + word 1 + word 2 + word 3
  | _ => (s.opB e .f32 l).toNat % 2 ^ (8 * bytesOf z)

/-- One lane's access of n bytes at a scratchpad address. -/
def oneAcc (sa pa n l : Nat) : LaneAcc :=
  { lane := l, va := BitVec.ofNat 64 sa, fast := true, ps := [{ pa := pa, off := 0, n := n, coh := 0 }] }

/-- R164, R167, R168, R170, R178, R179. Scratchpad loads and stores. LDS writes each executed lane's words from the bytes
at its address; STS writes each lane's bytes, the highest lane last, and no other byte; LDT and STT move a tile between
32 registers and the bytes of R179. No earlier access of the same lane to overlapping bytes is left to be performed (R173), and
this one is not left for later itself (R282). -/
def Obligations.ScratchpadInstructionsMoveTheirBytes : Prop :=
  (∀ (s : State) (e : LaneEnc) (m : MemMod) (pa : Nat → Nat),
    let n := bytesOf m.size
    let nr := (n + 3) / 4
    (∀ l ∈ s.accessLanes e, s.scratchPaAt (s.scratchAddr e l) n = some (pa l) ∧ s.scratchAddr e l % n = 0) →
    s.cg.heldBack ((s.accessLanes e).map fun l => oneAcc (s.scratchAddr e l) (pa l) n l) = false →
    (s.LaneReady e [Fld.dst e.dst nr nr, Fld.a e, Fld.zero e.b e.hb, Fld.noHi e.hc] →
      (∀ l ∈ s.accessLanes e, s.badIn (pa l) n = false) → (m.ord = .plain → e.u = false → s.cg.late = false) →
      ∃ t, exec (.lds e m) s = .next t ∧ SameMemory s t ∧ t.bad = s.bad ∧ SameWaits s t ∧
        LaneAccess s t e (loadedWord e.dst.toNat nr (fun l => extended m.size m.sx (s.mem.read (pa l) n)) s.cg.rv (s.executes e) (s.srcLane e)) ∧
        (m.ord ≠ .acq → ∀ c, t.core c = { s.core c with sampling := (t.core c).sampling }) ∧
        (m.ord = .acq → ∃ u, SampledOnly s u ∧ Acquired u t s.cg.core m.scope)) ∧
    (s.LaneReady e [Fld.zero e.dst, Fld.a e, if nr = 1 then Fld.b e else Fld.vsrc e.b nr nr e.hb, Fld.noHi e.hc] →
      (m.ord = .rel → s.cg.memDone = false → exec (.sts e m) s = .next s) ∧
      ((m.ord = .rel → s.cg.memDone = true) → (m.ord = .plain → s.cg.late = false) → ∃ t, exec (.sts e m) s = .next t ∧ LaneAccess s t e s.cg.rv ∧
        (∀ c, t.core c = { s.core c with sampling := (t.core c).sampling }) ∧
        (∀ a, (∀ l ∈ s.accessLanes e, a < pa l ∨ pa l + n ≤ a) → t.mem.byte a = s.mem.byte a) ∧
        ∀ l ∈ s.accessLanes e, ∀ k, k < n → (∀ j ∈ s.accessLanes e, l < j → pa l + k < pa j ∨ pa j + n ≤ pa l + k) →
          (t.mem.byte (pa l + k)).toNat = storedData s e m.size l / 256 ^ k % 256))) ∧
  ∀ (s : State) (e : LaneEnc) (m : TileMod) (sa pa : Nat),
    (m.order = .col → m.size = .b8 ∨ m.size = .b16 ∨ m.size = .b32) →
    (∀ l ∈ s.execLanes e, s.scratchAddr e l = sa) → s.scratchPaAt sa 4096 = some pa → sa % 128 = 0 →
    s.cg.heldBack ((s.execLanes e).map (oneAcc sa pa 4096)) = false →
    let place (l k b : Nat) : Nat := pa + (tileBytes m l k).getD b 0
    (s.LaneReady e [Fld.dst e.dst 32 32, Fld.a e, Fld.zero e.b e.hb, Fld.noHi e.hc] true →
      (∀ l ∈ s.execLanes e, ∀ k b, k < 32 → b < 4 → s.badIn (place l k b) 1 = false) →
      ∃ t, exec (.ldt e m) s = .next t ∧ SameMemory s t ∧ t.bad = s.bad ∧ SameWaits s t ∧ SampledOnly s { s with cores := t.cores } ∧
        LaneAccess s t e fun r l => if s.executes e l = true ∧ e.dst.toNat ≤ r ∧ r < e.dst.toNat + 32 then
          BitVec.ofNat 32 (((List.range 4).map fun b =>
            (s.mem.byte (place l (r - e.dst.toNat) b)).toNat * 256 ^ b).sum) else s.cg.rv r l) ∧
    (s.LaneReady e [Fld.zero e.dst, Fld.a e, Fld.vsrc e.b 32 32 e.hb, Fld.noHi e.hc] true → s.sttReads m pa (s.execLanes e) = [] →
      ∃ t, exec (.stt e m) s = .next t ∧ SampledOnly s { s with cores := t.cores } ∧ LaneAccess s t e s.cg.rv ∧
        (∀ l ∈ s.execLanes e, ∀ k b, k < 32 → b < 4 →
          (t.mem.byte (place l k b)).toNat = (s.cg.rv (e.b.toNat + k) l).toNat / 256 ^ b % 256) ∧
        ∀ a, (∀ l ∈ s.execLanes e, ∀ k b, k < 32 → b < 4 → place l k b ≠ a) → t.mem.byte a = s.mem.byte a)

/-- No watchpoint matches an access of the lane stream (R443). -/
abbrev unwatched (s : State) (as : List LaneAcc) (n : Nat) (rd wr : Bool) : Prop :=
  s.cg.laneSup = true ∨ ∀ a ∈ as, watchOf s.cctx a.va n rd wr = none
/-- The v registers after each lane of a list has received its value in some registers from d on. -/
def wordsLoaded (s : State) (e : LaneEnc) (m : MemMod) (vs : List (Nat × Nat)) : Nat → Nat → W32 :=
  loadedWord e.dst.toNat ((bytesOf m.size + 3) / 4) (fun l => extended m.size m.sx ((vs.lookup l).getD 0)) s.cg.rv
    (fun l => s.executes e l && (vs.lookup (s.srcLane e l)).isSome) (s.srcLane e)

/-- R166, R168 to R171, R174, R175. An LDG whose lanes all pass their checks reads each lane's bytes through the core's
caches and writes them; where some of its lanes hit in L1 and some miss, the missing lanes go on as a data split that
waits for what L1 did not serve. A plain one that is left for later (R282) issues without its data. Outside the cached places the bytes are those of memory, which stays as it was. -/
def Obligations.GlobalLoadsWriteTheirLanes : Prop :=
  ∀ (s s1 s2 s3 : State) (e : LaneEnc) (m : MemMod) (as : List LaneAcc) (tag : Option SampleTag) (vs : List (Nat × Nat))
    (rs : List PieceRead),
    let n := bytesOf m.size
    let nr := (n + 3) / 4
    s.LaneReady e [Fld.dst e.dst nr nr, Fld.a e, Fld.zero e.b e.hb, Fld.noHi e.hc] →
    s.accLanes (fun s l => s.globalAcc e m.xb n .load (s.alignAll m.ord) l) (s.accessLanes e) = (s1, as, []) →
    let wide := m.ord == .acq && (m.scope == .wfr || m.scope == .sys)
    s1.cg.heldBack as = false → s1.tagIssue 0x180 (s1.measure wide false as) = (s2, tag) →
    let core := s2.cg.core
    let hit (a : LaneAcc) : Bool := a.fast && a.ps.all fun p => s2.l1Hits core p.pa p.n
    let hits := as.filter hit
    let misses := as.filter fun a => !hit a
    let later := s2.cg.late = true ∧ m.ord = .plain ∧ e.u = false
    let parts := m.ord = .plain ∧ e.u = false ∧ hits ≠ [] ∧ misses ≠ [] ∧ (∀ a ∈ misses, a.fast = true) ∧ s2.cg.splits.length ≤ 3
    SampledOnly s1 s2 ∧
    (later → s2.laneUnheld.badLanes wide as = [] → unwatched s2 as n true false →
      ∃ t, exec (.ldg e m) s = .next t ∧ SameMemory s2 t ∧ Counted s2 t e ∧ Moved s2 t e.bytes ∧
        (∀ r l, l < 32 → t.cg.rv r l = s2.cg.rv r l) ∧ t.cg.late = false ∧
        t.cg.loads = s2.cg.loads ++ [{ id := s2.cg.nextSplit, op := s2.cg.nextOp, split := s.cur.split, mask := s.execMask e
                                       dst := e.dst.toNat, size := m.size, sx := m.sx, addrs := lanePieces as
                                       vas := as.map fun a => (a.lane, a.va), hint := m.hint }]) ∧
    (¬ later → ¬ parts → s2.laneUnheld.badLanes wide as = [] → s2.laneUnheld.loadAccs core m.hint wide as = (s3, vs) →
      unwatched s3 as n true false →
      (∃ t, exec (.ldg e m) s = .next t ∧
        LaneNext (if m.ord = .acq then s3.acquire core m.scope else s3) t e e.bytes (wordsLoaded s3 e m vs) s3.cg.rp) ∧
      SameButWrittenBack s2 s3 (coreDom core) ∧
      ((∀ a ∈ as, ∀ p ∈ a.ps, s2.cached p.pa = false) →
        vs = as.map (fun a => (a.lane, (a.ps.map fun p => s2.mem.read p.pa p.n * 2 ^ (8 * p.off)).sum)) ∧ SameMemory s2 s3)) ∧
    (¬ later → parts →
      let inL1 (x : Nat × Piece) : Bool := s2.l1Hits core x.2.pa x.2.n
      s2.laneUnheld.loadPieces core m.hint false (lanePieces hits ++ (lanePieces misses).filter inL1) = (s3, rs) →
      unwatched s3 as n true false →
      let mm := laneMask (misses.map (·.lane))
      let id := s3.cg.nextSplit
      let moved (y : Split) : Split := { y with pc := y.pc + BitVec.ofNat 64 e.bytes, wait := .ready, noBreak := false }
      SameButWrittenBack s2 s3 (coreDom core) ∧
      ∃ t, exec (.ldg e m) s = .next t ∧ Counted s3 t e ∧ (∀ k ∈ t.cg.badV, k ∈ s3.cg.badV) ∧
        (∀ r l, l < 32 → t.cg.rv r l = wordsLoaded s3 e m (hits.map fun a => (a.lane, laneValue rs a.lane)) r l) ∧
        GroupIs s3 t { s3.cg with v := t.cg.v, badV := t.cg.badV, sb := t.cg.sb, ops := t.cg.ops, nextOp := t.cg.nextOp, run := t.cg.run
                                  nextSplit := id + 1
                                  loads := s3.cg.loads ++ [{ id := id, op := s3.cg.nextOp, split := id, mask := mm
                                                             dst := e.dst.toNat, size := m.size, sx := m.sx
                                                             addrs := (lanePieces misses).filter fun x => !inL1 x
                                                             vas := misses.map fun a => (a.lane, a.va)
                                                             got := misses.map fun a => (a.lane, laneValue rs a.lane)
                                                             hint := m.hint }]
                                  splits := (s3.cg.splits.map fun y => if y.id = s.cur.split then
                                      { moved y with mask := y.mask &&& ~~~mm } else y) ++
                                    [{ moved s3.csplit with id := id, mask := mm, wait := .data }] })

/-- A byte that a store's pieces leave alone: it lies outside them, and outside the 32-byte sectors of those whose domain keeps a
copy of its own of the line that goes home by whole sectors (R309). -/
def leftAlone (s : State) (d : Nat) (as : List LaneAcc) (a : Nat) : Prop :=
  ∀ x ∈ as, ∀ p ∈ x.ps, (a < p.pa ∨ p.pa + p.n ≤ a) ∧
    (homeOf p.pa ≠ d →
      (∃ y ∈ (s.dom d).l2, y.2.line = p.pa / 128 ∧ y.2.coh = 2) ∨ (∃ y ∈ as, ∃ q ∈ y.ps, q.pa / 128 = p.pa / 128 ∧ q.coh = 2) →
      a / 32 < p.pa / 32 ∨ (p.pa + p.n - 1) / 32 < a / 32)

/-- R166, R168 to R170, R176. An STG waits, with `.rel`, for the group's earlier accesses; one whose lanes all pass their
checks writes each lane's bytes, the highest lane last, and no other byte but by the write-back of a dirty copy. A plain one
that is left for later (R282) issues and leaves its pieces to be performed. -/
def Obligations.GlobalStoresWriteTheirBytes : Prop :=
  ∀ (s s1 s2 : State) (e : LaneEnc) (m : MemMod) (as : List LaneAcc) (tag : Option SampleTag),
    let n := bytesOf m.size
    let nr := (n + 3) / 4
    s.LaneReady e [Fld.zero e.dst, Fld.a e, if nr = 1 then Fld.b e else Fld.vsrc e.b nr nr e.hb, Fld.noHi e.hc] →
    (m.ord = .rel → s.cg.memDone = false → exec (.stg e m) s = .next s) ∧
    ((m.ord = .rel → s.cg.memDone = true) →
      s.accLanes (fun s l => s.globalAcc e m.xb n .store (s.alignAll m.ord) l) (s.accessLanes e) = (s1, as, []) →
      s1.cg.heldBack as = false → s1.tagIssue 0x181 (s1.measure false true as) = (s2, tag) →
      let core := s2.cg.core
      let s3 := s2.laneUnheld.storeAccs core as (storedData s e m.size) m.hint
      (s2.cg.late = true → m.ord = .plain → unwatched s2 as n false true →
        ∃ t, exec (.stg e m) s = .next t ∧ SameMemory s2 t ∧ Counted s2 t e ∧ Moved s2 t e.bytes ∧ t.cg.late = false ∧
          t.cg.lates = s2.cg.lates ++ as.flatMap fun a => a.ps.map fun p =>
            { op := s2.cg.nextOp, lane := a.lane, p := p, kind := .store, hint := m.hint
              v := storedData s e m.size a.lane / 2 ^ (8 * p.off) % 2 ^ (8 * p.n) }) ∧
      ((m.ord = .plain → s2.cg.late = false) → unwatched s3 as n false true →
      ∃ t, exec (.stg e m) s = .next t ∧ LaneNext s3 t e e.bytes s3.cg.rv s3.cg.rp ∧
        (∀ a, leftAlone s2 (coreDom core) as a → s2.Undirty (coreDom core) a → t.mem.byte a = s2.mem.byte a) ∧
        (s2.Clean (coreDom core) →
          (∀ a ∈ as, ∀ p ∈ a.ps, s2.sysUp p.pa = true ∧ ownCopy (coreDom core) (p.pa / 128) p.coh = false ∧
            pieces p.pa 16 p.n = [(p.pa, p.n)]) →
          ∀ before x after, as = before ++ x :: after → ∀ p ∈ x.ps, ∀ k, k < p.n →
            (∀ y ∈ after, ∀ q ∈ y.ps, p.pa + k < q.pa ∨ q.pa + q.n ≤ p.pa + k) →
            (∀ q ∈ x.ps, q ≠ p → p.pa + k < q.pa ∨ q.pa + q.n ≤ p.pa + k) →
            (t.mem.byte (p.pa + k)).toNat = storedData s e m.size x.lane / 256 ^ (p.off + k) % 256)))

/-- An instruction of the lane stream has issued that acts on caches alone: no register, predicate or flag has changed, no other
group, and no byte of memory but by a write-back. -/
def cachesIssued (s t : State) (e : LaneEnc) : Prop :=
  CachesOnly s t ∧ SameButWrittenBack s t (coreDom s.cg.core) ∧ Moved s t e.bytes ∧ Counted s t e ∧
  t.cg = { s.cg with sb := t.cg.sb, ops := t.cg.ops, nextOp := t.cg.nextOp, splits := t.cg.splits, run := t.cg.run, wait := t.cg.wait }

/-- R180. PFG completes whatever its lanes' addresses are: it traps nothing, and only brings lines into the caches. -/
def prefetchCompletes : Prop :=
  ∀ (s : State) (e : LaneEnc) (m : MemMod), s.LaneReady e [Fld.zero e.dst, Fld.a e, Fld.zero e.b e.hb, Fld.noHi e.hc] →
    ∃ t, exec (.pfg e m) s = .next t ∧ cachesIssued s t e

/-- R175, R182, R184. FENCE completes once what its order names has completed, and waits before; one that acquires drops lines of
the core's L1. -/
def fencesComplete : Prop :=
  ∀ (s : State) (e : LaneEnc) (sc : Scope),
    s.LaneReady e [Fld.zero e.dst, Fld.zero e.a e.ha, Fld.zero e.b e.hb, Fld.zero e.c e.hc] →
    let done (ord : MOrd) : Prop := (ord = .acq ∨ s.cg.memDone = true) ∧ (ord = .rel ∨ (s.cg.loads = [] ∧ s.cg.lates = []))
    (∀ ord, ¬ done ord → exec (.fence e ord sc) s = .next s) ∧
    (done .rel → WritesNone (exec (.fence e .rel sc) s) s e e.bytes) ∧
    (∀ ord, ord ≠ .rel → done ord → ∃ t, exec (.fence e ord sc) s = .next t ∧
      LaneNext (s.acquire s.cg.core sc) t e e.bytes s.cg.rv s.cg.rp ∧ Acquired s t s.cg.core sc)

/-- R180, R182, R184. PFG and FENCE complete. -/
def Obligations.PrefetchAndFenceComplete : Prop := prefetchCompletes ∧ fencesComplete

/-- A byte of a range lies inside its translation register (R166). -/
abbrev insideXb (x : XbReg) (o : Int) : Prop := 0 ≤ o ∧ o + 1 ≤ x.limit
/-- An end of a range does not trap: inside the register at a place that user accesses reach, else at a canonical address that no
translation puts elsewhere (R166, R181, R299, R300). -/
abbrev endReachable (s : State) (x : XbReg) (o : Int) : Prop :=
  insideXb x o ∧ s.userPlace (x.pbase.toNat + o.toNat) = true ∨
  ¬ insideXb x o ∧ canonical (xbVa x o) = true ∧
    ∀ y, s.lookLeaf s.cg.core s.casid (xbVa x o) = some y → (s.leafPlace (xbVa x o) y.2.1 y.2.2.1).isSome = true

/-- R181, R182. WBR and INVR wait for the group's earlier accesses, and then complete where both ends of every lane's range are
reachable: each writes back the lines of its ranges, and INVR drops the core's copies of them. A range that starts inside
the register is spoken of byte by byte, as far as it stays inside. -/
def Obligations.RangeInstructionsComplete : Prop :=
  ∀ (s : State) (e : LaneEnc) (m : MemMod), s.LaneReady e [Fld.zero e.dst, Fld.a e, Fld.b e, Fld.noHi e.hc] →
    let x := s.cg.rxb m.xb.toNat
    let len l : Nat := (s.opB e .f32 l).toNat
    let lines (p : Nat → BitVec 2 → Prop) : Prop :=
      ∀ l ∈ s.execLanes e, ∀ k, k < len l → insideXb x (s.offsetOf e l) → insideXb x (s.offsetOf e l + k) →
        (k = 0 ∨ x.pbase.toNat % 128 = x.vbase.toNat % 128) → (x.q = true ∨ x.w = true) →
        ∀ pa, pa = x.pbase.toNat + (s.offsetOf e l + k).toNat → s.cached pa = true → p (pa / 128) x.coh
    (s.cg.memDone = false → exec (.wbr e m) s = .next s ∧ exec (.invr e m) s = .next s) ∧
    (s.cg.memDone = true →
      (∀ l ∈ s.execLanes e, len l ≠ 0 → x.v = true ∧ endReachable s x (s.offsetOf e l) ∧
        endReachable s x (s.offsetOf e l + len l - 1)) →
      (∃ t, exec (.wbr e m) s = .next t ∧ cachesIssued s t e ∧
        lines fun line coh => coh = 1#2 → homeOf (128 * line) ≠ coreDom s.cg.core →
          ∀ y, t.l2Line (coreDom s.cg.core) line = some y → y.dirty = 0#128) ∧
      (∃ t, exec (.invr e m) s = .next t ∧ cachesIssued s t e ∧
        lines fun line coh => coh ≠ 2#2 → (t.core s.cg.core).l1Line line = none))

/-- n bytes of memory, the lowest first, as a number; memory after n bytes have been written. -/
def readFrom (mem : Nat → Byte) (pa n : Nat) : Nat := ((List.range n).map fun k => (mem (pa + k)).toNat * 256 ^ k).sum
def writtenTo (mem : Nat → Byte) (pa n v : Nat) : Nat → Byte := fun a =>
  if pa ≤ a ∧ a < pa + n then BitVec.ofNat 8 (v / 256 ^ (a - pa)) else mem a
/-- The lanes' operations one after the other, each on what the ones before it left: memory at the end, and the value that
each lane found (R189, R191). -/
def atomicsInOrder (n : Nat) (new : Nat → Nat → FpRes) : List LaneAcc → (Nat → Byte) → (Nat → Byte) × List (Nat × Nat)
  | [], mem => (mem, [])
  | a :: t, mem =>
    let x := readFrom mem a.piece.pa n
    let r := atomicsInOrder n new t (writtenTo mem a.piece.pa n (new a.lane x).val)
    (r.1, (a.lane, x) :: r.2)

/-- An atomic whose lanes all pass their checks: the operations are done in lane order, or in some order with `.ra`; no
other byte changes but by a write-back; the flags reach `sys.AFLAGS`; a returning form gives each lane what it found, and
its flags to the group at completion (R189 to R193). -/
def atomicRuns (s s1 s2 : State) (e : LaneEnc) (m : MemMod) (i : Instr) (as : List LaneAcc) (ret ra glob : Bool)
    (new : Nat → Nat → FpRes) : Prop :=
  let n := bytesOf m.size
  let core := s2.cg.core
  s2.laneUnheld.badLanes true as = [] → (ret = false → m.ord = .plain → s2.cg.late = false) → (glob = true → unwatched s2 as n ret true) → (∀ a ∈ as, s2.sysUp a.piece.pa = true) →
  (∀ a ∈ as, a.piece.n = n) →
  SampledOnly s1 s2 ∧
  ∃ t order xs flags, exec i s = .next t ∧ order.Perm as ∧ (ra = false → order = as) ∧
    xs.map (·.1) = order.map (·.lane) ∧ flags = xs.foldl (fun f x => f ||| (new x.1 x.2).flags) 0#5 ∧
    CachesOnly s2 { t with ctxs := s2.ctxs, free := s2.free } ∧
    (∀ a, t.ctx a = if a = s.casid then { s2.ctx a with aflags := s2.cctx.aflags ||| flags } else s2.ctx a) ∧
    t.cg = { s2.cg with v := t.cg.v, badV := t.cg.badV, sb := t.cg.sb, ops := t.cg.ops, nextOp := t.cg.nextOp, splits := t.cg.splits
                        run := t.cg.run, wait := t.cg.wait, laneHeld := none, laneRegen := none } ∧
    (∀ k ∈ t.cg.badV, k ∈ s2.cg.badV) ∧
    Moved s t e.bytes ∧ Counted s t e ∧ RaisesAtCompletion s t (if ret = true then flags else 0#5) ∧
    (∀ r l, l < 32 → t.cg.rv r l = if ret = true then
        loadedWord e.dst.toNat ((n + 3) / 4) (fun l => (xs.lookup l).getD 0) s.cg.rv (s.executes e) (s.srcLane e) r l
      else s.cg.rv r l) ∧
    (∀ a, (∀ x ∈ as, a < x.piece.pa ∨ x.piece.pa + n ≤ a) → s2.Undirty (coreDom core) a → t.mem.byte a = s2.mem.byte a) ∧
    (s2.Clean (coreDom core) →
      let r := atomicsInOrder n new order s2.mem.byte
      xs = r.2 ∧ ∀ a, t.mem.byte a = r.1 a)

/-- Operand b of an integer atomic in a lane: the value, and the swap value of `.cas` (R188). -/
def atomicOperands (s : State) (e : LaneEnc) (z : MSize) (op : AOp) (l : Nat) : Nat × Nat :=
  let word (k : Nat) : Nat := (s.cg.rv (e.b.toNat + k) l).toNat
  if z = .b64 then (word 0 + 2 ^ 32 * word 1, if op = .cas then word 2 + 2 ^ 32 * word 3 else 0)
  else if op = .cas then (word 0, word 1) else ((s.opB e .f32 l).toNat, 0)

/-- The new value of an integer atomic of n bytes (R187, R189): from what is there, the value of b and the swap value of `.cas`. -/
def integerAtomic (op : AOp) (n x y swp : Nat) : Nat :=
  let a := BitVec.ofNat (8 * n) x
  let b := BitVec.ofNat (8 * n) y
  (match op with
    | .add => a + b
    | .min => if a.toInt ≤ b.toInt then a else b
    | .max => if a.toInt ≤ b.toInt then b else a
    | .umin => if a.toNat ≤ b.toNat then a else b
    | .umax => if a.toNat ≤ b.toNat then b else a
    | .and => a &&& b
    | .or => a ||| b
    | .xor => a ^^^ b
    | .exch => b
    | .cas => if a = b then BitVec.ofNat (8 * n) swp else a).toNat

/-- R187 to R193. The atomics of the lane stream: the integer operations are said outright, and those on floating-point values are
FADD at `.rn`, FMIN and FMAX. -/
def Obligations.AtomicsActLaneAfterLane : Prop :=
  ∀ (s s1 s2 : State) (e : LaneEnc) (m : MemMod) (as : List LaneAcc) (tag : Option SampleTag),
    (m.size = .b32 ∨ m.size = .b64) → (m.ord = .rel → s.cg.memDone = true) →
    let n := bytesOf m.size
    let nr := n / 4
    let checked (op9 : Nat) (chk : State → Nat → State × (LaneAcc ⊕ LaneFault)) : Prop :=
      s.accLanes chk (s.accessLanes e) = (s1, as, []) ∧ s1.cg.heldBack as = false ∧
        s1.tagIssue op9 (s1.measure true true as) = (s2, tag)
    let data (k : Nat) : Fld := if k = 1 then Fld.b e else Fld.vsrc e.b k k e.hb
    let dst : Fld := Fld.dst e.dst nr nr
    let no : Fld := Fld.zero e.dst
    (∀ op : AOp,
      let k := if op = .cas then 2 * nr else nr
      let pcie : Bool := op == .add || op == .exch || op == .cas
      let new (l x : Nat) : FpRes :=
        let y := atomicOperands s e m.size op l
        { val := integerAtomic op n x y.1 y.2 }
      (s.LaneReady e [dst, Fld.a e, data k, Fld.noHi e.hc] →
        (checked 0x18A (fun s l => s.atomAcc e m.xb n true pcie l) → atomicRuns s s1 s2 e m (.atom e m op) as true false true new) ∧
        (checked 0x18E (fun s l => (s, s.scratchAcc e n l)) → atomicRuns s s1 s2 e m (.atoms e m op) as true false false new)) ∧
      (s.LaneReady e [no, Fld.a e, data k, Fld.noHi e.hc] →
        checked 0x18B (fun s l => s.atomAcc e m.xb n false pcie l) → atomicRuns s s1 s2 e m (.red e m op) as false false true new)) ∧
    ∀ (op : FRedOp) (ra : Bool), m.size = .b32 →
      let new (l x : Nat) : FpRes := combined fp32 op (elementOf .f32 0 (BitVec.ofNat 32 x)) (elementOf .f32 0 (s.opB e .f32 l))
      (s.LaneReady e [dst, Fld.a e, Fld.b e, Fld.noHi e.hc] →
        checked 0x18C (fun s l => s.atomAcc e m.xb 4 true false l) → atomicRuns s s1 s2 e m (.atomf e m op ra) as true ra true new) ∧
      (s.LaneReady e [no, Fld.a e, Fld.b e, Fld.noHi e.hc] →
        checked 0x18D (fun s l => s.atomAcc e m.xb 4 false false l) → atomicRuns s s1 s2 e m (.redf e m op ra) as false ra true new)

/-! ## The algebra array -/

/-- A core after one of its tiles has become another, and nothing else of it has changed. -/
def tileIs (s t : State) (core k : Nat) (f : Nat → Nat → W32) (header : W32) : Prop :=
  (∀ c, t.core c = if c = core then { s.core c with tiles := (t.core c).tiles } else s.core c) ∧
  (∀ j, j ≠ k → (t.core core).tile j = (s.core core).tile j) ∧ ((t.core core).tile k).header = header ∧
  ∀ m w, m < 32 → w < 64 → ((t.core core).tile k).word m w = f m w

/-- R222 to R226, R229 to R232. MMA joins the array queue with what it captures at issue, or waits for room; ACCZ, ACCWR and
ACCRD write and read the rows of their executed lanes, the writing ones once no MMA into the tile is unfinished. -/
def Obligations.ArrayInstructionsActOnTheirTile : Prop :=
  ∀ (s : State) (e : LaneEnc),
    let g := s.cg
    let core := s.core g.core
    let issuedIs (t : State) : Group := { g with sb := t.cg.sb, ops := t.cg.ops, nextOp := t.cg.nextOp, splits := t.cg.splits
                                                 run := t.cg.run }
    (∀ m : MmaMod, s.LaneReady e (s.mmaFlds e m) true →
      let table := s.tableOf g m.tab.toNat
      (tabDim table = 1 ∨ mmaAlgebra m.fmt = true) →
      (s.execMask e = 0#32 → WritesNone (exec (.mma e m) s) s e e.bytes) ∧
      (s.execMask e ≠ 0#32 → g.rcnt 2 < 255 → core.arrWait = [] → core.arrayQ.length < 8 → ∃ t, exec (.mma e m) s = .next t ∧
        t = { s with groups := t.groups, cores := t.cores, doms := t.doms, cntOps := t.cntOps, nextId := t.nextId } ∧
        (∀ h, h ≠ s.cur.g → t.grp h = s.grp h) ∧ (∀ d, t.dom d = { s.dom d with seqIn := (t.dom d).seqIn }) ∧
        Moved s t e.bytes ∧ Counted s t e ∧
        t.cg = { issuedIs t with cnt := t.cg.cnt } ∧ (∀ k, t.cg.rcnt k = if k = 2 then g.rcnt 2 + 1 else g.rcnt k) ∧
        let byte (r l : Nat) : Nat := if m.fmt.scaled then (g.rv r l).toNat / 2 ^ (8 * m.sel.toNat) else 0
        ∀ c, t.core c = if c = g.core then { core with arrayQ := core.arrayQ ++
            [{ id := s.nextId, g := s.cur.g, op := some g.nextOp, chain := none, fmt := m.fmt, na := m.na, nb := m.nb, zc := m.zc
               tile := g.accs.getD m.handle.toNat 64, sa := (g.rs m.sa.toNat).toNat, sb := (g.rs m.sb.toNat).toNat
               table := table, rows := s.execMask e, ascale := (List.range 32).map (byte e.a.toNat)
               bscale := (List.range 32).map (byte e.b.toNat) ++ (List.range 32).map (byte (e.b.toNat + 1)) }] } else s.core c) ∧
      (s.execMask e ≠ 0#32 → g.rcnt 2 < 255 → core.arrWait = [] → 8 ≤ core.arrayQ.length → ∃ t, exec (.mma e m) s = .next t ∧
        CoresAndGroup s t { g with
          splits := g.splits.map (fun y => if y.id = s.cur.split then { y with wait := .arrayRoom } else y), run := none } ∧
        ∀ c, t.core c = if c = g.core then { core with arrWait := [.lane s.cur.g s.cur.split] } else s.core c)) ∧
    ∀ h : BitVec 2,
      let k := g.accs.getD h.toNat 64
      let old := core.tile k
      let idle := ∀ x ∈ core.arrayQ, x.tile ≠ k
      let there := Fld.test (g.accs.length ≤ h.toNat)
      let x l := (s.opA e .f32 l).toNat
      let writes (i : Instr) (f : Nat → Nat → W32) : Prop :=
        (¬ idle → exec i s = .next s) ∧
        (idle → ∃ t, exec i s = .next t ∧ CoresAndGroup s t (issuedIs t) ∧ Moved s t e.bytes ∧ Counted s t e ∧
          tileIs s t g.core k f old.header)
      (s.LaneReady e [there, Fld.noHi (e.ha || e.hb || e.hc)] →
        writes (.accz e h) fun m w => if s.executes e m then 0#32 else old.word m w) ∧
      (s.LaneReady e [there, Fld.a e, Fld.b e, Fld.noHi e.hc] → (∀ l ∈ s.execLanes e, x (s.srcLane e l) < 64) →
        writes (.accwr e h) fun m w => if s.executes e m ∧ w = x (s.srcLane e m) then s.opB e .f32 (s.srcLane e m) else old.word m w) ∧
      ∀ (n : BitVec 6) (mg : Bool) (mag : BitVec 2) (df : Fmt), e.u = false →
        s.LaneReady e [Fld.dst e.dst (n.toNat + 1), Fld.a e, Fld.noHi (e.hb || e.hc), there] true →
        let int := old.header.getLsbD 16
        let cols := (n.toNat + 1) * (32 / df.width)
        ∀ first, (∀ l ∈ s.execLanes e, x l = first) → first + cols ≤ 64 →
          (∀ l ∈ s.execLanes e, ∀ j, j < cols → 64 * l + (first + j) ∉ old.bad) →
          (if int then df = .f32 ∨ df = .f16 ∨ df = .bf16 ∨ df.isInt = true else df.isInt = false ∧ df ≠ .k4) →
          let words (l : Nat) : List W32 := (List.range cols).map fun j => old.word l (first + j)
          let r l := laneCodes df.width ((words l).map (accrdWord int df))
          s.FpQuiet e (fun _ => []) r →
          WritesFpMag (exec (.accrd e h n mg mag df) s) s e ((List.range (n.toNat + 1)).map (e.dst.toNat + ·)) r fun j =>
            if mg ∧ j = mag.toNat then ((s.execLanes e).flatMap words).foldl (fun r y => magMerge r (tileValue int y)) (g.rmag j)
            else g.rmag j

/-- An element of an operand slot in an integer format, from its bit number (R48, R223). -/
def slotInt (fmt : MFmt) (o : OpSlot) (bit : Nat) : Int :=
  let w := match fmt with
    | .i16 => 16 | .i4 => 4 | .ui4 => 4 | _ => 8
  let byte := (o.bytes.getD (bit / 8) 0#8).toNat + 256 * (o.bytes.getD (bit / 8 + 1) 0#8).toNat
  let x : Nat := byte / 2 ^ (bit % 8) % 2 ^ w
  if fmt = .ui8 ∨ fmt = .ui4 ∨ x < 2 ^ (w - 1) then (x : Int) else (x : Int) - (2 ^ w : Nat)
/-- R224. In the integer formats a chunk adds the exact sum of its terms, modulo 2^32. -/
def integerChunksAddTheirTerms : Prop :=
  ∀ (x : ArrEntry) (oa ob : OpSlot) (m n k : Nat) (old : W32), x.fmt = .i8 ∨ x.fmt = .ui8 ∨ x.fmt = .i16 ∨ x.fmt = .i4 ∨ x.fmt = .ui4 →
    let d := 2 ^ ((x.table.getD 64 0#8).toNat % 4)
    let (w, c) := match x.fmt with
      | .i16 => (16, 2) | .i4 => (4, 8) | .ui4 => (4, 8) | _ => (8, 4)
    let ce := max 1 (c / d)
    let term (kk i j : Nat) : Int := match termAt x.table i j with
      | some (t, neg) =>
        let p := slotInt x.fmt oa (1024 * m + w * (kk * d + i)) * slotInt x.fmt ob (w * (64 * kk + n * d + j))
        if t ≠ k then 0 else if neg != (x.na != x.nb) then -p else p
      | none => 0
    let sum := ((List.range ce).map fun q => ((List.range d).map fun i => ((List.range d).map fun j => term (x.chunk * ce + q) i j).sum).sum).sum
    k < d → x.word oa ob m (n * d + k) old = (if x.zc && x.chunk == 0 then 0#32 else old) + BitVec.ofInt 32 sum

/-- R28, R217 to R221, R224 to R227. The array starts the oldest entry that nothing holds back, adds one chunk to the rows
of the entry in progress, and lets it complete after the last; a fill writes its slot; a free slot goes to the group that
waits longest. -/
def Obligations.ArrayRunsItsQueue : Prop :=
  integerChunksAddTheirTerms ∧ ∀ (s : State) (core : Nat),
    let c := s.core core
    (∀ x, (∀ y ∈ c.arrayQ, y.started = false) → c.arrayQ.find? c.entryReady = some x →
      ∃ t, exec (.mmaStart core) s = .next t ∧ t = { s with cores := t.cores } ∧
        (t.core core).arrayQ = c.arrayQ.map (fun (y : ArrEntry) => if y.id = x.id then { y with started := true } else y) ∧
        tileIs s { t with cores := t.cores.upd core {} fun d => { d with arrayQ := c.arrayQ } } core x.tile
          (c.tile x.tile).word (BitVec.ofNat 32 (2 ^ 20 * x.fmt.code.toNat + 2 ^ 18 * (tabByte x.table 64 % 4) + 2 ^ 17 +
            (if mmaInt x.fmt then 2 ^ 16 else 0) + x.chunk))) ∧
    (∀ x, c.arrayQ.find? (·.started) = some x →
      let oa := c.opslots.getD x.sa { holder := 0 }
      let ob := c.opslots.getD x.sb { holder := 0 }
      let last := x.chunk + 1 = (mmaChunks x.fmt (tabDim x.table)).2
      c.arrayStuck = false → oa.bad = false → ob.bad = false →
      (x.zc = true ∧ x.chunk = 0 ∨ ∀ k ∈ (c.tile x.tile).bad, x.rows.getLsbD (k / 64) = false) →
      ∃ t, exec (.mmaChunk core) s = .next t ∧ (x.chain = none → (∀ o ∈ (s.grp x.g).ops, x.op = some o.id → o.tag = none) → SameMemory s t) ∧
        (∀ j, j ≠ x.tile → (t.core core).tile j = c.tile j) ∧
        (∀ m w, m < 32 → w < 64 → ((t.core core).tile x.tile).word m w =
          if x.rows.getLsbD m then x.word oa ob m w ((c.tile x.tile).word m w) else (c.tile x.tile).word m w) ∧
        ((t.core core).tile x.tile).header = BitVec.ofNat 32 (2 ^ 20 * x.fmt.code.toNat + 2 ^ 18 * (tabByte x.table 64 % 4) +
          (if last then 0 else 2 ^ 17) + (if mmaInt x.fmt then 2 ^ 16 else 0) + (x.chunk + 1)) ∧
        (¬ last → t = { s with cores := t.cores } ∧ (t.core core).arrayQ =
          c.arrayQ.map (fun (y : ArrEntry) => if y.id = x.id then { y with chunk := y.chunk + 1 } else y)) ∧
        (last → (t.core core).arrayQ = c.arrayQ.filter fun y => y.id != x.id)) ∧
    (∀ f, c.fills.find? (fun f => !c.arrayQ.any fun y => f.after.contains y.id) = some f → f.bad = none →
      ∃ t, exec (.sfillComplete core) s = .next t ∧ SameMemory s t ∧ (t.core core).fills = c.fills.filter (fun y => y.cnt != f.cnt) ∧
        ∀ o, c.opslots.get? f.slot = some o → o.released = false →
          (t.core core).opslots.get? f.slot = some { o with bytes := slotBytes f.bytes, bad := false }) ∧
    (∀ g rest k free w, c.sclmQ = g :: rest → c.freeSlots = k :: free → (s.grp g).wait = some w → (s.grp g).core = core →
      (s.grp g).parked = none →
      ∃ t, exec (.sclmGrant core) s = .next t ∧ t = { s with groups := t.groups, cores := t.cores } ∧
        (∀ h, h ≠ g → t.grp h = s.grp h) ∧
        t.grp g = { (s.grp g).at ((s.grp g).cpc + 4#64) with s := (t.grp g).s, slots := (s.grp g).slots ++ [k] } ∧
        (∀ r, (t.grp g).rs r = if r = w.n then BitVec.ofNat 64 k else (s.grp g).rs r) ∧
        (t.core core).sclmQ = rest ∧ (t.core core).opslots.get? k = some { holder := g })

/-! ## The lane stream: FIFOs and system instructions -/

/-- R388. VPUSH sends the words or halfwords of its executed lanes down, zeros for the others, or waits for room; VPOP takes
the oldest entry that came up into its executed lanes, or waits for one. -/
def Obligations.FifoInstructionsMoveOneEntry : Prop :=
  ∀ (s : State) (e : LaneEnc) (half : Bool),
    let g := s.cg
    let core := s.core g.core
    let k := if half then 2 else 4
    let waits (w : SplitWait) : Group :=
      { g with splits := g.splits.map (fun y => if y.id = s.cur.split then { y with wait := w } else y), run := none }
    let moved (t : State) (c : Core) : Prop :=
      t = { s with groups := t.groups, cores := t.cores, blocks := t.blocks, doms := t.doms } ∧
      (∀ h, h ≠ s.cur.g → t.grp h = s.grp h) ∧ (∀ d, t.dom d = { s.dom d with seqIn := (t.dom d).seqIn }) ∧
      (∀ j, t.core j = if j = g.core then c else s.core j) ∧
      (∀ b, t.blk b = if b = g.block then { s.blk b with fifoCores := (t.blk b).fifoCores } else s.blk b) ∧
      (∀ j, j ∈ (t.blk g.block).fifoCores ↔ j = g.core ∨ j ∈ s.cblk.fifoCores) ∧
      t.cg = { g with v := t.cg.v, badV := t.cg.badV, sb := t.cg.sb, ops := t.cg.ops, nextOp := t.cg.nextOp, splits := t.cg.splits
                      run := t.cg.run } ∧
      (∀ k ∈ t.cg.badV, k ∈ g.badV) ∧ Moved s t e.bytes ∧ Counted s t e
    s.execMask e ≠ 0#32 → s.farSide g.core = true →
    (s.LaneReady e [Fld.noHi e.ha, Fld.b e, Fld.noHi e.hc] →
      let entry := (List.range 64).map fun j =>
        if s.executes e (j / k) then BitVec.ofNat 8 ((s.opB e .f32 (j / k)).toNat / 256 ^ (j % k)) else 0#8
      (s.gatedAbove g.core = true ∨ 16 ≤ core.down.length → Becomes (exec (.vpush e half) s) s (waits .fifoPush)) ∧
      (s.gatedAbove g.core = false → core.down.length < 16 → ∃ t, exec (.vpush e half) s = .next t ∧
        moved t { core with down := core.down ++ [entry] } ∧ ∀ r l, l < 32 → t.cg.rv r l = g.rv r l)) ∧
    (s.LaneReady e [Fld.dst e.dst, Fld.noHi (e.ha || e.hb || e.hc)] →
      (s.gatedAbove g.core = true ∨ core.up = [] → Becomes (exec (.vpop e half) s) s (waits .fifoPop)) ∧
      (∀ x rest, s.gatedAbove g.core = false → core.up = x :: rest → ∃ t, exec (.vpop e half) s = .next t ∧
        moved t { core with up := rest } ∧ ∀ r l, l < 32 → t.cg.rv r l =
          if r = e.dst.toNat ∧ s.executes e l = true ∧ l < 64 / k then
            BitVec.ofNat 32 (((List.range k).map fun b => (x.getD (k * l + b) 0#8).toNat * 256 ^ b).sum) else g.rv r l))

/-- R269. SYSRD and SYSWR of the lanes complete at supervisor level: SYSRD writes the register's value into V64[d], SYSWR stores
the word of the lowest executed lane. -/
def Obligations.LaneSystemInstructionsActAtSupervisorLevel : Prop :=
  ∀ (s : State) (e : LaneEnc) (r r' : SysReg), s.cg.laneSup = true →
    (s.LaneReady e [Fld.dst e.dst 2 2, Fld.noHi (e.ha || e.hb || e.hc)] →
      WritesV64 (exec (.sysrdLane e r) s) s e e.bytes fun _ => sysValue s r) ∧
    (s.LaneReady e [Fld.vsrc e.a 2 2 e.ha, Fld.noHi (e.hb || e.hc)] →
      (s.execMask e = 0#32 → WritesNone (exec (.syswrLane e r) s) s e e.bytes) ∧
      (∀ l, lowLane (s.execMask e) = some l → ∃ t, exec (.syswrLane e r) s = .next t ∧ SameMemory s t ∧
        Moved s t e.bytes ∧ Counted s t e ∧ (∀ h, h ≠ s.cur.g → t.grp h = s.grp h) ∧ (∀ n, n ≠ s.casid → t.ctx n = s.ctx n) ∧
        (∀ q k, k < 32 → t.cg.rv q k = s.cg.rv q k) ∧ sysValue t r = sysStored (sysValue s r) (s.cg.rv64 e.a.toNat l) r ∧
        (r' ≠ r → sysValue t r' = sysValue s r')))

/-- The status of an address for which MAPF has no frame to take (R270). -/
def mapStatus (w : WalkRes) : Nat :=
  match w with
  | .leaf _ _ _ => 1
  | .absent kind _ _ => if kind = 1 then 2 else 3

/-- The v registers after MAPF: each executed lane of d holds the status of the lane it computes from. -/
def statusWritten (s : State) (e : LaneEnc) (st : Nat → Nat) (r l : Nat) : W32 :=
  if r = e.dst.toNat ∧ s.executes e l = true then BitVec.ofNat 32 (st (s.srcLane e l)) else s.cg.rv r l

/-- Each lane of a list in its turn finds a mapped page, a page that is not of first touch, or no free frame: the statuses. -/
def plainPages (s : State) (va : Nat → W64) : List Nat → List (Nat × Nat) → Prop
  | [], r => r = []
  | l :: t, r =>
    let w := s.walkAt (coreDom s.cg.core) s.casid (va l)
    (∀ x a, w ≠ .absent 6 x a) ∧ (∀ x a, w = .absent 1 x a → s.cctx.poolcnt = 0#64) ∧
    ∃ rs, r = (l, mapStatus w) :: rs ∧ plainPages (s.mapPage (va l)).1 va t rs

/-- R270, R337. MAPF completes at supervisor level where every address is canonical: with no free frame, or with no first-touch
page among its addresses, it changes no mapping and answers 1 for a mapped page, 2 for one that needed a frame, and 3 for
any other; one lane whose page is of first touch takes the top frame of the list, zeroes it, maps it with the entry's own
permissions and attribute, and answers 0. In general the lanes follow each other in order. -/
def Obligations.MapfMapsThePagesOfItsLanes : Prop :=
  ∀ (s : State) (e : LaneEnc), s.cg.laneSup = true →
    let va l : W64 := s.cg.rv64 e.a.toNat l
    s.LaneReady e [Fld.dst e.dst, Fld.vsrc e.a 2 2 e.ha, Fld.noHi (e.hb || e.hc)] →
    (∀ l ∈ s.accessLanes e, canonical (va l) = true) →
    (∀ rs, plainPages s va (s.accessLanes e) rs → ∃ t, exec (.mapf e) s = .next t ∧ CachesOnly s t ∧ SameMemory s t ∧
        t.cg = { s.cg with v := t.cg.v, badV := t.cg.badV, sb := t.cg.sb, ops := t.cg.ops, nextOp := t.cg.nextOp
                           splits := t.cg.splits, run := t.cg.run, laneHeld := none, laneRegen := none } ∧
        Moved s t e.bytes ∧ Counted s t e ∧
        ∀ r k, k < 32 → t.cg.rv r k = statusWritten s e (fun l => (rs.lookup l).getD 0) r k) ∧
    (∀ (s1 s2 : State) (l x addr pa coh f left : Nat) (q w fast : Bool), s.accessLanes e = [l] →
      s.walkAt (coreDom s.cg.core) s.casid (va l) = .absent 1 x addr → s.cached addr = true → s.cctx.poolcnt ≠ 0#64 →
      let list := s.poolVa s.casid
      regenFailed s.cg.laneRegen list = false →
      (s.walkSeen (coreDom s.cg.core) s.casid (va l)).translate s.cg.core s.casid s.cg.grid list .load = (s1, .ok pa coh q w left fast) →
      s1.sysUp pa = true → s1.badLoad s.cg.core pa 8 coh true = false → s1.homeRead pa 8 = (s2, f) → s2.poolFrame f = some f →
      (addr + 8 ≤ f ∨ f + 2 ^ 13 ≤ addr) →
      ∃ t, exec (.mapf e) s = .next t ∧ CachesOnly s1 { t with ctxs := s1.ctxs } ∧
        t.cg = { s1.cg with v := t.cg.v, badV := t.cg.badV, sb := t.cg.sb, ops := t.cg.ops, nextOp := t.cg.nextOp
                            splits := t.cg.splits, run := t.cg.run, wait := t.cg.wait, laneHeld := none, laneRegen := none } ∧
        Moved s t e.bytes ∧ Counted s t e ∧ (∀ r k, k < 32 → t.cg.rv r k = statusWritten s e (fun _ => 0) r k) ∧
        (∀ a, t.ctx a = if a = s.casid then { s1.ctx a with poolcnt := s.cctx.poolcnt - 1#64 } else s1.ctx a) ∧
        (∀ k, k < 2 ^ 13 → t.mem.byte (f + k) = 0#8) ∧
        t.peek addr 8 = (3 + x / 2 ^ 4 % 2 ^ 6 * 2 ^ 4 + f +
          (if x / 2 ^ 8 % 4 = 2 then coreDom s.cg.core * 2 ^ 42 + coreSite s.cg.core * 2 ^ 48 else 0)) % 2 ^ 64 ∧
        ∀ a, (a < f ∨ f + 2 ^ 13 ≤ a) → (a < addr ∨ addr + 8 ≤ a) → t.mem.byte a = s1.mem.byte a) ∧
    ∀ (s1 : State) (rs : List (Nat × Nat)), s.mapLanes va (s.accessLanes e) = (s1, rs, none) →
      ∃ t, exec (.mapf e) s = .next t ∧ LaneNext s1.laneUnheld t e e.bytes (fun q l => if q = e.dst.toNat ∧ s.executes e l = true then
        BitVec.ofNat 32 ((rs.lookup (s.srcLane e l)).getD 0) else s1.cg.rv q l) s1.cg.rp

/-! ## Traps of the lane stream -/

/-- R117, R261, R263, R275. A lane trap that is neither held, nested nor for firmware enters the handler once every issued lane
instruction has completed: v0 to v7, the predicates, the split table, `%tile`, the flags and the resume point are saved, the
trap registers are written, a region ends, and one split of every live lane continues at `sys.LTRAPVEC` at supervisor level.
Before that, and while the group is being stopped or is parked, the stream stands at the trapping point. -/
def Obligations.LaneTrapEntersItsHandler : Prop :=
  ∀ (s : State) (p : PendTrap), p.code ≠ 19 →
    let g := s.cg
    (g.lanesDone = false ∨ s.stopsHere s.cur.g = true ∨ g.parked ≠ none → GroupIs s (s.raiseLane p) { g with lpend := some p, run := none }) ∧
    (g.lanesDone = true → g.laneSup = false → g.ctlSup = true →
      GroupIs s (s.raiseLane p) { g with lpend := some p, run := none }) ∧
    (g.lanesDone = true → g.laneSup = false → g.ctlSup = false → s.debugTakes s.cur.g p = false → s.stopsHere s.cur.g = false →
      g.parked = none →
      s.vecOk g.core s.casid s.cctx.ltrapvec .laneFetch = true →
      GroupIs s (s.raiseLane p) { g with
        lshadow := some { v := g.v.keep fun k _ => k < 256, p := g.p, splits := g.splits, tile := g.tile, flags := g.flags
                          resPc := p.resume, resSplit := p.split, viaBreakReg := p.viaBreakReg }
        cause := BitVec.ofNat 64 (causeOf p false), faddr := p.faddr, fmask := BitVec.ofNat 64 p.fmask.toNat, elpc := p.pc
        region := false, regionCnt := 0
        lpend := none, run := none, ops := [], laneBusy := true, laneSup := true, tile := 5, nextSplit := g.nextSplit + 1
        splits := [{ id := g.nextSplit, mask := g.present &&& ~~~g.gone, pc := s.cctx.ltrapvec, family := g.nextSplit }] })

/-- R38, R89, R265, R267, R268. The lane instructions whose effect is a trap or a return: TRAP and BKPT trap with their
executed lanes as faulters, TRET restores the shadow, a privileged one traps at user level, and LSTOP and LEXIT trap in a
handler. An instruction one of whose operand fields fails its check traps ILLEGAL_OPERAND. -/
def Obligations.LaneTrapsAndReturns : Prop :=
  ∀ (s : State) (e : LaneEnc) (code : BitVec 8) (r : SysReg),
    let g := s.cg
    let x := s.csplit
    let illegal : State := s.raiseLane { code := 1, fmask := x.mask, pc := x.pc, resume := x.pc, split := s.cur.split }
    (s.LaneReady e [Fld.noHi (e.ha || e.hb || e.hc)] →
      (∀ i ∈ [(Instr.trapLane e code, 24), (.bkptLane e code, 22)],
        (s.execMask e = 0#32 → WritesNone (exec i.1 s) s e e.bytes) ∧
        (s.execMask e ≠ 0#32 → ∃ t, exec i.1 s = .next (t.raiseLane
          { code := i.2, detail := code.toNat, fmask := s.execMask e, pc := x.pc, resume := x.pc + BitVec.ofNat 64 e.bytes
            split := s.cur.split, reason := 1 }) ∧ GroupIs s t g)) ∧
      (∀ h, g.laneSup = true → g.lanesDone = true → g.lshadow = some h → g.cpend = none → ∃ t, exec (.tretLane e) s = .next t ∧
        GroupIs s t { g with
          v := t.cg.v, badV := t.cg.badV, p := h.p, tile := h.tile, flags := h.flags, lshadow := none, laneSup := false, run := none, ops := []
          splits := h.splits.map fun y =>
            if y.id = h.resSplit then { y with pc := h.resPc, wait := .ready, noBreak := h.viaBreakReg } else y } ∧
        ∀ q l, l < 32 → t.cg.rv q l = if q < 8 then h.word q l else g.rv q l)) ∧
    (g.laneSup = false → ∀ i ∈ [Instr.tretLane e, .sysrdLane e r, .syswrLane e r, .mapf e], exec i s = .next illegal) ∧
    (g.laneSup = true → ∀ i ∈ [Instr.lstop e, .lexit e], exec i s = .next illegal) ∧
    ∀ k, let bad : State := s.raiseLane { code := 3, opnd := k, fmask := x.mask, pc := x.pc, resume := x.pc, split := s.cur.split }
      (g.operandFault s.cur.split e (fldsTwo e) = some k → ∀ (m : SatMod) (w : FW) (rm : Rnd),
        ∀ i ∈ [Instr.iadd e m, .isub e m, .imul e, .and e, .or e, .xor e, .fadd e w rm, .fmul e w rm], exec i s = .next bad) ∧
      (g.operandFault s.cur.split e (fldsOne e) = some k → ∀ w : FW,
        ∀ i ∈ [Instr.mov e, .not e, .popc e, .clz e, .brev e, .fsqrt e w, .fclass e], exec i s = .next bad)

/-! ## Events of the streams -/

/-- R36, R82, R105, R107, R136, R139, R174. An idle lane stream takes its oldest entry, once no SLD is outstanding; a strand starts a run of the group that it
picks; splits at the lowest JOIN merge, and with every split at LSTOP the entry ends; missing data of a load reach their
lanes; an instruction that completes counts its slot down and raises its flags. -/
def laneEvents : Prop :=
  ∀ (s : State) (g : Nat),
    let x := s.grp g
    (∀ q rest, x.laneq = q :: rest → x.laneBusy = false → x.laneSup = false → x.lpend = none → x.parked = none →
      x.resident = true → x.slds = [] → x.present &&& ~~~x.gone ≠ 0#32 →
      ∃ t, exec (.laneEntryStart g) s = .next t ∧ GroupNow s t g { x with
        laneq := rest, laneBusy := true, runPc := q.runPc, nextSplit := x.nextSplit + 1, run := none, ops := []
        splits := [{ id := x.nextSplit, mask := x.present &&& ~~~x.gone, pc := q.pc, family := x.nextSplit }] }) ∧
    (x.laneBusy = true → x.lpend = none → x.parked = none → x.splits ≠ [] → (∀ y ∈ x.splits, y.wait = .join ∨ y.wait = .stop) →
      ((∀ y ∈ x.splits, y.wait = .stop) → ∃ t, exec (.joinMerge g) s = .next t ∧ GroupNow s t g { x with
        laneBusy := false, run := none, ops := [], nextSplit := x.nextSplit + 1
        splits := [{ id := x.nextSplit, mask := x.present &&& ~~~x.gone, family := x.nextSplit }] }) ∧
      (∀ j ∈ x.splits, j.wait = .join → (∀ y ∈ x.splits, y.wait = .join → j.joinPc.toNat ≤ y.joinPc.toNat) →
        (∀ y ∈ x.splits, y.wait = .join → y.joinPc = j.joinPc → y.pc = j.pc) →
        let here := x.splits.filter fun y => y.wait == .join && y.joinPc == j.joinPc
        ∃ t, exec (.joinMerge g) s = .next t ∧ GroupNow s t g { x with
          nextSplit := x.nextSplit + 1
          splits := (x.splits.filter fun y => !(y.wait == .join && y.joinPc == j.joinPc)) ++
            [{ id := x.nextSplit, mask := here.foldl (fun m y => m ||| y.mask) 0#32, pc := j.pc, family := x.nextSplit }] })) ∧
    (∀ (k : Nat) (o : LaneOp), x.ops.find? (fun p => p.id == k) = some o → o.done = false → o.array = false → o.tag = none →
      (∀ l ∈ x.loads, l.op ≠ k) → (∀ y ∈ x.lates, y.op ≠ k) →
      ∃ t, exec (.laneInstructionComplete g k) s = .next t ∧
        GroupNow s t g { x with flags := x.flags ||| o.flags, ops := (t.grp g).ops, sb := (t.grp g).sb } ∧
        (∀ p ∈ (t.grp g).ops, p.id = k → p.done = true) ∧
        ∀ n, (t.grp g).rsb n = if n = o.sbs ∧ n ≠ 0 then x.rsb n - 1 else x.rsb n) ∧
    (∀ (k : Nat) (l : PendLoad), x.loads.find? (fun l => l.id == k) = some l →
      (∀ a ∈ l.addrs, s.badLoad x.core a.2.pa a.2.n a.2.coh false = false) →
      ∃ t, exec (.loadDataArrival g k) s = .next t ∧ SameButWrittenBack s t (coreDom x.core) ∧
        (t.grp g).loads = x.loads.filter (fun l => l.id != k) ∧
        (t.grp g).splits = x.splits.map (fun y =>
          if y.id = l.split then { y with wait := if y.wait = .data then .ready else y.wait } else y) ∧
        (∀ r j, j < 32 → l.mask.getLsbD j = false ∨ r < l.dst ∨ l.dst + (bytesOf l.size + 3) / 4 ≤ r →
          (t.grp g).rv r j = x.rv r j) ∧
        ((∀ a ∈ l.addrs, s.cached a.2.pa = false) →
          ∀ r j, j < 32 → l.mask.getLsbD j = true → l.dst ≤ r → r < l.dst + (bytesOf l.size + 3) / 4 →
            let v := (l.got.lookup j).getD 0 + ((l.addrs.filter fun a => a.1 == j).map fun a =>
              s.mem.read a.2.pa a.2.n * 2 ^ (8 * a.2.off)).sum
            v < 2 ^ (8 * bytesOf l.size) →
            (t.grp g).rv r j = BitVec.ofNat 32 (extended l.size l.sx v / 2 ^ (32 * (r - l.dst))))) ∧
    ∀ (core strand : Nat) (y : Split), s.gathered g = s → s.canStart g = true → (s.core core).slots = [(strand, g)] → x.slot = strand → strand < 16 →
      s.onStrand core strand = none → s.pickSplit x = some y →
      ∃ t, exec (.strandRunStart core strand) s = .next t ∧ t.grp g = { x with pass := 0, run := some (y.id, 0) } ∧
        t = { s with groups := t.groups, cores := t.cores } ∧ (∀ h, h ≠ g → t.grp h = s.grp h) ∧
        (t.core core).running.get? strand = some strand

/-- R111, R118, R257, R263, R264. A parked YIELD continues when its counter allows it; a region that lasts too long and the
fault of a chain become control traps at a control boundary; a pending trap is taken before the stream goes on. -/
def boundaryEvents : Prop :=
  ∀ (s : State) (g : Nat),
    let x := s.grp g
    (∀ w, x.wait = some w → w.kind = .yield → x.rcnt w.obj ≤ w.n → x.parked = none →
      ∃ t, exec (.yieldReactivate g) s = .next t ∧ GroupNow s t g (x.at w.cont)) ∧
    (x.region = true → (s.ctx (s.asidOf g)).nplimit.toNat < x.regionCnt → x.cpend = none → x.parked = none → x.wait = none →
      exec (.nonpreemptOverrun g) s = .next ((s.updGrp g fun y =>
        { y with cpend := some { code := 20, pc := x.cpc, resume := x.cpc } }).takeCtl g)) ∧
    (∀ (k : Nat) (c : Chain) (cause reason kind : Nat) (va : W64), x.live = true → x.exited = false → x.resident = true →
      x.ctlSup = false → x.cpend = none → x.parked = none → x.wait = none →
      s.faultyChain g = some (k, c) → c.fault = some (cause, reason, kind, va) → c.phase ≠ 3 →
      (s.stopsHere g = false → x.laneSup = false ∨ cause = 19 →
        exec (.engineFaultDelivery g) s = .next (((s.updChain k fun c => { c with fault := none }).updGrp g fun y =>
          { y with cpend := some { code := cause, detail := c.seq, faddr := va, fmask := BitVec.ofNat 32 (256 * kind + reason)
                                   pc := c.epc, resume := x.cpc, pa := c.badPa } }).takeCtl g)) ∧
      (s.stopsHere g = true ∨ (x.laneSup = true ∧ cause ≠ 19) → exec (.engineFaultDelivery g) s = .next s)) ∧
    (s.seated g = true → x.parked = none → exec (.trapEntryLane g) s = .next (s.takeLane g)) ∧
    (s.mayCtl g = true → x.cpend.isSome = true → exec (.trapEntryControl g) s = .next (s.takeCtl g)) ∧
    ∀ p : PendTrap, p.code ≠ 19 → x.ctlSup = false → x.laneSup = false → s.debugTakes g p = false →
      s.vecOk x.core (s.asidOf g) (s.ctx (s.asidOf g)).ctrapvec .ctlFetch = true → x.cpend = some p → s.stopsHere g = false → x.parked = none →
      x.sldsRead → (((s.takeCtl g).grp g).ctlSup = true ∧ ((s.takeCtl g).grp g).cpc = (s.ctx (s.asidOf g)).ctrapvec ∧
        ((s.takeCtl g).grp g).epc = p.pc ∧ ((s.takeCtl g).grp g).cause = BitVec.ofNat 64 (causeOf p true) ∧
        SameMemory s (s.takeCtl g))

/-- R36, R82, R105, R111, R118, R136, R139, R174, R257, R263, R264. The events that move the two streams of a group. -/
def Obligations.StreamEventsMoveTheirGroup : Prop := laneEvents ∧ boundaryEvents

/-! ## Events of monitors, barriers and directories -/

/-- A group's WAITCMP is over with a status: the acquire is made, S[d] is written where T is 1 (`w.obj` is d + 1), and the
group goes on. -/
def waitOver (s t : State) (g : Nat) (w : CtlWait) (status : W64) : Prop :=
  Acquired s t (s.grp g).core w.scope ∧ SameMemory s t ∧ (∀ h, h ≠ g → t.grp h = s.grp h) ∧
  t.grp g = { (s.grp g).at ((s.grp g).cpc + 4#64) with s := (t.grp g).s } ∧
  ∀ r, (t.grp g).rs r = if r + 1 = w.obj then status else (s.grp g).rs r

/-- R195 to R197, R202. A woken waiter goes on with status 0; one without a monitor rereads its word every 256 cc; one whose
timeout expires goes on with status 1; and a barrier that times out withdraws the arrival and traps. -/
def waitEvents : Prop :=
  ∀ (s : State) (g : Nat) (w : CtlWait),
    let x := s.grp g
    x.wait = some w → x.parked = none →
    (w.kind = .waitcmp → (x.ctlSup = true ∨ watchOf (s.ctx (s.asidOf g)) w.va 8 true false = none) →
      (w.woken = true → x.resident = true → ∃ t, exec (.monitorWake g) s = .next t ∧ waitOver s t g w 0#64) ∧
      (w.limit ≠ 0 → w.limit ≤ w.age → w.woken = false → ∃ t, exec (.waitcmpTimeout g) s = .next t ∧ waitOver s t g w 1#64) ∧
      (∀ (s1 : State) (v : Nat), w.armed = false → 256 ≤ w.reread → x.resident = true → s.sysUp w.pa = true →
        s.badLoad x.core w.pa 8 w.coh true = false → (s.wordAtHome x.core w.pa w.coh).homeRead w.pa 8 = (s1, v) →
        (conditionHolds w.cond (BitVec.ofNat 64 v) w.val → ∃ t, exec (.monitorReread g) s = .next t ∧ waitOver s1 t g w 0#64) ∧
        (¬ conditionHolds w.cond (BitVec.ofNat 64 v) w.val → ∃ t, exec (.monitorReread g) s = .next t ∧
          GroupNow s1 t g { x with wait := some { w with reread := 0, recheck := false } }))) ∧
    (w.kind = .bwait ∨ w.kind = .dbar → s.standsStill x w = false → w.limit ≠ 0 → w.limit ≤ w.age → w.woken = false →
      (w.kind = .bwait → s.barPhase w.pa = w.phase ∧ w.armed = false) →
      (w.kind = .dbar → s.dbarCheck (coreDom x.core) (s.asidOf g) w.obj = s ∧ w.armed = false) →
      ∃ u : State, exec (.barrierTimeout g) s = .next (u.takeCtl g) ∧ SameMemory s u ∧ (∀ h, h ≠ g → u.grp h = s.grp h) ∧
        u.grp g = { x with wait := none, cpend := some { code := 13, detail := w.obj, pc := x.cpc, resume := x.cpc } } ∧
        ∀ b, w.kind = .dbar → (s.dom (coreDom x.core)).dbars.get? (16 * s.asidOf g + w.obj) = some b →
          (u.dom (coreDom x.core)).dbars.get? (16 * s.asidOf g + w.obj) =
            some { b with arrived := b.arrived.filter (fun h => h != g) })

/-- A group of a list that waits on an object has been released with a number, and no other group has changed. -/
def released (s t : State) (l : List Nat) (k : WaitKind) (obj n : Nat) : Prop :=
  (∀ g, g ∉ l → t.grp g = s.grp g) ∧
  ∀ g ∈ l, ∀ w, (s.grp g).wait = some w → w.kind = k → w.obj = obj → t.grp g = { s.grp g with wait := some { w with woken := true, n := n } }

/-- R204, R205, R439. A phase of a domain barrier, or of the wafer barrier, completes when every group of the grid that has not
exited has arrived; the wafer barrier and the heartbeat advance the round. -/
def barrierEvents : Prop :=
  ∀ (s : State) (asid dom : Nat) (id : BitVec 4),
    (∀ b, (s.dom dom).dbars.get? (16 * asid + id.toNat) = some b → b.arrived ≠ [] →
      ((∀ c ∈ s.groups, c.2.live = true → c.2.exited = false → c.2.grid = b.grid → coreDom c.2.core = dom → c.1 ∈ b.arrived) →
        ∃ t, exec (.domainBarrierCompletion asid dom id) s = .next t ∧ SameMemory s t ∧ released s t b.arrived .dbar id.toNat 0 ∧
          (t.dom dom).dbars.get? (16 * asid + id.toNat) = some { b with arrived := [], phase := b.phase + 1 }) ∧
      (∀ c ∈ s.groups, c.2.live = true → c.2.exited = false → c.2.grid = b.grid → coreDom c.2.core = dom → c.1 ∉ b.arrived →
        exec (.domainBarrierCompletion asid dom id) s = .next s)) ∧
    (∀ n, s.wbarGrid = some n → s.wbarArrived ≠ [] →
      (∀ c ∈ s.groups, c.2.live = true → c.2.exited = false → c.2.grid = n → c.1 ∈ s.wbarArrived) →
      ∃ t, exec .waferBarrierCompletion s = .next t ∧ SameMemory s t ∧ t.round = s.round + 1#32 ∧ t.sinceRound = 0 ∧
        (∀ d, (t.dom d).stamp16 = 0) ∧ t.wbarArrived = [] ∧ released s t s.wbarArrived .wbar 0 t.round.toNat) ∧
    (s.heartbeat = none → 2 ^ 22 ≤ s.sinceRound → exec .heartbeatBarrier s = .next { s with heartbeat := some 0 }) ∧
    ∀ n, s.heartbeat = some n →
      (n < 2000 → exec .heartbeatBarrier s = .next s) ∧
      (2000 ≤ n → ∃ t, exec .heartbeatBarrier s = .next t ∧
        t = { s with round := s.round + 1#32, sinceRound := 0, heartbeat := none, doms := t.doms, gangs := t.gangs } ∧
        (∀ d, t.dom d = { s.dom d with stamp16 := 0, seqIn := (t.dom d).seqIn }) ∧
        t.gangs = s.gangs.map fun c => (c.1, if c.2.phase = 1 then { c.2 with phase := 2, round := (s.round + 1#32).toNat } else c.2))

/-- R195 to R197, R202, R204, R205, R439. -/
def Obligations.MonitorAndBarrierEventsReleaseTheirWaiters : Prop := waitEvents ∧ barrierEvents

/-- The directory entry of a line, by its state, its sharers, and whether the sync engine holds it; none is state I. -/
def entryIs (s : State) (line : Nat) (st : DirState) (doms : Nat → Prop) : Prop :=
  ∃ e, s.dirEntry line = some e ∧ e.st = st ∧ ∀ d, d ∈ e.doms ↔ doms d

/-- A domain's L2 has at most one copy of a line. -/
def oneCopy (s : State) (d line : Nat) : Prop :=
  ∀ v w x y, v < 16 → w < 16 → (s.dom d).l2.get? (s.l2Key d line v) = some x → (s.dom d).l2.get? (s.l2Key d line w) = some y →
    x.line = line → y.line = line → v = w

/-- R312 to R314. The table of the home directory: a read by a domain adds it to the sharers and takes M to S, a write makes
it the one owner, or goes to the home while the line is held, an eviction takes the domain away, and the sync engine holds
and releases the line. -/
def Obligations.DirectoryEventsFollowTheirTable : Prop :=
  ∀ (s : State) (line q : Nat), s.cached (128 * line) = true →
    let old (d : Nat) : Prop := ∃ e, s.dirEntry line = some e ∧ d ∈ e.doms
    (q < 64 → q ≠ homeOf (128 * line) →
      (s.l2Line q line = none → ∃ t, exec (.dirReadRequest line q) s = .next t ∧ SameButWrittenBack s t q ∧
        entryIs t line (match s.dirEntry line with
          | some e => if e.st = .h then .h else .s
          | none => .s) (fun d => d = q ∨ old d) ∧
        ((∃ w, w < 16 ∧ (s.dom q).l2.get? (s.l2Key q line w) = none) →
          ∃ x, t.l2Line q line = some x ∧ x.line = line ∧ x.coh = 0 ∧ x.dirty = 0#128)) ∧
      (s.ownsLine q line = false → ∃ t, exec (.dirWriteRequest line q) s = .next t ∧ SameButWrittenBack s t q ∧
        (match s.dirEntry line with
          | some e => if e.st = .h then entryIs t line .h (fun _ => False) else entryIs t line .m (fun d => d = q)
          | none => entryIs t line .m (fun d => d = q)) ∧
        ∀ d, old d → d ≠ q → oneCopy s d line → t.l2Line d line = none) ∧
      (∀ x, s.l2Line q line = some x → x.coh = 0 → ∃ t, exec (.dirEvictionNotice line q) s = .next t ∧
        t = { s with doms := t.doms } ∧ (oneCopy s q line → t.l2Line q line = none) ∧
        ∀ e, s.dirEntry line = some e → (e.st = .m → e.doms = [q]) →
          (e.st ≠ .h → (∀ d ∈ e.doms, d = q) → t.dirEntry line = none) ∧
          (e.st = .h ∨ (∃ d ∈ e.doms, d ≠ q) → t.dirEntry line = some { e with doms := e.doms.filter (fun d => d != q) }))) ∧
    (s.heldWays line < 8 ∨ (∃ e, s.dirEntry line = some e ∧ e.st = .h) → ∃ t, exec (.dirHold line) s = .next t ∧
      t = { s with doms := t.doms, use := t.use } ∧ ∃ e, t.dirEntry line = some e ∧ e.st = .h ∧ e.taken = true ∧
        line ∈ (t.dom (homeOf (128 * line))).sync ∧ ∀ d, d ∈ e.doms ↔ ∃ x, s.dirEntry line = some x ∧ x.st ≠ .m ∧ d ∈ x.doms) ∧
    ∀ e, s.dirEntry line = some e → e.st = .h → ∃ t, exec (.dirHoldRelease line) s = .next t ∧ t = { s with doms := t.doms } ∧
      line ∉ (t.dom (homeOf (128 * line))).sync ∧
      (e.mons ≠ 0 → t.dirEntry line = some { e with taken := false }) ∧
      (e.mons = 0 → e.doms = [] → t.dirEntry line = none) ∧
      (e.mons = 0 → e.doms ≠ [] → t.dirEntry line = some { e with taken := false, st := .s })

/-! ## Engine chains -/

/-- The chosen chain stands at an entry of a kind that its class accepts, and may execute it (R236, R256). -/
abbrev chainStands (s : State) (c : Chain) (kind : Nat) : Prop :=
  s.chains.get? s.cur.chain = some c ∧ c.phase = 1 ∧ c.busy = none ∧ c.adv = [] ∧ c.slow = none ∧ (s.grp c.g).resident = true ∧
  (kind ∈ [0, 8, 9, 10] ∨ (c.cls, kind) ∈ [(0, 1), (0, 2), (0, 3), (1, 4), (1, 5), (3, 6), (2, 7)])

/-- The chosen chain goes on at an address, under the next sequence number, and no other chain has changed (R238). -/
def chainAt (s t : State) (c : Chain) (n : Nat) : Prop :=
  t.chains.get? s.cur.chain = some { c with entry := n, seq := (c.seq + 1) % 2 ^ 32, idle := 0, busy := none, held := none } ∧
  ∀ k, k ≠ s.cur.chain → t.chains.get? k = s.chains.get? k

/-- Where the PROG word of a chain's entry lies (R240). -/
def progPlace (s : State) (c : Chain) (pa : Nat) : Prop :=
  (s.blk c.block).quad < 1792 ∧ (s.blk c.block).sbase + (s.blk c.block).share ≤ 2 ^ 23 ∧ ∃ core off, s.scratchAt c.block (c.entry + 4) 4 = some (core, off) ∧ pa = scratchPa core off

/-- n bytes at a scratchpad address of a chain's block lie at a physical address and hold no uncorrectable error. -/
abbrev chainBytes (s : State) (c : Chain) (a : Int) (n pa : Nat) : Prop :=
  s.scrSeg c.block a n = .inl { va := BitVec.ofInt 64 a, pa := pa, n := n, coh := 0 } ∧ s.badIn pa n = false

/-- The entry that a jump leads to (R250). -/
def jumpPlace (s : State) (c : Chain) (arg : BitVec 16) (n : Nat) : Prop :=
  (n : Int) = (c.entry : Int) + 32 * arg.toInt ∧ ∃ pa, s.scrSeg c.block (n : Int) 32 = .inl { va := BitVec.ofInt 64 n, pa := pa, n := 32, coh := 0 }

/-- Two byte ranges do not meet. -/
abbrev apart (a n b m : Nat) : Prop := a + n ≤ b ∨ b + m ≤ a

/-- R237 to R239, R256. A free context takes the oldest queued chain; one that has not fired for 4,096 cc, also while it is
held at a fault, gives its context up while others are queued, and is queued last. -/
def chainQueueEvents : Prop :=
  ∀ (s : State) (core k : Nat) (rest : List Nat) (e : EngClass) (c : Chain), s.chains.get? k = some c →
    let n := clsNum e
    (s.engQueue core n = k :: rest → (s.engCtxs core n).length < (if n = 3 then 32 else 4) →
      ∃ t, exec (.chainStart core e) s = .next t ∧ t = { s with chains := t.chains, cores := t.cores, doms := t.doms } ∧
        t.engQueue core n = rest ∧ t.engCtxs core n = s.engCtxs core n ++ [k] ∧
        (∃ n', n' < (if n = 3 then 32 else 4) ∧ (∀ j ∈ s.engCtxs core n, ∀ d, s.chains.get? j = some d → d.ctx ≠ n') ∧
          t.chains.get? k = some { c with phase := if c.phase = 2 then 2 else 1, idle := 0, ctx := n' }) ∧
        ∀ j, j ≠ k → t.chains.get? j = s.chains.get? j) ∧
    (c.phase = 1 ∨ c.phase = 2 → c.busy = none → c.adv = [] → c.slow = none → 4096 ≤ c.idle → s.engQueue c.core c.cls ≠ [] → k ∉ s.engQueue c.core c.cls →
      ∃ t, exec (.chainGiveUp k) s = .next t ∧ t = { s with chains := t.chains, cores := t.cores, doms := t.doms } ∧
        t.engQueue c.core c.cls = s.engQueue c.core c.cls ++ [k] ∧
        t.engCtxs c.core c.cls = (s.engCtxs c.core c.cls).filter (fun j => j != k) ∧
        t.chains.get? k = some { c with phase := if c.phase = 2 then 2 else 0, idle := 0 } ∧
        ∀ j, j ≠ k → t.chains.get? j = s.chains.get? j)

/-- R236, R238, R243, R250. LOOP counts its PROG word and goes back or on; COND branches on a buffer's count or a doubleword;
SIGNAL stores or adds at its target and counts its PROG word; END ends the chain. -/
def controlEntriesMoveTheirChain : Prop :=
  ∀ (s : State) (c : Chain) (q : EntryEnc) (pp n : Nat), progPlace s c pp →
    (chainStands s c 8 → q.flg = 0#8 → q.q1 = 0#64 → q.q2 = 0#64 → q.q3 ≠ 0#64 → q.q3.toNat < 2 ^ 32 →
      (q.prog.toNat + 1 < q.q3.toNat → jumpPlace s c q.arg n → ∃ t, exec (.loop q) s = .next t ∧
        chainAt s t c n ∧ SameOutside s t pp 4 ∧ t.peek pp 4 = q.prog.toNat + 1) ∧
      (q.q3.toNat ≤ q.prog.toNat + 1 → ∃ t, exec (.loop q) s = .next t ∧
        chainAt s t c (c.entry + 32) ∧ SameOutside s t pp 4 ∧ t.peek pp 4 = 0)) ∧
    (∀ (cc : Cond) (pa v : Nat), chainStands s c 9 → q.flg.toNat < 32 → q.q2 = 0#64 → Cond.ofCode (q.flg.extractLsb' 2 3) = some cc →
      (q.flg.toNat % 4 = 2 ∧ q.q1.toNat / 2 ^ 25 = 2 ^ 37 ∧ q.q1.toNat % 8 = 0 ∧ chainBytes s c (q.q1.toNat % 2 ^ 25 : Nat) 8 pa ∧
          v = s.peek pa 8 ∨
        q.flg.toNat % 4 < 2 ∧ q.q1.toNat / 2 ^ 25 = 2 ^ 38 ∧ q.q1.toNat % 32 = 0 ∧ chainBytes s c (q.q1.toNat % 2 ^ 25 : Nat) 32 pa ∧
          s.peek pa 4 = 0x43425546 ∧
          v = (if q.flg.toNat % 4 = 0 then (s.peek (pa + 16) 4 + 2 ^ 32 - s.peek (pa + 20) 4) % 2 ^ 32
            else (s.peek (pa + 12) 4 + 2 ^ 32 - (s.peek (pa + 16) 4 + 2 ^ 32 - s.peek (pa + 20) 4) % 2 ^ 32) % 2 ^ 32)) →
      (conditionHolds cc (BitVec.ofNat 64 v) q.q3 → jumpPlace s c q.arg n) →
      ∃ t, exec (.cond q) s = .next t ∧ t = { s with chains := t.chains } ∧
        (conditionHolds cc (BitVec.ofNat 64 v) q.q3 → chainAt s t c n) ∧
        (¬ conditionHolds cc (BitVec.ofNat 64 v) q.q3 → chainAt s t c (c.entry + 32))) ∧
    (∀ pa, chainStands s c 10 → q.flg.toNat < 10 → q.arg = 0#16 → q.q1 = 0#64 → q.q2.toNat / 2 ^ 25 = 2 ^ 37 → q.q2.toNat % 8 = 0 →
      chainBytes s c (q.q2.toNat % 2 ^ 25 : Nat) 8 pa → apart pa 8 pp 4 →
      ∃ t, exec (.signal q) s = .next t ∧ chainAt s t c (c.entry + 32) ∧
        (∀ a, (a < pa ∨ pa + 8 ≤ a) → (a < pp ∨ pp + 4 ≤ a) → t.mem.byte a = s.mem.byte a) ∧
        t.peek pp 4 = (s.peek pp 4 + 1) % 2 ^ 32 ∧
        t.peek pa 8 = if q.flg.toNat % 2 = 1 then (s.peek pa 8 + q.q3.toNat) % 2 ^ 64 else q.q3.toNat) ∧
    (chainStands s c 0 → q.flg = 0#8 → q.arg = 0#16 → q.q1 = 0#64 → q.q2 = 0#64 → q.q3 = 0#64 →
      ∃ t, exec (.endEntry q) s = .next t ∧ SameMemory s t ∧ t.chains.get? s.cur.chain = none ∧
        (∀ k, k ≠ s.cur.chain → t.chains.get? k = s.chains.get? k) ∧ (∀ g, g ≠ c.g → t.grp g = s.grp g) ∧
        ∀ o rest, s.cntOps.getD c.g [] = o :: rest → o.id = s.cur.chain → (∀ p ∈ rest, p.done = false ∧ p.id ≠ s.cur.chain) →
          (t.grp c.g).rcnt o.cls = (rest.filter fun p => p.cls == o.cls).length)

/-- The arrivals of n bytes at barrier objects, one after the other, all accepted (R200, R247). -/
def allArrive (n : Nat) : List Ep → State → Option State
  | [], s => some s
  | .mem [o] :: t, s => match s.barArrive o.pa n (s.barExpected o.pa) with
    | .inl u => allArrive n t u
    | .inr _ => none
  | _ :: _, _ => none

/-- R252, R254. A transfer entry whose bytes have moved goes on to the next entry, or, where it has buffer operands, first
advances their pointers: an advance applies to the pointers as they stand then, and one that finds its pointer moved past
the count it checked stops the chain with CB_COUNT, as a descriptor with an uncorrectable error stops it (R11). -/
def owedAdvancesMoveTheirPointers : Prop :=
  ∀ (s : State) (c : Chain) (a : Advance), s.chains.get? s.cur.chain = some c →
    s.moved [] = s.dataDone s.cur.chain ∧
    (s.moved [a] = s.updChain s.cur.chain fun c => { c with adv := [a], held := none, idle := 0 }) ∧
    let d := s.readDesc a.pa
    let ptr := if a.prod then d.pptr else d.cptr
    let there := if a.prod then d.room else d.filled
    let past := (ptr + 2 ^ 32 - a.checked) % 2 ^ 32
    let own := s.updChain s.cur.chain fun c => { c with adv := [] }
    (s.badIn a.pa 32 = true → s.advanceAll [a] = own.chainStop a.kind (.cause cUncorrectable a.va a.pa)) ∧
    (s.badIn a.pa 32 = false → a.n ≤ there ∨ past = 0 ∨ 2 ^ 31 ≤ past → s.advanceAll [a] =
      ((s.poke (a.pa + (if a.prod then 16 else 20)) 4 ((ptr + a.n) % 2 ^ 32)).updChain s.cur.chain fun c => { c with adv := [] }).dataDone s.cur.chain) ∧
    (s.badIn a.pa 32 = false → there < a.n → 0 < past → past < 2 ^ 31 → s.advanceAll [a] = own.chainStop a.kind (.reason 4 a.va))

/-- R241 to R247. A transfer entry whose operands are in place and whose sources hold no uncorrectable error reads its
source, writes its destinations and goes on to the next entry, or to the advances that its buffers owe
(`owedAdvancesMoveTheirPointers`); for scratchpad operands the bytes written are said outright. Where the chain has been marked
so, a COPY sets out to move its bytes one by one, other accesses falling between them (R292). -/
def transferEntriesMoveTheirBytes : Prop :=
  ∀ (s : State) (c : Chain) (q : EntryEnc) (pp xp yp : Nat),
    let n := q.q3.toNat % 2 ^ 25
    let src (k : Nat) : Opd := { q := q.q1, off := stepOff (q.q3.toNat / 2 ^ 48) q.prog, n := k, dst := false }
    let dst (k : Nat) : Opd := { q := q.q2, off := stepOff (q.q3.toNat / 2 ^ 32 % 2 ^ 16) q.prog, n := k, dst := true }
    let sound (spaces : List Nat) (o : Opd) (step : Nat) : Prop := o.field spaces (step != 0) = true ∧ o.aligned = true
    let free (s : State) (e : Ep) : Prop := ∀ l, e = .mem l → s.segBad c.core l = none
    (q.q3.toNat / 2 ^ 25 % 2 ^ 7 = 0 → 0 < n → n ≤ 2 ^ 24 → q.arg = 0#16 → q.flg = 0#8 → chainStands s c 1 →
      sound [0, 1, 2] (src n) (q.q3.toNat / 2 ^ 48) → sound [0, 1, 2, 3] (dst n) (q.q3.toNat / 2 ^ 32 % 2 ^ 16) →
      (c.apart = true → ∀ s1 x b, s.placeOpds c [src n, dst n] = (s1, .inl [.mem [x], b]) → free s1 (.mem [x]) →
        ∃ t m, exec (.copy q) s = .next t ∧ t = { s1 with chains := t.chains } ∧
          t.chains.get? s.cur.chain = some { c with apart := false, held := none, idle := 0, slow := some m } ∧
          m.kind = 1 ∧ m.q = q ∧ m.eps = [.mem [x], b] ∧ m.owed = s1.owed c.block 1 [src n, dst n] ∧ m.puts = [] ∧
          m.gets = (List.range x.n).map fun k => (k, { x with va := x.va + BitVec.ofNat 64 k, pa := x.pa + k, n := 1 })) ∧
      (c.apart = false → ∀ s1 a b, s.placeOpds c [src n, dst n] = (s1, .inl [a, b]) → free s1 a →
        ∃ t, exec (.copy q) s = .next t ∧ (s1.owed c.block 1 [src n, dst n] = [] → chainAt s t c (c.entry + 32)) ∧
          t = ((s1.engGet c.core a).1.engPut c.core b (s1.engGet c.core a).2).moved (s1.owed c.block 1 [src n, dst n])) ∧
      (c.apart = false → q.q3.toNat / 2 ^ 32 = 0 → q.q1.toNat / 2 ^ 25 = 2 ^ 37 → q.q2.toNat / 2 ^ 25 = 2 ^ 37 → progPlace s c pp →
        chainBytes s c (q.q1.toNat % 2 ^ 25 : Nat) n xp → chainBytes s c (q.q2.toNat % 2 ^ 25 : Nat) n yp →
        apart xp n yp n → apart pp 4 yp n → ∃ t, exec (.copy q) s = .next t ∧ chainAt s t c (c.entry + 32) ∧
          (∀ i, i < n → t.mem.byte (yp + i) = s.mem.byte (xp + i)) ∧ t.peek pp 4 = (s.peek pp 4 + 1) % 2 ^ 32 ∧
          ∀ a, (a < yp ∨ yp + n ≤ a) → (a < pp ∨ pp + 4 ≤ a) → t.mem.byte a = s.mem.byte a)) ∧
    (∀ sf df, Fmt.ofCode (q.flg.extractLsb' 0 4) = some sf → Fmt.ofCode (q.flg.extractLsb' 4 4) = some df → convPair sf df = true →
      q.q3.toNat / 2 ^ 25 % 2 ^ 7 = 0 → 0 < n → n ≤ 2 ^ 24 → q.arg = 0#16 → n * sf.width % 8 = 0 → n * df.width % 8 = 0 → chainStands s c 3 → c.apart = false →
      let x := src (n * sf.width / 8)
      let y := dst (n * df.width / 8)
      sound [0, 1, 2] x (q.q3.toNat / 2 ^ 48) → sound [0, 1, 2, 3] y (q.q3.toNat / 2 ^ 32 % 2 ^ 16) →
      ∀ s1 a b, s.placeOpds c [x, y] = (s1, .inl [a, b]) → free s1 a → ∃ t, exec (.conv q) s = .next t ∧
        (s1.owed c.block 3 [x, y] = [] → chainAt s t c (c.entry + 32)) ∧
        t = ((s1.engGet c.core a).1.engPut c.core b (convBytes sf df n (s1.engGet c.core a).2)).moved (s1.owed c.block 3 [x, y])) ∧
    (∀ cols : List Nat, cols = (List.range 4).filter (fun k => q.arg.getLsbD k) → q.flg.toNat < 2 → q.arg.toNat < 16 → q.arg ≠ 0#16 →
      q.q3.toNat / 2 ^ 25 % 2 ^ 23 = 0 → 0 < n → q.q2.toNat / 2 ^ 55 = 2 ^ 7 → q.q2.toNat / 2 ^ 25 % 2 ^ 7 = 0 →
      q.q2.toNat / 2 ^ 32 % 16 = 0 → chainStands s c 2 → c.apart = false → sound [0, 1, 2] (src n) (q.q3.toNat / 2 ^ 48) →
      let column (k off len : Nat) : Opd := { q := BitVec.ofNat 64 (2 ^ 62 + 2 ^ 23 * k + off), n := len, dst := true }
      let objs := if q.flg = 1#8 then cols.map fun k => column k (q.q2.toNat / 2 ^ 32 % 2 ^ 23) 16 else []
      ∀ s1 a puts arrs u, s.placeOpds c (src n :: cols.map (fun k => column k (q.q2.toNat % 2 ^ 23) n) ++ objs) = (s1, .inl (a :: puts ++ arrs)) →
        puts.length = cols.length → free s1 a →
        allArrive n arrs (foldState (fun x e => x.engPut c.core e (s1.engGet c.core a).2) puts (s1.engGet c.core a).1) = some u →
        ∃ t, exec (.mcast q) s = .next t ∧ (s1.owed c.block 2 [src n] = [] → chainAt s t c (c.entry + 32)) ∧
          t = u.moved (s1.owed c.block 2 [src n]))

/-- R246. GATHER and SCATTER move elements between consecutive places and the places that the indices name. -/
def indexEntriesMoveTheirElements : Prop :=
  ∀ (s s1 s2 : State) (c : Chain) (q : EntryEnc) (f : Ep) (idx : List Nat) (l : List Seg),
    let es := 2 ^ (q.flg.toNat % 8)
    let n := q.arg.toNat + 1
    let flat (x : W64) (dst : Bool) : Opd := { q := x, n := es * n, dst := dst }
    let base (x : W64) (dst : Bool) : Opd := { q := x, n := es, dst := dst }
    let sa := q.q3.toNat
    c.apart = false → q.flg.toNat < 8 → sa < 2 ^ 25 → sa % 4 = 0 → idx.length = n →
    (∀ i, i < n → ∃ pa, s1.scrSeg c.block (sa + 4 * i : Nat) 4 = .inl { va := BitVec.ofInt 64 (sa + 4 * i : Nat), pa := pa, n := 4, coh := 0 } ∧
      s1.badIn pa 4 = false ∧ idx[i]? = some (s1.peek pa 4)) →
    (chainStands s c 4 → (base q.q1 false).field [0, 1] false = true → (flat q.q2 true).field [0, 1, 2, 3] false = true →
      (flat q.q2 true).aligned = true → s.placeOpds c [flat q.q2 true] = (s1, .inl [f]) →
      s1.indexed c (base q.q1 false) es idx = (s2, .inl l) → s2.segBad c.core l = none →
      ∃ t, exec (.gather q) s = .next t ∧ (s1.owed c.block 4 [flat q.q2 true] = [] → chainAt s t c (c.entry + 32)) ∧
        t = ((s2.engGet c.core (.mem l)).1.engPut c.core f (s2.engGet c.core (.mem l)).2).moved (s1.owed c.block 4 [flat q.q2 true])) ∧
    (chainStands s c 5 → (base q.q2 true).field [0, 1] false = true → (flat q.q1 false).field [0, 1, 2] false = true →
      (flat q.q1 false).aligned = true → s.placeOpds c [flat q.q1 false] = (s1, .inl [f]) → (∀ x, f = .mem x → s1.segBad c.core x = none) →
      s1.indexed c (base q.q2 true) es idx = (s2, .inl l) →
      ∃ t, exec (.scatter q) s = .next t ∧ (s1.owed c.block 5 [flat q.q1 false] = [] → chainAt s t c (c.entry + 32)) ∧
        t = ((s2.engGet c.core f).1.engPut c.core (.mem l) (s2.engGet c.core f).2).moved (s1.owed c.block 5 [flat q.q1 false]))

/-- R248, R249. REDUCE adds its contribution to its instance, and the last one delivers the combination to every participant;
ALGOP fills its slots and appends an MMA of all rows to the array queue, with which it completes. -/
def collectiveAndArrayEntries : Prop :=
  ∀ (s : State) (c : Chain) (q : EntryEnc),
    (∀ (s1 : State) (a b : Ep),
      let f := q.flg.toNat
      let len := q.q3.toNat % 2 ^ 25
      let rank := q.q3.toNat / 2 ^ 32 % 2 ^ 16
      let src : Opd := { q := q.q1, n := len, dst := false }
      let dst : Opd := { q := q.q2, n := len, dst := true }
      let inst := if f % 4 = 0 then coreQuad c.core else if f % 4 = 1 then coreDom c.core else 0
      let fresh : Collective :=
        { grid := c.grid, scope := f % 4, inst := inst, id := q.arg.toNat, npart := q.q3.toNat / 2 ^ 48 + 1, len := len, op := f / 4 % 4, ty := f / 16 }
      f % 4 ≠ 3 → f / 4 % 4 ≠ 3 → f / 16 ∈ [0, 1, 2, 11] → q.q3.toNat / 2 ^ 25 % 2 ^ 7 = 0 → 0 < len → len % 4 = 0 → len ≤ 2 ^ 20 →
      rank < q.q3.toNat / 2 ^ 48 + 1 → src.field [1, 2] false = true → dst.field [1, 3] false = true → src.aligned = true →
      chainStands s c 6 → c.apart = false → s.placeOpds c [src, dst] = (s1, .inl [a, b]) → (∀ l, a = .mem l → s1.segBad c.core l = none) →
      let p : Contribution := { rank := rank, chain := s.cur.chain, dst := q.q2, bytes := (s1.engGet c.core a).2 }
      let waits (t : State) : Prop := t.chains.get? s.cur.chain = some { c with busy := some 0, held := none, idle := 0 }
      ((∀ x ∈ s.colls, ¬ (x.grid = c.grid ∧ x.scope = f % 4 ∧ x.inst = inst ∧ x.id = q.arg.toNat ∧ x.result = none)) →
        1 < fresh.npart → ∃ t, exec (.reduce q) s = .next t ∧ waits t ∧ t.colls = s.colls ++ [{ fresh with parts := [p] }]) ∧
      ∀ l, s.colls = [{ fresh with parts := l }] → (∀ y ∈ l, y.rank ≠ rank) →
        (l.length + 1 < fresh.npart → ∃ t, exec (.reduce q) s = .next t ∧ waits t ∧ t.colls = [{ fresh with parts := l ++ [p] }]) ∧
        (l.length + 1 = fresh.npart → ∃ t, exec (.reduce q) s = .next (t.collRun { fresh with parts := l ++ [p] }) ∧ waits t ∧
          t.colls = [{ fresh with parts := l ++ [p] }])) ∧
    (∀ (x : Collective) (p : Contribution) (e : Ep), s.chains.get? p.chain = some c → c.apart = false → x.parts = [p] → (s.grp c.g).resident = true →
      s.localEp c.block { q := p.dst, n := x.len, dst := true } = .inl e →
      let t := s.collRun x
      t.chains.get? p.chain = some { c with entry := c.entry + 32, seq := (c.seq + 1) % 2 ^ 32, idle := 0, busy := none, held := none } ∧
        x ∉ t.colls ∧ t.mem = ((s.engPut c.core e (x.result.getD x.combine)).dataDone p.chain).mem) ∧
    (∀ (x : Collective) (u v : Nat) (i j : Nat), x.npart = 2 → x.op = 0 → x.ty = 11 →
      x.parts = [{ rank := 0, chain := i, dst := 0#64, bytes := bytesOfNat 4 u }, { rank := 1, chain := j, dst := 0#64, bytes := bytesOfNat 4 v }] →
      x.combine = bytesOfNat 4 (u + v)) ∧
    ∀ (s1 : State) (eps : List Ep),
      let fmt := MFmt.ofCode (q.arg.extractLsb' 0 4)
      let g := s.grp c.g
      let sa := q.q3.toNat % 2 ^ 7
      let sb := q.q3.toNat / 2 ^ 8
      let core := s.core c.core
      let table := s.tableOf g (q.arg.toNat / 2 ^ 4 % 8)
      let opd (x : W64) : Opd := { q := x, n := 4096, dst := false }
      let part (use : Bool) (x : W64) (slot : Nat) : Prop := if use then (opd x).field [1, 2] false = true ∧ (opd x).aligned = true ∧
          core.slotIdle slot = true ∧ (spaceOf x = 2 → ∃ y, s.scrSeg c.block (x.toNat % 2 ^ 25 : Nat) 32 = .inl y ∧ (s.readDesc y.pa).esize = 4096)
        else x = 0#64
      let fa := q.flg.getLsbD 0
      let fb := q.flg.getLsbD 1
      let entry : ArrEntry :=
        { id := s.nextId, g := c.g, op := none, chain := some s.cur.chain, fmt := fmt, na := q.flg.getLsbD 2, nb := q.flg.getLsbD 3
          zc := q.flg.getLsbD 4, tile := g.accs.getD (q.arg.toNat / 2 ^ 8) 64, sa := sa, sb := sb, table := table
          rows := 0xFFFFFFFF#32, ascale := [], bscale := [] }
      fmt.scaled = false → part fa q.q1 sa → part fb q.q2 sb → q.flg.toNat < 32 → q.arg.toNat < 2 ^ 10 → q.arg.getLsbD 7 = false →
      q.q3.toNat < 2 ^ 15 → q.q3.getLsbD 7 = false → chainStands s c 7 → c.apart = false →
      (fa = true → fb = true → ∀ x y, spaceOf q.q1 = 2 → spaceOf q.q2 = 2 → s.scrSeg c.block (q.q1.toNat % 2 ^ 25 : Nat) 32 = .inl x →
        s.scrSeg c.block (q.q2.toNat % 2 ^ 25 : Nat) 32 = .inl y → apart x.pa 32 y.pa 32) → sa ∈ g.slots → sb ∈ g.slots →
      q.arg.toNat / 2 ^ 8 < g.accs.length → q.arg.toNat / 2 ^ 4 % 8 < (s.blk c.block).nalg →
      tabDim table ≤ 1 ∨ mmaAlgebra fmt = true → core.arrWait = [] → core.arrayQ.length < 8 →
      s.placeOpds c ((if fa then [opd q.q1] else []) ++ (if fb then [opd q.q2] else [])) = (s1, .inl eps) →
      (∀ l, Ep.mem l ∈ eps → s1.segBad c.core l = none) →
      ∃ t, exec (.algop q) s = .next t ∧ t.chains.get? s.cur.chain = some { c with busy := some s.nextId, held := none, idle := 0 } ∧
        (t.core c.core).arrayQ = core.arrayQ ++ [entry] ∧
        ∀ xp o, fa = true → fb = false → chainBytes s c (q.q1.toNat % 2 ^ 25 : Nat) 4096 xp → spaceOf q.q1 = 1 →
          core.opslots.get? sa = some o → (t.core c.core).opslots.get? sa = some { o with bytes := slotBytes (s.mem.bytes xp 4096), bad := false }

/-- R236, R257, R258. An entry whose kind its class does not accept, or whose fields are wrong, ends its chain with the reason;
a fault under its own cause holds the chain at the entry. That the kind is judged before the fields is the model's reading (log entry
80): an entry wrong in both ways stops with BAD_KIND. -/
def chainsStopAtFaults : Prop :=
  ∀ (s : State) (c : Chain) (q : EntryEnc), s.chains.get? s.cur.chain = some c → s.chainRuns c = true →
    (c.cls ≠ 0 → exec (.copy q) s = .next (s.chainStop 1 (.reason 1 0#64))) ∧ (q.flg ≠ 0#8 → exec (.loop q) s = .next (s.chainStop 8 (.reason 2 0#64))) ∧
    (∀ kind code a, SameMemory s (s.chainStop kind (.reason code a)) ∧
      (s.chainStop kind (.reason code a)).chains.get? s.cur.chain =
        some { c with phase := 3, fault := some (17, code, kind, a), held := none, regen := none }) ∧
    ∀ kind cause va pa, s.chainStop kind (.cause cause va pa) =
      { s with chains := s.chains.set s.cur.chain { c with phase := 2, fault := some (cause, 0, kind, va), badPa := pa, held := none, regen := none } }

/-- R236 to R239, R241 to R250, R252, R254, R256 to R258 (the model's reading in them: log entry 80). -/
def Obligations.ChainsExecuteTheirEntries : Prop :=
  chainQueueEvents ∧ controlEntriesMoveTheirChain ∧ owedAdvancesMoveTheirPointers ∧ transferEntriesMoveTheirBytes ∧ indexEntriesMoveTheirElements ∧
  collectiveAndArrayEntries ∧ chainsStopAtFaults

/-! ## Paging -/

/-- Every requester of a page that is held, on it alone or among other pages, traps when it executes again (R340). -/
def failedAfter (s t : State) (asid : Nat) (page : Nat) : Prop :=
  ∀ g va, s.asidOf g = asid → va.toNat / 2 ^ 13 = page →
    ((s.grp g).laneHeld = some va ∨ (s.grp g).laneHeld.isSome = true ∧ va ∈ (s.grp g).laneHolds → (t.grp g).laneRegen = some page) ∧
    ((s.grp g).ctlHeld = some va → (t.grp g).ctlRegen = some page)

/-- R323, R325, R329, R331, R333. A walk that finds a leaf which grants the access sets A, and fills the TLBs. -/
def walkEvents : Prop :=
  ∀ (s : State) (core asid level e addr : Nat) (va : W64) (acc : Access), canonical va = true →
    let find (u : State) := (u.core core).tlbFind asid (s.ctx asid).gen va
    find s = none → (∀ x ∈ s.quadTlb.getD (coreQuad core) [], x.hits asid (s.ctx asid).gen va = false) →
    (s.walkFrom va 4 (s.walkStart (coreDom core) asid va).1 (s.walkStart (coreDom core) asid va).2 []).1 = .leaf level e addr →
    pteCoh e ≠ 2 ∨ e / 2 ^ 48 % 2 ^ 7 < 112 ∧ pteOwner e = core → permits acc e = true → (s.leafPlace va level e).isSome = true →
    s.cached addr = true → s.mem.read addr 8 = e →
    ∃ t, exec (.pageWalk core asid va acc) s = .next t ∧ (find t).isSome = true ∧ SameOutside s t addr 8 ∧
      (acc ≠ .range → pteA (t.mem.read addr 8) = true) ∧ (dirties acc e = true → pteD (t.mem.read addr 8) = true)

/-- The entry of the page of a supervisor access of the device lies apart from the entry at an address (its A and D are set there). -/
def usesOther (s : State) (asid : Nat) (va : W64) (addr : Nat) : Prop :=
  ∀ src level e a, s.ctxLeaf asid va true none = some (src, level, e, a) → apart a 8 addr 8

/-- R338 to R340. At the end of a regeneration the bytes that the regenerator wrote go home and the leaf becomes present with its
frame, or it is restored from the IDX and ARG of its record while every held requester of the page traps, and the record says which.
The record is written through the walker of the crest domain (the model's choice, log entry 129). -/
def regenerationEvents : Prop :=
  ∀ (s : State) (dom entry : Nat) (x : Regen), (s.dom dom).regens.get? entry = some x → x.ended = true → s.cached x.leaf = true →
    let old := x.old.toNat
    let rec' := x.record + 16#64
    let u := s.updDom dom fun m => { m with regens := m.regens.erase entry }
    let u1 := (((u.cleanLines (x.frame / 128) 64).homeWrite x.leaf 8 (3 + old / 2 ^ 4 % 2 ^ 6 * 16 + x.frame)).shootdown x.asid
      (some (x.va.toNat, 2 ^ 13)))
    let v := u.poolPush x.asid x.frame
    let u2 := v.homeWrite x.leaf 8 (v.regenEntry x)
    ∃ t, exec (.regenerationEnd dom entry) s = .next t ∧ (t.dom dom).regens.get? entry = none ∧
      (x.failed = false → ∀ r, u1.ctxAddr x.asid rec' true = some r → apart r 8 x.leaf 8 → usesOther u1 x.asid rec' x.leaf → s.cached r = true →
        t.mem.read x.leaf 8 = (3 + old / 2 ^ 4 % 2 ^ 6 * 16 + x.frame) % 2 ^ 64 ∧ t.mem.read r 8 = 1 ∧
        (∀ core, (t.core core).tlbFind x.asid (s.ctx x.asid).gen x.va = none)) ∧
      (x.failed = true → ∀ r, u2.ctxAddr x.asid rec' true = some r → apart r 8 x.leaf 8 → usesOther u2 x.asid rec' x.leaf → s.cached r = true →
        (∀ a, v.ctxAddr x.asid (x.record + 8#64) true = some a → t.mem.read x.leaf 8 =
          4 + v.mem.read x.leaf 8 / 2 ^ 4 % 2 ^ 6 * 2 ^ 4 + v.mem.read a 8 / 2 ^ 32 % 2 ^ 10 * 2 ^ 10 + v.mem.read a 8 % 2 ^ 32 * 2 ^ 32) ∧
        t.mem.read r 8 = 2 ∧ failedAfter s t x.asid (x.va.toNat / 2 ^ 13))

/-- R319, R329, R335, R343. An evicted page comes back with its bytes, which the host memory that its record names kept (the model's
choice, log entry 52); a change of attribute takes the page out of every cache and TLB and keeps A, D and the permissions (log entry
54); and a speculative access fills or is dropped and counted. -/
def pageEvents : Prop :=
  ∀ (s : State) (asid level e addr : Nat) (va : W64), canonical va = true →
    (∀ (f : Nat) (u : State) (kept : Evicted), s.walkLevel asid va = (3, .absent 4 e addr) → s.cached addr = true → Memory.wf s.mem = true →
      (s.ctx asid).evicted.get? (va.toNat % 2 ^ 53 / 2 ^ 13) = some kept → s.sysUp kept.pa = true →
      (s.ctx asid).poolcnt ≠ 0#64 → s.poolTop asid = (u, some f) → apart addr 8 f (2 ^ 13) → apart kept.pa (2 ^ 13) f (2 ^ 13) →
      apart kept.pa (2 ^ 13) addr 8 →
      ∃ t, exec (.evictedPageReturn asid va) s = .next t ∧ t.mem.read addr 8 = leafWord e f kept.owner % 2 ^ 64 ∧
        (∀ k, k < 2 ^ 13 → t.mem.byte (f + k) = u.mem.byte (kept.pa + k)) ∧ (t.ctx asid).poolcnt = (s.ctx asid).poolcnt - 1#64 ∧
        (t.ctx asid).evicted.get? (va.toNat % 2 ^ 53 / 2 ^ 13) = none) ∧
    (∀ coh : BitVec 2, s.walk asid va = .leaf level e addr → coh.toNat < 2 → s.inFlight asid = false → s.cached addr = true →
      ∃ t, exec (.attributeChange asid va coh) s = .next t ∧
        t.mem.read addr 8 = (e % 2 ^ 8 + coh.toNat * 2 ^ 8 + e / 2 ^ 10 % 4 * 2 ^ 10 + pteFrame e) % 2 ^ 64 ∧
        (∀ core, (t.core core).tlbFind asid (s.ctx asid).gen va = none) ∧
        (∀ core, ∀ x ∈ (t.core core).l1, apart (x.2.line) 1 (pteFrame e / 128) (2 ^ pageBits level / 128)) ∧
        ∀ d, ∀ x ∈ (t.dom d).l2, apart (x.2.line) 1 (pteFrame e / 128) (2 ^ pageBits level / 128)) ∧
    ∀ core, (s.specTranslate core asid va .load = none → ∃ t, exec (.speculativeAccess core asid va) s = .next t ∧
        t = { s with cores := t.cores, doms := t.doms } ∧ t.core core = { s.core core with dspec := (s.core core).dspec + 1#32 }) ∧
      ∀ x pa, s.specTranslate core asid va .load = some (x, pa) → ∃ t, exec (.speculativeAccess core asid va) s = .next t ∧
        t = { s with mem := t.mem, bad := t.bad, groups := t.groups, cores := t.cores, doms := t.doms, quadTlb := t.quadTlb, ridge := t.ridge
                     use := t.use, resv := t.resv } ∧ ErrorsNoted s t ∧
        ((t.core core).tlbFind asid (s.ctx asid).gen va).isSome = true ∧ SameButWrittenBack s t (coreDom core)

/-- R341, R342. Of a context with one page the sweep clears A where it is set, and otherwise gives the page up: a regenerated one gets
its regenerable entry back, another is copied to host memory (the model's choice, log entry 52) and becomes evicted with its
permissions, and the frame joins the context's frame list. -/
def sweepEvents : Prop :=
  ∀ (s : State) (asid page e addr : Nat), (s.ctx asid).live = true → s.inFlight asid = false →
    s.leaves 4 0 (s.ctx asid).root 0 = [(page, e, addr)] → s.sweepSkips asid page e = false → s.cached addr = true →
    let frame := pteFrame e
    let w := ((s.homeWrite addr 8 (e / 2 ^ 4 % 2 ^ 6 * 2 ^ 4 + 10)).shootdown asid (some ((pageVa page).toNat, 2 ^ 13))).flushLines (frame / 128) 64
    let top := (s.ctx asid).poolbase + 8#64 * (s.ctx asid).poolcnt
    let pushed (v t : State) : Prop := (t.ctx asid).sweep = page ∧
      (∀ core, (t.core core).tlbFind asid (s.ctx asid).gen (pageVa page) = none) ∧
      ∀ p, v.ctxAddr asid top true = some p → s.cached p = true →
        (t.ctx asid).poolcnt = (s.ctx asid).poolcnt + 1#64 ∧ t.mem.read p 8 = frame
    let untouched (v : State) (a n : Nat) : Prop := usesOther v asid top a ∧ ∀ p, v.ctxAddr asid top true = some p → apart p 8 a n
    (pteA e = true → ∃ t, exec (.victimRemoval asid) s = .next t ∧ t.mem.read addr 8 = (e - 2 ^ 10) % 2 ^ 64 ∧
      ∀ core, (t.core core).tlbFind asid (s.ctx asid).gen (pageVa page) = none) ∧
    (∀ old : W64, pteA e = false → (s.ctx asid).regened.get? page = some old →
      let v := (w.homeWrite addr 8 old.toNat).updCtx asid fun c => { c with regened := c.regened.erase page }
      ∃ t, exec (.victimRemoval asid) s = .next t ∧ pushed v t ∧ (t.ctx asid).regened.get? page = none ∧
        (untouched v addr 8 → t.mem.read addr 8 = old.toNat)) ∧
    ∀ dst, pteA e = false → (s.ctx asid).regened.get? page = none → s.pageOut = some dst → w.badIn frame (2 ^ 13) = false →
      let kept : Evicted := { pa := dst, owner := if pteCoh e = 2 then pteOwner e else 0 }
      let v := ((((w.fresh.2.copyPage frame dst).updRidge fun r => { r with pagesOut := r.pagesOut + 1 }).updCtx asid fun c =>
        { c with evicted := c.evicted.set page kept })).homeWrite addr 8 (w.fresh.1 % 2 ^ 54 * 2 ^ 10 + e / 2 ^ 4 % 2 ^ 6 * 2 ^ 4 + 8)
      ∃ t, exec (.victimRemoval asid) s = .next t ∧ pushed v t ∧
        (t.ctx asid).evicted.get? page = some kept ∧
        v.mem.read addr 8 % 2 ^ 10 = e / 2 ^ 4 % 2 ^ 6 * 2 ^ 4 + 8 ∧
        (Memory.wf s.mem = true → apart dst (2 ^ 13) frame (2 ^ 13) → apart dst (2 ^ 13) addr 8 → ∀ k, k < 2 ^ 13 →
          v.mem.byte (dst + k) = w.mem.byte (frame + k))

/-- R319, R325, R329, R331, R333, R338, R340 to R343. The model's choices in them: log entries 52, 54 and 129, and log entry 92, that an
attribute change and a sweep wait while any load of the context is in flight. -/
def Obligations.PagingEventsChangeTheirEntry : Prop := walkEvents ∧ regenerationEvents ∧ pageEvents ∧ sweepEvents

/-! ## Scheduling -/

/-- R349, R350, R352, R354, R355, R362, R400. A merge window closes after 512 cc or with 256 children; a report, every 64 cc,
corrects what the master distributor holds of a domain; the eligible packet at the head of a ring, as it was read when it became a
candidate, becomes a grid under the next sequence number; a queue whose gang is not decided does not move on; a packet of before a
rollback becomes the grid that it was, after regenerations and before others (R432; the place is the model's choice, log entry 132);
and a regeneration comes first. The context of a host queue is `Config.queueContext` (the model's choice, log entry 43). -/
def activationEvents : Prop :=
  ∀ (s : State) (dom : Nat),
    (∃ t, exec (.aggregatorMerge dom) s = .next t ∧ t = { s with doms := t.doms } ∧ (∀ d, d ≠ dom → t.dom d = s.dom d) ∧
      ∀ k e, (s.dom dom).pool.get? k = some e → (t.dom dom).pool.get? k =
        some (if e.window = 1 ∨ e.window ≠ 0 ∧ 255 ≤ e.rest.length then { e with window := 0 } else e)) ∧
    ((s.dom dom).sinceReport < 64 → exec (.freeCountReport dom) s = .next s) ∧
    (64 ≤ (s.dom dom).sinceReport → ∃ t, exec (.freeCountReport dom) s = .next t ∧ t = { s with shadow := t.shadow, doms := t.doms } ∧
      (∀ d, t.dom d = if d = dom then { s.dom d with sinceReport := (s.dom d).sinceReport % 64 } else s.dom d) ∧
      ∀ c x, s.shadow.get? c = some x → (coreDom c ≠ dom → t.shadow.get? c = some x) ∧
        (coreDom c = dom → ∃ y, t.shadow.get? c = some y ∧ y.chunks = (s.core c).chunks ∧ y.slots = (s.core c).slots.keys ∧
          y.tiles = (s.core c).tilesUsed.length ∧ y.tables = (s.core c).tablesUsed.length)) ∧
    (s.ridge.state = .ready → s.gridEntries < 1024 →
      (∀ k q f, s.nextRegen = none → (∀ c ∈ s.ctxs, c.2.replay = []) → (∀ p, s.poolHead p = none) → s.ridge.queues = [(k, q)] → q.owner = some f → q.enabled = true →
        s.ridge.linksUp.getLsbD f = true → s.depMon = [] →
        let p := packetOf (q.slots.getD 0 (s.slotWords (q.slotPa f q.sqhead)))
        let a := Config.queueContext f k
        let slotsTaken (t : State) (n : Nat) : Prop :=
          t.ridge.queues.getD k {} = { q with sqhead := (q.sqhead + n) % 2 ^ q.sqlog, active := q.active + 1, slots := [] }
        (∀ g ∈ s.gangs, g.2.phase = 0 → g.2.q = k → exec .gridActivation s = .next s) ∧
        ((∀ g ∈ s.gangs, g.2.phase ≠ 0) →
        (p.ty = 1 → q.waiting ≠ 0 → p.ndep = 0 → p.cor ≠ 2 → ∃ t, exec .gridActivation s = .next t ∧ slotsTaken t 1 ∧ t.nextSeq = s.nextSeq + 1 ∧
          ∃ n, t.grids.get? s.nextSeq = some n ∧ n.seq = s.nextSeq ∧ n.asid = a ∧ n.ident = (s.ctx a).nextIdent ∧ n.pkt = p ∧ n.prio = p.prio ∧
            n.depth = 0 ∧ n.dlim = (if p.dlimField = 0 then 8 else p.dlimField) ∧ n.origin = .host f k q.sqhead ∧
            (s.packetOk p none = true → n.status = 0 ∧ n.nextBlock = 0) ∧ (s.packetOk p none = false → n.status = 2 ∧ n.nextBlock = p.blocks)) ∧
        (p.ty = 2 → 2 ≤ q.waiting → ∃ t, exec .gridActivation s = .next t ∧ slotsTaken t 2 ∧ t.nextSeq = s.nextSeq + 1 ∧
          ∃ g, t.gangs.get? s.nextSeq = some g ∧ g.seq = s.nextSeq ∧ g.asid = a ∧ g.fn = f ∧ g.q = k ∧ g.slot = q.sqhead ∧ g.prio = p.prio ∧
            (g.status = 0 ∧ g.phase = 0 ∨ g.status = 2 ∧ g.phase = 3 ∧ g.left = 0)))) ∧
      (∀ a c n l, s.nextRegen = none → s.ctxs = [(a, c)] → c.replay = .inl n :: l → n.pkt.ndep = 0 → n.pkt.cor ≠ 2 → s.packetOk n.pkt none = true →
        ∃ t, exec .gridActivation s = .next t ∧ t.nextSeq = s.nextSeq ∧ t.grids.get? n.seq = some { n with nextBlock := 0, status := 0 } ∧
          (t.ctx a).replay = l) ∧
      (∀ d n r, s.nextRegen = some (d, n, r) →
        (s.packetOk r.pkt none = false → exec .gridActivation s =
          .next (s.updDom d fun m => { m with regens := m.regens.set n { r with ended := true, failed := true } })) ∧
        (s.packetOk r.pkt none = true → ∃ t, exec .gridActivation s = .next t ∧ (t.dom d).regens.get? n = some { r with grid := s.nextSeq } ∧
          ∃ x, t.grids.get? s.nextSeq = some x ∧ x.asid = r.asid ∧ x.pkt = r.pkt ∧ x.origin = .regen d n ∧ x.status = 0)))

/-- R18, R26, R356, R358, R359, R366. One block is placed in a cycle: the first grid in order that has one to place resumes a
swapped-out block, in their order, or places its next unstarted one; a block goes to the nearest domain that holds it; and a group
starts with its launch values. -/
def placementEvents : Prop :=
  ∀ (s t : State) (seq : Nat) (pre post : List Nat),
    let m := s.markWoken
    let off x := (m.ctx (m.gridOf x).asid).switched
    let none' x := off x = true ∨ m.resumeFirst (m.resumeOrder x) = none ∧ m.placeNext x = none
    (m.placedAt = some m.now ∨ (∀ x ∈ m.gridOrder, none' x) → exec .blockPlacement s = .next m ∧ exec .blockResume s = .next m) ∧
    (m.placedAt ≠ some m.now → m.ridge.rebuildUnits = [] → m.gridOrder = pre ++ seq :: post → (∀ x ∈ pre, none' x) → off seq = false →
      (m.resumeFirst (m.resumeOrder seq) = some t → exec .blockResume s = .next { t with placedAt := some m.now } ∧
        exec .blockPlacement s = .next m) ∧
      (m.resumeFirst (m.resumeOrder seq) = none → m.freshBlocks seq = [] → m.placeNext seq = some t → exec .blockPlacement s = .next { t with placedAt := some m.now } ∧
        exec .blockResume s = .next m)) ∧
    (∀ (nd : Need) (h : Nat) (cand : Nat → Bool) (f : Fit), s.findPlace nd h cand = some f →
      ∃ d, d < 64 ∧ cand d = true ∧ s.bestQuad nd d = some f ∧
        ∀ e, e < 64 → cand e = true → hops e h < hops d h ∨ hops e h = hops d h ∧ e < d → s.bestQuad nd e = none) ∧
    ∀ (b q base col slot : Nat) (waits : Bool),
      let n := s.gridOf seq
      let p := n.pkt
      let u := s.launchBlock seq b { quad := q, base := base, places := [(col, slot)] } waits
      let g := u.grp (s.nextId + 1)
      (u.blk s.nextId).groups = [s.nextId + 1] ∧ (u.blk s.nextId).num = b ∧ (u.blk s.nextId).quad = q ∧ (u.blk s.nextId).sbase = base ∧
      g.live = true ∧ g.core = quadCore q col ∧ g.slot = slot ∧ g.cpc = p.cbase ∧ g.nregs = 96 * p.chunks ∧ g.quota = p.nslots ∧
      (∀ l, l < 32 → g.present.getLsbD l = decide (l < p.lanes)) ∧ g.gone = 0#32 ∧ g.ctlSup = false ∧ g.laneSup = false ∧
      ((u.core g.core).slots.get? slot = some (s.nextId + 1)) ∧
      (∀ r, g.rs r = match r with
        | 0 => BitVec.ofNat 64 n.ident
        | 1 => BitVec.ofNat 64 (b % p.gx)
        | 2 => BitVec.ofNat 64 (b / p.gx % p.gy)
        | 3 => BitVec.ofNat 64 (b / p.gx / p.gy)
        | 4 => 0#64
        | 5 => p.args
        | 6 => p.lbase
        | 7 => p.cbase
        | _ => 0#64) ∧
      (∀ r l, l < 32 → g.rv r l = 0x7FB00000#32 ||| BitVec.ofNat 32 r) ∧ ∀ k l, g.rp k l = decide (k = 0)

/-- R362, R363, R431. The oldest gang is reserved whole or completes with RETRY, once no rebuild waits; a committed one begins at its
round, where a round that has moved past it counts as begun (the model's choice, log entry 49). -/
def gangEvents : Prop :=
  ∀ (s s1 : State) (k : Nat) (g : Gang) (ps : List Packet), s.gangs.get? k = some g → g.seq = k →
    (s.ridge.rebuildUnits ≠ [] → exec .gangReservation s = .next s) ∧
    (s.ridge.rebuildUnits = [] → s.gangs.find? (fun x => x.2.phase == 0) = some (k, g) → s.gangParts g g.parts = (s1, .inl ps) →
      (s1.reserveParts g 0 (g.parts.zip ps) = none → exec .gangReservation s =
        .next { s1 with gangs := s1.gangs.set k { g with phase := 3, left := 0, status := 1 } }) ∧
      (∀ t, s1.reserveParts g 0 (g.parts.zip ps) = some t → ∃ w, exec .gangReservation s = .next w ∧
        w = { t with gangs := w.gangs, ctxs := w.ctxs, heartbeat := some (t.heartbeat.getD 0) } ∧
        w.gangs = t.gangs.set k { g with phase := 1, seqs := if g.seqs = [] then (List.range g.parts.length).map fun i => s1.nextSeq + i else g.seqs } ∧
        ∀ a, w.ctx a = { t.ctx a with keptGangs := (w.ctx a).keptGangs })) ∧
    (s.ridge.rebuildUnits = [] → s.gangs.find? (fun x => x.2.phase == 0) = some (k, g) →
      (s.gangParts g g.parts = (s1, .inr .bad) → exec .gangReservation s =
        .next { s1 with gangs := s1.gangs.set k { g with phase := 3, left := 0, status := 2 } }) ∧
      (s.gangParts g g.parts = (s1, .inr .wait) → exec .gangReservation s = .next s1)) ∧
    (s.gangs = [(k, g)] → g.phase = 2 → (∀ d, s.round.toNat ≠ g.round ∨ 8192 ≤ (s.dom d).stamp16 / 16) →
      ∃ t, exec .gangStart s = .next t ∧ t = { s with blocks := t.blocks, gangs := [(k, { g with phase := 3 })] } ∧
        ∀ b x, s.blocks.get? b = some x → (∃ j, (s.gridOf x.grid).origin = .part k j) → t.blocks.get? b = some { x with waits := false })

/-- R115, R348, R352, R403. A grid all of whose blocks have ended writes its signal and completes: a host grid posts its entry,
and a child counts for its parent. A gang completes with its last part. -/
def completionEvents : Prop :=
  ∀ (s s1 : State) (seq : Nat),
    (∀ n, s.grids.get? seq = some n → n.pkt.blocks ≤ n.nextBlock → n.live = 0 → s.writeSignal n.asid seq n.status n.pkt.sig = (s1, true) →
      ∃ t, exec (.gridCompletion seq) s = .next t ∧ t.grids.get? seq = none ∧ (∀ m, m ≠ seq → t.grids.get? m = s.grids.get? m) ∧ SameMemory s1 t ∧
        (∀ f q slot, n.origin = .host f q slot → t.ridge.completions = s1.ridge.completions ++
          [{ fn := f, q := q, arrived := s1.now
             entry := BitVec.ofNat 64 n.seq ++ BitVec.ofNat 8 n.cause ++ BitVec.ofNat 8 n.cause2 ++ 0#16 ++ BitVec.ofNat 8 n.status ++
               BitVec.ofNat 8 q ++ BitVec.ofNat 16 slot }]) ∧
        (∀ g o x, n.origin = .device g o → s1.groups.get? g = some x → (t.ctx n.asid).launches = (s1.ctx n.asid).launches - 1 ∧
          t.grp g = { x with childOut := x.childOut - 1, childDone := x.childDone + 1
                             childTrap := x.childTrap + (if n.status = 3 then 1 else 0) })) ∧
    (∀ n, s.grids.get? seq = some n → n.nextBlock < n.pkt.blocks ∨ n.live ≠ 0 → exec (.gridCompletion seq) s = .next s) ∧
    (∀ g, s.grids.get? seq = none → s.gangs.get? seq = some g → g.left = 0 → g.phase = 3 → s.writeSignal g.asid seq g.status g.sig = (s1, true) →
      ∃ t, exec (.gridCompletion seq) s = .next t ∧ t.gangs.get? seq = none ∧ SameMemory s1 t ∧ t.ridge.completions = s1.ridge.completions ++
        [{ fn := g.fn, q := g.q, arrived := s1.now
           entry := BitVec.ofNat 64 seq ++ BitVec.ofNat 8 g.cause ++ BitVec.ofNat 8 g.cause2 ++ 0#16 ++ BitVec.ofNat 8 g.status ++
             BitVec.ofNat 8 g.q ++ BitVec.ofNat 16 g.slot }]) ∧
    ∀ (asid st level e addr : Nat) (sig : W64), (s.writeSignal asid seq st 0#64 = (s, true)) ∧
      (sig ≠ 0#64 → canonical sig = true → s.walkAt s.ridge.crest asid sig = .leaf level e addr → pteW e = true → pteCoh e ≠ 2 →
          pteA e = true → pteD e = true → (s.leafPlace sig level e).isSome = true →
        let pa := pteFrame e + sig.toNat % 2 ^ pageBits level
        s.cached pa = true → st < 2 ^ 8 → (s.writeSignal asid seq st sig).2 = true ∧ SameOutside s (s.writeSignal asid seq st sig).1 pa 8 ∧
          (s.writeSignal asid seq st sig).1.mem.read pa 8 = 1 + st * 2 ^ 32)

/-- A block's groups hold no access or instruction in flight. -/
def atRest (s : State) (b : Nat) : Prop :=
  ∀ g ∈ (s.blk b).groups, (s.grp g).loads = [] ∧ (s.grp g).lates = [] ∧ (s.grp g).slds = [] ∧ (s.grp g).ops = []

/-- R276, R365, R366, R370. A block of a starved grid that has waited longest is swapped out; swapped-out work keeps its
registers and gives up its core; a block that fits again resumes with them; a block leaves a hot domain. -/
def swapEvents : Prop :=
  ∀ (s : State) (b seq : Nat) (x : Block), s.blocks.get? b = some x →
    (∀ rest, s.gridOrder = seq :: rest → (s.gridOf seq).whole = false → (s.ctx (s.gridOf seq).asid).switched = false →
      s.starved seq = true → x.grid = seq → x.resident = true →
      2 ^ 16 ≤ x.waitTime → s.atBoundary b = true → s.pinned b = false →
      (∀ y ∈ s.blocks, y.1 ≠ b → y.2.grid = seq → y.2.waitTime < x.waitTime) → (∀ y ∈ s.blocks, y.2.num < 2 ^ 63) → s.blocks.wf = true →
      exec .blockSwapOut s = .next (s.swapOut b)) ∧
    (x.resident = true → atRest s b → x.groups.Nodup → (∀ g ∈ x.groups, (s.grp g).exited = false ∧ (s.groups.get? g).isSome) →
      let t := s.swapOut b
      SameMemory s t ∧ (t.blk b).resident = false ∧ ∀ g ∈ x.groups, (t.grp g).resident = false ∧
        (t.grp g).s = (s.grp g).s ∧ (t.grp g).v = (s.grp g).v ∧ (t.grp g).p = (s.grp g).p ∧ (t.grp g).cpc = (s.grp g).cpc ∧
        (t.grp g).splits = (s.grp g).splits ∧
        (x.groups = [g] → (t.grp g).savedTiles = (s.grp g).accs.map (s.core (s.grp g).core).tile)) ∧
    let tried (l : List Nat) : State := foldState (fun s y => (s.resumePlace y).1) l s
    (∀ (pre post : List Nat) (u : State) (f : Fit),
      s.resumeOrder seq = pre ++ b :: post → (∀ l y l', pre = l ++ y :: l' → ((tried l).resumePlace y).2 = none) →
      (tried pre).resumePlace b = (u, some f) →
      s.resumeFirst (s.resumeOrder seq) = some (u.resume b f) ∧
        ((u.resume b f).blk b).resident = true ∧ ∀ g ∈ (u.blk b).groups, ((u.resume b f).grp g).s = (u.grp g).s ∧
          ((u.resume b f).grp g).v = (u.grp g).v ∧ ((u.resume b f).grp g).cpc = (u.grp g).cpc) ∧
    ∀ (dom : Nat) (pre post : List Nat), ((s.dom dom).hot = false ∨ s.ridge.rebuildUnits ≠ [] → exec (.blockMigration dom) s = .next s) ∧
      ((s.dom dom).hot = true → s.ridge.rebuildUnits = [] → s.leaving dom = pre ++ b :: post → (∀ y ∈ pre, s.migrated y = none) → (s.migrated b).isSome = true →
        let n := s.noteLeaving dom pre (some b)
        (quadDom x.quad = dom → (n.blk b).moving = true) ∧
        (s.atBoundary b = false ∨ s.placedAt = some s.now → exec (.blockMigration dom) s = .next n) ∧
        (s.atBoundary b = true → s.placedAt ≠ some s.now → ∀ u, n.migrated b = some u →
          exec (.blockMigration dom) s = .next { u with placedAt := some s.now }))

/-- R18, R26, R115, R276, R348 to R370, R403. -/
def Obligations.SchedulingEventsMoveGridsAndBlocks : Prop :=
  activationEvents ∧ placementEvents ∧ gangEvents ∧ completionEvents ∧ swapEvents

/-! ## Health and start -/

/-- R371, R396, R414. A domain above its limit is marked hot, and its mark, with what migrations wait for it, goes below the limit less
the hysteresis; a hot domain that cannot empty itself, and every domain with a warm inlet, slows by one step, to no less than half;
above the shutdown limit, at any sensor, every grid of a module whose firmware runs ends, at once (the model's choice, log entry 75). -/
def coolingEvents : Prop :=
  ∀ (s : State) (dom temp : Nat),
    let r := s.ridge
    let runs : Prop := r.state = .ready ∨ r.state = .loader ∨ r.state = .firmware
    let stopped (t : State) : Prop := t.ridge.state = .thermalStop ∧ SameMemory s t ∧
      ∀ k n, s.grids.get? k = some n → (t.gridOf k).status = 3 ∧ (n.status ≠ 3 → (t.gridOf k).cause = 0)
    (temp ≤ r.shutdown ∨ ¬ runs → ∃ t, exec (.domainHotMark dom temp) s = .next t ∧ t = { s with doms := t.doms, blocks := t.blocks } ∧ (∀ d, d ≠ dom → t.dom d = s.dom d) ∧
      (r.hotLimit < temp ∨ r.hotLimit ≤ temp + r.hotHyst → t.blocks = s.blocks) ∧
      (temp + r.hotHyst < r.hotLimit → ∀ b x, s.blocks.get? b = some x → t.blocks.get? b =
        some (if quadDom x.quad = dom then { x with moving := false, heldMove := false } else x)) ∧
      (t.dom dom).temp = temp ∧ (r.hotLimit < temp → (t.dom dom).hot = true) ∧
      (temp + r.hotHyst < r.hotLimit → (t.dom dom).hot = false ∧ ((s.dom dom).hot = true → (t.dom dom).clock = 0)) ∧
      (r.hotLimit ≤ temp + r.hotHyst → temp ≤ r.hotLimit → (t.dom dom).hot = (s.dom dom).hot)) ∧
    (∀ b, (s.dom dom).hot = true → b ∈ s.residents dom → s.inRegion b = true ∨ s.pinned b = true → (s.dom dom).clock ≤ 8 →
      ∃ t, exec (.domainClockStep dom) s = .next t ∧ t = { s with doms := t.doms } ∧
        t.dom dom = { s.dom dom with clock := if (s.dom dom).clock = 8 then 8 else (s.dom dom).clock + 1 }) ∧
    (∃ t, exec (.coolantThrottle temp) s = .next t ∧ t = { s with doms := t.doms, ridge := t.ridge } ∧ t.ridge.inlet = temp ∧
      (r.coolAge < 13000000 ∨ (44 * 16 ≤ temp ∧ temp ≤ 45 * 16) → t.doms = s.doms) ∧
      (13000000 ≤ r.coolAge → 45 * 16 < temp → t.ridge.coolAge = 0 ∧
        ∀ d, d < 64 → t.dom d = { s.dom d with clock := min 8 ((s.dom d).clock + 1) }) ∧
      (13000000 ≤ r.coolAge → temp < 44 * 16 → t.ridge.coolAge = 0 ∧
        ∀ d, t.dom d = if (s.dom d).hot then s.dom d else { s.dom d with clock := (s.dom d).clock - 1 })) ∧
    (temp ≤ r.shutdown ∨ ¬ runs → exec (.thermalStop temp) s = .next s) ∧
    (r.shutdown < temp → runs → (∃ t, exec (.thermalStop temp) s = .next t ∧ stopped t) ∧
      ∃ t, exec (.domainHotMark dom temp) s = .next t ∧ stopped t ∧ (t.dom dom).temp = temp)

/-- R321, R412, R428, R431, R435. An uncorrectable error is recorded and hands its jobs over; the fourth corrected error of a unit in
a window of the crest domain's cycles is lasting; and the rebuild, once the blocks of its jobs have stopped, retires the units found,
raises the generation and takes up the jobs. -/
def errorEvents : Prop :=
  ∀ (s : State) (pa : Nat) (u : FaultUnit),
    (∃ t, exec (.scrubUncorrectable pa) s = .next t ∧ SameMemory s t ∧ t = { s with bad := t.bad, ridge := t.ridge } ∧
      (∀ a, a ∈ t.bad ↔ a = pa ∨ a ∈ s.bad) ∧ t.ridge.errlog.getLast? = some { pa := pa, stamp := s.stamp s.ridge.crest } ∧
      ∀ k c f, s.ctxs.get? k = some c → c.live = true → f ∈ c.frames → f.1 ≤ pa → pa < f.1 + f.2 → (k, 19) ∈ t.ridge.rebuildJobs) ∧
    (let n := ((if s.ridge.errWindow = (s.dom s.ridge.crest).cycles / 2 ^ 40 then s.ridge.errors else []).find? fun x => x.1 == u).elim 0 fun x => x.2
      ∃ t, exec (.correctedError u) s = .next t ∧ SameMemory s t ∧ (t.ridge.errors.find? fun x => x.1 == u) = some (u, n + 1) ∧
        (n + 1 ≠ 4 → t.ridge.errlog = s.ridge.errlog ∧ t.ridge.rebuildUnits = s.ridge.rebuildUnits ∧ t.topo = s.topo) ∧
        (n + 1 = 4 → (u ∈ t.ridge.rebuildUnits ∨ u ∈ t.topo.marked) ∧ t.ridge.errlog.getLast? = some { pa := if memUnit u then s.ridge.errPa else 0, stamp := s.stamp s.ridge.crest })) ∧
    (s.ridge.rebuildUnits = [] → s.ridge.rebuildJobs = [] → exec .rebuild s = .next s) ∧
    (∀ c k, k ∈ [CoreUnit.registers, .scratchpad, .accumulators, .operands] → s.ridge.rebuildUnits = [.core c k] → s.ridge.rebuildJobs = [] → s.blocks = [] →
      ∃ t, exec .rebuild s = .next t ∧ SameMemory s t ∧ t.siteState c = 0 ∧ t.topo.gen = s.topo.gen + 1 ∧ t.topo.round = s.round.toNat ∧
        (t.core c).l1 = [] ∧ t.ridge.rebuildUnits = []) ∧
    ∀ asid cause, s.ridge.rebuildUnits = [] → s.ridge.rebuildJobs = [(asid, cause)] →
      ((∃ b ∈ s.jobBlocks asid, s.hasStopped b = false) → exec .rebuild s = .next s) ∧
      ((∀ b ∈ s.jobBlocks asid, s.hasStopped b = true) → ∃ t, exec .rebuild s = .next t ∧ t.ridge.rebuildJobs = [] ∧
        (s.imageFor asid = none → ∀ k n, s.grids.get? k = some n → n.asid = asid → (t.gridOf k).status = 3) ∧
        ∀ i, s.imageFor asid = some i → (t.ctx asid).epoch = (s.ctx asid).epoch + 1 ∧
          (i.groups.wf = true → ∀ g y, i.groups.get? g = some y → (t.grp g).v = y.v ∧ (t.grp g).p = y.p ∧ (t.grp g).splits = y.splits ∧
            (y.wait = none → t.grp g = y)))

/-- R411, R430, R431, R433. A checkpoint begins 2^38 cc after the last one. It commits when every block of the job stands at a
boundary: the image reaches its slot of the storage in host memory, the numbers of what still runs stay posted, and the waiting CKPTs
answer 0. One that does not fit its slot is not taken, and answers 2, as one whose writes would fail does (the model's choice, log entry
133); one of a job that a rebuild affects waits; and one that would read an uncorrectable error hands its job over (R11). What an image's
bytes are is `Config.imageBytes` and `Config.imageCode` (log entries 62, 120). -/
def checkpointEvents : Prop :=
  ∀ (s : State) (asid : Nat),
    let c := s.ctx asid
    let size := c.ckptSize / 2
    let need := Config.imageBytes (c.frames.map fun f => f.2).sum
    let still := ∀ b ∈ s.jobBlocks asid, (s.blk b).resident = true → s.atBoundary b = true
    let answered (t : State) (st : W64) : Prop := ∀ g w, s.asidOf g = asid → (s.grp g).wait = some w → w.kind = .ckpt → (s.grp g).parked = none →
      (t.grp g).wait = none ∧ (t.grp g).cpc = (s.grp g).cpc + 4#64 ∧ (t.grp g).rs w.n = st
    (c.live = true → c.ckptAddr ≠ 0 → c.ckptBusy = false → 2 ^ 38 ≤ c.sinceCommit → 2 ^ 38 ≤ c.sinceTry →
      exec (.periodicCheckpoint asid) s = .next (s.updCtx asid fun c => { c with ckptBusy := true })) ∧
    ((∃ j ∈ s.ridge.rebuildJobs, j.1 = asid) → exec (.checkpointCommit asid) s = .next s) ∧
    (c.live = true → c.ckptBusy = true → still → (∀ j ∈ s.ridge.rebuildJobs, j.1 ≠ asid) →
      let up := s.slotUp asid (s.ridge.ckptSlot.getD asid 0)
      (s.jobBad asid ≠ [] → ∃ t, exec (.checkpointCommit asid) s = .next t ∧ SameMemory s t ∧ t.ridge.images = s.ridge.images ∧
        t.groups = s.groups ∧ (asid, 19) ∈ t.ridge.rebuildJobs) ∧
      (s.jobBad asid = [] → size < need ∨ up = false → ∃ t, exec (.checkpointCommit asid) s = .next t ∧ SameMemory s t ∧ (t.ctx asid).ckptBusy = false ∧
        t.ridge.images = s.ridge.images ∧ t.ridge.ckptSlot = s.ridge.ckptSlot ∧ answered t 2#64) ∧
      (s.jobBad asid = [] → need ≤ size → up = true →
        let slot := s.ridge.ckptSlot.getD asid 0
        let a := hostPa c.ckptFn (BitVec.ofNat 64 (c.ckptAddr + slot * size))
        let bytes := (Config.imageCode s.free).take size
        ∃ t, exec (.checkpointCommit asid) s = .next t ∧ SameOutside s t a bytes.length ∧ t.mem.bytes a bytes.length = bytes ∧
          (t.ctx asid).ckptBusy = false ∧ (t.ctx asid).sinceCommit = 0 ∧
          (∀ n, n ∈ (t.ctx asid).posted ↔ n ∈ c.posted ∧ ((s.grids.get? n).isSome = true ∨ (s.gangs.get? n).isSome = true)) ∧
          t.ridge.images.get? (2 * asid + slot) = some (s.imageOf asid) ∧ t.ridge.ckptSlot.getD asid 0 = 1 - slot ∧ answered t 0#64))

/-- R10, R409, R413 to R417, R421, R424. Power goes, and the module keeps nothing; a start chooses the lowest sound crest candidate,
checks the key, the signatures and the form of the image in that order, measures it, starts its Ridge cores, and is ready. That memory
reads 0 after the supply has gone is log entry 3, what survives it log entry 64, the order of the reasons log entry 65, the bytes of MV4
log entry 119, and the PC of the Ridge cores log entry 121 (PRESUMED): all of these are the model's choices. -/
def startEvents : Prop :=
  ∀ (s : State) (test : BitVec 4) (img : BootImage),
    let kept (t : State) : Prop := t.ctxs = [] ∧ t.grids = [] ∧ t.groups = [] ∧ t.now = 0 ∧ t.round = 0#32 ∧ t.ridge.errlog = [] ∧
      ∀ a, t.mem.byte a = if 2 ^ 48 ≤ a then s.mem.byte a else 0#8
    let key := Config.sm3 img.key = Config.sm3 Config.standards.romKey
    let signed := ∀ x ∈ [img.loader, img.ridge, img.defects, img.monitor], Config.standards.verify img.key (Config.sm3 x.code) x.sig = true
    let measured (d : BitVec 256) : BitVec 256 := Config.sm3 (bytesOfNat 32 0 ++ bytesOfNat 32 d.toNat)
    (∃ t, exec .powerLoss s = .next t ∧ kept t ∧ t.ridge.state = .rom) ∧
    (∃ t, exec (.moduleStart test img) s = .next t ∧ kept t ∧
      (test = 0#4 → t.ridge.state = .bootFail ∧ t.ridge.reason = 1) ∧
      (test ≠ 0#4 → t.ridge.crest = if test.getLsbD 0 then 27 else if test.getLsbD 1 then 28 else if test.getLsbD 2 then 35 else 36) ∧
      (test ≠ 0#4 → ¬ key → t.ridge.state = .bootFail ∧ t.ridge.reason = 2) ∧
      (test ≠ 0#4 → key → ¬ signed → t.ridge.state = .bootFail ∧ t.ridge.reason = 3) ∧
      (test ≠ 0#4 → key → signed → img.formOk = false → t.ridge.state = .bootFail ∧ t.ridge.reason = 4) ∧
      (test ≠ 0#4 → key → signed → img.formOk = true → t.ridge.state = .ready ∧ t.ridge.shutdown = img.shutdown ∧
        t.ridge.hotLimit = img.hotLimit ∧ t.ridge.hotHyst = img.hotHyst ∧ t.ridge.certOk = (img.certKey == Config.publicKey) ∧
        t.ridge.mv.getD 0 0#256 = measured (Config.sm3 img.loader.code) ∧ t.ridge.mv.getD 1 0#256 = measured (Config.sm3 img.ridge.code) ∧
        t.ridge.mv.getD 2 0#256 = measured (Config.sm3 img.defects.code) ∧ t.ridge.mv.getD 3 0#256 = measured (Config.sm3 img.monitor.code) ∧
        t.ridge.mv.getD 4 0#256 = measured (Config.sm3 (securityBytes img)) ∧
        (∀ k, k < 8 → ∃ h, t.ridge.cores.get? k = some h ∧ h.started = true ∧ h.pc = BitVec.ofNat 64 (2 ^ 42))))

/-- R10, R321, R371, R413 to R417, R428, R430, R431, R435. -/
def Obligations.HealthEventsActOnTheModule : Prop := coolingEvents ∧ errorEvents ∧ checkpointEvents ∧ startEvents

/-! ## The host interface -/

/-- A queue block of a function has become another, and nothing else has changed; 256 stands for its admin queue. -/
def QueueNow (s t : State) (fn q : Nat) (x : Queue) : Prop :=
  t = { s with ridge := { s.ridge with queues := t.ridge.queues, admin := t.ridge.admin } } ∧
  ∀ f p, t.hq f p = if p = q ∧ (q = 256 → f = fn) then x else s.hq f p

/-- R396, R399 to R404. Doorbells and the configuration of a queue, by its owner, while the registers answer; a write by
another function, and a bad value, set ERR. That the registers answer where `hostOn` says, that SQTAIL of a disabled queue is ignored
after its range test, and that the vector field can be written while the queue is enabled, are the model's readings (log entry 66). -/
def queueEvents : Prop :=
  ∀ (s : State) (fn q : Nat) (v : W64), s.hostOn = true → q ≤ 256 →
    let x := s.hq fn q
    let n := v.toNat
    let err : Queue := { x with err := true }
    let becomes (i : Instr) (y : Queue) : Prop := ∃ t, exec i s = .next t ∧ QueueNow s t fn q y
    let mine : Prop := q = 256 ∨ x.owner = none ∨ x.owner = some fn
    (¬ mine → ∀ i ∈ [Instr.sqtail fn q v, .cqhead fn q v, .queueEnable fn q v, .queueDisable fn q v, .qstatClear fn q v], becomes i err) ∧
    (mine →
      becomes (.sqtail fn q v) (if 2 ^ x.sqlog ≤ n % 2 ^ 12 then err else if x.enabled = false then x else { x with sqtail := n % 2 ^ 12 }) ∧
      (∀ k, n % 2 ^ 12 < 2 ^ x.cqlog → x.cqhead < 2 ^ x.cqlog → k ≤ x.used → (x.cqhead + k) % 2 ^ x.cqlog = n % 2 ^ 12 → 0 < k → k < 2 ^ x.cqlog →
        becomes (.cqhead fn q v) { x with cqhead := n % 2 ^ 12, used := x.used - k }) ∧
      (2 ^ x.cqlog ≤ n % 2 ^ 12 → becomes (.cqhead fn q v) err) ∧
      (n % 2 ^ 12 = x.cqhead → x.cqhead < 2 ^ x.cqlog → x.used = 2 ^ x.cqlog → becomes (.cqhead fn q v) { x with used := 0 }) ∧
      (x.enabled = false → x.active = 0 →
        (1 ≤ n % 16 → n % 16 ≤ 12 → 1 ≤ n / 16 % 16 → n / 16 % 16 ≤ 12 → becomes (.queueEnable fn q v)
          { x with vector := n / 2 ^ 8 % 2 ^ 8, sqlog := n % 16, cqlog := n / 16 % 16, enabled := true, owner := some fn
                   sqhead := 0, sqtail := 0, cqtail := 0, cqhead := 0, used := 0, phase := true, slots := [] }) ∧
        (n % 16 = 0 ∨ 12 < n % 16 ∨ n / 16 % 16 = 0 ∨ 12 < n / 16 % 16 → becomes (.queueEnable fn q v)
          { err with vector := n / 2 ^ 8 % 2 ^ 8, sqlog := n % 16, cqlog := n / 16 % 16 })) ∧
      (x.enabled = false → x.active ≠ 0 → becomes (.queueEnable fn q v) err) ∧
      (x.enabled = true → becomes (.queueDisable fn q v)
        { x with vector := n / 2 ^ 8 % 2 ^ 8, enabled := false, sqtail := x.sqhead, slots := []
                 owner := if x.active = 0 then none else x.owner }) ∧
      becomes (.qstatClear fn q v) (if v.getLsbD 0 then { x with err := false } else x)) ∧
    (∀ off, off = (if q = 256 then 0x100 else 0x10000 + 64 * q) → mine →
      becomes (.registerWrite fn off v) (if x.enabled then x else { x with sqbase := v &&& 0xFFFFFFFFFFFFFFC0#64 }) ∧
      exec (.registerWrite fn (off + 0x18) v) s = exec (.sqtail fn q v) s ∧ exec (.registerWrite fn (off + 0x28) v) s = exec (.cqhead fn q v) s)

/-- R396, R402, R407. While the device is not ready the queue registers ignore writes; a Function Level Reset disables every
queue of its function; a link goes down; and a vector's coalescing is set, a field written 0 storing 1. Where the registers answer is the
model's reading (log entry 66). -/
def deviceEvents : Prop :=
  ∀ (s : State) (fn q v : Nat) (w : W64),
    (s.hostOn = false → ∀ i ∈ [Instr.sqtail fn q w, .cqhead fn q w, .queueEnable fn q w, .queueDisable fn q w, .qstatClear fn q w],
      exec i s = .next s) ∧
    (∃ t, exec (.functionLevelReset fn) s = .next t ∧ t = { s with ridge := { s.ridge with queues := t.ridge.queues } } ∧
      ∀ k x, s.ridge.queues.get? k = some x → t.ridge.queues.get? k = some (if x.owner = some fn
        then { x with enabled := false, sqtail := x.sqhead, slots := [], owner := if x.active = 0 then none else x.owner } else x)) ∧
    (fn < 8 → ∃ t, exec (.linkDown fn) s = .next t ∧ t = { s with ridge := { s.ridge with linksUp := t.ridge.linksUp } } ∧
      ∀ k, t.ridge.linksUp.getLsbD k = (s.ridge.linksUp.getLsbD k && k != fn)) ∧
    (v < 256 → ∃ t, exec (.coal fn v w) s = .next t ∧ t = { s with ridge := { s.ridge with vectors := t.ridge.vectors } } ∧
      t.ridge.vectors.getD (256 * fn + v) {} = { s.ridge.vectors.getD (256 * fn + v) {} with
        count := if w.toNat % 2 ^ 8 = 0 then 1 else w.toNat % 2 ^ 8
        timer := if w.toNat / 2 ^ 8 % 2 ^ 10 = 0 then 1 else w.toNat / 2 ^ 8 % 2 ^ 10 }) ∧
    ((∀ c, 0x20000 + 8 * 255 < c → exec (.registerWrite fn c w) s = .next s) ∧
      (v < 256 → exec (.registerWrite fn (0x20000 + 8 * v) w) s = exec (.coal fn v w) s))

/-- R403 to R408, R433. The completion writer puts the oldest completion with room into its ring and counts it at its vector; a
vector with its count, or whose timer has run out, sends its message, the data written at its address; and unmasking sends a
pending one. The context of a host queue is `Config.queueContext` (the model's choice, log entry 43). -/
def interruptEvents : Prop :=
  ∀ (s : State) (fn v : Nat) (c : Completion),
    let k := 256 * fn + v
    let x := s.ridge.vectors.getD k {}
    let goal := (fn + 1) * 2 ^ 48 + x.addr.toNat % 2 ^ 48
    let leaves (t : State) (goes : Prop) : Prop :=
      (goes → s.sysUp goal = true → t.ridge.msi = s.ridge.msi ++ [{ fn := fn, vector := v }] ∧ SameOutside s t goal 4 ∧
        t.mem.read goal 4 = x.data.toNat) ∧
      (goes → s.sysUp goal = false → t.ridge.errlog.getLast? = some { pa := goal, stamp := s.stamp s.ridge.crest }) ∧
      (¬ goes ∨ s.sysUp goal = false → t.ridge.msi = s.ridge.msi ∧ SameMemory s t)
    let sent (t : State) : Prop :=
      t.ridge.vectors.getD k {} = { x with seen := 0, age := 0, pending := x.pending || x.masked } ∧
      leaves t (x.masked = false)
    (x.seen ≠ 0 → x.count ≤ x.seen → ∃ t, exec (.interruptMessage fn v) s = .next t ∧ sent t) ∧
    (x.seen = 0 ∨ x.seen < x.count → exec (.interruptMessage fn v) s = .next s) ∧
    (x.seen ≠ 0 → 1300 * x.timer ≤ x.age → ∃ t, exec (.coalescingTimerExpiry fn v) s = .next t ∧ sent t) ∧
    (∃ t, exec (.vectorUnmask fn v) s = .next t ∧ t.ridge.vectors.getD k {} = { x with masked := false, pending := false } ∧
      leaves t (x.masked = true ∧ x.pending = true)) ∧
    (s.ridge.completions = [c] → s.ridge.writerAt ≤ s.now → c.q < 256 → s.ridge.linksUp.getLsbD c.fn = true → c.fn < 8 →
      let y := s.hq c.fn c.q
      let a := Config.queueContext c.fn c.q
      let seq := (c.entry.extractLsb' 64 64).toNat
      let ring := (c.fn + 1) * 2 ^ 48 + (y.cqbase + BitVec.ofNat 64 (16 * y.cqtail)).toNat % 2 ^ 48
      y.used < 2 ^ y.cqlog → c.entry.getLsbD 32 = false → seq ∉ (s.ctx a).posted → ring % 2 ^ 48 + 16 ≤ 2 ^ 48 →
      s.sysUp ring = true → s.sysUp (ring + 8) = true →
      ∃ t, exec .completionWrite s = .next t ∧ t.ridge.completions = [] ∧ t.ridge.writerAt = s.now + 4 ∧ SameOutside s t ring 16 ∧
        t.mem.read ring 16 = c.entry.toNat + (if y.phase then 2 ^ 32 else 0) ∧
        (t.hq c.fn c.q).cqtail = (y.cqtail + 1) % 2 ^ y.cqlog ∧ (t.hq c.fn c.q).used = y.used + 1 ∧
        (t.hq c.fn c.q).phase = (if (y.cqtail + 1) % 2 ^ y.cqlog = 0 then !y.phase else y.phase) ∧ (t.hq c.fn c.q).active = y.active - 1 ∧
        (t.ridge.vectors.getD (256 * c.fn + y.vector) {}).seen = (s.ridge.vectors.getD (256 * c.fn + y.vector) {}).seen + 1 ∧
        (t.ctx a).posted = (s.ctx a).posted ++ (if (s.ctx a).ckptAddr = 0 then [] else [seq])) ∧
    (s.now < s.ridge.writerAt → exec .completionWrite s = .next s)

/-- R393, R394, R419, R420. The host and a peer read and write populated DRAM at its home, and a host atomic answers the old
value; a read that meets an uncorrectable error is aborted; and a Traverse link trains or fails. That CAS compares x and stores y is the
model's reading (log entry 68). -/
def outerEvents : Prop :=
  ∀ (s : State) (fn addr peer : Nat) (l : List Byte) (x y : W64), fn < 8 →
    let n := l.length
    let inDram (n : Nat) : Prop := ∀ k, k < n → (addr + k) % 2 ^ 36 < 48 * 2 ^ 30 ∧ addr + k < 2 ^ 42
    (s.ridge.linksUp.getLsbD fn = true → inDram n →
      (s.badIn addr n = false → ∃ t, exec (.bar2Read fn addr n) s = .next t ∧ SameMemory s t ∧ t.ridge.lastRead = some (s.mem.bytes addr n)) ∧
      (s.badIn addr n = true → ∃ t, exec (.bar2Read fn addr n) s = .next t ∧ SameMemory s t ∧ t.ridge.lastRead = none) ∧
      (∃ t, exec (.bar2Write fn addr l) s = .next t ∧ SameOutside s t addr n ∧ t.mem.bytes addr n = l ∧ t.ridge = s.ridge)) ∧
    (s.ridge.linksUp.getLsbD fn = false → exec (.bar2Read fn addr n) s = .next s ∧ exec (.bar2Write fn addr l) s = .next s) ∧
    ((∃ p z, s.ridge.tports.get? p = some z ∧ z.up = true ∧ z.peer = peer) → inDram n →
      ∃ t, exec (.peerWrite peer addr l) s = .next t ∧ SameOutside s t addr n ∧ t.mem.bytes addr n = l) ∧
    (∀ w, (w = 4 ∨ w = 8) → addr % w = 0 → s.ridge.linksUp.getLsbD fn = true → inDram w → s.badIn addr w = false →
      let old := s.mem.read addr w
      let done (op : HostAtom) (new : Nat) : Prop := ∃ t, exec (.bar2Atomicop fn addr w op x y) s = .next t ∧ SameOutside s t addr w ∧
        t.mem.read addr w = new ∧ t.ridge.lastRead = some (bytesOfNat w old)
      done .fetchAdd ((old + x.toNat) % 2 ^ (8 * w)) ∧ done .swap (x.toNat % 2 ^ (8 * w)) ∧
      (old = x.toNat % 2 ^ (8 * w) → done .cas (y.toNat % 2 ^ (8 * w))) ∧ (old ≠ x.toNat % 2 ^ (8 * w) → done .cas old)) ∧
    ∀ port up p, port < 288 → peer < 128 → p < 512 → ∃ t, exec (.traverseLinkChange port up peer p) s = .next t ∧
      t = { s with ridge := { s.ridge with tports := t.ridge.tports } } ∧
      ∀ k, t.ridge.tports.getD k {} = if k = port then { up := up, peer := peer, peerPort := p } else s.ridge.tports.getD k {}

/-- R393, R394, R396, R399 to R408, R419, R420, R433 (the model's readings and choices in them: log entries 43, 66, 68). -/
def Obligations.HostEventsActOnQueuesAndMemory : Prop := queueEvents ∧ deviceEvents ∧ interruptEvents ∧ outerEvents

/-! ## Admin commands, debug and trace -/

/-- The last completion on its way answers an admin command with a status (R403, R410). -/
def Answered (t : State) (c : AdminCmd) (st : BitVec 8) : Prop :=
  ∃ x, t.ridge.completions.getLast? = some x ∧ x.fn = c.fn ∧ x.q = 256 ∧ x.entry.extractLsb' 24 8 = st ∧ x.entry.extractLsb' 0 16 = c.tag

/-- As `Answered`, with a value in SEQ. -/
def AnsweredWith (t : State) (c : AdminCmd) (st : BitVec 8) (seq : Nat) : Prop :=
  Answered t c st ∧ ∃ x, t.ridge.completions.getLast? = some x ∧ x.entry.extractLsb' 64 64 = BitVec.ofNat 64 seq

/-- Bytes stand in host memory at a bus address of a link. -/
def InHost (t : State) (fn : Nat) (a : W64) (l : List Byte) : Prop :=
  ∀ k b, l[k]? = some b → t.mem.byte ((fn + 1) * 2 ^ 48 + (a + BitVec.ofNat 64 k).toNat % 2 ^ 48) = b

/-- R376, R411, R412, R418, R422. Contexts are created and destroyed, episodes bound, and quotes, the log and the topology
read. The lowest free ASID and REFUSED for a count of 0 (log entry 74), the newest records of the log (log entry 70) and the doubleword
that each operand stands in (log entry 73) are the model's choices. -/
def contextCommands : Prop :=
  ∀ (s : State) (c : AdminCmd), c.fn < 8 → s.ridge.linksUp.getLsbD c.fn = true → s.ridge.errPages = [] →
    let zero (l : List W64) : Prop := ∀ x ∈ l, x = 0#64
    let done (i : Instr) (st : BitVec 8) (p : State → Prop) : Prop := ∃ t, exec i s = .next t ∧ Answered t c st ∧ p t
    (∀ (a : Nat) (u : State),
      let n := c.d2.toNat
      let rs := s.mapRecs c.fn c.d1 n
      0 < n → n ≤ 2 ^ 20 → c.d1.toNat % 32 = 0 → c.d3.toNat % 2 ^ 13 = 0 → (c.d3 ≠ 0#64 → c.d4.toNat % 2 ^ 14 = 0) → c.d4.toNat < 2 ^ 48 →
      c.d5.toNat < 2 ^ 32 → zero [c.d6, c.d7] → (∀ r ∈ rs, r.res0 = true ∧ r.ok = true) → disjointRecs rs = true →
      (fromTo 1 65535).find? (fun a => !(s.ctx a).live) = some a → s.buildContext c a rs = some u →
      ∃ t, exec (.createContext c) s = .next t ∧ AnsweredWith t c 0#8 (a + (t.ctx a).gen * 2 ^ 16) ∧ (t.ctx a).live = true ∧
        (t.ctx a).ckptAddr = c.d3.toNat ∧ (t.ctx a).gen = (s.ctxs.get? a).elim 0 fun x => (x.gen + 1) % 16) ∧
    (c.d2.toNat = 0 → c.d4.toNat < 2 ^ 48 → c.d5.toNat < 2 ^ 32 → zero [c.d6, c.d7] → done (.createContext c) 4#8 (SameMemory s)) ∧
    (c.d6 ≠ 0#64 → done (.createContext c) 5#8 (SameMemory s)) ∧
    (c.d1.toNat < 2 ^ 16 → zero [c.d2, c.d3, c.d4, c.d5, c.d6, c.d7] →
      ((s.ctx c.d1.toNat).live = true → done (.destroyContext c) 0#8 fun t =>
        (t.ctx c.d1.toNat).live = false ∧ (t.ctx c.d1.toNat).gen = (s.ctx c.d1.toNat).gen ∧ (t.ctx c.d1.toNat).frames = []) ∧
      ((s.ctx c.d1.toNat).live = false → done (.destroyContext c) 4#8 (SameMemory s))) ∧
    (let e := c.d1.toNat
      let a := c.d2.toNat
      let size := c.d3.toNat
      let isClosed : Prop := ∀ w, s.window e = some w → (s.epRec w).isOpen = false
      zero [c.d5, c.d6, c.d7] →
      (∀ base page u v, e < 2 ^ 14 → e / 8 % 32 < 28 → (s.ctx a).live = true → 1 ≤ size → size ≤ 1024 → 1 ≤ c.d4.toNat →
        c.d4.toNat ≤ 16384 → 2 ^ 13 + 2048 * c.d4.toNat ≤ size * 2 ^ 16 → isClosed →
        s.windowRoom (e / 2 ^ 8) (size * 2 ^ 16) = some (base, u) → u.bind e a base size c.d4.toNat = some (page, v) →
        ∃ t, exec (.bindEpisode c) s = .next t ∧ AnsweredWith t c 0#8 (pageVa page).toNat ∧ base / 2 ^ 36 = e / 2 ^ 8 ∧
          t.window e = some { asid := a, gen := (s.ctx a).gen, psize := c.d4.toNat, size := size, base := base, page := page }) ∧
      (2 ^ 14 ≤ e ∨ 28 ≤ e / 8 % 32 ∨ (s.ctx a).live = false ∨ size = 0 ∨ 1024 < size ∨ c.d4.toNat = 0 ∨ 16384 < c.d4.toNat ∨
        size * 2 ^ 16 < 2 ^ 13 + 2048 * c.d4.toNat ∨ ¬ isClosed → done (.bindEpisode c) 4#8 (SameMemory s))) ∧
    (zero [c.d6, c.d7] → s.ridge.certOk = true → done (.quote c) 0#8 fun t =>
      InHost t c.fn c.d5 ([c.d1, c.d2, c.d3, c.d4].flatMap fun x => bytesOfNat 8 x.toNat)) ∧
    (zero [c.d6, c.d7] → s.ridge.certOk = false → done (.quote c) 4#8 (SameMemory s)) ∧
    (∀ r, zero [c.d3, c.d4, c.d5, c.d6, c.d7] → c.d2 = 1#64 → s.ridge.errlog.getLast? = some r → done (.readLog c) 0#8 fun t =>
      InHost t c.fn c.d1 ([r.seq, r.cause.toNat, r.faddr.toNat, r.epc.toNat, r.elpc.toNat, r.pa, r.stamp.toNat, r.handle.toNat].flatMap fun x => bytesOfNat 8 x)) ∧
    (zero [c.d2, c.d3, c.d4, c.d5, c.d6, c.d7] → done (.readTopology c) 0#8 fun t => InHost t c.fn c.d1 (bytesOfNat 4 0x4B425731)) ∧
    ∀ (peer : Nat) (nonce : BitVec 256), s.ridge.certOk = true → s.hostOn = true → ∃ t l, exec (.traverseQuote peer nonce) s = .next t ∧
      SameMemory s t ∧ t.ridge.peerQuotes = s.ridge.peerQuotes ++ [(peer, l)] ∧ l.take 32 = bytesOfNat 32 nonce.toNat

/-- R442, R444 to R447. The debugger attaches to a context, stops and resumes its groups, reads and writes a parked group's
registers, and detaches. That a DEBUG_STOP parks by the control stream (log entry 71) and the doubleword that each operand stands in (log
entry 73) are the model's choices. -/
def debugCommands : Prop :=
  ∀ (s : State) (c : AdminCmd) (g : Nat), c.fn < 8 → s.ridge.linksUp.getLsbD c.fn = true → s.ridge.errPages = [] →
    let a := c.d1.toNat
    let zero (l : List W64) : Prop := ∀ x ∈ l, x = 0#64
    let done (i : Instr) (st : BitVec 8) (p : State → Prop) : Prop := ∃ t, exec i s = .next t ∧ Answered t c st ∧ p t
    let x := s.grp g
    a < 2 ^ 16 → (s.ctx a).live = true →
    (zero [c.d2, c.d3, c.d4, c.d5, c.d6, c.d7] →
      done (.debugAttach c) 0#8 (fun t => SameMemory s t ∧ t.ctx a = { s.ctx a with attached := true } ∧ t.groups = s.groups) ∧
      ((s.ctx a).attached = true → done (.debugDetach c) 0#8 fun t => t.ctx a = { s.ctx a with attached := false } ∧
        ∀ h ∈ s.ctxGroups a, (t.grp h).parked = none)) ∧
    ((s.ctx a).attached = true → c.d3.toNat < 64 → s.namedGroups a c.d2 c.d3.toNat = [g] →
      (zero [c.d4, c.d5, c.d6, c.d7] →
        (x.parked = none → x.sldsRead → done (.debugStop c) 0#8 fun t => ∃ p, (t.grp g).parked = some p ∧ p.reason = 4 ∧ p.ctl = true ∧
          p.trap.resume = x.cpc ∧ (t.grp g).s = x.landSlds.s ∧ (t.grp g).v = x.v ∧ (t.grp g).cpc = x.cpc) ∧
        (x.parked ≠ none → done (.debugStop c) 4#8 (SameMemory s)) ∧
        (∀ p, x.parked = some p → p.ctl = true → done (.debugResume c) 0#8 fun t => SameMemory s t ∧
          t.grp g = { x with parked := none, cpc := p.trap.resume, noBreak := p.trap.viaBreakReg }) ∧
        (∀ p, x.parked = some p → p.ctl = false → done (.debugResume c) 0#8 fun t => SameMemory s t ∧
          t.grp g = { x with parked := none, splits := x.splits.map fun y => if y.id = p.trap.split then
            { y with pc := p.trap.resume, wait := .ready, noBreak := p.trap.viaBreakReg } else y }) ∧
        (x.parked = none → done (.debugResume c) 4#8 (SameMemory s))) ∧
      (c.d2 ≠ 0#64 → x.parked ≠ none → zero [c.d6, c.d7] →
        (c.d5 = 0#64 → x.nregs ≤ 12288 → done (.debugDump c) 0#8 fun t => InHost t c.fn (c.d4 + 64#64) ((List.range 64).flatMap fun r => bytesOfNat 8 (x.rs r).toNat)) ∧
        (∀ kind r l, kind < 4 → r < 2 ^ 11 → l < 32 → c.d4.toNat = kind + 4 * r + 2 ^ 13 * l →
          (kind = 0 → r < x.nregs → done (.debugPoke c) 0#8 fun t => SameMemory s t ∧
            ∀ q k, k < 32 → (t.grp g).rv q k = if q = r ∧ k = l then c.d5.extractLsb' 0 32 else x.rv q k) ∧
          (kind = 1 → r < 64 → done (.debugPoke c) 0#8 fun t => SameMemory s t ∧ ∀ q, (t.grp g).rs q = if q = r then c.d5 else x.rs q) ∧
          (kind = 2 → 0 < r → r < 32 → done (.debugPoke c) 0#8 fun t => SameMemory s t ∧
            ∀ q k, k < 32 → (t.grp g).rp q k = if q = r ∧ k = l then c.d5.getLsbD 0 else x.rp q k) ∧
          (kind = 3 ∨ (kind = 0 ∧ x.nregs ≤ r) → done (.debugPoke c) 4#8 (SameMemory s)))))

/-- The word of a rule of the state that a sequencer is in. -/
def ruleWord (q : Sequencer) (r : Nat) : Nat := progWord q.prog (288 + 16 * q.st + 8 * r)

/-- R454, R455. A sequencer has counted the events of a cycle, and its first rule that applies, if any, is taken: it acts in the next
cycle. -/
def Counted (s : State) (q : Sequencer) (evs : List SeqEvent) (q' : Sequencer) : Prop :=
  let m := q.hits evs
  let cs := (List.range 4).map (q.counted m)
  let applies (r : Nat) : Prop := (ruleWord q r).testBit 0 = true ∧
    ((ruleWord q r / 2) % 2 ^ 8 &&& m ≠ 0 ∨ (ruleWord q r / 2 ^ 9) % 2 ^ 4 &&& q.done cs ≠ 0)
  q' = { q with counters := cs, due := s.now + 1, taken := q'.taken } ∧ (¬ applies 0 → ¬ applies 1 → q'.taken = none) ∧
  (applies 0 → q'.taken = some (0, cs)) ∧ (¬ applies 0 → applies 1 → q'.taken = some (1, cs))

/-- R450, R453 to R455. A trace ring is set up; the Cairn messages of a cycle reach their domain, each with its record; a program is loaded
into the sequencers of a mask; and a sequencer does what the rule of the cycle before says, counts its matches and takes the first rule
that applies. -/
def traceEvents : Prop :=
  ∀ (s : State) (c : AdminCmd) (d : Nat),
    let zero (l : List W64) : Prop := ∀ x ∈ l, x = 0#64
    let done (i : Instr) (st : BitVec 8) (p : State → Prop) : Prop := ∃ t, exec i s = .next t ∧ Answered t c st ∧ p t
    let q := (s.dom d).seqr
    (∀ n, zero [c.d4, c.d5, c.d6, c.d7] → s.anyAttached = true → d < 64 → c.d1.toNat = d → c.d3.toNat = n → 7 ≤ n → n ≤ 20 →
      c.d2.toNat / 2 ^ 36 = d → c.d2.toNat % 2 ^ 13 = 0 → c.d2.toNat % 2 ^ 36 + 64 + 64 * 2 ^ n ≤ 48 * 2 ^ 30 → done (.traceConfig c) 0#8 fun t =>
        (t.dom d).ring = some { base := c.d2.toNat, log2 := n } ∧ (∀ k, k < 64 → t.mem.byte (c.d2.toNat + k) = 0#8) ∧
        SameOutside s t c.d2.toNat 64) ∧
    (∀ p, p = s.mem.bytes ((c.fn + 1) * 2 ^ 48 + c.d2.toNat % 2 ^ 48) 384 →
      zero [c.d3, c.d4, c.d5, c.d6, c.d7] →
      (progOk p = true → s.anyAttached = true → done (.seqLoad c) 0#8 fun t => SameMemory s t ∧
        (∀ k, k < 64 → (t.dom k).seqr = if c.d1.getLsbD k then
          { prog := p, st := 0, counters := [0, 0, 0, 0], recording := ((p.drop 352).headD 0#8).getLsbD 0, due := s.now + 1 } else (s.dom k).seqr)) ∧
      (progOk p = false → done (.seqLoad c) 5#8 (SameMemory s))) ∧
    (∃ t, exec (.cairnReceive d) s = .next t ∧ (t.dom d).cairnIn = [] ∧ SameMemory s t ∧
      ∀ m ∈ (s.dom d).cairnIn, q.recording = true → (s.dom d).ring.isSome = true →
        ∃ x ∈ (t.dom d).traceQ, x.cc = s.now ∧ x.words[4]? = some (BitVec.ofNat 64 (m.tag % 256 + 256 * m.origin))) ∧
    ∀ (evs : List SeqEvent) (r0 : Nat) (cs0 : List Nat),
      (q.prog = [] → exec (.sequencerRuleTaken d evs) s = .next s) ∧
      (q.prog ≠ [] → q.taken = none → ∃ t, exec (.sequencerRuleTaken d evs) s = .next t ∧ SameMemory s t ∧ Counted s q evs (t.dom d).seqr) ∧
      (q.prog ≠ [] → q.taken = some (r0, cs0) → ∃ t, exec (.sequencerRuleTaken d evs) s = .next t ∧
        Counted s { q with st := ruleWord q r0 / 2 ^ 13 % 4, taken := none
                           counters := (List.range 4).map fun k => if (progWord q.prog (256 + 8 * k)).testBit 44 then 0 else cs0.getD k 0
                           recording := if ruleWord q r0 / 2 ^ 15 % 4 = 1 then true else if ruleWord q r0 / 2 ^ 15 % 4 = 2 then false else q.recording }
          evs (t.dom d).seqr)

/-- R376, R410 to R412, R418, R422, R442, R444 to R447, R450, R453 to R455 (the model's choices in them: log entries 70, 71, 73, 74). -/
def Obligations.AdminCommandsAnswerAndTakeEffect : Prop := contextCommands ∧ debugCommands ∧ traceEvents

/-! ## The Corrie -/

/-- Only one hart of the module has changed. -/
def HartNow (s t : State) (h : Nat) (x : Hart) : Prop :=
  t = { s with harts := t.harts } ∧ (∀ j, j ≠ h → t.hart j = s.hart j) ∧ t.hart h = x

/-- The episode of a hart's slot is bound to a window of DRAM that lies where no other word of it does. -/
def bound (s : State) (h slot : Nat) (w : Window) : Prop :=
  s.window (slot % 8 + 8 * (h % 28) + 256 * (h / 28)) = some w ∧ h < 1792 ∧ w.base % 2 ^ 13 = 0 ∧
  ∀ k, k < 2 ^ 13 → s.cached (w.base + k) = true

/-- A slot's record has become another, in a hart. -/
def SlotNow (s t : State) (h slot : Nat) (k : StepRec) : Prop :=
  (∀ j, j ≠ h → t.hart j = s.hart j) ∧
  t.hart h = { s.hart h with steps := (t.hart h).steps } ∧ (t.hart h).steps.getD (slot % 8) {} = k ∧
  ∀ j, j ≠ slot % 8 → (t.hart h).steps.getD j {} = (s.hart h).steps.getD j {}

/-- A slot's record once the arbiter has made a step expire whose count reached its budget before this cycle (R386). -/
def afterExpiry (k : StepRec) : StepRec :=
  if k.due = true ∧ k.late = true then { k with stopped := true, expired := some (k.expired.getD 0) } else k

/-- R378, R379, R381, R384, R386. TAKE consumes the action at HEAD and starts its step, and POST answers the step with an
observation; a port that cannot says why in PSTAT. A request that finds the arbiter taken waits there. The order in which POST judges its
reasons is the model's reading (log entry 46). -/
def stepPorts : Prop :=
  ∀ (s : State) (h slot : Nat) (v : W64) (w : Window), s.hartOn h = true → bound s h slot w →
    let x := s.hart h
    let k := afterExpiry (x.steps.getD (slot % 8) {})
    let word (off : Nat) : Nat := s.mem.read (w.base + off) 8
    let status := word 0x80 % 2 ^ 8
    let inRing (obs : Bool) : Nat := if obs then (word 0x40 + 2 ^ 64 - word 0x48) % 2 ^ 64 else (word 0 + 2 ^ 64 - word 8) % 2 ^ 64
    let head := 0x400 + 64 * (word 8 % 16)
    let tells (i : Instr) (n : Nat) : Prop := ∃ t, exec i s = .next t ∧ SameMemory s t ∧ SlotNow s t h slot { k with pstat := n }
    ((s.dom (h / 28)).arbAt = some s.now → (s.dom (h / 28)).arb = [] → ∀ i op, (i, op) ∈ [(Instr.take h slot v, ArbOp.take h slot), (.post h slot v, .post h slot v)] →
      ∃ t, exec i s = .next t ∧ SameMemory s t ∧ t.harts = s.harts ∧ (t.dom (h / 28)).arb = [{ due := s.now, op := op }]) ∧
    (arbiterIdle s (h / 28) →
    (3 ≤ status → tells (.take h slot v) 3 ∧ tells (.post h slot v) 3) ∧
    (status < 3 → (inRing false = 0 ∨ k.active = true) → tells (.take h slot v) 1) ∧
    (status < 3 → inRing false ≠ 0 → k.active = false → ∃ t, exec (.take h slot v) s = .next t ∧
      SameOutside s t (w.base + 8) 8 ∧ t.mem.read (w.base + 8) 8 = (word 8 + 1) % 2 ^ 64 ∧
      SlotNow s t h slot { k with active := true, step := BitVec.ofNat 64 (word head), version := BitVec.ofNat 32 (word (head + 8) / 2 ^ 32)
                                  cyc := 0, ins := 0, stopped := false, late := false, pstat := 0 }) ∧
    (status < 3 → 16 ≤ inRing true → tells (.post h slot v) 2) ∧
    (status < 3 → inRing true < 16 → k.active = false → tells (.post h slot v) 3) ∧
    (status < 3 → inRing true < 16 → k.active = true → 64 * w.psize < v.toNat % 2 ^ 24 → tells (.post h slot v) 4) ∧
    (status < 3 → inRing true < 16 → k.active = true → v.toNat % 2 ^ 24 ≤ 64 * w.psize → ∃ t, exec (.post h slot v) s = .next t ∧
      SameOutside s t w.base (2 ^ 13) ∧ t.mem.read (w.base + 0x40) 8 = (word 0x40 + 1) % 2 ^ 64 ∧
      t.mem.read (w.base + 0x800 + 64 * (word 0x40 % 16)) 8 = k.step.toNat ∧
      t.mem.read (w.base + 0x800 + 64 * (word 0x40 % 16) + 24) 8 = v.toNat % 2 ^ 24 ∧
      t.mem.read (w.base + 0x80) 8 % 2 ^ 8 = (if v.getLsbD 24 then 3 else status) ∧
      SlotNow s t h slot { k with active := false, pstat := 0, expired := if v.getLsbD 24 then none else k.expired }))

/-- R378, R383 to R387. The monitor opens and closes an episode; a step that has reached a budget in an earlier cycle sets its bit
of `mwdog`; and the hardware closes the episode 2^16 cc later. -/
def episodeEvents : Prop :=
  ∀ (s : State) (h slot : Nat) (v : W64) (w : Window), bound s h slot w →
    let x := s.hart h
    let k := x.steps.getD (slot % 8) {}
    let after := afterExpiry k
    let status (t : State) : Nat := t.mem.read (w.base + 0x80) 8 % 2 ^ 8
    let isOpen : Prop := status s = 1 ∨ status s = 2
    (s.hartOn h = true → x.mepsel = slot % 8 → arbiterIdle s (h / 28) →
      (v.toNat % 16 = 1 → ¬ isOpen → ∃ t, exec (.openEp h v) s = .next t ∧ SameOutside s t w.base (2 ^ 13) ∧ status t = 1 ∧
        (∀ off ∈ [0, 8, 0x40, 0x48], t.mem.read (w.base + off) 8 = 0) ∧ SlotNow s t h slot after ∧
        t.mem.read (w.base + 0x80) 8 = 1 + (if v.getLsbD 8 then 2 ^ 8 else 0) + v.toNat / 2 ^ 16 % 2 ^ 8 * 2 ^ 16) ∧
      (v.toNat % 16 = 1 → isOpen → ∃ t, exec (.openEp h v) s = .next t ∧ SameMemory s t ∧ SlotNow s t h slot after) ∧
      (v.toNat % 16 = 2 → isOpen → ∃ t, exec (.closeEp h v) s = .next t ∧ SameOutside s t w.base (2 ^ 13) ∧
        status t = (if 4 ≤ v.toNat / 16 % 16 ∧ v.toNat / 16 % 16 ≤ 6 then v.toNat / 16 % 16 else 6) ∧
        SlotNow s t h slot { after with active := false, expired := none })) ∧
    (k.active = true → k.stopped = false → (k.insBud ≠ 0 ∧ k.insBud ≤ k.ins) ∨ (k.cycBud ≠ 0 ∧ k.cycBud ≤ k.cyc) →
      (k.late = true → ∃ t, exec (.stepWatchdogExpiry h slot) s = .next t ∧ SameMemory s t ∧
        SlotNow s t h slot { k with stopped := true, expired := some (k.expired.getD 0) }) ∧
      (k.late = false → exec (.stepWatchdogExpiry h slot) s = .next s)) ∧
    (k.active = true → (k.insBud = 0 ∨ k.ins < k.insBud) → (k.cycBud = 0 ∨ k.cyc < k.cycBud) → exec (.stepWatchdogExpiry h slot) s = .next s) ∧
    (∀ n, k.expired = some n → 2 ^ 16 ≤ n → isOpen → (s.dom (h / 28)).arbAt ≠ some s.now → (s.dom (h / 28)).arb = [] →
      (∀ c ∈ s.dueCloses (h / 28), c.1 = slot % 8 + 8 * (h % 28) + 256 * (h / 28)) →
      ∃ t, exec (.watchdogHardwareClose h slot) s = .next t ∧
      SameOutside s t w.base (2 ^ 13) ∧ status t = 4 ∧ SlotNow s t h slot { k with active := false, expired := none })

/-- R210, R211, R374, R385, R388 to R391. The hart's side of the FIFOs, power gating, the start of a hart, and its platform
interrupts. That x and the CSRs are 0 at the start is the model's choice (log entry 58); the trap entry of an interrupt is that of the
RISC-V standard (log entries 56, 121: PRESUMED). -/
def hartEvents : Prop :=
  ∀ (s : State) (h col : Nat) (v : W64), col < 4 → s.hartOn h = true →
    let x := s.hart h
    let core := 4 * h + col
    let c := s.core core
    let sticky (b : BitVec 2) : Hart := { x with fstat := (x.fstat.set col (x.fstat.getD col 0#2 ||| b)) }
    let moves (i : Instr) (y : Core) : Prop := ∃ t, exec i s = .next t ∧ t = { s with cores := t.cores } ∧
      ∀ j, t.core j = if j = core then y else s.core j
    let empty : Prop := ∀ j, j < 4 → (s.core (4 * h + j)).down = [] ∧ (s.core (4 * h + j)).up = []
    let still : Prop := x.park = true ∧ x.wfi = true ∧ (∀ e ∈ x.steps, e.2.active = false) ∧ empty
    (c.down = [] → ∃ t, exec (.pop h col) s = .next t ∧ HartNow s t h (sticky 1#2)) ∧
    (∀ e rest, c.down = e :: rest → moves (.pop h col) { c with down := rest }) ∧
    (16 ≤ c.up.length → ∃ t, exec (.push h col) s = .next t ∧ HartNow s t h (sticky 2#2)) ∧
    (c.up.length < 16 → moves (.push h col) { c with up := c.up ++ [x.pushbuf.getD col (List.replicate 64 0#8)] }) ∧
    (∃ t, exec (.fstatClear h col v) s = .next t ∧
      HartNow s t h { x with fstat := x.fstat.set col (x.fstat.getD col 0#2 &&& ~~~ v.extractLsb' 0 2) }) ∧
    (x.gateReq = false → still → ∃ t, exec (.gateRequest h) s = .next t ∧ HartNow s t h { gated := true, gateRec := some (0, 0) }) ∧
    (x.gateReq = false → ¬ still → ∃ t, exec (.gateRequest h) s = .next t ∧ HartNow s t h { x with gateReq := true, gateWait := 0 }) ∧
    (x.gateReq = true → still → ∃ t, exec (.gateComplete h) s = .next t ∧
      HartNow s t h { gated := true, gateRec := some (1, min x.gateWait (2 ^ 32 - 1)) }) ∧
    (x.gateReq = true → ∃ t, exec (.gateCancel h) s = .next t ∧
      HartNow s t h { x with gateReq := false, gateRec := some (2, min x.gateWait (2 ^ 32 - 1)) }) ∧
    (h < 1792 → ∀ image, ∃ t y, exec (.corrieHartStart h image) s = .next t ∧ HartNow s t h y ∧ y.started = true ∧ y.gated = false ∧
      y.mode = .machine ∧ y.pc = 0x40000000000#64 ∧ y.x = [] ∧ y.csr = [] ∧
      ∀ k, k < 2 ^ 20 → y.sram.byte k = image.getD k 0#8) ∧
    (x.mwdog ≠ 0 → x.mode ≠ .machine → x.rcsr 0x305 &&& 3#64 = 0#64 → ∃ t y, exec (.platformInterrupt h) s = .next t ∧ HartNow s t h y ∧
      y.mode = .machine ∧ y.pc = x.rcsr 0x305 ∧ y.rcsr 0x341 = x.pc ∧ y.rcsr 0x342 = 0x8000000000000011#64 ∧ y.park = false ∧ y.wfi = false) ∧
    (s.platformPending h = [] → x.rcsr 0x344 &&& 0x70000#64 = 0#64 → exec (.platformInterrupt h) s = .next s)

/-- R210, R211, R374, R378, R379, R381, R383 to R391 (the model's readings and choices in them: log entries 46, 56, 58, 121). -/
def Obligations.CorrieEventsFollowTheirPorts : Prop := stepPorts ∧ episodeEvents ∧ hartEvents

/-! ## Encodings -/

/-- Words that the manual writes out, and the control instructions they stand for (the examples after R98, R107, R194,
R205, R216, R219, R236, R254, R255 and R266). -/
def controlSamples : List (W32 × Instr) :=
  [(0x04824A00#32, .sadd 8 9 10), (0x188A1234#32, .smovwZ 8 2 0x1234), (0x34B29806#32, .bcmp 11 10 .ge 6),
   (0xB8000005#32, .trap 5), (0xA4130000#32, .atab 1 12), (0xA8800000#32, .sclm 8), (0xA8800001#32, .sclmNw 8),
   (0xB0828B60#32, .sfill 8 10 11 .x16 0 false .row), (0x6C030000#32, .engchain 12 .copy), (0x71420000#32, .cbinit 20 8),
   (0x75424001#32, .cbadvCons 20 9), (0x78C28BB3#32, .waitcmp 12 10 11 true .wfr .ge), (0x8C000005#32, .dbar 5),
   (0x90900000#32, .wbar 9), (0xC0800004#32, .sysrd 8 .cause), (0xC402400C#32, .syswr 9 .lquota),
   (0xC8028B00#32, .tlbinvRange 10 11), (0xCCC00000#32, .ckpt 12), (0xD0000003#32, .bkpt 3), (0xD4010000#32, .sample 4),
   (0xD8000021#32, .trig 0x21), (0xBC000000#32, .tret), (0xDC000000#32, .park)]

/-- A long lane instruction with no guard, no modifier bit and no lookahead, and register fields. -/
def plainLane (dst a b : BitVec 11) (f : LForm) : LaneEnc :=
  { run := false, g := 0#5, gn := false, u := false, dst := dst, a := a, b := b, la := 0#4, sbs := 0#3, sbw := 0#3, form := f }
/-- The third word of an L96R instruction with its C field. -/
def thirdC (c : BitVec 11) : LForm := .r96 c false false false

/-- Words that the manual writes out, and the lane instructions they stand for (the examples of the chapters on lane code). -/
def laneSamples : List (List W32 × Instr) :=
  [([0xA831800A#32, 0x00801488#32, 0x01400000#32],
      .ffma { plainLane 10 4 5 (thirdC 10) with run := true, g := 3#5, la := 2#4, sbs := 1#3 } .f32 .rn),
   ([0x41900042#32, 0x00798000#32], .iset (plainLane 0 3 1632 .l64) { x := false, cond := .lt, pd := 2#5 }),
   ([0x44501805#32, 0x00000400#32], .vote (plainLane 5 0 1 .l64) .ballot),
   ([0x00801CD4#32], .movL32 false 1 1642 false),
   ([0x4490C000#32, 0x00001400#32], .lbra { plainLane 0 0 0 .l64 with g := 1#5, gn := true } 5),
   ([0x98000006#32, 0x002000D0#32, 0x010132C0#32],
      .ldg { plainLane 6 1 0 (thirdC 8) with la := 3#4, sbs := 2#3 }
        { xb := 2#3, size := .b64, sx := false, ord := .acq, scope := .wfr, hint := .none }),
   ([0x98400040#32, 0x00000000#32, 0x00001001#32], .ldt (plainLane 64 0 0 (thirdC 0)) { size := .b16, order := .col, dim := 0#2 }),
   ([0x98D00000#32, 0x00402000#32, 0x0000A000#32],
      .redf (plainLane 0 2 8 (thirdC 0)) { xb := 1#3, size := .b32, sx := false, ord := .plain, scope := .grp, hint := .none } .add false),
   ([0x94300028#32, 0x01000000#32, 0x00000147#32],
      .cvtn (plainLane 40 8 0 (thirdC 0)) { sfmt := .f32, mg := true, mag := 1#2, sat := false, nf := false, dfmt := .e2m1 }),
   ([0x94800010#32, 0x00001000#32, 0x00000000#32], .amul (plainLane 16 0 4 (thirdC 0)) .f32 0),
   ([0x9C000100#32, 0x000003C8#32, 0x00008240#32],
      .mma { plainLane 0 0 0 (thirdC 0) with la := 15#4, sbs := 1#3 }
        { sel := 0#2, zc := true, nb := false, na := false, fmt := .bf16, handle := 0#2, sa := 8#6, sb := 9#6, tab := 0#3 }),
   ([0x5C400800#32, 0x00000C00#32], .vpush (plainLane 0 0 3 .l64) true),
   ([0x5C600000#32, 0x00001400#32], .trapLane (plainLane 0 0 0 .l64) 5),
   ([0x5C802000#32, 0x00001000#32], .sysrdLane { plainLane 0 0 0 .l64 with u := true } .cause),
   ([0x5CA02006#32, 0x00800000#32], .mapf { plainLane 6 4 0 .l64 with u := true }),
   ([0x7C700000#32, 0x00000000#32], .tretLane { plainLane 0 0 0 .l64 with run := true })]

/-- The words that the manual writes out decode to the instructions it says they are. -/
def Obligations.SampleWordsDecodeToTheirInstruction : Prop :=
  (∀ p ∈ controlSamples, decodeCtl p.1 = .ok p.2) ∧ (∀ p ∈ laneSamples, decodeLaneWords p.1 = .ok p.2) ∧
  decodeEntry 0x20A#64 0#64 0x4000000000000140#64 1#64 =
    .ok (.signal { prog := 0#32, arg := 0#16, flg := 2#8, q1 := 0#64, q2 := 0x4000000000000140#64, q3 := 1#64 })

/-- R69 to R74, R236, R240. A well-formed control instruction has one word, from which decoding gives it back with every
operand, and every word that decodes is the word of the instruction it decodes to; so with engine entries. -/
def Obligations.ControlWordsAndEntriesRoundTrip : Prop :=
  (∀ (i : Instr) (c : CtlWord), WellFormed i = true → ctlWordOf i = some c → encode i = [c.word] ∧ decodeCtl c.word = .ok i) ∧
  (∀ (w : W32) (i : Instr), decodeCtl w = .ok i → WellFormed i = true ∧ encode i = [w]) ∧
  (∀ (i : Instr) (q0 q1 q2 q3 : W64), encodeEntry i = some (q0, q1, q2, q3) → decodeEntry q0 q1 q2 q3 = .ok i) ∧
  (∀ (i : Instr) (q0 q1 q2 q3 : W64), decodeEntry q0 q1 q2 q3 = .ok i → encodeEntry i = some (q0, q1, q2, q3))

/-- R75 to R79, R85 to R88. A well-formed lane instruction decodes from its words with every operand, whatever words
follow, and every words that decode are, as many as their length says, the words of the instruction they decode to. -/
def Obligations.LaneWordsRoundTrip : Prop :=
  (∀ (i : Instr) (l : List W32), WellFormed i = true → (l32WordOf i).isSome ∨ (longEncOf i).isSome →
    decodeLaneWords (encode i ++ l) = .ok i) ∧
  (∀ (w0 w1 w2 : W32) (i : Instr), decodeLane w0 w1 w2 = .ok i → WellFormed i = true ∧
    encode i = [w0, w1, w2].take ((w0.extractLsb' 30 2).toNat + 1))

/-- The scalar ALU codes of R71, and those that take bit 5 of func. -/
def aluCodes : List Nat := [0, 1, 2, 3, 4, 5, 8, 9, 10, 12, 13, 14, 16, 17, 20]
/-- The system register numbers of R74. -/
def sysNumbers : List Nat := fromTo 0 0x0F ++ fromTo 0x10 9 ++ fromTo 0x1C 5
/-- The functions f of R87 that have a packed form. -/
def packedFns : List Nat := fromTo 0 6 ++ fromTo 8 3 ++ fromTo 0x0C 7
/-- The long opcodes of R86. -/
def longCodes : List Nat :=
  fromTo 0 0x1A ++ fromTo 0x040 13 ++ fromTo 0x080 0x13 ++ packedFns.map (0x0C0 + ·) ++ packedFns.map (0x100 + ·) ++
  fromTo 0x140 13 ++ fromTo 0x180 15 ++ fromTo 0x1C0 12
/-- The long opcodes whose base format is L96R (R86, R87). -/
def wideCodes : List Nat :=
  [0x004, 0x012, 0x014, 0x018, 0x042, 0x047, 0x083, 0x0C3, 0x103, 0x092, 0x0D2, 0x112, 0x1C0, 0x1C2] ++ fromTo 0x140 6 ++
  fromTo 0x148 5 ++ fromTo 0x180 15
/-- Long opcodes of base L64 whose b field holds no operand (R79, R86). -/
def noOperandB : List Nat := [0x040, 0x045, 0x04A, 0x04B, 0x04C, 0x146, 0x147, 0x1C1, 0x1C5, 0x1C6, 0x1C7, 0x1C8, 0x1C9, 0x1CA, 0x1CB]
/-- The long opcodes on which a U bit is refused (R88). -/
def noUniform : List Nat :=
  [0x045, 0x046, 0x047, 0x092, 0x0D2, 0x112, 0x048, 0x049, 0x04A, 0x04B, 0x04C, 0x184, 0x185, 0x186, 0x187, 0x188, 0x189,
   0x1C0, 0x1C1, 0x1C2, 0x1C3, 0x1C4, 0x1C5, 0x1C6, 0x1C7, 0x1CB, 0x144, 0x145, 0x147]

/-- R70, R71, R73, R74. Control words of unassigned codes, and with a nonzero bit in a field that must be 0. -/
def reservedControlWords : Prop :=
  ∀ w : W32,
    let op := (w.extractLsb' 26 6).toNat
    let fn := (w.extractLsb' 0 8).toNat
    let refused : Prop := decodeCtl w = .error .illegalInstr
    (op = 0 ∨ 0x38 ≤ op → refused) ∧
    (op = 1 → 64 ≤ fn ∨ fn % 32 ∉ aluCodes ∨ (fn / 32 = 1 ∧ fn % 32 ∉ [3, 4, 5, 16, 17]) → refused) ∧
    (op = 2 → 6 ≤ fn → refused) ∧
    (op ∈ [0x10, 0x19, 0x1A, 0x2F, 0x37] → w.extractLsb' 0 26 ≠ 0#26 → refused) ∧
    (op = 0x17 → 4 ≤ (w.extractLsb' 0 20).toNat → refused) ∧
    (op = 0x30 → w.extractLsb' 8 12 ≠ 0#12 ∨ fn ∉ sysNumbers → refused) ∧
    (op = 0x31 → w.extractLsb' 20 6 ≠ 0#6 ∨ w.extractLsb' 8 6 ≠ 0#6 ∨ fn ∉ sysNumbers → refused)

/-- R75, R79, R85, R86, R88. Lane words of unassigned lengths, codes and formats, and with a U bit or a guard where none may be. -/
def reservedLaneWords : Prop :=
  ∀ w0 w1 w2 : W32,
    let len := (w0.extractLsb' 30 2).toNat
    let op := (w0.extractLsb' 20 9).toNat
    let b := w1.extractLsb' 10 11
    let refused : Prop := decodeLane w0 w1 w2 = .error .illegalInstr
    (len = 3 → decodeLane w0 w1 w2 = .error .illegalLength) ∧
    (len = 0 → (w0.extractLsb' 23 6).toNat = 0 ∨ 0x0B ≤ (w0.extractLsb' 23 6).toNat → refused) ∧
    (len = 1 ∨ len = 2 → op ∉ longCodes → refused) ∧
    (len = 1 → op ∈ wideCodes → refused) ∧
    (len = 2 → op ∉ wideCodes → b ≠ 2047#11 → w2.extractLsb' 21 11 ≠ 0#11 ∨ w2.extractLsb' 0 18 ≠ 0#18 → refused) ∧
    (len = 2 → op ∈ noOperandB → b = 2047#11 → refused) ∧
    (len = 2 → op = 0x044 ∨ op = 0x049 → refused) ∧
    (len = 1 ∨ len = 2 → op ∈ noUniform → w0.getLsbD 13 = true → refused) ∧
    (len = 1 ∨ len = 2 → op ∈ [0x048, 0x04A, 0x04B, 0x04C, 0x189] → w0.extractLsb' 14 6 ≠ 0#6 → refused)

/-- R70, R71, R73 to R75, R79, R85, R86, R88. -/
def Obligations.ReservedEncodingsAreRefused : Prop := reservedControlWords ∧ reservedLaneWords

/-! ## A step, reset and the invariant -/

/-- R97, R328, R460. The word fetched at an address is that of the line in the stream's code cache, and, where the cache
does not hold the line, memory's four bytes at the physical address. -/
def fetchReadsTheWord : Prop :=
  ∀ (s u : State) (ctl : Bool) (core asid grid : Nat) (va : W64) (pa coh left : Nat) (q w tlb : Bool),
    canonical va = true → va.toNat % 4 = 0 → pa % 128 = va.toNat % 128 →
    s.translate core asid grid va (if ctl then .ctlFetch else .laneFetch) = (u, .ok pa coh q w left tlb) →
    u.sysUp pa = true → u.badRead core pa 4 coh = false →
    let held := codeFind ((u.core core).code ctl) asid (u.ctx asid).gen (va.toNat / 128)
    (∀ l, u.cached pa = true → held = some l → s.fetchWord ctl core asid grid va = (u, .word (l.word va))) ∧
    (u.cached pa = false ∨ (held = none ∧ ownCopy (coreDom core) (pa / 128) coh = false) →
      ∃ t, s.fetchWord ctl core asid grid va = (t, .word (BitVec.ofNat 32 (t.mem.read pa 4))))

/-- R96, R97, R111, R118, R257. The control stream of a group in its turn, which may issue, has not given up its place, stands at no
breakpoint and has no trap pending, no fault of a chain to take and no overrun of its region, executes the instruction that its fetched
word decodes to, and a fetched word is the word at its PC. The control unit counts the issue where the instruction took a cycle (the
model's reading, log entry 110). Instructions but register arithmetic, branches, SLD and SST come after the control accesses of the group that
were left for later (R107, R282). Out of its turn, an instruction that stands before its issue is seen to wait, and nothing else
happens. -/
def controlStepRunsTheWord : Prop :=
  ∀ (s : State) (g : Nat) (rest : List Act) (x : Group), s.agenda = .ctl g :: rest → s.groups.get? g = some x →
    let b : State := { s with agenda := rest }
    let a : State := { b with cur := { s.cur with g := g } }
    a.mayCtl g = true → x.cpend = none → b.givesWay g = false → a.faultWaits g = false → a.laneTrapDue g = false → a.overrunDue g = false →
    x.ctlSup = true ∨ x.noBreak = true ∨ x.wait.isSome = true ∨ breakAt a.cctx true x.cpc = none →
    (∀ t w i, a.fetchCtl = (t, some w) → decodeCtl w = .ok i → (b.ctlTurn g = true → step s = t.ctlExec g i) ∧
      (b.ctlTurn g = false → ∀ u, t.ctlExec g i = .next u → step s = .next (if (u.grp g).standsBack then u else b))) ∧
    (∀ (t u : State) i, anyOrder i = true ∨ (t.grp g).sldsRead ∧ (∀ y ∈ (t.grp g).lates, y.lane ≠ 32) → exec i t = .next u → t.ctlExec g i =
      .next (if tookCycle t u g (branchGoes (t.grp g) i) then (u.served (t.grp g).core (t.grp g).slot (givesPlace i)).ranOne g else u)) ∧
    (∀ t w, a.fetchCtl = (t, some w) → decodeCtl w = .error .illegalInstr → b.ctlTurn g = true → step s = .next (t.trapCtl cIllegalInstr)) ∧
    (∀ t w, regenFailed x.ctlRegen x.cpc = false → a.fetchWord true x.core a.casid x.grid x.cpc = (t, .word w) →
      a.fetchCtl = (t.updCg fun y => { y with ctlHeld := none }, some w))

/-- R80, R136, R138, R368. The lane stream of a group that may issue executes the next instruction of its run, from the words at the
PC of the run's split; when that ends the run, its strand is free. A strand between runs first makes its choice, and where
that starts no run of the group, the group issues nothing. A member of a family at a rejoin point first waits for the others. -/
def laneStepRunsTheWords : Prop :=
  ∀ (s : State) (g : Nat) (rest : List Act) (x : Group) (y : Split), s.agenda = .lane g :: rest → s.groups.get? g = some x →
    let a : State := { s with agenda := rest, cur := { s.cur with g := g } }
    let c : State := a.begun g
    let b : State := { c with cur := { c.cur with split := y.id } }
    (x.run.isSome = true → c = a) ∧ (x.run.isSome = false → exec (.strandRunStart x.core (x.slot % 16)) a = .next c) ∧
    (a.mayLane g = true → a.ctlTrapDue g = false → x.lpend = none → c.cg.run = none → step s = .next c) ∧
    (a.mayLane g = true → a.ctlTrapDue g = false → x.lpend = none → c.cg.run.isSome = true → c.pickSplit c.cg = some y →
    (∀ u, b.kin ≠ [] → b.atFlow = true → b.gather = (u, false) → step s = .next (u.settle g)) ∧
    ∀ d, (b.kin = [] ∨ b.atFlow = false) ∧ d = b ∨ b.kin ≠ [] ∧ b.atFlow = true ∧ b.gather = (d, true) →
      d.cg.laneSup = true ∨ d.csplit.noBreak = true ∨ breakAt d.cctx false d.csplit.pc = none →
      (∀ t l i, d.fetchLane = (t, some l) → decodeLaneWords l = .ok i → step s = andThen (exec i t) fun u => u.settle g) ∧
      (∀ t l, d.fetchLane = (t, some l) → decodeLaneWords l = .error .illegalInstr →
        step s = .next ((t.trapLane cIllegalInstr d.csplit.mask).settle g)) ∧
      (∀ t l, d.fetchLane = (t, some l) → decodeLaneWords l = .error .illegalLength →
        step s = .next ((t.trapLane cIllegalLength d.csplit.mask).settle g)))

/-- R240, R254, R256, R292. A chain whose turn it is executes the entry that the 32 bytes of scratchpad at its entry address decode to,
and its engine counts a start; a chain whose entry owes advances makes them, and one whose entry moves its bytes one by one moves the
ones that are left. -/
def chainStepRunsTheEntry : Prop :=
  ∀ (s : State) (k : Nat) (c : Chain) (rest : List Act) (x : Seg), s.agenda = .chain k :: rest → s.chains.get? k = some c →
    let a : State := { s with agenda := rest, cur := { s.cur with chain := k, g := c.g } }
    let q (n : Nat) : W64 := BitVec.ofNat 64 (a.mem.read (x.pa + 8 * n) 8)
    (∀ i, a.chainRuns c = true → ({ s with agenda := rest }).engineNext c.core c.cls = some k → a.stopsHere c.g = false →
      a.scrSeg c.block c.entry 32 = .inl x → a.badIn x.pa 32 = false →
      kindTaken c.cls ((q 0).toNat % 16) = true → decodeEntry (q 0) (q 1) (q 2) (q 3) = .ok i →
      step s = andThen (exec i a) fun t => if startedEntry t k c then t.engineStarted c else t) ∧
    (c.adv ≠ [] → (a.grp c.g).resident = true → step s = .next (a.advanceAll c.adv)) ∧
    (c.adv = [] → c.slow.isSome = true → step s = .next (a.slowAll k))

/-- R97. A step executes the instruction that the bytes at the program counter decode to: of a control stream, a lane stream,
a chain; and an event that the plan names. With an empty plan the built-in schedule acts, which is the model's choice (log
entry 5), as its reading of what takes a cycle is (log entry 110). -/
def Obligations.StepsRunTheDecodedInstruction : Prop :=
  fetchReadsTheWord ∧ controlStepRunsTheWord ∧ laneStepRunsTheWords ∧ chainStepRunsTheEntry ∧
  (∀ (s : State) (i : Instr) (rest : List Act), s.agenda = .ev i :: rest → isEvent i = true →
    step s = exec i { s with agenda := rest }) ∧
  ∀ s : State, s.agenda = [] → step s = .next s.cycle

/-- R10, R24, R385, R395, R407, R413, R415. The module at the start of its boot: DEVSTAT reads ROM, rounds and cycles count
from 0, the measurement registers are 0, COUNT and TIMER of every vector are 1, the budgets of every hart and slot are 2^28
and 2^32, and no context, grid, group or chain is left. That memory then lists nothing and reads 0 is the model's choice
(log entry 3). -/
def Obligations.ResetLeavesNothingFromBefore : Prop :=
  let s := State.reset
  s.ridge.state = .rom ∧ s.ridge.reason = 0 ∧ s.now = 0 ∧ s.round = 0#32 ∧ s.topo.gen = 0 ∧
  (∀ k, s.ridge.mv.getD k 0#256 = 0#256) ∧
  (∀ k, (s.ridge.vectors.getD k {}).count = 1 ∧ (s.ridge.vectors.getD k {}).timer = 1 ∧ (s.ridge.vectors.getD k {}).seen = 0) ∧
  (∀ h slot, ((s.hart h).steps.getD slot {}).insBud = 2 ^ 28 ∧ ((s.hart h).steps.getD slot {}).cycBud = 2 ^ 32) ∧
  s.ctxs = [] ∧ s.grids = [] ∧ s.groups = [] ∧ s.chains = [] ∧ s.agenda = [] ∧
  (∀ f q, (s.ridge.queues.getD (256 * f + q) {}).enabled = false) ∧ (∀ a, s.mem.byte a = 0#8) ∧ s.Inv

/-- Every step keeps memory in its canonical form: addresses strictly rising, and no byte listed that an unlisted address
reads as. The form is the model's own (log entry 3). -/
def Obligations.EveryStepKeepsMemoryCanonical : Prop :=
  ∀ s t : State, s.Inv → step s = .next t → t.Inv
end

