-- ==== Sys2Proof/Laws/Tab.lean ====
section
/-!
SUPPORT. Sparse tables and memories: reading after writing, and the canonical form that every write keeps.
-/

namespace Sys2Proof.Machine

variable {α : Type}

@[simp] theorem Tab.get?_set (t : Tab α) (k j : Nat) (x : α) :
    (t.set k x).get? j = if j = k then some x else t.get? j := by
  induction t with
  | nil => simp [Tab.set, Tab.get?]
  | cons c t ih =>
    obtain ⟨i, y⟩ := c
    simp only [Tab.set]
    split
    · simp [Tab.get?]
    · split
      · subst_vars; simp only [Tab.get?]; split <;> rfl
      · simp only [Tab.get?, ih]; split <;> split <;> simp_all

@[simp] theorem Tab.get?_erase (t : Tab α) (k j : Nat) :
    (t.erase k).get? j = if j = k then none else t.get? j := by
  induction t with
  | nil => simp [Tab.erase, Tab.get?]
  | cons c t ih =>
    obtain ⟨i, y⟩ := c
    simp only [Tab.erase]
    split
    · subst_vars; rw [ih]; simp only [Tab.get?]; split <;> rfl
    · rename_i h
      simp only [Tab.get?, ih]
      by_cases hi : j = i
      · subst hi; simp [Ne.symm h]
      · simp [hi]

@[simp] theorem Tab.getD_set (t : Tab α) (k j : Nat) (x d : α) :
    (t.set k x).getD j d = if j = k then x else t.getD j d := by
  simp only [Tab.getD, Tab.get?_set]
  by_cases h : j = k <;> simp [h]

@[simp] theorem Tab.getD_put [DecidableEq α] (t : Tab α) (k j : Nat) (x d : α) :
    (t.put k x d).getD j d = if j = k then x else t.getD j d := by
  simp only [Tab.put]
  split
  · rename_i hx
    simp only [Tab.getD, Tab.get?_erase]
    by_cases h : j = k <;> simp [h, hx]
  · simp

theorem Tab.getD_put_other [DecidableEq α] (t : Tab α) (k j : Nat) (x d e : α) (h : j ≠ k) :
    (t.put k x d).getD j e = t.getD j e := by
  simp only [Tab.put]
  split
  · simp [Tab.getD, Tab.get?_erase, h]
  · simp [h]

@[simp] theorem Tab.getD_upd (t : Tab α) (k j : Nat) (d : α) (f : α → α) :
    (t.upd k d f).getD j d = if j = k then f (t.getD k d) else t.getD j d := by
  simp [Tab.upd]

/-! ## Rising keys -/

theorem Tab.sortedFrom_mono {t : Tab α} {a b : Nat} (h : a ≤ b) (hs : Tab.sortedFrom b t = true) :
    Tab.sortedFrom a t = true := by
  cases t with
  | nil => rfl
  | cons c t =>
    obtain ⟨i, y⟩ := c
    simp only [Tab.sortedFrom, Bool.and_eq_true, decide_eq_true_eq] at *
    exact ⟨by omega, hs.2⟩

theorem Tab.sortedFrom_set {t : Tab α} {lo k : Nat} {x : α} (hk : lo ≤ k) (hs : Tab.sortedFrom lo t = true) :
    Tab.sortedFrom lo (t.set k x) = true := by
  induction t generalizing lo with
  | nil => simp [Tab.set, Tab.sortedFrom, hk]
  | cons c t ih =>
    obtain ⟨i, y⟩ := c
    simp only [Tab.sortedFrom, Bool.and_eq_true, decide_eq_true_eq] at hs
    simp only [Tab.set]
    split
    · simp only [Tab.sortedFrom, Bool.and_eq_true, decide_eq_true_eq]; exact ⟨hk, by omega, hs.2⟩
    · split
      · subst_vars; simp only [Tab.sortedFrom, Bool.and_eq_true, decide_eq_true_eq]; exact ⟨hk, hs.2⟩
      · simp only [Tab.sortedFrom, Bool.and_eq_true, decide_eq_true_eq]; exact ⟨hs.1, ih (by omega) hs.2⟩

theorem Tab.sortedFrom_filter {t : Tab α} {lo : Nat} (f : Nat × α → Bool) (hs : Tab.sortedFrom lo t = true) :
    Tab.sortedFrom lo (t.filter f) = true := by
  induction t generalizing lo with
  | nil => simp [Tab.sortedFrom]
  | cons c t ih =>
    obtain ⟨i, y⟩ := c
    simp only [Tab.sortedFrom, Bool.and_eq_true, decide_eq_true_eq] at hs
    simp only [List.filter_cons]
    split
    · simp only [Tab.sortedFrom, Bool.and_eq_true, decide_eq_true_eq]; exact ⟨hs.1, ih hs.2⟩
    · exact ih (Tab.sortedFrom_mono (by omega) hs.2)

theorem Tab.erase_eq_filter (t : Tab α) (k : Nat) : t.erase k = t.filter fun c => k ≠ c.1 := by
  induction t with
  | nil => rfl
  | cons c t ih =>
    obtain ⟨i, y⟩ := c
    simp only [Tab.erase, List.filter_cons, ih]
    split <;> simp_all

theorem Tab.wf_erase {t : Tab α} {k : Nat} (h : t.wf = true) : (t.erase k).wf = true := by
  rw [Tab.erase_eq_filter]; exact Tab.sortedFrom_filter _ h

theorem Tab.wf_set {t : Tab α} {k : Nat} {x : α} (h : t.wf = true) : (t.set k x).wf = true :=
  Tab.sortedFrom_set (Nat.zero_le k) h

theorem Tab.wf_put [DecidableEq α] {t : Tab α} {k : Nat} {x d : α} (h : t.wf = true) : (t.put k x d).wf = true := by
  simp only [Tab.put]; split
  · exact Tab.wf_erase h
  · exact Tab.wf_set h

theorem Tab.wf_keep {t : Tab α} (f : Nat → α → Bool) (h : t.wf = true) : (t.keep f).wf = true :=
  Tab.sortedFrom_filter _ h

/-! ## Memory -/

theorem Memory.mem_set {m : Memory} {k : Nat} {x : Byte} {c : Host.Cell} (h : c ∈ Tab.set m k x) : c ∈ m ∨ c = (k, x) := by
  induction m with
  | nil => simp_all [Tab.set]
  | cons d m ih =>
    obtain ⟨i, y⟩ := d
    simp only [Tab.set] at h
    split at h
    · rcases List.mem_cons.mp h with h | h
      · exact .inr h
      · exact .inl h
    · split at h
      · rcases List.mem_cons.mp h with h | h
        · exact .inr h
        · exact .inl (List.mem_cons_of_mem _ h)
      · rcases List.mem_cons.mp h with h | h
        · exact .inl (h ▸ List.mem_cons_self)
        · exact (ih h).imp (List.mem_cons_of_mem _) id

/-- A byte read after a byte written. -/
@[simp] theorem Memory.byte_setByte (m : Memory) (a b : Nat) (x : Byte) :
    (m.setByte a x).byte b = if b = a then x else m.byte b := by
  simp [Memory.byte, Memory.setByte]

theorem Memory.wf_setByte {m : Memory} {a : Nat} {x : Byte} (h : m.wf = true) : (m.setByte a x).wf = true := by
  simp only [Memory.wf, Bool.and_eq_true, List.all_eq_true] at *
  refine ⟨Tab.wf_put (t := m) h.1, fun c hc => ?_⟩
  simp only [Memory.setByte, Tab.put] at hc
  split at hc
  · rw [Tab.erase_eq_filter] at hc
    exact h.2 c ((List.mem_filter.mp hc).1)
  · rcases Memory.mem_set hc with hm | rfl
    · exact h.2 c hm
    · simpa using ‹¬ x = 0#8›

theorem Memory.wf_filter {m : Memory} (f : Host.Cell → Bool) (h : m.wf = true) : Memory.wf (m.filter f) = true := by
  simp only [Memory.wf, Bool.and_eq_true, List.all_eq_true] at *
  exact ⟨Tab.sortedFrom_filter f h.1, fun c hc => h.2 c ((List.mem_filter.mp hc).1)⟩

theorem Memory.wf_write {m : Memory} (a n v : Nat) (h : m.wf = true) : (m.write a n v).wf = true := by
  induction n generalizing m a v with
  | zero => exact h
  | succ n ih => exact ih _ _ (Memory.wf_setByte h)

theorem Memory.wf_setBytes {m : Memory} (a : Nat) (l : List Byte) (h : m.wf = true) : (m.setBytes a l).wf = true := by
  induction l generalizing m a with
  | nil => exact h
  | cons b l ih => exact ih _ (Memory.wf_setByte h)

/-- A byte outside a write of n bytes is what it was. -/
theorem Memory.byte_write_outside (m : Memory) (a n v b : Nat) (h : b < a ∨ a + n ≤ b) :
    (m.write a n v).byte b = m.byte b := by
  induction n generalizing m a v with
  | zero => rfl
  | succ n ih =>
    simp only [Memory.write]
    rw [ih _ _ _ (by omega), Memory.byte_setByte, if_neg (by omega)]

/-- Byte i of a written number. -/
theorem Memory.byte_write_inside (m : Memory) (a n v i : Nat) (h : i < n) :
    (m.write a n v).byte (a + i) = BitVec.ofNat 8 (v / 256 ^ i) := by
  induction n generalizing m a v i with
  | zero => omega
  | succ n ih =>
    simp only [Memory.write]
    cases i with
    | zero => rw [Nat.add_zero, Memory.byte_write_outside _ _ _ _ _ (by omega)]; simp
    | succ i =>
      rw [show a + (i + 1) = (a + 1) + i by omega, ih _ _ _ _ (by omega), Nat.div_div_eq_div_mul, Nat.pow_succ, Nat.mul_comm]

/-- A number read where it was written. -/
theorem Memory.read_write (m : Memory) (a n v : Nat) : (m.write a n v).read a n = v % 256 ^ n := by
  have key : ∀ (k : Nat) (b : Nat) (w : Nat) (M : Memory), (∀ i, i < k → M.byte (b + i) = BitVec.ofNat 8 (w / 256 ^ i)) →
      M.read b k = w % 256 ^ k := by
    intro k
    induction k with
    | zero => intros; simp [Memory.read, Nat.mod_one]
    | succ k ih =>
      intro b w M hM
      have h0 := hM 0 (by omega)
      have ht := ih (b + 1) (w / 256) M (fun i hi => by
        have := hM (i + 1) (by omega)
        rwa [show b + (i + 1) = b + 1 + i by omega, Nat.pow_succ, Nat.mul_comm, ← Nat.div_div_eq_div_mul] at this)
      simp only [Nat.add_zero, Nat.pow_zero, Nat.div_one] at h0
      rw [Memory.read, h0, ht, BitVec.toNat_ofNat]
      have e : 256 ^ (k + 1) = 256 * 256 ^ k := by rw [Nat.pow_succ, Nat.mul_comm]
      rw [e, Nat.mod_mul]
  exact key n a v _ (fun i hi => Memory.byte_write_inside m a n v i hi)

/-- A byte that memory does not list reads as 0. -/
theorem Memory.byte_unlisted (m : Memory) (a : Nat) (h : ∀ c ∈ m, c.1 ≠ a) : m.byte a = 0#8 := by
  have : Tab.get? (α := Byte) m a = none := by
    induction m with
    | nil => rfl
    | cons c t ih =>
      have h1 : ¬ a = c.1 := fun e => h c (by simp) e.symm
      have := ih fun x hx => h x (by simp [hx])
      simp [Tab.get?, h1, this]
  simp [Memory.byte, Tab.getD, this]

/-- A number of which memory lists no byte reads as 0. -/
theorem Memory.read_unlisted (m : Memory) (n a : Nat) (h : ∀ c ∈ m, c.1 < a ∨ a + n ≤ c.1) : m.read a n = 0 := by
  induction n generalizing a with
  | zero => rfl
  | succ n ih =>
    rw [Memory.read, ih _ fun c hc => by have := h c hc; omega, Memory.byte_unlisted m a fun c hc => by have := h c hc; omega]
    rfl

end Sys2Proof.Machine
end

