-- ==== Sys2Proof/Laws/State.lean ====
section
/-!
SUPPORT. What each update of the state, and of a group, leaves as it was: one lemma for each update and field; and
reading a record after writing one.
-/

namespace Sys2Proof.Machine

/-! ## `setGrp` -/

@[simp] theorem State.setGrp_agenda (s : State) (g : Nat) (x : Group) : (s.setGrp g x).agenda = s.agenda := rfl
@[simp] theorem State.setGrp_cur (s : State) (g : Nat) (x : Group) : (s.setGrp g x).cur = s.cur := rfl
@[simp] theorem State.setGrp_free (s : State) (g : Nat) (x : Group) : (s.setGrp g x).free = s.free := rfl
@[simp] theorem State.setGrp_now (s : State) (g : Nat) (x : Group) : (s.setGrp g x).now = s.now := rfl
@[simp] theorem State.setGrp_round (s : State) (g : Nat) (x : Group) : (s.setGrp g x).round = s.round := rfl
@[simp] theorem State.setGrp_sinceRound (s : State) (g : Nat) (x : Group) : (s.setGrp g x).sinceRound = s.sinceRound := rfl
@[simp] theorem State.setGrp_heartbeat (s : State) (g : Nat) (x : Group) : (s.setGrp g x).heartbeat = s.heartbeat := rfl
@[simp] theorem State.setGrp_wbarGrid (s : State) (g : Nat) (x : Group) : (s.setGrp g x).wbarGrid = s.wbarGrid := rfl
@[simp] theorem State.setGrp_wbarArrived (s : State) (g : Nat) (x : Group) : (s.setGrp g x).wbarArrived = s.wbarArrived := rfl
@[simp] theorem State.setGrp_mem (s : State) (g : Nat) (x : Group) : (s.setGrp g x).mem = s.mem := rfl
@[simp] theorem State.setGrp_bad (s : State) (g : Nat) (x : Group) : (s.setGrp g x).bad = s.bad := rfl
@[simp] theorem State.setGrp_resv (s : State) (g : Nat) (x : Group) : (s.setGrp g x).resv = s.resv := rfl
@[simp] theorem State.setGrp_ctxs (s : State) (g : Nat) (x : Group) : (s.setGrp g x).ctxs = s.ctxs := rfl
@[simp] theorem State.setGrp_grids (s : State) (g : Nat) (x : Group) : (s.setGrp g x).grids = s.grids := rfl
@[simp] theorem State.setGrp_gangs (s : State) (g : Nat) (x : Group) : (s.setGrp g x).gangs = s.gangs := rfl
@[simp] theorem State.setGrp_blocks (s : State) (g : Nat) (x : Group) : (s.setGrp g x).blocks = s.blocks := rfl
@[simp] theorem State.setGrp_chains (s : State) (g : Nat) (x : Group) : (s.setGrp g x).chains = s.chains := rfl
@[simp] theorem State.setGrp_cntOps (s : State) (g : Nat) (x : Group) : (s.setGrp g x).cntOps = s.cntOps := rfl
@[simp] theorem State.setGrp_colls (s : State) (g : Nat) (x : Group) : (s.setGrp g x).colls = s.colls := rfl
@[simp] theorem State.setGrp_cores (s : State) (g : Nat) (x : Group) : (s.setGrp g x).cores = s.cores := rfl
@[simp] theorem State.setGrp_doms (s : State) (g : Nat) (x : Group) : (s.setGrp g x).doms = s.doms := rfl
@[simp] theorem State.setGrp_quadTlb (s : State) (g : Nat) (x : Group) : (s.setGrp g x).quadTlb = s.quadTlb := rfl
@[simp] theorem State.setGrp_shadow (s : State) (g : Nat) (x : Group) : (s.setGrp g x).shadow = s.shadow := rfl
@[simp] theorem State.setGrp_harts (s : State) (g : Nat) (x : Group) : (s.setGrp g x).harts = s.harts := rfl
@[simp] theorem State.setGrp_ridge (s : State) (g : Nat) (x : Group) : (s.setGrp g x).ridge = s.ridge := rfl
@[simp] theorem State.setGrp_topo (s : State) (g : Nat) (x : Group) : (s.setGrp g x).topo = s.topo := rfl
@[simp] theorem State.setGrp_nextSeq (s : State) (g : Nat) (x : Group) : (s.setGrp g x).nextSeq = s.nextSeq := rfl
@[simp] theorem State.setGrp_nextId (s : State) (g : Nat) (x : Group) : (s.setGrp g x).nextId = s.nextId := rfl
@[simp] theorem State.setGrp_use (s : State) (g : Nat) (x : Group) : (s.setGrp g x).use = s.use := rfl
@[simp] theorem State.setGrp_lastQueue (s : State) (g : Nat) (x : Group) : (s.setGrp g x).lastQueue = s.lastQueue := rfl
@[simp] theorem State.setGrp_placedAt (s : State) (g : Nat) (x : Group) : (s.setGrp g x).placedAt = s.placedAt := rfl
@[simp] theorem State.setGrp_depMon (s : State) (g : Nat) (x : Group) : (s.setGrp g x).depMon = s.depMon := rfl

/-! ## `updGrp` -/

@[simp] theorem State.updGrp_agenda (s : State) (g : Nat) (f : Group → Group) : (s.updGrp g f).agenda = s.agenda := rfl
@[simp] theorem State.updGrp_cur (s : State) (g : Nat) (f : Group → Group) : (s.updGrp g f).cur = s.cur := rfl
@[simp] theorem State.updGrp_free (s : State) (g : Nat) (f : Group → Group) : (s.updGrp g f).free = s.free := rfl
@[simp] theorem State.updGrp_now (s : State) (g : Nat) (f : Group → Group) : (s.updGrp g f).now = s.now := rfl
@[simp] theorem State.updGrp_round (s : State) (g : Nat) (f : Group → Group) : (s.updGrp g f).round = s.round := rfl
@[simp] theorem State.updGrp_sinceRound (s : State) (g : Nat) (f : Group → Group) : (s.updGrp g f).sinceRound = s.sinceRound := rfl
@[simp] theorem State.updGrp_heartbeat (s : State) (g : Nat) (f : Group → Group) : (s.updGrp g f).heartbeat = s.heartbeat := rfl
@[simp] theorem State.updGrp_wbarGrid (s : State) (g : Nat) (f : Group → Group) : (s.updGrp g f).wbarGrid = s.wbarGrid := rfl
@[simp] theorem State.updGrp_wbarArrived (s : State) (g : Nat) (f : Group → Group) : (s.updGrp g f).wbarArrived = s.wbarArrived := rfl
@[simp] theorem State.updGrp_mem (s : State) (g : Nat) (f : Group → Group) : (s.updGrp g f).mem = s.mem := rfl
@[simp] theorem State.updGrp_bad (s : State) (g : Nat) (f : Group → Group) : (s.updGrp g f).bad = s.bad := rfl
@[simp] theorem State.updGrp_resv (s : State) (g : Nat) (f : Group → Group) : (s.updGrp g f).resv = s.resv := rfl
@[simp] theorem State.updGrp_ctxs (s : State) (g : Nat) (f : Group → Group) : (s.updGrp g f).ctxs = s.ctxs := rfl
@[simp] theorem State.updGrp_grids (s : State) (g : Nat) (f : Group → Group) : (s.updGrp g f).grids = s.grids := rfl
@[simp] theorem State.updGrp_gangs (s : State) (g : Nat) (f : Group → Group) : (s.updGrp g f).gangs = s.gangs := rfl
@[simp] theorem State.updGrp_blocks (s : State) (g : Nat) (f : Group → Group) : (s.updGrp g f).blocks = s.blocks := rfl
@[simp] theorem State.updGrp_chains (s : State) (g : Nat) (f : Group → Group) : (s.updGrp g f).chains = s.chains := rfl
@[simp] theorem State.updGrp_cntOps (s : State) (g : Nat) (f : Group → Group) : (s.updGrp g f).cntOps = s.cntOps := rfl
@[simp] theorem State.updGrp_colls (s : State) (g : Nat) (f : Group → Group) : (s.updGrp g f).colls = s.colls := rfl
@[simp] theorem State.updGrp_cores (s : State) (g : Nat) (f : Group → Group) : (s.updGrp g f).cores = s.cores := rfl
@[simp] theorem State.updGrp_doms (s : State) (g : Nat) (f : Group → Group) : (s.updGrp g f).doms = s.doms := rfl
@[simp] theorem State.updGrp_quadTlb (s : State) (g : Nat) (f : Group → Group) : (s.updGrp g f).quadTlb = s.quadTlb := rfl
@[simp] theorem State.updGrp_shadow (s : State) (g : Nat) (f : Group → Group) : (s.updGrp g f).shadow = s.shadow := rfl
@[simp] theorem State.updGrp_harts (s : State) (g : Nat) (f : Group → Group) : (s.updGrp g f).harts = s.harts := rfl
@[simp] theorem State.updGrp_ridge (s : State) (g : Nat) (f : Group → Group) : (s.updGrp g f).ridge = s.ridge := rfl
@[simp] theorem State.updGrp_topo (s : State) (g : Nat) (f : Group → Group) : (s.updGrp g f).topo = s.topo := rfl
@[simp] theorem State.updGrp_nextSeq (s : State) (g : Nat) (f : Group → Group) : (s.updGrp g f).nextSeq = s.nextSeq := rfl
@[simp] theorem State.updGrp_nextId (s : State) (g : Nat) (f : Group → Group) : (s.updGrp g f).nextId = s.nextId := rfl
@[simp] theorem State.updGrp_use (s : State) (g : Nat) (f : Group → Group) : (s.updGrp g f).use = s.use := rfl
@[simp] theorem State.updGrp_lastQueue (s : State) (g : Nat) (f : Group → Group) : (s.updGrp g f).lastQueue = s.lastQueue := rfl
@[simp] theorem State.updGrp_placedAt (s : State) (g : Nat) (f : Group → Group) : (s.updGrp g f).placedAt = s.placedAt := rfl
@[simp] theorem State.updGrp_depMon (s : State) (g : Nat) (f : Group → Group) : (s.updGrp g f).depMon = s.depMon := rfl

/-! ## `setCg` -/

@[simp] theorem State.setCg_agenda (s : State) (x : Group) : (s.setCg x).agenda = s.agenda := rfl
@[simp] theorem State.setCg_cur (s : State) (x : Group) : (s.setCg x).cur = s.cur := rfl
@[simp] theorem State.setCg_free (s : State) (x : Group) : (s.setCg x).free = s.free := rfl
@[simp] theorem State.setCg_now (s : State) (x : Group) : (s.setCg x).now = s.now := rfl
@[simp] theorem State.setCg_round (s : State) (x : Group) : (s.setCg x).round = s.round := rfl
@[simp] theorem State.setCg_sinceRound (s : State) (x : Group) : (s.setCg x).sinceRound = s.sinceRound := rfl
@[simp] theorem State.setCg_heartbeat (s : State) (x : Group) : (s.setCg x).heartbeat = s.heartbeat := rfl
@[simp] theorem State.setCg_wbarGrid (s : State) (x : Group) : (s.setCg x).wbarGrid = s.wbarGrid := rfl
@[simp] theorem State.setCg_wbarArrived (s : State) (x : Group) : (s.setCg x).wbarArrived = s.wbarArrived := rfl
@[simp] theorem State.setCg_mem (s : State) (x : Group) : (s.setCg x).mem = s.mem := rfl
@[simp] theorem State.setCg_bad (s : State) (x : Group) : (s.setCg x).bad = s.bad := rfl
@[simp] theorem State.setCg_resv (s : State) (x : Group) : (s.setCg x).resv = s.resv := rfl
@[simp] theorem State.setCg_ctxs (s : State) (x : Group) : (s.setCg x).ctxs = s.ctxs := rfl
@[simp] theorem State.setCg_grids (s : State) (x : Group) : (s.setCg x).grids = s.grids := rfl
@[simp] theorem State.setCg_gangs (s : State) (x : Group) : (s.setCg x).gangs = s.gangs := rfl
@[simp] theorem State.setCg_blocks (s : State) (x : Group) : (s.setCg x).blocks = s.blocks := rfl
@[simp] theorem State.setCg_chains (s : State) (x : Group) : (s.setCg x).chains = s.chains := rfl
@[simp] theorem State.setCg_cntOps (s : State) (x : Group) : (s.setCg x).cntOps = s.cntOps := rfl
@[simp] theorem State.setCg_colls (s : State) (x : Group) : (s.setCg x).colls = s.colls := rfl
@[simp] theorem State.setCg_cores (s : State) (x : Group) : (s.setCg x).cores = s.cores := rfl
@[simp] theorem State.setCg_doms (s : State) (x : Group) : (s.setCg x).doms = s.doms := rfl
@[simp] theorem State.setCg_quadTlb (s : State) (x : Group) : (s.setCg x).quadTlb = s.quadTlb := rfl
@[simp] theorem State.setCg_shadow (s : State) (x : Group) : (s.setCg x).shadow = s.shadow := rfl
@[simp] theorem State.setCg_harts (s : State) (x : Group) : (s.setCg x).harts = s.harts := rfl
@[simp] theorem State.setCg_ridge (s : State) (x : Group) : (s.setCg x).ridge = s.ridge := rfl
@[simp] theorem State.setCg_topo (s : State) (x : Group) : (s.setCg x).topo = s.topo := rfl
@[simp] theorem State.setCg_nextSeq (s : State) (x : Group) : (s.setCg x).nextSeq = s.nextSeq := rfl
@[simp] theorem State.setCg_nextId (s : State) (x : Group) : (s.setCg x).nextId = s.nextId := rfl
@[simp] theorem State.setCg_use (s : State) (x : Group) : (s.setCg x).use = s.use := rfl
@[simp] theorem State.setCg_lastQueue (s : State) (x : Group) : (s.setCg x).lastQueue = s.lastQueue := rfl
@[simp] theorem State.setCg_placedAt (s : State) (x : Group) : (s.setCg x).placedAt = s.placedAt := rfl
@[simp] theorem State.setCg_depMon (s : State) (x : Group) : (s.setCg x).depMon = s.depMon := rfl

/-! ## `updCg` -/

@[simp] theorem State.updCg_agenda (s : State) (f : Group → Group) : (s.updCg f).agenda = s.agenda := rfl
@[simp] theorem State.updCg_cur (s : State) (f : Group → Group) : (s.updCg f).cur = s.cur := rfl
@[simp] theorem State.updCg_free (s : State) (f : Group → Group) : (s.updCg f).free = s.free := rfl
@[simp] theorem State.updCg_now (s : State) (f : Group → Group) : (s.updCg f).now = s.now := rfl
@[simp] theorem State.updCg_round (s : State) (f : Group → Group) : (s.updCg f).round = s.round := rfl
@[simp] theorem State.updCg_sinceRound (s : State) (f : Group → Group) : (s.updCg f).sinceRound = s.sinceRound := rfl
@[simp] theorem State.updCg_heartbeat (s : State) (f : Group → Group) : (s.updCg f).heartbeat = s.heartbeat := rfl
@[simp] theorem State.updCg_wbarGrid (s : State) (f : Group → Group) : (s.updCg f).wbarGrid = s.wbarGrid := rfl
@[simp] theorem State.updCg_wbarArrived (s : State) (f : Group → Group) : (s.updCg f).wbarArrived = s.wbarArrived := rfl
@[simp] theorem State.updCg_mem (s : State) (f : Group → Group) : (s.updCg f).mem = s.mem := rfl
@[simp] theorem State.updCg_bad (s : State) (f : Group → Group) : (s.updCg f).bad = s.bad := rfl
@[simp] theorem State.updCg_resv (s : State) (f : Group → Group) : (s.updCg f).resv = s.resv := rfl
@[simp] theorem State.updCg_ctxs (s : State) (f : Group → Group) : (s.updCg f).ctxs = s.ctxs := rfl
@[simp] theorem State.updCg_grids (s : State) (f : Group → Group) : (s.updCg f).grids = s.grids := rfl
@[simp] theorem State.updCg_gangs (s : State) (f : Group → Group) : (s.updCg f).gangs = s.gangs := rfl
@[simp] theorem State.updCg_blocks (s : State) (f : Group → Group) : (s.updCg f).blocks = s.blocks := rfl
@[simp] theorem State.updCg_chains (s : State) (f : Group → Group) : (s.updCg f).chains = s.chains := rfl
@[simp] theorem State.updCg_cntOps (s : State) (f : Group → Group) : (s.updCg f).cntOps = s.cntOps := rfl
@[simp] theorem State.updCg_colls (s : State) (f : Group → Group) : (s.updCg f).colls = s.colls := rfl
@[simp] theorem State.updCg_cores (s : State) (f : Group → Group) : (s.updCg f).cores = s.cores := rfl
@[simp] theorem State.updCg_doms (s : State) (f : Group → Group) : (s.updCg f).doms = s.doms := rfl
@[simp] theorem State.updCg_quadTlb (s : State) (f : Group → Group) : (s.updCg f).quadTlb = s.quadTlb := rfl
@[simp] theorem State.updCg_shadow (s : State) (f : Group → Group) : (s.updCg f).shadow = s.shadow := rfl
@[simp] theorem State.updCg_harts (s : State) (f : Group → Group) : (s.updCg f).harts = s.harts := rfl
@[simp] theorem State.updCg_ridge (s : State) (f : Group → Group) : (s.updCg f).ridge = s.ridge := rfl
@[simp] theorem State.updCg_topo (s : State) (f : Group → Group) : (s.updCg f).topo = s.topo := rfl
@[simp] theorem State.updCg_nextSeq (s : State) (f : Group → Group) : (s.updCg f).nextSeq = s.nextSeq := rfl
@[simp] theorem State.updCg_nextId (s : State) (f : Group → Group) : (s.updCg f).nextId = s.nextId := rfl
@[simp] theorem State.updCg_use (s : State) (f : Group → Group) : (s.updCg f).use = s.use := rfl
@[simp] theorem State.updCg_lastQueue (s : State) (f : Group → Group) : (s.updCg f).lastQueue = s.lastQueue := rfl
@[simp] theorem State.updCg_placedAt (s : State) (f : Group → Group) : (s.updCg f).placedAt = s.placedAt := rfl
@[simp] theorem State.updCg_depMon (s : State) (f : Group → Group) : (s.updCg f).depMon = s.depMon := rfl

/-! ## `updCore` -/

@[simp] theorem State.updCore_agenda (s : State) (c : Nat) (f : Core → Core) : (s.updCore c f).agenda = s.agenda := rfl
@[simp] theorem State.updCore_cur (s : State) (c : Nat) (f : Core → Core) : (s.updCore c f).cur = s.cur := rfl
@[simp] theorem State.updCore_free (s : State) (c : Nat) (f : Core → Core) : (s.updCore c f).free = s.free := rfl
@[simp] theorem State.updCore_now (s : State) (c : Nat) (f : Core → Core) : (s.updCore c f).now = s.now := rfl
@[simp] theorem State.updCore_round (s : State) (c : Nat) (f : Core → Core) : (s.updCore c f).round = s.round := rfl
@[simp] theorem State.updCore_sinceRound (s : State) (c : Nat) (f : Core → Core) : (s.updCore c f).sinceRound = s.sinceRound := rfl
@[simp] theorem State.updCore_heartbeat (s : State) (c : Nat) (f : Core → Core) : (s.updCore c f).heartbeat = s.heartbeat := rfl
@[simp] theorem State.updCore_wbarGrid (s : State) (c : Nat) (f : Core → Core) : (s.updCore c f).wbarGrid = s.wbarGrid := rfl
@[simp] theorem State.updCore_wbarArrived (s : State) (c : Nat) (f : Core → Core) : (s.updCore c f).wbarArrived = s.wbarArrived := rfl
@[simp] theorem State.updCore_mem (s : State) (c : Nat) (f : Core → Core) : (s.updCore c f).mem = s.mem := rfl
@[simp] theorem State.updCore_bad (s : State) (c : Nat) (f : Core → Core) : (s.updCore c f).bad = s.bad := rfl
@[simp] theorem State.updCore_resv (s : State) (c : Nat) (f : Core → Core) : (s.updCore c f).resv = s.resv := rfl
@[simp] theorem State.updCore_ctxs (s : State) (c : Nat) (f : Core → Core) : (s.updCore c f).ctxs = s.ctxs := rfl
@[simp] theorem State.updCore_grids (s : State) (c : Nat) (f : Core → Core) : (s.updCore c f).grids = s.grids := rfl
@[simp] theorem State.updCore_gangs (s : State) (c : Nat) (f : Core → Core) : (s.updCore c f).gangs = s.gangs := rfl
@[simp] theorem State.updCore_blocks (s : State) (c : Nat) (f : Core → Core) : (s.updCore c f).blocks = s.blocks := rfl
@[simp] theorem State.updCore_groups (s : State) (c : Nat) (f : Core → Core) : (s.updCore c f).groups = s.groups := rfl
@[simp] theorem State.updCore_chains (s : State) (c : Nat) (f : Core → Core) : (s.updCore c f).chains = s.chains := rfl
@[simp] theorem State.updCore_cntOps (s : State) (c : Nat) (f : Core → Core) : (s.updCore c f).cntOps = s.cntOps := rfl
@[simp] theorem State.updCore_colls (s : State) (c : Nat) (f : Core → Core) : (s.updCore c f).colls = s.colls := rfl
@[simp] theorem State.updCore_doms (s : State) (c : Nat) (f : Core → Core) : (s.updCore c f).doms = s.doms := rfl
@[simp] theorem State.updCore_quadTlb (s : State) (c : Nat) (f : Core → Core) : (s.updCore c f).quadTlb = s.quadTlb := rfl
@[simp] theorem State.updCore_shadow (s : State) (c : Nat) (f : Core → Core) : (s.updCore c f).shadow = s.shadow := rfl
@[simp] theorem State.updCore_harts (s : State) (c : Nat) (f : Core → Core) : (s.updCore c f).harts = s.harts := rfl
@[simp] theorem State.updCore_ridge (s : State) (c : Nat) (f : Core → Core) : (s.updCore c f).ridge = s.ridge := rfl
@[simp] theorem State.updCore_topo (s : State) (c : Nat) (f : Core → Core) : (s.updCore c f).topo = s.topo := rfl
@[simp] theorem State.updCore_nextSeq (s : State) (c : Nat) (f : Core → Core) : (s.updCore c f).nextSeq = s.nextSeq := rfl
@[simp] theorem State.updCore_nextId (s : State) (c : Nat) (f : Core → Core) : (s.updCore c f).nextId = s.nextId := rfl
@[simp] theorem State.updCore_use (s : State) (c : Nat) (f : Core → Core) : (s.updCore c f).use = s.use := rfl
@[simp] theorem State.updCore_lastQueue (s : State) (c : Nat) (f : Core → Core) : (s.updCore c f).lastQueue = s.lastQueue := rfl
@[simp] theorem State.updCore_placedAt (s : State) (c : Nat) (f : Core → Core) : (s.updCore c f).placedAt = s.placedAt := rfl
@[simp] theorem State.updCore_depMon (s : State) (c : Nat) (f : Core → Core) : (s.updCore c f).depMon = s.depMon := rfl

/-! ## `updDom` -/

@[simp] theorem State.updDom_agenda (s : State) (d : Nat) (f : Domain → Domain) : (s.updDom d f).agenda = s.agenda := rfl
@[simp] theorem State.updDom_cur (s : State) (d : Nat) (f : Domain → Domain) : (s.updDom d f).cur = s.cur := rfl
@[simp] theorem State.updDom_free (s : State) (d : Nat) (f : Domain → Domain) : (s.updDom d f).free = s.free := rfl
@[simp] theorem State.updDom_now (s : State) (d : Nat) (f : Domain → Domain) : (s.updDom d f).now = s.now := rfl
@[simp] theorem State.updDom_round (s : State) (d : Nat) (f : Domain → Domain) : (s.updDom d f).round = s.round := rfl
@[simp] theorem State.updDom_sinceRound (s : State) (d : Nat) (f : Domain → Domain) : (s.updDom d f).sinceRound = s.sinceRound := rfl
@[simp] theorem State.updDom_heartbeat (s : State) (d : Nat) (f : Domain → Domain) : (s.updDom d f).heartbeat = s.heartbeat := rfl
@[simp] theorem State.updDom_wbarGrid (s : State) (d : Nat) (f : Domain → Domain) : (s.updDom d f).wbarGrid = s.wbarGrid := rfl
@[simp] theorem State.updDom_wbarArrived (s : State) (d : Nat) (f : Domain → Domain) : (s.updDom d f).wbarArrived = s.wbarArrived := rfl
@[simp] theorem State.updDom_mem (s : State) (d : Nat) (f : Domain → Domain) : (s.updDom d f).mem = s.mem := rfl
@[simp] theorem State.updDom_bad (s : State) (d : Nat) (f : Domain → Domain) : (s.updDom d f).bad = s.bad := rfl
@[simp] theorem State.updDom_resv (s : State) (d : Nat) (f : Domain → Domain) : (s.updDom d f).resv = s.resv := rfl
@[simp] theorem State.updDom_ctxs (s : State) (d : Nat) (f : Domain → Domain) : (s.updDom d f).ctxs = s.ctxs := rfl
@[simp] theorem State.updDom_grids (s : State) (d : Nat) (f : Domain → Domain) : (s.updDom d f).grids = s.grids := rfl
@[simp] theorem State.updDom_gangs (s : State) (d : Nat) (f : Domain → Domain) : (s.updDom d f).gangs = s.gangs := rfl
@[simp] theorem State.updDom_blocks (s : State) (d : Nat) (f : Domain → Domain) : (s.updDom d f).blocks = s.blocks := rfl
@[simp] theorem State.updDom_groups (s : State) (d : Nat) (f : Domain → Domain) : (s.updDom d f).groups = s.groups := rfl
@[simp] theorem State.updDom_chains (s : State) (d : Nat) (f : Domain → Domain) : (s.updDom d f).chains = s.chains := rfl
@[simp] theorem State.updDom_cntOps (s : State) (d : Nat) (f : Domain → Domain) : (s.updDom d f).cntOps = s.cntOps := rfl
@[simp] theorem State.updDom_colls (s : State) (d : Nat) (f : Domain → Domain) : (s.updDom d f).colls = s.colls := rfl
@[simp] theorem State.updDom_cores (s : State) (d : Nat) (f : Domain → Domain) : (s.updDom d f).cores = s.cores := rfl
@[simp] theorem State.updDom_quadTlb (s : State) (d : Nat) (f : Domain → Domain) : (s.updDom d f).quadTlb = s.quadTlb := rfl
@[simp] theorem State.updDom_shadow (s : State) (d : Nat) (f : Domain → Domain) : (s.updDom d f).shadow = s.shadow := rfl
@[simp] theorem State.updDom_harts (s : State) (d : Nat) (f : Domain → Domain) : (s.updDom d f).harts = s.harts := rfl
@[simp] theorem State.updDom_ridge (s : State) (d : Nat) (f : Domain → Domain) : (s.updDom d f).ridge = s.ridge := rfl
@[simp] theorem State.updDom_topo (s : State) (d : Nat) (f : Domain → Domain) : (s.updDom d f).topo = s.topo := rfl
@[simp] theorem State.updDom_nextSeq (s : State) (d : Nat) (f : Domain → Domain) : (s.updDom d f).nextSeq = s.nextSeq := rfl
@[simp] theorem State.updDom_nextId (s : State) (d : Nat) (f : Domain → Domain) : (s.updDom d f).nextId = s.nextId := rfl
@[simp] theorem State.updDom_use (s : State) (d : Nat) (f : Domain → Domain) : (s.updDom d f).use = s.use := rfl
@[simp] theorem State.updDom_lastQueue (s : State) (d : Nat) (f : Domain → Domain) : (s.updDom d f).lastQueue = s.lastQueue := rfl
@[simp] theorem State.updDom_placedAt (s : State) (d : Nat) (f : Domain → Domain) : (s.updDom d f).placedAt = s.placedAt := rfl
@[simp] theorem State.updDom_depMon (s : State) (d : Nat) (f : Domain → Domain) : (s.updDom d f).depMon = s.depMon := rfl

/-! ## `updCtx` -/

@[simp] theorem State.updCtx_agenda (s : State) (a : Nat) (f : Context → Context) : (s.updCtx a f).agenda = s.agenda := rfl
@[simp] theorem State.updCtx_cur (s : State) (a : Nat) (f : Context → Context) : (s.updCtx a f).cur = s.cur := rfl
@[simp] theorem State.updCtx_free (s : State) (a : Nat) (f : Context → Context) : (s.updCtx a f).free = s.free := rfl
@[simp] theorem State.updCtx_now (s : State) (a : Nat) (f : Context → Context) : (s.updCtx a f).now = s.now := rfl
@[simp] theorem State.updCtx_round (s : State) (a : Nat) (f : Context → Context) : (s.updCtx a f).round = s.round := rfl
@[simp] theorem State.updCtx_sinceRound (s : State) (a : Nat) (f : Context → Context) : (s.updCtx a f).sinceRound = s.sinceRound := rfl
@[simp] theorem State.updCtx_heartbeat (s : State) (a : Nat) (f : Context → Context) : (s.updCtx a f).heartbeat = s.heartbeat := rfl
@[simp] theorem State.updCtx_wbarGrid (s : State) (a : Nat) (f : Context → Context) : (s.updCtx a f).wbarGrid = s.wbarGrid := rfl
@[simp] theorem State.updCtx_wbarArrived (s : State) (a : Nat) (f : Context → Context) : (s.updCtx a f).wbarArrived = s.wbarArrived := rfl
@[simp] theorem State.updCtx_mem (s : State) (a : Nat) (f : Context → Context) : (s.updCtx a f).mem = s.mem := rfl
@[simp] theorem State.updCtx_bad (s : State) (a : Nat) (f : Context → Context) : (s.updCtx a f).bad = s.bad := rfl
@[simp] theorem State.updCtx_resv (s : State) (a : Nat) (f : Context → Context) : (s.updCtx a f).resv = s.resv := rfl
@[simp] theorem State.updCtx_grids (s : State) (a : Nat) (f : Context → Context) : (s.updCtx a f).grids = s.grids := rfl
@[simp] theorem State.updCtx_gangs (s : State) (a : Nat) (f : Context → Context) : (s.updCtx a f).gangs = s.gangs := rfl
@[simp] theorem State.updCtx_blocks (s : State) (a : Nat) (f : Context → Context) : (s.updCtx a f).blocks = s.blocks := rfl
@[simp] theorem State.updCtx_groups (s : State) (a : Nat) (f : Context → Context) : (s.updCtx a f).groups = s.groups := rfl
@[simp] theorem State.updCtx_chains (s : State) (a : Nat) (f : Context → Context) : (s.updCtx a f).chains = s.chains := rfl
@[simp] theorem State.updCtx_cntOps (s : State) (a : Nat) (f : Context → Context) : (s.updCtx a f).cntOps = s.cntOps := rfl
@[simp] theorem State.updCtx_colls (s : State) (a : Nat) (f : Context → Context) : (s.updCtx a f).colls = s.colls := rfl
@[simp] theorem State.updCtx_cores (s : State) (a : Nat) (f : Context → Context) : (s.updCtx a f).cores = s.cores := rfl
@[simp] theorem State.updCtx_doms (s : State) (a : Nat) (f : Context → Context) : (s.updCtx a f).doms = s.doms := rfl
@[simp] theorem State.updCtx_quadTlb (s : State) (a : Nat) (f : Context → Context) : (s.updCtx a f).quadTlb = s.quadTlb := rfl
@[simp] theorem State.updCtx_shadow (s : State) (a : Nat) (f : Context → Context) : (s.updCtx a f).shadow = s.shadow := rfl
@[simp] theorem State.updCtx_harts (s : State) (a : Nat) (f : Context → Context) : (s.updCtx a f).harts = s.harts := rfl
@[simp] theorem State.updCtx_ridge (s : State) (a : Nat) (f : Context → Context) : (s.updCtx a f).ridge = s.ridge := rfl
@[simp] theorem State.updCtx_topo (s : State) (a : Nat) (f : Context → Context) : (s.updCtx a f).topo = s.topo := rfl
@[simp] theorem State.updCtx_nextSeq (s : State) (a : Nat) (f : Context → Context) : (s.updCtx a f).nextSeq = s.nextSeq := rfl
@[simp] theorem State.updCtx_nextId (s : State) (a : Nat) (f : Context → Context) : (s.updCtx a f).nextId = s.nextId := rfl
@[simp] theorem State.updCtx_use (s : State) (a : Nat) (f : Context → Context) : (s.updCtx a f).use = s.use := rfl
@[simp] theorem State.updCtx_lastQueue (s : State) (a : Nat) (f : Context → Context) : (s.updCtx a f).lastQueue = s.lastQueue := rfl
@[simp] theorem State.updCtx_placedAt (s : State) (a : Nat) (f : Context → Context) : (s.updCtx a f).placedAt = s.placedAt := rfl
@[simp] theorem State.updCtx_depMon (s : State) (a : Nat) (f : Context → Context) : (s.updCtx a f).depMon = s.depMon := rfl

/-! ## `updGrid` -/

@[simp] theorem State.updGrid_agenda (s : State) (n : Nat) (f : Grid → Grid) : (s.updGrid n f).agenda = s.agenda := rfl
@[simp] theorem State.updGrid_cur (s : State) (n : Nat) (f : Grid → Grid) : (s.updGrid n f).cur = s.cur := rfl
@[simp] theorem State.updGrid_free (s : State) (n : Nat) (f : Grid → Grid) : (s.updGrid n f).free = s.free := rfl
@[simp] theorem State.updGrid_now (s : State) (n : Nat) (f : Grid → Grid) : (s.updGrid n f).now = s.now := rfl
@[simp] theorem State.updGrid_round (s : State) (n : Nat) (f : Grid → Grid) : (s.updGrid n f).round = s.round := rfl
@[simp] theorem State.updGrid_sinceRound (s : State) (n : Nat) (f : Grid → Grid) : (s.updGrid n f).sinceRound = s.sinceRound := rfl
@[simp] theorem State.updGrid_heartbeat (s : State) (n : Nat) (f : Grid → Grid) : (s.updGrid n f).heartbeat = s.heartbeat := rfl
@[simp] theorem State.updGrid_wbarGrid (s : State) (n : Nat) (f : Grid → Grid) : (s.updGrid n f).wbarGrid = s.wbarGrid := rfl
@[simp] theorem State.updGrid_wbarArrived (s : State) (n : Nat) (f : Grid → Grid) : (s.updGrid n f).wbarArrived = s.wbarArrived := rfl
@[simp] theorem State.updGrid_mem (s : State) (n : Nat) (f : Grid → Grid) : (s.updGrid n f).mem = s.mem := rfl
@[simp] theorem State.updGrid_bad (s : State) (n : Nat) (f : Grid → Grid) : (s.updGrid n f).bad = s.bad := rfl
@[simp] theorem State.updGrid_resv (s : State) (n : Nat) (f : Grid → Grid) : (s.updGrid n f).resv = s.resv := rfl
@[simp] theorem State.updGrid_ctxs (s : State) (n : Nat) (f : Grid → Grid) : (s.updGrid n f).ctxs = s.ctxs := rfl
@[simp] theorem State.updGrid_gangs (s : State) (n : Nat) (f : Grid → Grid) : (s.updGrid n f).gangs = s.gangs := rfl
@[simp] theorem State.updGrid_blocks (s : State) (n : Nat) (f : Grid → Grid) : (s.updGrid n f).blocks = s.blocks := rfl
@[simp] theorem State.updGrid_groups (s : State) (n : Nat) (f : Grid → Grid) : (s.updGrid n f).groups = s.groups := rfl
@[simp] theorem State.updGrid_chains (s : State) (n : Nat) (f : Grid → Grid) : (s.updGrid n f).chains = s.chains := rfl
@[simp] theorem State.updGrid_cntOps (s : State) (n : Nat) (f : Grid → Grid) : (s.updGrid n f).cntOps = s.cntOps := rfl
@[simp] theorem State.updGrid_colls (s : State) (n : Nat) (f : Grid → Grid) : (s.updGrid n f).colls = s.colls := rfl
@[simp] theorem State.updGrid_cores (s : State) (n : Nat) (f : Grid → Grid) : (s.updGrid n f).cores = s.cores := rfl
@[simp] theorem State.updGrid_doms (s : State) (n : Nat) (f : Grid → Grid) : (s.updGrid n f).doms = s.doms := rfl
@[simp] theorem State.updGrid_quadTlb (s : State) (n : Nat) (f : Grid → Grid) : (s.updGrid n f).quadTlb = s.quadTlb := rfl
@[simp] theorem State.updGrid_shadow (s : State) (n : Nat) (f : Grid → Grid) : (s.updGrid n f).shadow = s.shadow := rfl
@[simp] theorem State.updGrid_harts (s : State) (n : Nat) (f : Grid → Grid) : (s.updGrid n f).harts = s.harts := rfl
@[simp] theorem State.updGrid_ridge (s : State) (n : Nat) (f : Grid → Grid) : (s.updGrid n f).ridge = s.ridge := rfl
@[simp] theorem State.updGrid_topo (s : State) (n : Nat) (f : Grid → Grid) : (s.updGrid n f).topo = s.topo := rfl
@[simp] theorem State.updGrid_nextSeq (s : State) (n : Nat) (f : Grid → Grid) : (s.updGrid n f).nextSeq = s.nextSeq := rfl
@[simp] theorem State.updGrid_nextId (s : State) (n : Nat) (f : Grid → Grid) : (s.updGrid n f).nextId = s.nextId := rfl
@[simp] theorem State.updGrid_use (s : State) (n : Nat) (f : Grid → Grid) : (s.updGrid n f).use = s.use := rfl
@[simp] theorem State.updGrid_lastQueue (s : State) (n : Nat) (f : Grid → Grid) : (s.updGrid n f).lastQueue = s.lastQueue := rfl
@[simp] theorem State.updGrid_placedAt (s : State) (n : Nat) (f : Grid → Grid) : (s.updGrid n f).placedAt = s.placedAt := rfl
@[simp] theorem State.updGrid_depMon (s : State) (n : Nat) (f : Grid → Grid) : (s.updGrid n f).depMon = s.depMon := rfl

/-! ## `updBlk` -/

@[simp] theorem State.updBlk_agenda (s : State) (b : Nat) (f : Block → Block) : (s.updBlk b f).agenda = s.agenda := rfl
@[simp] theorem State.updBlk_cur (s : State) (b : Nat) (f : Block → Block) : (s.updBlk b f).cur = s.cur := rfl
@[simp] theorem State.updBlk_free (s : State) (b : Nat) (f : Block → Block) : (s.updBlk b f).free = s.free := rfl
@[simp] theorem State.updBlk_now (s : State) (b : Nat) (f : Block → Block) : (s.updBlk b f).now = s.now := rfl
@[simp] theorem State.updBlk_round (s : State) (b : Nat) (f : Block → Block) : (s.updBlk b f).round = s.round := rfl
@[simp] theorem State.updBlk_sinceRound (s : State) (b : Nat) (f : Block → Block) : (s.updBlk b f).sinceRound = s.sinceRound := rfl
@[simp] theorem State.updBlk_heartbeat (s : State) (b : Nat) (f : Block → Block) : (s.updBlk b f).heartbeat = s.heartbeat := rfl
@[simp] theorem State.updBlk_wbarGrid (s : State) (b : Nat) (f : Block → Block) : (s.updBlk b f).wbarGrid = s.wbarGrid := rfl
@[simp] theorem State.updBlk_wbarArrived (s : State) (b : Nat) (f : Block → Block) : (s.updBlk b f).wbarArrived = s.wbarArrived := rfl
@[simp] theorem State.updBlk_mem (s : State) (b : Nat) (f : Block → Block) : (s.updBlk b f).mem = s.mem := rfl
@[simp] theorem State.updBlk_bad (s : State) (b : Nat) (f : Block → Block) : (s.updBlk b f).bad = s.bad := rfl
@[simp] theorem State.updBlk_resv (s : State) (b : Nat) (f : Block → Block) : (s.updBlk b f).resv = s.resv := rfl
@[simp] theorem State.updBlk_ctxs (s : State) (b : Nat) (f : Block → Block) : (s.updBlk b f).ctxs = s.ctxs := rfl
@[simp] theorem State.updBlk_grids (s : State) (b : Nat) (f : Block → Block) : (s.updBlk b f).grids = s.grids := rfl
@[simp] theorem State.updBlk_gangs (s : State) (b : Nat) (f : Block → Block) : (s.updBlk b f).gangs = s.gangs := rfl
@[simp] theorem State.updBlk_groups (s : State) (b : Nat) (f : Block → Block) : (s.updBlk b f).groups = s.groups := rfl
@[simp] theorem State.updBlk_chains (s : State) (b : Nat) (f : Block → Block) : (s.updBlk b f).chains = s.chains := rfl
@[simp] theorem State.updBlk_cntOps (s : State) (b : Nat) (f : Block → Block) : (s.updBlk b f).cntOps = s.cntOps := rfl
@[simp] theorem State.updBlk_colls (s : State) (b : Nat) (f : Block → Block) : (s.updBlk b f).colls = s.colls := rfl
@[simp] theorem State.updBlk_cores (s : State) (b : Nat) (f : Block → Block) : (s.updBlk b f).cores = s.cores := rfl
@[simp] theorem State.updBlk_doms (s : State) (b : Nat) (f : Block → Block) : (s.updBlk b f).doms = s.doms := rfl
@[simp] theorem State.updBlk_quadTlb (s : State) (b : Nat) (f : Block → Block) : (s.updBlk b f).quadTlb = s.quadTlb := rfl
@[simp] theorem State.updBlk_shadow (s : State) (b : Nat) (f : Block → Block) : (s.updBlk b f).shadow = s.shadow := rfl
@[simp] theorem State.updBlk_harts (s : State) (b : Nat) (f : Block → Block) : (s.updBlk b f).harts = s.harts := rfl
@[simp] theorem State.updBlk_ridge (s : State) (b : Nat) (f : Block → Block) : (s.updBlk b f).ridge = s.ridge := rfl
@[simp] theorem State.updBlk_topo (s : State) (b : Nat) (f : Block → Block) : (s.updBlk b f).topo = s.topo := rfl
@[simp] theorem State.updBlk_nextSeq (s : State) (b : Nat) (f : Block → Block) : (s.updBlk b f).nextSeq = s.nextSeq := rfl
@[simp] theorem State.updBlk_nextId (s : State) (b : Nat) (f : Block → Block) : (s.updBlk b f).nextId = s.nextId := rfl
@[simp] theorem State.updBlk_use (s : State) (b : Nat) (f : Block → Block) : (s.updBlk b f).use = s.use := rfl
@[simp] theorem State.updBlk_lastQueue (s : State) (b : Nat) (f : Block → Block) : (s.updBlk b f).lastQueue = s.lastQueue := rfl
@[simp] theorem State.updBlk_placedAt (s : State) (b : Nat) (f : Block → Block) : (s.updBlk b f).placedAt = s.placedAt := rfl
@[simp] theorem State.updBlk_depMon (s : State) (b : Nat) (f : Block → Block) : (s.updBlk b f).depMon = s.depMon := rfl

/-! ## `updHart` -/

@[simp] theorem State.updHart_agenda (s : State) (h : Nat) (f : Hart → Hart) : (s.updHart h f).agenda = s.agenda := rfl
@[simp] theorem State.updHart_cur (s : State) (h : Nat) (f : Hart → Hart) : (s.updHart h f).cur = s.cur := rfl
@[simp] theorem State.updHart_free (s : State) (h : Nat) (f : Hart → Hart) : (s.updHart h f).free = s.free := rfl
@[simp] theorem State.updHart_now (s : State) (h : Nat) (f : Hart → Hart) : (s.updHart h f).now = s.now := rfl
@[simp] theorem State.updHart_round (s : State) (h : Nat) (f : Hart → Hart) : (s.updHart h f).round = s.round := rfl
@[simp] theorem State.updHart_sinceRound (s : State) (h : Nat) (f : Hart → Hart) : (s.updHart h f).sinceRound = s.sinceRound := rfl
@[simp] theorem State.updHart_heartbeat (s : State) (h : Nat) (f : Hart → Hart) : (s.updHart h f).heartbeat = s.heartbeat := rfl
@[simp] theorem State.updHart_wbarGrid (s : State) (h : Nat) (f : Hart → Hart) : (s.updHart h f).wbarGrid = s.wbarGrid := rfl
@[simp] theorem State.updHart_wbarArrived (s : State) (h : Nat) (f : Hart → Hart) : (s.updHart h f).wbarArrived = s.wbarArrived := rfl
@[simp] theorem State.updHart_mem (s : State) (h : Nat) (f : Hart → Hart) : (s.updHart h f).mem = s.mem := rfl
@[simp] theorem State.updHart_bad (s : State) (h : Nat) (f : Hart → Hart) : (s.updHart h f).bad = s.bad := rfl
@[simp] theorem State.updHart_resv (s : State) (h : Nat) (f : Hart → Hart) : (s.updHart h f).resv = s.resv := rfl
@[simp] theorem State.updHart_ctxs (s : State) (h : Nat) (f : Hart → Hart) : (s.updHart h f).ctxs = s.ctxs := rfl
@[simp] theorem State.updHart_grids (s : State) (h : Nat) (f : Hart → Hart) : (s.updHart h f).grids = s.grids := rfl
@[simp] theorem State.updHart_gangs (s : State) (h : Nat) (f : Hart → Hart) : (s.updHart h f).gangs = s.gangs := rfl
@[simp] theorem State.updHart_blocks (s : State) (h : Nat) (f : Hart → Hart) : (s.updHart h f).blocks = s.blocks := rfl
@[simp] theorem State.updHart_groups (s : State) (h : Nat) (f : Hart → Hart) : (s.updHart h f).groups = s.groups := rfl
@[simp] theorem State.updHart_chains (s : State) (h : Nat) (f : Hart → Hart) : (s.updHart h f).chains = s.chains := rfl
@[simp] theorem State.updHart_cntOps (s : State) (h : Nat) (f : Hart → Hart) : (s.updHart h f).cntOps = s.cntOps := rfl
@[simp] theorem State.updHart_colls (s : State) (h : Nat) (f : Hart → Hart) : (s.updHart h f).colls = s.colls := rfl
@[simp] theorem State.updHart_cores (s : State) (h : Nat) (f : Hart → Hart) : (s.updHart h f).cores = s.cores := rfl
@[simp] theorem State.updHart_doms (s : State) (h : Nat) (f : Hart → Hart) : (s.updHart h f).doms = s.doms := rfl
@[simp] theorem State.updHart_quadTlb (s : State) (h : Nat) (f : Hart → Hart) : (s.updHart h f).quadTlb = s.quadTlb := rfl
@[simp] theorem State.updHart_shadow (s : State) (h : Nat) (f : Hart → Hart) : (s.updHart h f).shadow = s.shadow := rfl
@[simp] theorem State.updHart_ridge (s : State) (h : Nat) (f : Hart → Hart) : (s.updHart h f).ridge = s.ridge := rfl
@[simp] theorem State.updHart_topo (s : State) (h : Nat) (f : Hart → Hart) : (s.updHart h f).topo = s.topo := rfl
@[simp] theorem State.updHart_nextSeq (s : State) (h : Nat) (f : Hart → Hart) : (s.updHart h f).nextSeq = s.nextSeq := rfl
@[simp] theorem State.updHart_nextId (s : State) (h : Nat) (f : Hart → Hart) : (s.updHart h f).nextId = s.nextId := rfl
@[simp] theorem State.updHart_use (s : State) (h : Nat) (f : Hart → Hart) : (s.updHart h f).use = s.use := rfl
@[simp] theorem State.updHart_lastQueue (s : State) (h : Nat) (f : Hart → Hart) : (s.updHart h f).lastQueue = s.lastQueue := rfl
@[simp] theorem State.updHart_placedAt (s : State) (h : Nat) (f : Hart → Hart) : (s.updHart h f).placedAt = s.placedAt := rfl
@[simp] theorem State.updHart_depMon (s : State) (h : Nat) (f : Hart → Hart) : (s.updHart h f).depMon = s.depMon := rfl

/-! ## `updRidge` -/

@[simp] theorem State.updRidge_agenda (s : State) (f : Ridge → Ridge) : (s.updRidge f).agenda = s.agenda := rfl
@[simp] theorem State.updRidge_cur (s : State) (f : Ridge → Ridge) : (s.updRidge f).cur = s.cur := rfl
@[simp] theorem State.updRidge_free (s : State) (f : Ridge → Ridge) : (s.updRidge f).free = s.free := rfl
@[simp] theorem State.updRidge_now (s : State) (f : Ridge → Ridge) : (s.updRidge f).now = s.now := rfl
@[simp] theorem State.updRidge_round (s : State) (f : Ridge → Ridge) : (s.updRidge f).round = s.round := rfl
@[simp] theorem State.updRidge_sinceRound (s : State) (f : Ridge → Ridge) : (s.updRidge f).sinceRound = s.sinceRound := rfl
@[simp] theorem State.updRidge_heartbeat (s : State) (f : Ridge → Ridge) : (s.updRidge f).heartbeat = s.heartbeat := rfl
@[simp] theorem State.updRidge_wbarGrid (s : State) (f : Ridge → Ridge) : (s.updRidge f).wbarGrid = s.wbarGrid := rfl
@[simp] theorem State.updRidge_wbarArrived (s : State) (f : Ridge → Ridge) : (s.updRidge f).wbarArrived = s.wbarArrived := rfl
@[simp] theorem State.updRidge_mem (s : State) (f : Ridge → Ridge) : (s.updRidge f).mem = s.mem := rfl
@[simp] theorem State.updRidge_bad (s : State) (f : Ridge → Ridge) : (s.updRidge f).bad = s.bad := rfl
@[simp] theorem State.updRidge_resv (s : State) (f : Ridge → Ridge) : (s.updRidge f).resv = s.resv := rfl
@[simp] theorem State.updRidge_ctxs (s : State) (f : Ridge → Ridge) : (s.updRidge f).ctxs = s.ctxs := rfl
@[simp] theorem State.updRidge_grids (s : State) (f : Ridge → Ridge) : (s.updRidge f).grids = s.grids := rfl
@[simp] theorem State.updRidge_gangs (s : State) (f : Ridge → Ridge) : (s.updRidge f).gangs = s.gangs := rfl
@[simp] theorem State.updRidge_blocks (s : State) (f : Ridge → Ridge) : (s.updRidge f).blocks = s.blocks := rfl
@[simp] theorem State.updRidge_groups (s : State) (f : Ridge → Ridge) : (s.updRidge f).groups = s.groups := rfl
@[simp] theorem State.updRidge_chains (s : State) (f : Ridge → Ridge) : (s.updRidge f).chains = s.chains := rfl
@[simp] theorem State.updRidge_cntOps (s : State) (f : Ridge → Ridge) : (s.updRidge f).cntOps = s.cntOps := rfl
@[simp] theorem State.updRidge_colls (s : State) (f : Ridge → Ridge) : (s.updRidge f).colls = s.colls := rfl
@[simp] theorem State.updRidge_cores (s : State) (f : Ridge → Ridge) : (s.updRidge f).cores = s.cores := rfl
@[simp] theorem State.updRidge_doms (s : State) (f : Ridge → Ridge) : (s.updRidge f).doms = s.doms := rfl
@[simp] theorem State.updRidge_quadTlb (s : State) (f : Ridge → Ridge) : (s.updRidge f).quadTlb = s.quadTlb := rfl
@[simp] theorem State.updRidge_shadow (s : State) (f : Ridge → Ridge) : (s.updRidge f).shadow = s.shadow := rfl
@[simp] theorem State.updRidge_harts (s : State) (f : Ridge → Ridge) : (s.updRidge f).harts = s.harts := rfl
@[simp] theorem State.updRidge_topo (s : State) (f : Ridge → Ridge) : (s.updRidge f).topo = s.topo := rfl
@[simp] theorem State.updRidge_nextSeq (s : State) (f : Ridge → Ridge) : (s.updRidge f).nextSeq = s.nextSeq := rfl
@[simp] theorem State.updRidge_nextId (s : State) (f : Ridge → Ridge) : (s.updRidge f).nextId = s.nextId := rfl
@[simp] theorem State.updRidge_use (s : State) (f : Ridge → Ridge) : (s.updRidge f).use = s.use := rfl
@[simp] theorem State.updRidge_lastQueue (s : State) (f : Ridge → Ridge) : (s.updRidge f).lastQueue = s.lastQueue := rfl
@[simp] theorem State.updRidge_placedAt (s : State) (f : Ridge → Ridge) : (s.updRidge f).placedAt = s.placedAt := rfl
@[simp] theorem State.updRidge_depMon (s : State) (f : Ridge → Ridge) : (s.updRidge f).depMon = s.depMon := rfl

/-! ## Records after a write -/

@[simp] theorem State.grp_setGrp (s : State) (g : Nat) (x : Group) (h : Nat) :
    (s.setGrp g x).grp h = if h = g then x else s.grp h := by simp [State.grp, State.setGrp]
@[simp] theorem State.grp_updGrp (s : State) (g : Nat) (f : Group → Group) (h : Nat) :
    (s.updGrp g f).grp h = if h = g then f (s.grp g) else s.grp h := by simp [State.updGrp]
@[simp] theorem State.grp_updCg (s : State) (f : Group → Group) (h : Nat) :
    (s.updCg f).grp h = if h = s.cur.g then f s.cg else s.grp h := by simp [State.updCg, State.setCg]
@[simp] theorem State.cg_setCg (s : State) (x : Group) : (s.setCg x).cg = x := by simp [State.setCg, State.cg]
@[simp] theorem State.cg_updCg (s : State) (f : Group → Group) : (s.updCg f).cg = f s.cg := by simp [State.updCg]
@[simp] theorem State.core_updCore (s : State) (c : Nat) (f : Core → Core) (k : Nat) :
    (s.updCore c f).core k = if k = c then f (s.core c) else s.core k := by simp [State.core, State.updCore]
@[simp] theorem State.dom_updDom (s : State) (d : Nat) (f : Domain → Domain) (k : Nat) :
    (s.updDom d f).dom k = if k = d then f (s.dom d) else s.dom k := by simp [State.dom, State.updDom]
@[simp] theorem State.ctx_updCtx (s : State) (a : Nat) (f : Context → Context) (k : Nat) :
    (s.updCtx a f).ctx k = if k = a then f (s.ctx a) else s.ctx k := by simp [State.ctx, State.updCtx]
@[simp] theorem State.gridOf_updGrid (s : State) (n : Nat) (f : Grid → Grid) (k : Nat) :
    (s.updGrid n f).gridOf k = if k = n then f (s.gridOf n) else s.gridOf k := by simp [State.gridOf, State.updGrid]
@[simp] theorem State.blk_updBlk (s : State) (b : Nat) (f : Block → Block) (k : Nat) :
    (s.updBlk b f).blk k = if k = b then f (s.blk b) else s.blk k := by simp [State.blk, State.updBlk]
@[simp] theorem State.hart_updHart (s : State) (h : Nat) (f : Hart → Hart) (k : Nat) :
    (s.updHart h f).hart k = if k = h then f (s.hart h) else s.hart k := by simp [State.hart, State.updHart]
@[simp] theorem State.core_setGrp_other (s : State) (g : Nat) (x : Group) (j : Nat) : (s.setGrp g x).core j = s.core j := rfl
@[simp] theorem State.dom_setGrp_other (s : State) (g : Nat) (x : Group) (j : Nat) : (s.setGrp g x).dom j = s.dom j := rfl
@[simp] theorem State.ctx_setGrp_other (s : State) (g : Nat) (x : Group) (j : Nat) : (s.setGrp g x).ctx j = s.ctx j := rfl
@[simp] theorem State.gridOf_setGrp_other (s : State) (g : Nat) (x : Group) (j : Nat) : (s.setGrp g x).gridOf j = s.gridOf j := rfl
@[simp] theorem State.blk_setGrp_other (s : State) (g : Nat) (x : Group) (j : Nat) : (s.setGrp g x).blk j = s.blk j := rfl
@[simp] theorem State.hart_setGrp_other (s : State) (g : Nat) (x : Group) (j : Nat) : (s.setGrp g x).hart j = s.hart j := rfl
@[simp] theorem State.core_updGrp_other (s : State) (g : Nat) (f : Group → Group) (j : Nat) : (s.updGrp g f).core j = s.core j := rfl
@[simp] theorem State.dom_updGrp_other (s : State) (g : Nat) (f : Group → Group) (j : Nat) : (s.updGrp g f).dom j = s.dom j := rfl
@[simp] theorem State.ctx_updGrp_other (s : State) (g : Nat) (f : Group → Group) (j : Nat) : (s.updGrp g f).ctx j = s.ctx j := rfl
@[simp] theorem State.gridOf_updGrp_other (s : State) (g : Nat) (f : Group → Group) (j : Nat) : (s.updGrp g f).gridOf j = s.gridOf j := rfl
@[simp] theorem State.blk_updGrp_other (s : State) (g : Nat) (f : Group → Group) (j : Nat) : (s.updGrp g f).blk j = s.blk j := rfl
@[simp] theorem State.hart_updGrp_other (s : State) (g : Nat) (f : Group → Group) (j : Nat) : (s.updGrp g f).hart j = s.hart j := rfl
@[simp] theorem State.core_setCg_other (s : State) (x : Group) (j : Nat) : (s.setCg x).core j = s.core j := rfl
@[simp] theorem State.dom_setCg_other (s : State) (x : Group) (j : Nat) : (s.setCg x).dom j = s.dom j := rfl
@[simp] theorem State.ctx_setCg_other (s : State) (x : Group) (j : Nat) : (s.setCg x).ctx j = s.ctx j := rfl
@[simp] theorem State.gridOf_setCg_other (s : State) (x : Group) (j : Nat) : (s.setCg x).gridOf j = s.gridOf j := rfl
@[simp] theorem State.blk_setCg_other (s : State) (x : Group) (j : Nat) : (s.setCg x).blk j = s.blk j := rfl
@[simp] theorem State.hart_setCg_other (s : State) (x : Group) (j : Nat) : (s.setCg x).hart j = s.hart j := rfl
@[simp] theorem State.core_updCg_other (s : State) (f : Group → Group) (j : Nat) : (s.updCg f).core j = s.core j := rfl
@[simp] theorem State.dom_updCg_other (s : State) (f : Group → Group) (j : Nat) : (s.updCg f).dom j = s.dom j := rfl
@[simp] theorem State.ctx_updCg_other (s : State) (f : Group → Group) (j : Nat) : (s.updCg f).ctx j = s.ctx j := rfl
@[simp] theorem State.gridOf_updCg_other (s : State) (f : Group → Group) (j : Nat) : (s.updCg f).gridOf j = s.gridOf j := rfl
@[simp] theorem State.blk_updCg_other (s : State) (f : Group → Group) (j : Nat) : (s.updCg f).blk j = s.blk j := rfl
@[simp] theorem State.hart_updCg_other (s : State) (f : Group → Group) (j : Nat) : (s.updCg f).hart j = s.hart j := rfl
@[simp] theorem State.grp_updCore_other (s : State) (c : Nat) (f : Core → Core) (j : Nat) : (s.updCore c f).grp j = s.grp j := rfl
@[simp] theorem State.dom_updCore_other (s : State) (c : Nat) (f : Core → Core) (j : Nat) : (s.updCore c f).dom j = s.dom j := rfl
@[simp] theorem State.ctx_updCore_other (s : State) (c : Nat) (f : Core → Core) (j : Nat) : (s.updCore c f).ctx j = s.ctx j := rfl
@[simp] theorem State.gridOf_updCore_other (s : State) (c : Nat) (f : Core → Core) (j : Nat) : (s.updCore c f).gridOf j = s.gridOf j := rfl
@[simp] theorem State.blk_updCore_other (s : State) (c : Nat) (f : Core → Core) (j : Nat) : (s.updCore c f).blk j = s.blk j := rfl
@[simp] theorem State.hart_updCore_other (s : State) (c : Nat) (f : Core → Core) (j : Nat) : (s.updCore c f).hart j = s.hart j := rfl
@[simp] theorem State.grp_updDom_other (s : State) (d : Nat) (f : Domain → Domain) (j : Nat) : (s.updDom d f).grp j = s.grp j := rfl
@[simp] theorem State.core_updDom_other (s : State) (d : Nat) (f : Domain → Domain) (j : Nat) : (s.updDom d f).core j = s.core j := rfl
@[simp] theorem State.ctx_updDom_other (s : State) (d : Nat) (f : Domain → Domain) (j : Nat) : (s.updDom d f).ctx j = s.ctx j := rfl
@[simp] theorem State.gridOf_updDom_other (s : State) (d : Nat) (f : Domain → Domain) (j : Nat) : (s.updDom d f).gridOf j = s.gridOf j := rfl
@[simp] theorem State.blk_updDom_other (s : State) (d : Nat) (f : Domain → Domain) (j : Nat) : (s.updDom d f).blk j = s.blk j := rfl
@[simp] theorem State.hart_updDom_other (s : State) (d : Nat) (f : Domain → Domain) (j : Nat) : (s.updDom d f).hart j = s.hart j := rfl
@[simp] theorem State.grp_updCtx_other (s : State) (a : Nat) (f : Context → Context) (j : Nat) : (s.updCtx a f).grp j = s.grp j := rfl
@[simp] theorem State.core_updCtx_other (s : State) (a : Nat) (f : Context → Context) (j : Nat) : (s.updCtx a f).core j = s.core j := rfl
@[simp] theorem State.dom_updCtx_other (s : State) (a : Nat) (f : Context → Context) (j : Nat) : (s.updCtx a f).dom j = s.dom j := rfl
@[simp] theorem State.gridOf_updCtx_other (s : State) (a : Nat) (f : Context → Context) (j : Nat) : (s.updCtx a f).gridOf j = s.gridOf j := rfl
@[simp] theorem State.blk_updCtx_other (s : State) (a : Nat) (f : Context → Context) (j : Nat) : (s.updCtx a f).blk j = s.blk j := rfl
@[simp] theorem State.hart_updCtx_other (s : State) (a : Nat) (f : Context → Context) (j : Nat) : (s.updCtx a f).hart j = s.hart j := rfl
@[simp] theorem State.grp_updGrid_other (s : State) (n : Nat) (f : Grid → Grid) (j : Nat) : (s.updGrid n f).grp j = s.grp j := rfl
@[simp] theorem State.core_updGrid_other (s : State) (n : Nat) (f : Grid → Grid) (j : Nat) : (s.updGrid n f).core j = s.core j := rfl
@[simp] theorem State.dom_updGrid_other (s : State) (n : Nat) (f : Grid → Grid) (j : Nat) : (s.updGrid n f).dom j = s.dom j := rfl
@[simp] theorem State.ctx_updGrid_other (s : State) (n : Nat) (f : Grid → Grid) (j : Nat) : (s.updGrid n f).ctx j = s.ctx j := rfl
@[simp] theorem State.blk_updGrid_other (s : State) (n : Nat) (f : Grid → Grid) (j : Nat) : (s.updGrid n f).blk j = s.blk j := rfl
@[simp] theorem State.hart_updGrid_other (s : State) (n : Nat) (f : Grid → Grid) (j : Nat) : (s.updGrid n f).hart j = s.hart j := rfl
@[simp] theorem State.grp_updBlk_other (s : State) (b : Nat) (f : Block → Block) (j : Nat) : (s.updBlk b f).grp j = s.grp j := rfl
@[simp] theorem State.core_updBlk_other (s : State) (b : Nat) (f : Block → Block) (j : Nat) : (s.updBlk b f).core j = s.core j := rfl
@[simp] theorem State.dom_updBlk_other (s : State) (b : Nat) (f : Block → Block) (j : Nat) : (s.updBlk b f).dom j = s.dom j := rfl
@[simp] theorem State.ctx_updBlk_other (s : State) (b : Nat) (f : Block → Block) (j : Nat) : (s.updBlk b f).ctx j = s.ctx j := rfl
@[simp] theorem State.gridOf_updBlk_other (s : State) (b : Nat) (f : Block → Block) (j : Nat) : (s.updBlk b f).gridOf j = s.gridOf j := rfl
@[simp] theorem State.hart_updBlk_other (s : State) (b : Nat) (f : Block → Block) (j : Nat) : (s.updBlk b f).hart j = s.hart j := rfl
@[simp] theorem State.grp_updHart_other (s : State) (h : Nat) (f : Hart → Hart) (j : Nat) : (s.updHart h f).grp j = s.grp j := rfl
@[simp] theorem State.core_updHart_other (s : State) (h : Nat) (f : Hart → Hart) (j : Nat) : (s.updHart h f).core j = s.core j := rfl
@[simp] theorem State.dom_updHart_other (s : State) (h : Nat) (f : Hart → Hart) (j : Nat) : (s.updHart h f).dom j = s.dom j := rfl
@[simp] theorem State.ctx_updHart_other (s : State) (h : Nat) (f : Hart → Hart) (j : Nat) : (s.updHart h f).ctx j = s.ctx j := rfl
@[simp] theorem State.gridOf_updHart_other (s : State) (h : Nat) (f : Hart → Hart) (j : Nat) : (s.updHart h f).gridOf j = s.gridOf j := rfl
@[simp] theorem State.blk_updHart_other (s : State) (h : Nat) (f : Hart → Hart) (j : Nat) : (s.updHart h f).blk j = s.blk j := rfl
@[simp] theorem State.grp_updRidge_other (s : State) (f : Ridge → Ridge) (j : Nat) : (s.updRidge f).grp j = s.grp j := rfl
@[simp] theorem State.core_updRidge_other (s : State) (f : Ridge → Ridge) (j : Nat) : (s.updRidge f).core j = s.core j := rfl
@[simp] theorem State.dom_updRidge_other (s : State) (f : Ridge → Ridge) (j : Nat) : (s.updRidge f).dom j = s.dom j := rfl
@[simp] theorem State.ctx_updRidge_other (s : State) (f : Ridge → Ridge) (j : Nat) : (s.updRidge f).ctx j = s.ctx j := rfl
@[simp] theorem State.gridOf_updRidge_other (s : State) (f : Ridge → Ridge) (j : Nat) : (s.updRidge f).gridOf j = s.gridOf j := rfl
@[simp] theorem State.blk_updRidge_other (s : State) (f : Ridge → Ridge) (j : Nat) : (s.updRidge f).blk j = s.blk j := rfl
@[simp] theorem State.hart_updRidge_other (s : State) (f : Ridge → Ridge) (j : Nat) : (s.updRidge f).hart j = s.hart j := rfl
@[simp] theorem State.cg_updCore (s : State) (c : Nat) (f : Core → Core) : (s.updCore c f).cg = s.cg := rfl
@[simp] theorem State.cg_updDom (s : State) (d : Nat) (f : Domain → Domain) : (s.updDom d f).cg = s.cg := rfl
@[simp] theorem State.cg_updCtx (s : State) (a : Nat) (f : Context → Context) : (s.updCtx a f).cg = s.cg := rfl
@[simp] theorem State.cg_updGrid (s : State) (n : Nat) (f : Grid → Grid) : (s.updGrid n f).cg = s.cg := rfl
@[simp] theorem State.cg_updBlk (s : State) (b : Nat) (f : Block → Block) : (s.updBlk b f).cg = s.cg := rfl
@[simp] theorem State.cg_updHart (s : State) (h : Nat) (f : Hart → Hart) : (s.updHart h f).cg = s.cg := rfl
@[simp] theorem State.cg_updRidge (s : State) (f : Ridge → Ridge) : (s.updRidge f).cg = s.cg := rfl
@[simp] theorem State.ridge_updRidge (s : State) (f : Ridge → Ridge) : (s.updRidge f).ridge = f s.ridge := rfl

/-! ## `Group.setv` -/

@[simp] theorem Group.setv_live (g : Group) (r l : Nat) (x : W32) : (g.setv r l x).live = g.live := rfl
@[simp] theorem Group.setv_grid (g : Group) (r l : Nat) (x : W32) : (g.setv r l x).grid = g.grid := rfl
@[simp] theorem Group.setv_block (g : Group) (r l : Nat) (x : W32) : (g.setv r l x).block = g.block := rfl
@[simp] theorem Group.setv_gidx (g : Group) (r l : Nat) (x : W32) : (g.setv r l x).gidx = g.gidx := rfl
@[simp] theorem Group.setv_core (g : Group) (r l : Nat) (x : W32) : (g.setv r l x).core = g.core := rfl
@[simp] theorem Group.setv_slot (g : Group) (r l : Nat) (x : W32) : (g.setv r l x).slot = g.slot := rfl
@[simp] theorem Group.setv_resident (g : Group) (r l : Nat) (x : W32) : (g.setv r l x).resident = g.resident := rfl
@[simp] theorem Group.setv_exited (g : Group) (r l : Nat) (x : W32) : (g.setv r l x).exited = g.exited := rfl
@[simp] theorem Group.setv_present (g : Group) (r l : Nat) (x : W32) : (g.setv r l x).present = g.present := rfl
@[simp] theorem Group.setv_gone (g : Group) (r l : Nat) (x : W32) : (g.setv r l x).gone = g.gone := rfl
@[simp] theorem Group.setv_nregs (g : Group) (r l : Nat) (x : W32) : (g.setv r l x).nregs = g.nregs := rfl
@[simp] theorem Group.setv_p (g : Group) (r l : Nat) (x : W32) : (g.setv r l x).p = g.p := rfl
@[simp] theorem Group.setv_s (g : Group) (r l : Nat) (x : W32) : (g.setv r l x).s = g.s := rfl
@[simp] theorem Group.setv_xb (g : Group) (r l : Nat) (x : W32) : (g.setv r l x).xb = g.xb := rfl
@[simp] theorem Group.setv_accs (g : Group) (r l : Nat) (x : W32) : (g.setv r l x).accs = g.accs := rfl
@[simp] theorem Group.setv_slots (g : Group) (r l : Nat) (x : W32) : (g.setv r l x).slots = g.slots := rfl
@[simp] theorem Group.setv_quota (g : Group) (r l : Nat) (x : W32) : (g.setv r l x).quota = g.quota := rfl
@[simp] theorem Group.setv_mag (g : Group) (r l : Nat) (x : W32) : (g.setv r l x).mag = g.mag := rfl
@[simp] theorem Group.setv_sb (g : Group) (r l : Nat) (x : W32) : (g.setv r l x).sb = g.sb := rfl
@[simp] theorem Group.setv_cnt (g : Group) (r l : Nat) (x : W32) : (g.setv r l x).cnt = g.cnt := rfl
@[simp] theorem Group.setv_tile (g : Group) (r l : Nat) (x : W32) : (g.setv r l x).tile = g.tile := rfl
@[simp] theorem Group.setv_flags (g : Group) (r l : Nat) (x : W32) : (g.setv r l x).flags = g.flags := rfl
@[simp] theorem Group.setv_splits (g : Group) (r l : Nat) (x : W32) : (g.setv r l x).splits = g.splits := rfl
@[simp] theorem Group.setv_laneq (g : Group) (r l : Nat) (x : W32) : (g.setv r l x).laneq = g.laneq := rfl
@[simp] theorem Group.setv_laneBusy (g : Group) (r l : Nat) (x : W32) : (g.setv r l x).laneBusy = g.laneBusy := rfl
@[simp] theorem Group.setv_runPc (g : Group) (r l : Nat) (x : W32) : (g.setv r l x).runPc = g.runPc := rfl
@[simp] theorem Group.setv_run (g : Group) (r l : Nat) (x : W32) : (g.setv r l x).run = g.run := rfl
@[simp] theorem Group.setv_nextSplit (g : Group) (r l : Nat) (x : W32) : (g.setv r l x).nextSplit = g.nextSplit := rfl
@[simp] theorem Group.setv_ops (g : Group) (r l : Nat) (x : W32) : (g.setv r l x).ops = g.ops := rfl
@[simp] theorem Group.setv_nextOp (g : Group) (r l : Nat) (x : W32) : (g.setv r l x).nextOp = g.nextOp := rfl
@[simp] theorem Group.setv_loads (g : Group) (r l : Nat) (x : W32) : (g.setv r l x).loads = g.loads := rfl
@[simp] theorem Group.setv_late (g : Group) (r l : Nat) (x : W32) : (g.setv r l x).late = g.late := rfl
@[simp] theorem Group.setv_lates (g : Group) (r l : Nat) (x : W32) : (g.setv r l x).lates = g.lates := rfl
@[simp] theorem Group.setv_slds (g : Group) (r l : Nat) (x : W32) : (g.setv r l x).slds = g.slds := rfl
@[simp] theorem Group.setv_cpc (g : Group) (r l : Nat) (x : W32) : (g.setv r l x).cpc = g.cpc := rfl
@[simp] theorem Group.setv_wait (g : Group) (r l : Nat) (x : W32) : (g.setv r l x).wait = g.wait := rfl
@[simp] theorem Group.setv_noBreak (g : Group) (r l : Nat) (x : W32) : (g.setv r l x).noBreak = g.noBreak := rfl
@[simp] theorem Group.setv_laneSup (g : Group) (r l : Nat) (x : W32) : (g.setv r l x).laneSup = g.laneSup := rfl
@[simp] theorem Group.setv_ctlSup (g : Group) (r l : Nat) (x : W32) : (g.setv r l x).ctlSup = g.ctlSup := rfl
@[simp] theorem Group.setv_cause (g : Group) (r l : Nat) (x : W32) : (g.setv r l x).cause = g.cause := rfl
@[simp] theorem Group.setv_faddr (g : Group) (r l : Nat) (x : W32) : (g.setv r l x).faddr = g.faddr := rfl
@[simp] theorem Group.setv_fmask (g : Group) (r l : Nat) (x : W32) : (g.setv r l x).fmask = g.fmask := rfl
@[simp] theorem Group.setv_epc (g : Group) (r l : Nat) (x : W32) : (g.setv r l x).epc = g.epc := rfl
@[simp] theorem Group.setv_elpc (g : Group) (r l : Nat) (x : W32) : (g.setv r l x).elpc = g.elpc := rfl
@[simp] theorem Group.setv_lshadow (g : Group) (r l : Nat) (x : W32) : (g.setv r l x).lshadow = g.lshadow := rfl
@[simp] theorem Group.setv_cshadow (g : Group) (r l : Nat) (x : W32) : (g.setv r l x).cshadow = g.cshadow := rfl
@[simp] theorem Group.setv_lpend (g : Group) (r l : Nat) (x : W32) : (g.setv r l x).lpend = g.lpend := rfl
@[simp] theorem Group.setv_cpend (g : Group) (r l : Nat) (x : W32) : (g.setv r l x).cpend = g.cpend := rfl
@[simp] theorem Group.setv_region (g : Group) (r l : Nat) (x : W32) : (g.setv r l x).region = g.region := rfl
@[simp] theorem Group.setv_regionCnt (g : Group) (r l : Nat) (x : W32) : (g.setv r l x).regionCnt = g.regionCnt := rfl
@[simp] theorem Group.setv_arrivals (g : Group) (r l : Nat) (x : W32) : (g.setv r l x).arrivals = g.arrivals := rfl
@[simp] theorem Group.setv_childOut (g : Group) (r l : Nat) (x : W32) : (g.setv r l x).childOut = g.childOut := rfl
@[simp] theorem Group.setv_childDone (g : Group) (r l : Nat) (x : W32) : (g.setv r l x).childDone = g.childDone := rfl
@[simp] theorem Group.setv_childTrap (g : Group) (r l : Nat) (x : W32) : (g.setv r l x).childTrap = g.childTrap := rfl
@[simp] theorem Group.setv_pass (g : Group) (r l : Nat) (x : W32) : (g.setv r l x).pass = g.pass := rfl
@[simp] theorem Group.setv_parked (g : Group) (r l : Nat) (x : W32) : (g.setv r l x).parked = g.parked := rfl
@[simp] theorem Group.setv_stopRec (g : Group) (r l : Nat) (x : W32) : (g.setv r l x).stopRec = g.stopRec := rfl
@[simp] theorem Group.setv_laneHeld (g : Group) (r l : Nat) (x : W32) : (g.setv r l x).laneHeld = g.laneHeld := rfl
@[simp] theorem Group.setv_laneHolds (g : Group) (r l : Nat) (x : W32) : (g.setv r l x).laneHolds = g.laneHolds := rfl
@[simp] theorem Group.setv_ctlHeld (g : Group) (r l : Nat) (x : W32) : (g.setv r l x).ctlHeld = g.ctlHeld := rfl
@[simp] theorem Group.setv_laneRegen (g : Group) (r l : Nat) (x : W32) : (g.setv r l x).laneRegen = g.laneRegen := rfl
@[simp] theorem Group.setv_ctlRegen (g : Group) (r l : Nat) (x : W32) : (g.setv r l x).ctlRegen = g.ctlRegen := rfl
@[simp] theorem Group.setv_savedTiles (g : Group) (r l : Nat) (x : W32) : (g.setv r l x).savedTiles = g.savedTiles := rfl
@[simp] theorem Group.setv_savedSlots (g : Group) (r l : Nat) (x : W32) : (g.setv r l x).savedSlots = g.savedSlots := rfl
@[simp] theorem Group.setv_savedArr (g : Group) (r l : Nat) (x : W32) : (g.setv r l x).savedArr = g.savedArr := rfl
@[simp] theorem Group.setv_savedFills (g : Group) (r l : Nat) (x : W32) : (g.setv r l x).savedFills = g.savedFills := rfl
@[simp] theorem Group.setv_noResult (g : Group) (r l : Nat) (x : W32) : (g.setv r l x).noResult = g.noResult := rfl
@[simp] theorem Group.setv_chunkNos (g : Group) (r l : Nat) (x : W32) : (g.setv r l x).chunkNos = g.chunkNos := rfl

/-! ## `Group.sets` -/

@[simp] theorem Group.sets_live (g : Group) (n : Nat) (x : W64) : (g.sets n x).live = g.live := rfl
@[simp] theorem Group.sets_grid (g : Group) (n : Nat) (x : W64) : (g.sets n x).grid = g.grid := rfl
@[simp] theorem Group.sets_block (g : Group) (n : Nat) (x : W64) : (g.sets n x).block = g.block := rfl
@[simp] theorem Group.sets_gidx (g : Group) (n : Nat) (x : W64) : (g.sets n x).gidx = g.gidx := rfl
@[simp] theorem Group.sets_core (g : Group) (n : Nat) (x : W64) : (g.sets n x).core = g.core := rfl
@[simp] theorem Group.sets_slot (g : Group) (n : Nat) (x : W64) : (g.sets n x).slot = g.slot := rfl
@[simp] theorem Group.sets_resident (g : Group) (n : Nat) (x : W64) : (g.sets n x).resident = g.resident := rfl
@[simp] theorem Group.sets_exited (g : Group) (n : Nat) (x : W64) : (g.sets n x).exited = g.exited := rfl
@[simp] theorem Group.sets_present (g : Group) (n : Nat) (x : W64) : (g.sets n x).present = g.present := rfl
@[simp] theorem Group.sets_gone (g : Group) (n : Nat) (x : W64) : (g.sets n x).gone = g.gone := rfl
@[simp] theorem Group.sets_nregs (g : Group) (n : Nat) (x : W64) : (g.sets n x).nregs = g.nregs := rfl
@[simp] theorem Group.sets_v (g : Group) (n : Nat) (x : W64) : (g.sets n x).v = g.v := rfl
@[simp] theorem Group.sets_badV (g : Group) (n : Nat) (x : W64) : (g.sets n x).badV = g.badV := rfl
@[simp] theorem Group.sets_p (g : Group) (n : Nat) (x : W64) : (g.sets n x).p = g.p := rfl
@[simp] theorem Group.sets_xb (g : Group) (n : Nat) (x : W64) : (g.sets n x).xb = g.xb := rfl
@[simp] theorem Group.sets_accs (g : Group) (n : Nat) (x : W64) : (g.sets n x).accs = g.accs := rfl
@[simp] theorem Group.sets_slots (g : Group) (n : Nat) (x : W64) : (g.sets n x).slots = g.slots := rfl
@[simp] theorem Group.sets_quota (g : Group) (n : Nat) (x : W64) : (g.sets n x).quota = g.quota := rfl
@[simp] theorem Group.sets_mag (g : Group) (n : Nat) (x : W64) : (g.sets n x).mag = g.mag := rfl
@[simp] theorem Group.sets_sb (g : Group) (n : Nat) (x : W64) : (g.sets n x).sb = g.sb := rfl
@[simp] theorem Group.sets_cnt (g : Group) (n : Nat) (x : W64) : (g.sets n x).cnt = g.cnt := rfl
@[simp] theorem Group.sets_tile (g : Group) (n : Nat) (x : W64) : (g.sets n x).tile = g.tile := rfl
@[simp] theorem Group.sets_flags (g : Group) (n : Nat) (x : W64) : (g.sets n x).flags = g.flags := rfl
@[simp] theorem Group.sets_splits (g : Group) (n : Nat) (x : W64) : (g.sets n x).splits = g.splits := rfl
@[simp] theorem Group.sets_laneq (g : Group) (n : Nat) (x : W64) : (g.sets n x).laneq = g.laneq := rfl
@[simp] theorem Group.sets_laneBusy (g : Group) (n : Nat) (x : W64) : (g.sets n x).laneBusy = g.laneBusy := rfl
@[simp] theorem Group.sets_runPc (g : Group) (n : Nat) (x : W64) : (g.sets n x).runPc = g.runPc := rfl
@[simp] theorem Group.sets_run (g : Group) (n : Nat) (x : W64) : (g.sets n x).run = g.run := rfl
@[simp] theorem Group.sets_nextSplit (g : Group) (n : Nat) (x : W64) : (g.sets n x).nextSplit = g.nextSplit := rfl
@[simp] theorem Group.sets_ops (g : Group) (n : Nat) (x : W64) : (g.sets n x).ops = g.ops := rfl
@[simp] theorem Group.sets_nextOp (g : Group) (n : Nat) (x : W64) : (g.sets n x).nextOp = g.nextOp := rfl
@[simp] theorem Group.sets_loads (g : Group) (n : Nat) (x : W64) : (g.sets n x).loads = g.loads := rfl
@[simp] theorem Group.sets_late (g : Group) (n : Nat) (x : W64) : (g.sets n x).late = g.late := rfl
@[simp] theorem Group.sets_lates (g : Group) (n : Nat) (x : W64) : (g.sets n x).lates = g.lates := rfl
@[simp] theorem Group.sets_slds (g : Group) (n : Nat) (x : W64) : (g.sets n x).slds = g.slds := rfl
@[simp] theorem Group.sets_cpc (g : Group) (n : Nat) (x : W64) : (g.sets n x).cpc = g.cpc := rfl
@[simp] theorem Group.sets_wait (g : Group) (n : Nat) (x : W64) : (g.sets n x).wait = g.wait := rfl
@[simp] theorem Group.sets_noBreak (g : Group) (n : Nat) (x : W64) : (g.sets n x).noBreak = g.noBreak := rfl
@[simp] theorem Group.sets_laneSup (g : Group) (n : Nat) (x : W64) : (g.sets n x).laneSup = g.laneSup := rfl
@[simp] theorem Group.sets_ctlSup (g : Group) (n : Nat) (x : W64) : (g.sets n x).ctlSup = g.ctlSup := rfl
@[simp] theorem Group.sets_cause (g : Group) (n : Nat) (x : W64) : (g.sets n x).cause = g.cause := rfl
@[simp] theorem Group.sets_faddr (g : Group) (n : Nat) (x : W64) : (g.sets n x).faddr = g.faddr := rfl
@[simp] theorem Group.sets_fmask (g : Group) (n : Nat) (x : W64) : (g.sets n x).fmask = g.fmask := rfl
@[simp] theorem Group.sets_epc (g : Group) (n : Nat) (x : W64) : (g.sets n x).epc = g.epc := rfl
@[simp] theorem Group.sets_elpc (g : Group) (n : Nat) (x : W64) : (g.sets n x).elpc = g.elpc := rfl
@[simp] theorem Group.sets_lshadow (g : Group) (n : Nat) (x : W64) : (g.sets n x).lshadow = g.lshadow := rfl
@[simp] theorem Group.sets_cshadow (g : Group) (n : Nat) (x : W64) : (g.sets n x).cshadow = g.cshadow := rfl
@[simp] theorem Group.sets_lpend (g : Group) (n : Nat) (x : W64) : (g.sets n x).lpend = g.lpend := rfl
@[simp] theorem Group.sets_cpend (g : Group) (n : Nat) (x : W64) : (g.sets n x).cpend = g.cpend := rfl
@[simp] theorem Group.sets_region (g : Group) (n : Nat) (x : W64) : (g.sets n x).region = g.region := rfl
@[simp] theorem Group.sets_regionCnt (g : Group) (n : Nat) (x : W64) : (g.sets n x).regionCnt = g.regionCnt := rfl
@[simp] theorem Group.sets_arrivals (g : Group) (n : Nat) (x : W64) : (g.sets n x).arrivals = g.arrivals := rfl
@[simp] theorem Group.sets_childOut (g : Group) (n : Nat) (x : W64) : (g.sets n x).childOut = g.childOut := rfl
@[simp] theorem Group.sets_childDone (g : Group) (n : Nat) (x : W64) : (g.sets n x).childDone = g.childDone := rfl
@[simp] theorem Group.sets_childTrap (g : Group) (n : Nat) (x : W64) : (g.sets n x).childTrap = g.childTrap := rfl
@[simp] theorem Group.sets_pass (g : Group) (n : Nat) (x : W64) : (g.sets n x).pass = g.pass := rfl
@[simp] theorem Group.sets_parked (g : Group) (n : Nat) (x : W64) : (g.sets n x).parked = g.parked := rfl
@[simp] theorem Group.sets_stopRec (g : Group) (n : Nat) (x : W64) : (g.sets n x).stopRec = g.stopRec := rfl
@[simp] theorem Group.sets_laneHeld (g : Group) (n : Nat) (x : W64) : (g.sets n x).laneHeld = g.laneHeld := rfl
@[simp] theorem Group.sets_laneHolds (g : Group) (n : Nat) (x : W64) : (g.sets n x).laneHolds = g.laneHolds := rfl
@[simp] theorem Group.sets_ctlHeld (g : Group) (n : Nat) (x : W64) : (g.sets n x).ctlHeld = g.ctlHeld := rfl
@[simp] theorem Group.sets_laneRegen (g : Group) (n : Nat) (x : W64) : (g.sets n x).laneRegen = g.laneRegen := rfl
@[simp] theorem Group.sets_ctlRegen (g : Group) (n : Nat) (x : W64) : (g.sets n x).ctlRegen = g.ctlRegen := rfl
@[simp] theorem Group.sets_savedTiles (g : Group) (n : Nat) (x : W64) : (g.sets n x).savedTiles = g.savedTiles := rfl
@[simp] theorem Group.sets_savedSlots (g : Group) (n : Nat) (x : W64) : (g.sets n x).savedSlots = g.savedSlots := rfl
@[simp] theorem Group.sets_savedArr (g : Group) (n : Nat) (x : W64) : (g.sets n x).savedArr = g.savedArr := rfl
@[simp] theorem Group.sets_savedFills (g : Group) (n : Nat) (x : W64) : (g.sets n x).savedFills = g.savedFills := rfl
@[simp] theorem Group.sets_noResult (g : Group) (n : Nat) (x : W64) : (g.sets n x).noResult = g.noResult := rfl
@[simp] theorem Group.sets_chunkNos (g : Group) (n : Nat) (x : W64) : (g.sets n x).chunkNos = g.chunkNos := rfl

/-! ## `Group.setxb` -/

@[simp] theorem Group.setxb_live (g : Group) (n : Nat) (x : XbReg) : (g.setxb n x).live = g.live := rfl
@[simp] theorem Group.setxb_grid (g : Group) (n : Nat) (x : XbReg) : (g.setxb n x).grid = g.grid := rfl
@[simp] theorem Group.setxb_block (g : Group) (n : Nat) (x : XbReg) : (g.setxb n x).block = g.block := rfl
@[simp] theorem Group.setxb_gidx (g : Group) (n : Nat) (x : XbReg) : (g.setxb n x).gidx = g.gidx := rfl
@[simp] theorem Group.setxb_core (g : Group) (n : Nat) (x : XbReg) : (g.setxb n x).core = g.core := rfl
@[simp] theorem Group.setxb_slot (g : Group) (n : Nat) (x : XbReg) : (g.setxb n x).slot = g.slot := rfl
@[simp] theorem Group.setxb_resident (g : Group) (n : Nat) (x : XbReg) : (g.setxb n x).resident = g.resident := rfl
@[simp] theorem Group.setxb_exited (g : Group) (n : Nat) (x : XbReg) : (g.setxb n x).exited = g.exited := rfl
@[simp] theorem Group.setxb_present (g : Group) (n : Nat) (x : XbReg) : (g.setxb n x).present = g.present := rfl
@[simp] theorem Group.setxb_gone (g : Group) (n : Nat) (x : XbReg) : (g.setxb n x).gone = g.gone := rfl
@[simp] theorem Group.setxb_nregs (g : Group) (n : Nat) (x : XbReg) : (g.setxb n x).nregs = g.nregs := rfl
@[simp] theorem Group.setxb_v (g : Group) (n : Nat) (x : XbReg) : (g.setxb n x).v = g.v := rfl
@[simp] theorem Group.setxb_badV (g : Group) (n : Nat) (x : XbReg) : (g.setxb n x).badV = g.badV := rfl
@[simp] theorem Group.setxb_p (g : Group) (n : Nat) (x : XbReg) : (g.setxb n x).p = g.p := rfl
@[simp] theorem Group.setxb_s (g : Group) (n : Nat) (x : XbReg) : (g.setxb n x).s = g.s := rfl
@[simp] theorem Group.setxb_accs (g : Group) (n : Nat) (x : XbReg) : (g.setxb n x).accs = g.accs := rfl
@[simp] theorem Group.setxb_slots (g : Group) (n : Nat) (x : XbReg) : (g.setxb n x).slots = g.slots := rfl
@[simp] theorem Group.setxb_quota (g : Group) (n : Nat) (x : XbReg) : (g.setxb n x).quota = g.quota := rfl
@[simp] theorem Group.setxb_mag (g : Group) (n : Nat) (x : XbReg) : (g.setxb n x).mag = g.mag := rfl
@[simp] theorem Group.setxb_sb (g : Group) (n : Nat) (x : XbReg) : (g.setxb n x).sb = g.sb := rfl
@[simp] theorem Group.setxb_cnt (g : Group) (n : Nat) (x : XbReg) : (g.setxb n x).cnt = g.cnt := rfl
@[simp] theorem Group.setxb_tile (g : Group) (n : Nat) (x : XbReg) : (g.setxb n x).tile = g.tile := rfl
@[simp] theorem Group.setxb_flags (g : Group) (n : Nat) (x : XbReg) : (g.setxb n x).flags = g.flags := rfl
@[simp] theorem Group.setxb_splits (g : Group) (n : Nat) (x : XbReg) : (g.setxb n x).splits = g.splits := rfl
@[simp] theorem Group.setxb_laneq (g : Group) (n : Nat) (x : XbReg) : (g.setxb n x).laneq = g.laneq := rfl
@[simp] theorem Group.setxb_laneBusy (g : Group) (n : Nat) (x : XbReg) : (g.setxb n x).laneBusy = g.laneBusy := rfl
@[simp] theorem Group.setxb_runPc (g : Group) (n : Nat) (x : XbReg) : (g.setxb n x).runPc = g.runPc := rfl
@[simp] theorem Group.setxb_run (g : Group) (n : Nat) (x : XbReg) : (g.setxb n x).run = g.run := rfl
@[simp] theorem Group.setxb_nextSplit (g : Group) (n : Nat) (x : XbReg) : (g.setxb n x).nextSplit = g.nextSplit := rfl
@[simp] theorem Group.setxb_ops (g : Group) (n : Nat) (x : XbReg) : (g.setxb n x).ops = g.ops := rfl
@[simp] theorem Group.setxb_nextOp (g : Group) (n : Nat) (x : XbReg) : (g.setxb n x).nextOp = g.nextOp := rfl
@[simp] theorem Group.setxb_loads (g : Group) (n : Nat) (x : XbReg) : (g.setxb n x).loads = g.loads := rfl
@[simp] theorem Group.setxb_late (g : Group) (n : Nat) (x : XbReg) : (g.setxb n x).late = g.late := rfl
@[simp] theorem Group.setxb_lates (g : Group) (n : Nat) (x : XbReg) : (g.setxb n x).lates = g.lates := rfl
@[simp] theorem Group.setxb_slds (g : Group) (n : Nat) (x : XbReg) : (g.setxb n x).slds = g.slds := rfl
@[simp] theorem Group.setxb_cpc (g : Group) (n : Nat) (x : XbReg) : (g.setxb n x).cpc = g.cpc := rfl
@[simp] theorem Group.setxb_wait (g : Group) (n : Nat) (x : XbReg) : (g.setxb n x).wait = g.wait := rfl
@[simp] theorem Group.setxb_noBreak (g : Group) (n : Nat) (x : XbReg) : (g.setxb n x).noBreak = g.noBreak := rfl
@[simp] theorem Group.setxb_laneSup (g : Group) (n : Nat) (x : XbReg) : (g.setxb n x).laneSup = g.laneSup := rfl
@[simp] theorem Group.setxb_ctlSup (g : Group) (n : Nat) (x : XbReg) : (g.setxb n x).ctlSup = g.ctlSup := rfl
@[simp] theorem Group.setxb_cause (g : Group) (n : Nat) (x : XbReg) : (g.setxb n x).cause = g.cause := rfl
@[simp] theorem Group.setxb_faddr (g : Group) (n : Nat) (x : XbReg) : (g.setxb n x).faddr = g.faddr := rfl
@[simp] theorem Group.setxb_fmask (g : Group) (n : Nat) (x : XbReg) : (g.setxb n x).fmask = g.fmask := rfl
@[simp] theorem Group.setxb_epc (g : Group) (n : Nat) (x : XbReg) : (g.setxb n x).epc = g.epc := rfl
@[simp] theorem Group.setxb_elpc (g : Group) (n : Nat) (x : XbReg) : (g.setxb n x).elpc = g.elpc := rfl
@[simp] theorem Group.setxb_lshadow (g : Group) (n : Nat) (x : XbReg) : (g.setxb n x).lshadow = g.lshadow := rfl
@[simp] theorem Group.setxb_cshadow (g : Group) (n : Nat) (x : XbReg) : (g.setxb n x).cshadow = g.cshadow := rfl
@[simp] theorem Group.setxb_lpend (g : Group) (n : Nat) (x : XbReg) : (g.setxb n x).lpend = g.lpend := rfl
@[simp] theorem Group.setxb_cpend (g : Group) (n : Nat) (x : XbReg) : (g.setxb n x).cpend = g.cpend := rfl
@[simp] theorem Group.setxb_region (g : Group) (n : Nat) (x : XbReg) : (g.setxb n x).region = g.region := rfl
@[simp] theorem Group.setxb_regionCnt (g : Group) (n : Nat) (x : XbReg) : (g.setxb n x).regionCnt = g.regionCnt := rfl
@[simp] theorem Group.setxb_arrivals (g : Group) (n : Nat) (x : XbReg) : (g.setxb n x).arrivals = g.arrivals := rfl
@[simp] theorem Group.setxb_childOut (g : Group) (n : Nat) (x : XbReg) : (g.setxb n x).childOut = g.childOut := rfl
@[simp] theorem Group.setxb_childDone (g : Group) (n : Nat) (x : XbReg) : (g.setxb n x).childDone = g.childDone := rfl
@[simp] theorem Group.setxb_childTrap (g : Group) (n : Nat) (x : XbReg) : (g.setxb n x).childTrap = g.childTrap := rfl
@[simp] theorem Group.setxb_pass (g : Group) (n : Nat) (x : XbReg) : (g.setxb n x).pass = g.pass := rfl
@[simp] theorem Group.setxb_parked (g : Group) (n : Nat) (x : XbReg) : (g.setxb n x).parked = g.parked := rfl
@[simp] theorem Group.setxb_stopRec (g : Group) (n : Nat) (x : XbReg) : (g.setxb n x).stopRec = g.stopRec := rfl
@[simp] theorem Group.setxb_laneHeld (g : Group) (n : Nat) (x : XbReg) : (g.setxb n x).laneHeld = g.laneHeld := rfl
@[simp] theorem Group.setxb_laneHolds (g : Group) (n : Nat) (x : XbReg) : (g.setxb n x).laneHolds = g.laneHolds := rfl
@[simp] theorem Group.setxb_ctlHeld (g : Group) (n : Nat) (x : XbReg) : (g.setxb n x).ctlHeld = g.ctlHeld := rfl
@[simp] theorem Group.setxb_laneRegen (g : Group) (n : Nat) (x : XbReg) : (g.setxb n x).laneRegen = g.laneRegen := rfl
@[simp] theorem Group.setxb_ctlRegen (g : Group) (n : Nat) (x : XbReg) : (g.setxb n x).ctlRegen = g.ctlRegen := rfl
@[simp] theorem Group.setxb_savedTiles (g : Group) (n : Nat) (x : XbReg) : (g.setxb n x).savedTiles = g.savedTiles := rfl
@[simp] theorem Group.setxb_savedSlots (g : Group) (n : Nat) (x : XbReg) : (g.setxb n x).savedSlots = g.savedSlots := rfl
@[simp] theorem Group.setxb_savedArr (g : Group) (n : Nat) (x : XbReg) : (g.setxb n x).savedArr = g.savedArr := rfl
@[simp] theorem Group.setxb_savedFills (g : Group) (n : Nat) (x : XbReg) : (g.setxb n x).savedFills = g.savedFills := rfl
@[simp] theorem Group.setxb_noResult (g : Group) (n : Nat) (x : XbReg) : (g.setxb n x).noResult = g.noResult := rfl
@[simp] theorem Group.setxb_chunkNos (g : Group) (n : Nat) (x : XbReg) : (g.setxb n x).chunkNos = g.chunkNos := rfl

/-! ## `Group.setmag` -/

@[simp] theorem Group.setmag_live (g : Group) (n : Nat) (x : W32) : (g.setmag n x).live = g.live := rfl
@[simp] theorem Group.setmag_grid (g : Group) (n : Nat) (x : W32) : (g.setmag n x).grid = g.grid := rfl
@[simp] theorem Group.setmag_block (g : Group) (n : Nat) (x : W32) : (g.setmag n x).block = g.block := rfl
@[simp] theorem Group.setmag_gidx (g : Group) (n : Nat) (x : W32) : (g.setmag n x).gidx = g.gidx := rfl
@[simp] theorem Group.setmag_core (g : Group) (n : Nat) (x : W32) : (g.setmag n x).core = g.core := rfl
@[simp] theorem Group.setmag_slot (g : Group) (n : Nat) (x : W32) : (g.setmag n x).slot = g.slot := rfl
@[simp] theorem Group.setmag_resident (g : Group) (n : Nat) (x : W32) : (g.setmag n x).resident = g.resident := rfl
@[simp] theorem Group.setmag_exited (g : Group) (n : Nat) (x : W32) : (g.setmag n x).exited = g.exited := rfl
@[simp] theorem Group.setmag_present (g : Group) (n : Nat) (x : W32) : (g.setmag n x).present = g.present := rfl
@[simp] theorem Group.setmag_gone (g : Group) (n : Nat) (x : W32) : (g.setmag n x).gone = g.gone := rfl
@[simp] theorem Group.setmag_nregs (g : Group) (n : Nat) (x : W32) : (g.setmag n x).nregs = g.nregs := rfl
@[simp] theorem Group.setmag_v (g : Group) (n : Nat) (x : W32) : (g.setmag n x).v = g.v := rfl
@[simp] theorem Group.setmag_badV (g : Group) (n : Nat) (x : W32) : (g.setmag n x).badV = g.badV := rfl
@[simp] theorem Group.setmag_p (g : Group) (n : Nat) (x : W32) : (g.setmag n x).p = g.p := rfl
@[simp] theorem Group.setmag_s (g : Group) (n : Nat) (x : W32) : (g.setmag n x).s = g.s := rfl
@[simp] theorem Group.setmag_xb (g : Group) (n : Nat) (x : W32) : (g.setmag n x).xb = g.xb := rfl
@[simp] theorem Group.setmag_accs (g : Group) (n : Nat) (x : W32) : (g.setmag n x).accs = g.accs := rfl
@[simp] theorem Group.setmag_slots (g : Group) (n : Nat) (x : W32) : (g.setmag n x).slots = g.slots := rfl
@[simp] theorem Group.setmag_quota (g : Group) (n : Nat) (x : W32) : (g.setmag n x).quota = g.quota := rfl
@[simp] theorem Group.setmag_sb (g : Group) (n : Nat) (x : W32) : (g.setmag n x).sb = g.sb := rfl
@[simp] theorem Group.setmag_cnt (g : Group) (n : Nat) (x : W32) : (g.setmag n x).cnt = g.cnt := rfl
@[simp] theorem Group.setmag_tile (g : Group) (n : Nat) (x : W32) : (g.setmag n x).tile = g.tile := rfl
@[simp] theorem Group.setmag_flags (g : Group) (n : Nat) (x : W32) : (g.setmag n x).flags = g.flags := rfl
@[simp] theorem Group.setmag_splits (g : Group) (n : Nat) (x : W32) : (g.setmag n x).splits = g.splits := rfl
@[simp] theorem Group.setmag_laneq (g : Group) (n : Nat) (x : W32) : (g.setmag n x).laneq = g.laneq := rfl
@[simp] theorem Group.setmag_laneBusy (g : Group) (n : Nat) (x : W32) : (g.setmag n x).laneBusy = g.laneBusy := rfl
@[simp] theorem Group.setmag_runPc (g : Group) (n : Nat) (x : W32) : (g.setmag n x).runPc = g.runPc := rfl
@[simp] theorem Group.setmag_run (g : Group) (n : Nat) (x : W32) : (g.setmag n x).run = g.run := rfl
@[simp] theorem Group.setmag_nextSplit (g : Group) (n : Nat) (x : W32) : (g.setmag n x).nextSplit = g.nextSplit := rfl
@[simp] theorem Group.setmag_ops (g : Group) (n : Nat) (x : W32) : (g.setmag n x).ops = g.ops := rfl
@[simp] theorem Group.setmag_nextOp (g : Group) (n : Nat) (x : W32) : (g.setmag n x).nextOp = g.nextOp := rfl
@[simp] theorem Group.setmag_loads (g : Group) (n : Nat) (x : W32) : (g.setmag n x).loads = g.loads := rfl
@[simp] theorem Group.setmag_late (g : Group) (n : Nat) (x : W32) : (g.setmag n x).late = g.late := rfl
@[simp] theorem Group.setmag_lates (g : Group) (n : Nat) (x : W32) : (g.setmag n x).lates = g.lates := rfl
@[simp] theorem Group.setmag_slds (g : Group) (n : Nat) (x : W32) : (g.setmag n x).slds = g.slds := rfl
@[simp] theorem Group.setmag_cpc (g : Group) (n : Nat) (x : W32) : (g.setmag n x).cpc = g.cpc := rfl
@[simp] theorem Group.setmag_wait (g : Group) (n : Nat) (x : W32) : (g.setmag n x).wait = g.wait := rfl
@[simp] theorem Group.setmag_noBreak (g : Group) (n : Nat) (x : W32) : (g.setmag n x).noBreak = g.noBreak := rfl
@[simp] theorem Group.setmag_laneSup (g : Group) (n : Nat) (x : W32) : (g.setmag n x).laneSup = g.laneSup := rfl
@[simp] theorem Group.setmag_ctlSup (g : Group) (n : Nat) (x : W32) : (g.setmag n x).ctlSup = g.ctlSup := rfl
@[simp] theorem Group.setmag_cause (g : Group) (n : Nat) (x : W32) : (g.setmag n x).cause = g.cause := rfl
@[simp] theorem Group.setmag_faddr (g : Group) (n : Nat) (x : W32) : (g.setmag n x).faddr = g.faddr := rfl
@[simp] theorem Group.setmag_fmask (g : Group) (n : Nat) (x : W32) : (g.setmag n x).fmask = g.fmask := rfl
@[simp] theorem Group.setmag_epc (g : Group) (n : Nat) (x : W32) : (g.setmag n x).epc = g.epc := rfl
@[simp] theorem Group.setmag_elpc (g : Group) (n : Nat) (x : W32) : (g.setmag n x).elpc = g.elpc := rfl
@[simp] theorem Group.setmag_lshadow (g : Group) (n : Nat) (x : W32) : (g.setmag n x).lshadow = g.lshadow := rfl
@[simp] theorem Group.setmag_cshadow (g : Group) (n : Nat) (x : W32) : (g.setmag n x).cshadow = g.cshadow := rfl
@[simp] theorem Group.setmag_lpend (g : Group) (n : Nat) (x : W32) : (g.setmag n x).lpend = g.lpend := rfl
@[simp] theorem Group.setmag_cpend (g : Group) (n : Nat) (x : W32) : (g.setmag n x).cpend = g.cpend := rfl
@[simp] theorem Group.setmag_region (g : Group) (n : Nat) (x : W32) : (g.setmag n x).region = g.region := rfl
@[simp] theorem Group.setmag_regionCnt (g : Group) (n : Nat) (x : W32) : (g.setmag n x).regionCnt = g.regionCnt := rfl
@[simp] theorem Group.setmag_arrivals (g : Group) (n : Nat) (x : W32) : (g.setmag n x).arrivals = g.arrivals := rfl
@[simp] theorem Group.setmag_childOut (g : Group) (n : Nat) (x : W32) : (g.setmag n x).childOut = g.childOut := rfl
@[simp] theorem Group.setmag_childDone (g : Group) (n : Nat) (x : W32) : (g.setmag n x).childDone = g.childDone := rfl
@[simp] theorem Group.setmag_childTrap (g : Group) (n : Nat) (x : W32) : (g.setmag n x).childTrap = g.childTrap := rfl
@[simp] theorem Group.setmag_pass (g : Group) (n : Nat) (x : W32) : (g.setmag n x).pass = g.pass := rfl
@[simp] theorem Group.setmag_parked (g : Group) (n : Nat) (x : W32) : (g.setmag n x).parked = g.parked := rfl
@[simp] theorem Group.setmag_stopRec (g : Group) (n : Nat) (x : W32) : (g.setmag n x).stopRec = g.stopRec := rfl
@[simp] theorem Group.setmag_laneHeld (g : Group) (n : Nat) (x : W32) : (g.setmag n x).laneHeld = g.laneHeld := rfl
@[simp] theorem Group.setmag_laneHolds (g : Group) (n : Nat) (x : W32) : (g.setmag n x).laneHolds = g.laneHolds := rfl
@[simp] theorem Group.setmag_ctlHeld (g : Group) (n : Nat) (x : W32) : (g.setmag n x).ctlHeld = g.ctlHeld := rfl
@[simp] theorem Group.setmag_laneRegen (g : Group) (n : Nat) (x : W32) : (g.setmag n x).laneRegen = g.laneRegen := rfl
@[simp] theorem Group.setmag_ctlRegen (g : Group) (n : Nat) (x : W32) : (g.setmag n x).ctlRegen = g.ctlRegen := rfl
@[simp] theorem Group.setmag_savedTiles (g : Group) (n : Nat) (x : W32) : (g.setmag n x).savedTiles = g.savedTiles := rfl
@[simp] theorem Group.setmag_savedSlots (g : Group) (n : Nat) (x : W32) : (g.setmag n x).savedSlots = g.savedSlots := rfl
@[simp] theorem Group.setmag_savedArr (g : Group) (n : Nat) (x : W32) : (g.setmag n x).savedArr = g.savedArr := rfl
@[simp] theorem Group.setmag_savedFills (g : Group) (n : Nat) (x : W32) : (g.setmag n x).savedFills = g.savedFills := rfl
@[simp] theorem Group.setmag_noResult (g : Group) (n : Nat) (x : W32) : (g.setmag n x).noResult = g.noResult := rfl
@[simp] theorem Group.setmag_chunkNos (g : Group) (n : Nat) (x : W32) : (g.setmag n x).chunkNos = g.chunkNos := rfl

/-! ## `Group.setsb` -/

@[simp] theorem Group.setsb_live (g : Group) (n x : Nat) : (g.setsb n x).live = g.live := rfl
@[simp] theorem Group.setsb_grid (g : Group) (n x : Nat) : (g.setsb n x).grid = g.grid := rfl
@[simp] theorem Group.setsb_block (g : Group) (n x : Nat) : (g.setsb n x).block = g.block := rfl
@[simp] theorem Group.setsb_gidx (g : Group) (n x : Nat) : (g.setsb n x).gidx = g.gidx := rfl
@[simp] theorem Group.setsb_core (g : Group) (n x : Nat) : (g.setsb n x).core = g.core := rfl
@[simp] theorem Group.setsb_slot (g : Group) (n x : Nat) : (g.setsb n x).slot = g.slot := rfl
@[simp] theorem Group.setsb_resident (g : Group) (n x : Nat) : (g.setsb n x).resident = g.resident := rfl
@[simp] theorem Group.setsb_exited (g : Group) (n x : Nat) : (g.setsb n x).exited = g.exited := rfl
@[simp] theorem Group.setsb_present (g : Group) (n x : Nat) : (g.setsb n x).present = g.present := rfl
@[simp] theorem Group.setsb_gone (g : Group) (n x : Nat) : (g.setsb n x).gone = g.gone := rfl
@[simp] theorem Group.setsb_nregs (g : Group) (n x : Nat) : (g.setsb n x).nregs = g.nregs := rfl
@[simp] theorem Group.setsb_v (g : Group) (n x : Nat) : (g.setsb n x).v = g.v := rfl
@[simp] theorem Group.setsb_badV (g : Group) (n x : Nat) : (g.setsb n x).badV = g.badV := rfl
@[simp] theorem Group.setsb_p (g : Group) (n x : Nat) : (g.setsb n x).p = g.p := rfl
@[simp] theorem Group.setsb_s (g : Group) (n x : Nat) : (g.setsb n x).s = g.s := rfl
@[simp] theorem Group.setsb_xb (g : Group) (n x : Nat) : (g.setsb n x).xb = g.xb := rfl
@[simp] theorem Group.setsb_accs (g : Group) (n x : Nat) : (g.setsb n x).accs = g.accs := rfl
@[simp] theorem Group.setsb_slots (g : Group) (n x : Nat) : (g.setsb n x).slots = g.slots := rfl
@[simp] theorem Group.setsb_quota (g : Group) (n x : Nat) : (g.setsb n x).quota = g.quota := rfl
@[simp] theorem Group.setsb_mag (g : Group) (n x : Nat) : (g.setsb n x).mag = g.mag := rfl
@[simp] theorem Group.setsb_cnt (g : Group) (n x : Nat) : (g.setsb n x).cnt = g.cnt := rfl
@[simp] theorem Group.setsb_tile (g : Group) (n x : Nat) : (g.setsb n x).tile = g.tile := rfl
@[simp] theorem Group.setsb_flags (g : Group) (n x : Nat) : (g.setsb n x).flags = g.flags := rfl
@[simp] theorem Group.setsb_splits (g : Group) (n x : Nat) : (g.setsb n x).splits = g.splits := rfl
@[simp] theorem Group.setsb_laneq (g : Group) (n x : Nat) : (g.setsb n x).laneq = g.laneq := rfl
@[simp] theorem Group.setsb_laneBusy (g : Group) (n x : Nat) : (g.setsb n x).laneBusy = g.laneBusy := rfl
@[simp] theorem Group.setsb_runPc (g : Group) (n x : Nat) : (g.setsb n x).runPc = g.runPc := rfl
@[simp] theorem Group.setsb_run (g : Group) (n x : Nat) : (g.setsb n x).run = g.run := rfl
@[simp] theorem Group.setsb_nextSplit (g : Group) (n x : Nat) : (g.setsb n x).nextSplit = g.nextSplit := rfl
@[simp] theorem Group.setsb_ops (g : Group) (n x : Nat) : (g.setsb n x).ops = g.ops := rfl
@[simp] theorem Group.setsb_nextOp (g : Group) (n x : Nat) : (g.setsb n x).nextOp = g.nextOp := rfl
@[simp] theorem Group.setsb_loads (g : Group) (n x : Nat) : (g.setsb n x).loads = g.loads := rfl
@[simp] theorem Group.setsb_late (g : Group) (n x : Nat) : (g.setsb n x).late = g.late := rfl
@[simp] theorem Group.setsb_lates (g : Group) (n x : Nat) : (g.setsb n x).lates = g.lates := rfl
@[simp] theorem Group.setsb_slds (g : Group) (n x : Nat) : (g.setsb n x).slds = g.slds := rfl
@[simp] theorem Group.setsb_cpc (g : Group) (n x : Nat) : (g.setsb n x).cpc = g.cpc := rfl
@[simp] theorem Group.setsb_wait (g : Group) (n x : Nat) : (g.setsb n x).wait = g.wait := rfl
@[simp] theorem Group.setsb_noBreak (g : Group) (n x : Nat) : (g.setsb n x).noBreak = g.noBreak := rfl
@[simp] theorem Group.setsb_laneSup (g : Group) (n x : Nat) : (g.setsb n x).laneSup = g.laneSup := rfl
@[simp] theorem Group.setsb_ctlSup (g : Group) (n x : Nat) : (g.setsb n x).ctlSup = g.ctlSup := rfl
@[simp] theorem Group.setsb_cause (g : Group) (n x : Nat) : (g.setsb n x).cause = g.cause := rfl
@[simp] theorem Group.setsb_faddr (g : Group) (n x : Nat) : (g.setsb n x).faddr = g.faddr := rfl
@[simp] theorem Group.setsb_fmask (g : Group) (n x : Nat) : (g.setsb n x).fmask = g.fmask := rfl
@[simp] theorem Group.setsb_epc (g : Group) (n x : Nat) : (g.setsb n x).epc = g.epc := rfl
@[simp] theorem Group.setsb_elpc (g : Group) (n x : Nat) : (g.setsb n x).elpc = g.elpc := rfl
@[simp] theorem Group.setsb_lshadow (g : Group) (n x : Nat) : (g.setsb n x).lshadow = g.lshadow := rfl
@[simp] theorem Group.setsb_cshadow (g : Group) (n x : Nat) : (g.setsb n x).cshadow = g.cshadow := rfl
@[simp] theorem Group.setsb_lpend (g : Group) (n x : Nat) : (g.setsb n x).lpend = g.lpend := rfl
@[simp] theorem Group.setsb_cpend (g : Group) (n x : Nat) : (g.setsb n x).cpend = g.cpend := rfl
@[simp] theorem Group.setsb_region (g : Group) (n x : Nat) : (g.setsb n x).region = g.region := rfl
@[simp] theorem Group.setsb_regionCnt (g : Group) (n x : Nat) : (g.setsb n x).regionCnt = g.regionCnt := rfl
@[simp] theorem Group.setsb_arrivals (g : Group) (n x : Nat) : (g.setsb n x).arrivals = g.arrivals := rfl
@[simp] theorem Group.setsb_childOut (g : Group) (n x : Nat) : (g.setsb n x).childOut = g.childOut := rfl
@[simp] theorem Group.setsb_childDone (g : Group) (n x : Nat) : (g.setsb n x).childDone = g.childDone := rfl
@[simp] theorem Group.setsb_childTrap (g : Group) (n x : Nat) : (g.setsb n x).childTrap = g.childTrap := rfl
@[simp] theorem Group.setsb_pass (g : Group) (n x : Nat) : (g.setsb n x).pass = g.pass := rfl
@[simp] theorem Group.setsb_parked (g : Group) (n x : Nat) : (g.setsb n x).parked = g.parked := rfl
@[simp] theorem Group.setsb_stopRec (g : Group) (n x : Nat) : (g.setsb n x).stopRec = g.stopRec := rfl
@[simp] theorem Group.setsb_laneHeld (g : Group) (n x : Nat) : (g.setsb n x).laneHeld = g.laneHeld := rfl
@[simp] theorem Group.setsb_laneHolds (g : Group) (n x : Nat) : (g.setsb n x).laneHolds = g.laneHolds := rfl
@[simp] theorem Group.setsb_ctlHeld (g : Group) (n x : Nat) : (g.setsb n x).ctlHeld = g.ctlHeld := rfl
@[simp] theorem Group.setsb_laneRegen (g : Group) (n x : Nat) : (g.setsb n x).laneRegen = g.laneRegen := rfl
@[simp] theorem Group.setsb_ctlRegen (g : Group) (n x : Nat) : (g.setsb n x).ctlRegen = g.ctlRegen := rfl
@[simp] theorem Group.setsb_savedTiles (g : Group) (n x : Nat) : (g.setsb n x).savedTiles = g.savedTiles := rfl
@[simp] theorem Group.setsb_savedSlots (g : Group) (n x : Nat) : (g.setsb n x).savedSlots = g.savedSlots := rfl
@[simp] theorem Group.setsb_savedArr (g : Group) (n x : Nat) : (g.setsb n x).savedArr = g.savedArr := rfl
@[simp] theorem Group.setsb_savedFills (g : Group) (n x : Nat) : (g.setsb n x).savedFills = g.savedFills := rfl
@[simp] theorem Group.setsb_noResult (g : Group) (n x : Nat) : (g.setsb n x).noResult = g.noResult := rfl
@[simp] theorem Group.setsb_chunkNos (g : Group) (n x : Nat) : (g.setsb n x).chunkNos = g.chunkNos := rfl

/-! ## `Group.setcnt` -/

@[simp] theorem Group.setcnt_live (g : Group) (c x : Nat) : (g.setcnt c x).live = g.live := rfl
@[simp] theorem Group.setcnt_grid (g : Group) (c x : Nat) : (g.setcnt c x).grid = g.grid := rfl
@[simp] theorem Group.setcnt_block (g : Group) (c x : Nat) : (g.setcnt c x).block = g.block := rfl
@[simp] theorem Group.setcnt_gidx (g : Group) (c x : Nat) : (g.setcnt c x).gidx = g.gidx := rfl
@[simp] theorem Group.setcnt_core (g : Group) (c x : Nat) : (g.setcnt c x).core = g.core := rfl
@[simp] theorem Group.setcnt_slot (g : Group) (c x : Nat) : (g.setcnt c x).slot = g.slot := rfl
@[simp] theorem Group.setcnt_resident (g : Group) (c x : Nat) : (g.setcnt c x).resident = g.resident := rfl
@[simp] theorem Group.setcnt_exited (g : Group) (c x : Nat) : (g.setcnt c x).exited = g.exited := rfl
@[simp] theorem Group.setcnt_present (g : Group) (c x : Nat) : (g.setcnt c x).present = g.present := rfl
@[simp] theorem Group.setcnt_gone (g : Group) (c x : Nat) : (g.setcnt c x).gone = g.gone := rfl
@[simp] theorem Group.setcnt_nregs (g : Group) (c x : Nat) : (g.setcnt c x).nregs = g.nregs := rfl
@[simp] theorem Group.setcnt_v (g : Group) (c x : Nat) : (g.setcnt c x).v = g.v := rfl
@[simp] theorem Group.setcnt_badV (g : Group) (c x : Nat) : (g.setcnt c x).badV = g.badV := rfl
@[simp] theorem Group.setcnt_p (g : Group) (c x : Nat) : (g.setcnt c x).p = g.p := rfl
@[simp] theorem Group.setcnt_s (g : Group) (c x : Nat) : (g.setcnt c x).s = g.s := rfl
@[simp] theorem Group.setcnt_xb (g : Group) (c x : Nat) : (g.setcnt c x).xb = g.xb := rfl
@[simp] theorem Group.setcnt_accs (g : Group) (c x : Nat) : (g.setcnt c x).accs = g.accs := rfl
@[simp] theorem Group.setcnt_slots (g : Group) (c x : Nat) : (g.setcnt c x).slots = g.slots := rfl
@[simp] theorem Group.setcnt_quota (g : Group) (c x : Nat) : (g.setcnt c x).quota = g.quota := rfl
@[simp] theorem Group.setcnt_mag (g : Group) (c x : Nat) : (g.setcnt c x).mag = g.mag := rfl
@[simp] theorem Group.setcnt_sb (g : Group) (c x : Nat) : (g.setcnt c x).sb = g.sb := rfl
@[simp] theorem Group.setcnt_tile (g : Group) (c x : Nat) : (g.setcnt c x).tile = g.tile := rfl
@[simp] theorem Group.setcnt_flags (g : Group) (c x : Nat) : (g.setcnt c x).flags = g.flags := rfl
@[simp] theorem Group.setcnt_splits (g : Group) (c x : Nat) : (g.setcnt c x).splits = g.splits := rfl
@[simp] theorem Group.setcnt_laneq (g : Group) (c x : Nat) : (g.setcnt c x).laneq = g.laneq := rfl
@[simp] theorem Group.setcnt_laneBusy (g : Group) (c x : Nat) : (g.setcnt c x).laneBusy = g.laneBusy := rfl
@[simp] theorem Group.setcnt_runPc (g : Group) (c x : Nat) : (g.setcnt c x).runPc = g.runPc := rfl
@[simp] theorem Group.setcnt_run (g : Group) (c x : Nat) : (g.setcnt c x).run = g.run := rfl
@[simp] theorem Group.setcnt_nextSplit (g : Group) (c x : Nat) : (g.setcnt c x).nextSplit = g.nextSplit := rfl
@[simp] theorem Group.setcnt_ops (g : Group) (c x : Nat) : (g.setcnt c x).ops = g.ops := rfl
@[simp] theorem Group.setcnt_nextOp (g : Group) (c x : Nat) : (g.setcnt c x).nextOp = g.nextOp := rfl
@[simp] theorem Group.setcnt_loads (g : Group) (c x : Nat) : (g.setcnt c x).loads = g.loads := rfl
@[simp] theorem Group.setcnt_late (g : Group) (c x : Nat) : (g.setcnt c x).late = g.late := rfl
@[simp] theorem Group.setcnt_lates (g : Group) (c x : Nat) : (g.setcnt c x).lates = g.lates := rfl
@[simp] theorem Group.setcnt_slds (g : Group) (c x : Nat) : (g.setcnt c x).slds = g.slds := rfl
@[simp] theorem Group.setcnt_cpc (g : Group) (c x : Nat) : (g.setcnt c x).cpc = g.cpc := rfl
@[simp] theorem Group.setcnt_wait (g : Group) (c x : Nat) : (g.setcnt c x).wait = g.wait := rfl
@[simp] theorem Group.setcnt_noBreak (g : Group) (c x : Nat) : (g.setcnt c x).noBreak = g.noBreak := rfl
@[simp] theorem Group.setcnt_laneSup (g : Group) (c x : Nat) : (g.setcnt c x).laneSup = g.laneSup := rfl
@[simp] theorem Group.setcnt_ctlSup (g : Group) (c x : Nat) : (g.setcnt c x).ctlSup = g.ctlSup := rfl
@[simp] theorem Group.setcnt_cause (g : Group) (c x : Nat) : (g.setcnt c x).cause = g.cause := rfl
@[simp] theorem Group.setcnt_faddr (g : Group) (c x : Nat) : (g.setcnt c x).faddr = g.faddr := rfl
@[simp] theorem Group.setcnt_fmask (g : Group) (c x : Nat) : (g.setcnt c x).fmask = g.fmask := rfl
@[simp] theorem Group.setcnt_epc (g : Group) (c x : Nat) : (g.setcnt c x).epc = g.epc := rfl
@[simp] theorem Group.setcnt_elpc (g : Group) (c x : Nat) : (g.setcnt c x).elpc = g.elpc := rfl
@[simp] theorem Group.setcnt_lshadow (g : Group) (c x : Nat) : (g.setcnt c x).lshadow = g.lshadow := rfl
@[simp] theorem Group.setcnt_cshadow (g : Group) (c x : Nat) : (g.setcnt c x).cshadow = g.cshadow := rfl
@[simp] theorem Group.setcnt_lpend (g : Group) (c x : Nat) : (g.setcnt c x).lpend = g.lpend := rfl
@[simp] theorem Group.setcnt_cpend (g : Group) (c x : Nat) : (g.setcnt c x).cpend = g.cpend := rfl
@[simp] theorem Group.setcnt_region (g : Group) (c x : Nat) : (g.setcnt c x).region = g.region := rfl
@[simp] theorem Group.setcnt_regionCnt (g : Group) (c x : Nat) : (g.setcnt c x).regionCnt = g.regionCnt := rfl
@[simp] theorem Group.setcnt_arrivals (g : Group) (c x : Nat) : (g.setcnt c x).arrivals = g.arrivals := rfl
@[simp] theorem Group.setcnt_childOut (g : Group) (c x : Nat) : (g.setcnt c x).childOut = g.childOut := rfl
@[simp] theorem Group.setcnt_childDone (g : Group) (c x : Nat) : (g.setcnt c x).childDone = g.childDone := rfl
@[simp] theorem Group.setcnt_childTrap (g : Group) (c x : Nat) : (g.setcnt c x).childTrap = g.childTrap := rfl
@[simp] theorem Group.setcnt_pass (g : Group) (c x : Nat) : (g.setcnt c x).pass = g.pass := rfl
@[simp] theorem Group.setcnt_parked (g : Group) (c x : Nat) : (g.setcnt c x).parked = g.parked := rfl
@[simp] theorem Group.setcnt_stopRec (g : Group) (c x : Nat) : (g.setcnt c x).stopRec = g.stopRec := rfl
@[simp] theorem Group.setcnt_laneHeld (g : Group) (c x : Nat) : (g.setcnt c x).laneHeld = g.laneHeld := rfl
@[simp] theorem Group.setcnt_laneHolds (g : Group) (c x : Nat) : (g.setcnt c x).laneHolds = g.laneHolds := rfl
@[simp] theorem Group.setcnt_ctlHeld (g : Group) (c x : Nat) : (g.setcnt c x).ctlHeld = g.ctlHeld := rfl
@[simp] theorem Group.setcnt_laneRegen (g : Group) (c x : Nat) : (g.setcnt c x).laneRegen = g.laneRegen := rfl
@[simp] theorem Group.setcnt_ctlRegen (g : Group) (c x : Nat) : (g.setcnt c x).ctlRegen = g.ctlRegen := rfl
@[simp] theorem Group.setcnt_savedTiles (g : Group) (c x : Nat) : (g.setcnt c x).savedTiles = g.savedTiles := rfl
@[simp] theorem Group.setcnt_savedSlots (g : Group) (c x : Nat) : (g.setcnt c x).savedSlots = g.savedSlots := rfl
@[simp] theorem Group.setcnt_savedArr (g : Group) (c x : Nat) : (g.setcnt c x).savedArr = g.savedArr := rfl
@[simp] theorem Group.setcnt_savedFills (g : Group) (c x : Nat) : (g.setcnt c x).savedFills = g.savedFills := rfl
@[simp] theorem Group.setcnt_noResult (g : Group) (c x : Nat) : (g.setcnt c x).noResult = g.noResult := rfl
@[simp] theorem Group.setcnt_chunkNos (g : Group) (c x : Nat) : (g.setcnt c x).chunkNos = g.chunkNos := rfl

/-! ## `Group.updSplit` -/

@[simp] theorem Group.updSplit_live (g : Group) (id : Nat) (f : Split → Split) : (g.updSplit id f).live = g.live := rfl
@[simp] theorem Group.updSplit_grid (g : Group) (id : Nat) (f : Split → Split) : (g.updSplit id f).grid = g.grid := rfl
@[simp] theorem Group.updSplit_block (g : Group) (id : Nat) (f : Split → Split) : (g.updSplit id f).block = g.block := rfl
@[simp] theorem Group.updSplit_gidx (g : Group) (id : Nat) (f : Split → Split) : (g.updSplit id f).gidx = g.gidx := rfl
@[simp] theorem Group.updSplit_core (g : Group) (id : Nat) (f : Split → Split) : (g.updSplit id f).core = g.core := rfl
@[simp] theorem Group.updSplit_slot (g : Group) (id : Nat) (f : Split → Split) : (g.updSplit id f).slot = g.slot := rfl
@[simp] theorem Group.updSplit_resident (g : Group) (id : Nat) (f : Split → Split) : (g.updSplit id f).resident = g.resident := rfl
@[simp] theorem Group.updSplit_exited (g : Group) (id : Nat) (f : Split → Split) : (g.updSplit id f).exited = g.exited := rfl
@[simp] theorem Group.updSplit_present (g : Group) (id : Nat) (f : Split → Split) : (g.updSplit id f).present = g.present := rfl
@[simp] theorem Group.updSplit_gone (g : Group) (id : Nat) (f : Split → Split) : (g.updSplit id f).gone = g.gone := rfl
@[simp] theorem Group.updSplit_nregs (g : Group) (id : Nat) (f : Split → Split) : (g.updSplit id f).nregs = g.nregs := rfl
@[simp] theorem Group.updSplit_v (g : Group) (id : Nat) (f : Split → Split) : (g.updSplit id f).v = g.v := rfl
@[simp] theorem Group.updSplit_badV (g : Group) (id : Nat) (f : Split → Split) : (g.updSplit id f).badV = g.badV := rfl
@[simp] theorem Group.updSplit_p (g : Group) (id : Nat) (f : Split → Split) : (g.updSplit id f).p = g.p := rfl
@[simp] theorem Group.updSplit_s (g : Group) (id : Nat) (f : Split → Split) : (g.updSplit id f).s = g.s := rfl
@[simp] theorem Group.updSplit_xb (g : Group) (id : Nat) (f : Split → Split) : (g.updSplit id f).xb = g.xb := rfl
@[simp] theorem Group.updSplit_accs (g : Group) (id : Nat) (f : Split → Split) : (g.updSplit id f).accs = g.accs := rfl
@[simp] theorem Group.updSplit_slots (g : Group) (id : Nat) (f : Split → Split) : (g.updSplit id f).slots = g.slots := rfl
@[simp] theorem Group.updSplit_quota (g : Group) (id : Nat) (f : Split → Split) : (g.updSplit id f).quota = g.quota := rfl
@[simp] theorem Group.updSplit_mag (g : Group) (id : Nat) (f : Split → Split) : (g.updSplit id f).mag = g.mag := rfl
@[simp] theorem Group.updSplit_sb (g : Group) (id : Nat) (f : Split → Split) : (g.updSplit id f).sb = g.sb := rfl
@[simp] theorem Group.updSplit_cnt (g : Group) (id : Nat) (f : Split → Split) : (g.updSplit id f).cnt = g.cnt := rfl
@[simp] theorem Group.updSplit_tile (g : Group) (id : Nat) (f : Split → Split) : (g.updSplit id f).tile = g.tile := rfl
@[simp] theorem Group.updSplit_flags (g : Group) (id : Nat) (f : Split → Split) : (g.updSplit id f).flags = g.flags := rfl
@[simp] theorem Group.updSplit_laneq (g : Group) (id : Nat) (f : Split → Split) : (g.updSplit id f).laneq = g.laneq := rfl
@[simp] theorem Group.updSplit_laneBusy (g : Group) (id : Nat) (f : Split → Split) : (g.updSplit id f).laneBusy = g.laneBusy := rfl
@[simp] theorem Group.updSplit_runPc (g : Group) (id : Nat) (f : Split → Split) : (g.updSplit id f).runPc = g.runPc := rfl
@[simp] theorem Group.updSplit_run (g : Group) (id : Nat) (f : Split → Split) : (g.updSplit id f).run = g.run := rfl
@[simp] theorem Group.updSplit_nextSplit (g : Group) (id : Nat) (f : Split → Split) : (g.updSplit id f).nextSplit = g.nextSplit := rfl
@[simp] theorem Group.updSplit_ops (g : Group) (id : Nat) (f : Split → Split) : (g.updSplit id f).ops = g.ops := rfl
@[simp] theorem Group.updSplit_nextOp (g : Group) (id : Nat) (f : Split → Split) : (g.updSplit id f).nextOp = g.nextOp := rfl
@[simp] theorem Group.updSplit_loads (g : Group) (id : Nat) (f : Split → Split) : (g.updSplit id f).loads = g.loads := rfl
@[simp] theorem Group.updSplit_late (g : Group) (id : Nat) (f : Split → Split) : (g.updSplit id f).late = g.late := rfl
@[simp] theorem Group.updSplit_lates (g : Group) (id : Nat) (f : Split → Split) : (g.updSplit id f).lates = g.lates := rfl
@[simp] theorem Group.updSplit_slds (g : Group) (id : Nat) (f : Split → Split) : (g.updSplit id f).slds = g.slds := rfl
@[simp] theorem Group.updSplit_cpc (g : Group) (id : Nat) (f : Split → Split) : (g.updSplit id f).cpc = g.cpc := rfl
@[simp] theorem Group.updSplit_wait (g : Group) (id : Nat) (f : Split → Split) : (g.updSplit id f).wait = g.wait := rfl
@[simp] theorem Group.updSplit_noBreak (g : Group) (id : Nat) (f : Split → Split) : (g.updSplit id f).noBreak = g.noBreak := rfl
@[simp] theorem Group.updSplit_laneSup (g : Group) (id : Nat) (f : Split → Split) : (g.updSplit id f).laneSup = g.laneSup := rfl
@[simp] theorem Group.updSplit_ctlSup (g : Group) (id : Nat) (f : Split → Split) : (g.updSplit id f).ctlSup = g.ctlSup := rfl
@[simp] theorem Group.updSplit_cause (g : Group) (id : Nat) (f : Split → Split) : (g.updSplit id f).cause = g.cause := rfl
@[simp] theorem Group.updSplit_faddr (g : Group) (id : Nat) (f : Split → Split) : (g.updSplit id f).faddr = g.faddr := rfl
@[simp] theorem Group.updSplit_fmask (g : Group) (id : Nat) (f : Split → Split) : (g.updSplit id f).fmask = g.fmask := rfl
@[simp] theorem Group.updSplit_epc (g : Group) (id : Nat) (f : Split → Split) : (g.updSplit id f).epc = g.epc := rfl
@[simp] theorem Group.updSplit_elpc (g : Group) (id : Nat) (f : Split → Split) : (g.updSplit id f).elpc = g.elpc := rfl
@[simp] theorem Group.updSplit_lshadow (g : Group) (id : Nat) (f : Split → Split) : (g.updSplit id f).lshadow = g.lshadow := rfl
@[simp] theorem Group.updSplit_cshadow (g : Group) (id : Nat) (f : Split → Split) : (g.updSplit id f).cshadow = g.cshadow := rfl
@[simp] theorem Group.updSplit_lpend (g : Group) (id : Nat) (f : Split → Split) : (g.updSplit id f).lpend = g.lpend := rfl
@[simp] theorem Group.updSplit_cpend (g : Group) (id : Nat) (f : Split → Split) : (g.updSplit id f).cpend = g.cpend := rfl
@[simp] theorem Group.updSplit_region (g : Group) (id : Nat) (f : Split → Split) : (g.updSplit id f).region = g.region := rfl
@[simp] theorem Group.updSplit_regionCnt (g : Group) (id : Nat) (f : Split → Split) : (g.updSplit id f).regionCnt = g.regionCnt := rfl
@[simp] theorem Group.updSplit_arrivals (g : Group) (id : Nat) (f : Split → Split) : (g.updSplit id f).arrivals = g.arrivals := rfl
@[simp] theorem Group.updSplit_childOut (g : Group) (id : Nat) (f : Split → Split) : (g.updSplit id f).childOut = g.childOut := rfl
@[simp] theorem Group.updSplit_childDone (g : Group) (id : Nat) (f : Split → Split) : (g.updSplit id f).childDone = g.childDone := rfl
@[simp] theorem Group.updSplit_childTrap (g : Group) (id : Nat) (f : Split → Split) : (g.updSplit id f).childTrap = g.childTrap := rfl
@[simp] theorem Group.updSplit_pass (g : Group) (id : Nat) (f : Split → Split) : (g.updSplit id f).pass = g.pass := rfl
@[simp] theorem Group.updSplit_parked (g : Group) (id : Nat) (f : Split → Split) : (g.updSplit id f).parked = g.parked := rfl
@[simp] theorem Group.updSplit_stopRec (g : Group) (id : Nat) (f : Split → Split) : (g.updSplit id f).stopRec = g.stopRec := rfl
@[simp] theorem Group.updSplit_laneHeld (g : Group) (id : Nat) (f : Split → Split) : (g.updSplit id f).laneHeld = g.laneHeld := rfl
@[simp] theorem Group.updSplit_laneHolds (g : Group) (id : Nat) (f : Split → Split) : (g.updSplit id f).laneHolds = g.laneHolds := rfl
@[simp] theorem Group.updSplit_ctlHeld (g : Group) (id : Nat) (f : Split → Split) : (g.updSplit id f).ctlHeld = g.ctlHeld := rfl
@[simp] theorem Group.updSplit_laneRegen (g : Group) (id : Nat) (f : Split → Split) : (g.updSplit id f).laneRegen = g.laneRegen := rfl
@[simp] theorem Group.updSplit_ctlRegen (g : Group) (id : Nat) (f : Split → Split) : (g.updSplit id f).ctlRegen = g.ctlRegen := rfl
@[simp] theorem Group.updSplit_savedTiles (g : Group) (id : Nat) (f : Split → Split) : (g.updSplit id f).savedTiles = g.savedTiles := rfl
@[simp] theorem Group.updSplit_savedSlots (g : Group) (id : Nat) (f : Split → Split) : (g.updSplit id f).savedSlots = g.savedSlots := rfl
@[simp] theorem Group.updSplit_savedArr (g : Group) (id : Nat) (f : Split → Split) : (g.updSplit id f).savedArr = g.savedArr := rfl
@[simp] theorem Group.updSplit_savedFills (g : Group) (id : Nat) (f : Split → Split) : (g.updSplit id f).savedFills = g.savedFills := rfl
@[simp] theorem Group.updSplit_noResult (g : Group) (id : Nat) (f : Split → Split) : (g.updSplit id f).noResult = g.noResult := rfl
@[simp] theorem Group.updSplit_chunkNos (g : Group) (id : Nat) (f : Split → Split) : (g.updSplit id f).chunkNos = g.chunkNos := rfl

/-! ## `Group.setp` -/

@[simp] theorem Group.setp_live (g : Group) (n : Nat) (m x : W32) : (g.setp n m x).live = g.live := by unfold Group.setp; split <;> rfl
@[simp] theorem Group.setp_grid (g : Group) (n : Nat) (m x : W32) : (g.setp n m x).grid = g.grid := by unfold Group.setp; split <;> rfl
@[simp] theorem Group.setp_block (g : Group) (n : Nat) (m x : W32) : (g.setp n m x).block = g.block := by unfold Group.setp; split <;> rfl
@[simp] theorem Group.setp_gidx (g : Group) (n : Nat) (m x : W32) : (g.setp n m x).gidx = g.gidx := by unfold Group.setp; split <;> rfl
@[simp] theorem Group.setp_core (g : Group) (n : Nat) (m x : W32) : (g.setp n m x).core = g.core := by unfold Group.setp; split <;> rfl
@[simp] theorem Group.setp_slot (g : Group) (n : Nat) (m x : W32) : (g.setp n m x).slot = g.slot := by unfold Group.setp; split <;> rfl
@[simp] theorem Group.setp_resident (g : Group) (n : Nat) (m x : W32) : (g.setp n m x).resident = g.resident := by unfold Group.setp; split <;> rfl
@[simp] theorem Group.setp_exited (g : Group) (n : Nat) (m x : W32) : (g.setp n m x).exited = g.exited := by unfold Group.setp; split <;> rfl
@[simp] theorem Group.setp_present (g : Group) (n : Nat) (m x : W32) : (g.setp n m x).present = g.present := by unfold Group.setp; split <;> rfl
@[simp] theorem Group.setp_gone (g : Group) (n : Nat) (m x : W32) : (g.setp n m x).gone = g.gone := by unfold Group.setp; split <;> rfl
@[simp] theorem Group.setp_nregs (g : Group) (n : Nat) (m x : W32) : (g.setp n m x).nregs = g.nregs := by unfold Group.setp; split <;> rfl
@[simp] theorem Group.setp_v (g : Group) (n : Nat) (m x : W32) : (g.setp n m x).v = g.v := by unfold Group.setp; split <;> rfl
@[simp] theorem Group.setp_badV (g : Group) (n : Nat) (m x : W32) : (g.setp n m x).badV = g.badV := by unfold Group.setp; split <;> rfl
@[simp] theorem Group.setp_s (g : Group) (n : Nat) (m x : W32) : (g.setp n m x).s = g.s := by unfold Group.setp; split <;> rfl
@[simp] theorem Group.setp_xb (g : Group) (n : Nat) (m x : W32) : (g.setp n m x).xb = g.xb := by unfold Group.setp; split <;> rfl
@[simp] theorem Group.setp_accs (g : Group) (n : Nat) (m x : W32) : (g.setp n m x).accs = g.accs := by unfold Group.setp; split <;> rfl
@[simp] theorem Group.setp_slots (g : Group) (n : Nat) (m x : W32) : (g.setp n m x).slots = g.slots := by unfold Group.setp; split <;> rfl
@[simp] theorem Group.setp_quota (g : Group) (n : Nat) (m x : W32) : (g.setp n m x).quota = g.quota := by unfold Group.setp; split <;> rfl
@[simp] theorem Group.setp_mag (g : Group) (n : Nat) (m x : W32) : (g.setp n m x).mag = g.mag := by unfold Group.setp; split <;> rfl
@[simp] theorem Group.setp_sb (g : Group) (n : Nat) (m x : W32) : (g.setp n m x).sb = g.sb := by unfold Group.setp; split <;> rfl
@[simp] theorem Group.setp_cnt (g : Group) (n : Nat) (m x : W32) : (g.setp n m x).cnt = g.cnt := by unfold Group.setp; split <;> rfl
@[simp] theorem Group.setp_tile (g : Group) (n : Nat) (m x : W32) : (g.setp n m x).tile = g.tile := by unfold Group.setp; split <;> rfl
@[simp] theorem Group.setp_flags (g : Group) (n : Nat) (m x : W32) : (g.setp n m x).flags = g.flags := by unfold Group.setp; split <;> rfl
@[simp] theorem Group.setp_splits (g : Group) (n : Nat) (m x : W32) : (g.setp n m x).splits = g.splits := by unfold Group.setp; split <;> rfl
@[simp] theorem Group.setp_laneq (g : Group) (n : Nat) (m x : W32) : (g.setp n m x).laneq = g.laneq := by unfold Group.setp; split <;> rfl
@[simp] theorem Group.setp_laneBusy (g : Group) (n : Nat) (m x : W32) : (g.setp n m x).laneBusy = g.laneBusy := by unfold Group.setp; split <;> rfl
@[simp] theorem Group.setp_runPc (g : Group) (n : Nat) (m x : W32) : (g.setp n m x).runPc = g.runPc := by unfold Group.setp; split <;> rfl
@[simp] theorem Group.setp_run (g : Group) (n : Nat) (m x : W32) : (g.setp n m x).run = g.run := by unfold Group.setp; split <;> rfl
@[simp] theorem Group.setp_nextSplit (g : Group) (n : Nat) (m x : W32) : (g.setp n m x).nextSplit = g.nextSplit := by unfold Group.setp; split <;> rfl
@[simp] theorem Group.setp_ops (g : Group) (n : Nat) (m x : W32) : (g.setp n m x).ops = g.ops := by unfold Group.setp; split <;> rfl
@[simp] theorem Group.setp_nextOp (g : Group) (n : Nat) (m x : W32) : (g.setp n m x).nextOp = g.nextOp := by unfold Group.setp; split <;> rfl
@[simp] theorem Group.setp_loads (g : Group) (n : Nat) (m x : W32) : (g.setp n m x).loads = g.loads := by unfold Group.setp; split <;> rfl
@[simp] theorem Group.setp_late (g : Group) (n : Nat) (m x : W32) : (g.setp n m x).late = g.late := by unfold Group.setp; split <;> rfl
@[simp] theorem Group.setp_lates (g : Group) (n : Nat) (m x : W32) : (g.setp n m x).lates = g.lates := by unfold Group.setp; split <;> rfl
@[simp] theorem Group.setp_slds (g : Group) (n : Nat) (m x : W32) : (g.setp n m x).slds = g.slds := by unfold Group.setp; split <;> rfl
@[simp] theorem Group.setp_cpc (g : Group) (n : Nat) (m x : W32) : (g.setp n m x).cpc = g.cpc := by unfold Group.setp; split <;> rfl
@[simp] theorem Group.setp_wait (g : Group) (n : Nat) (m x : W32) : (g.setp n m x).wait = g.wait := by unfold Group.setp; split <;> rfl
@[simp] theorem Group.setp_noBreak (g : Group) (n : Nat) (m x : W32) : (g.setp n m x).noBreak = g.noBreak := by unfold Group.setp; split <;> rfl
@[simp] theorem Group.setp_laneSup (g : Group) (n : Nat) (m x : W32) : (g.setp n m x).laneSup = g.laneSup := by unfold Group.setp; split <;> rfl
@[simp] theorem Group.setp_ctlSup (g : Group) (n : Nat) (m x : W32) : (g.setp n m x).ctlSup = g.ctlSup := by unfold Group.setp; split <;> rfl
@[simp] theorem Group.setp_cause (g : Group) (n : Nat) (m x : W32) : (g.setp n m x).cause = g.cause := by unfold Group.setp; split <;> rfl
@[simp] theorem Group.setp_faddr (g : Group) (n : Nat) (m x : W32) : (g.setp n m x).faddr = g.faddr := by unfold Group.setp; split <;> rfl
@[simp] theorem Group.setp_fmask (g : Group) (n : Nat) (m x : W32) : (g.setp n m x).fmask = g.fmask := by unfold Group.setp; split <;> rfl
@[simp] theorem Group.setp_epc (g : Group) (n : Nat) (m x : W32) : (g.setp n m x).epc = g.epc := by unfold Group.setp; split <;> rfl
@[simp] theorem Group.setp_elpc (g : Group) (n : Nat) (m x : W32) : (g.setp n m x).elpc = g.elpc := by unfold Group.setp; split <;> rfl
@[simp] theorem Group.setp_lshadow (g : Group) (n : Nat) (m x : W32) : (g.setp n m x).lshadow = g.lshadow := by unfold Group.setp; split <;> rfl
@[simp] theorem Group.setp_cshadow (g : Group) (n : Nat) (m x : W32) : (g.setp n m x).cshadow = g.cshadow := by unfold Group.setp; split <;> rfl
@[simp] theorem Group.setp_lpend (g : Group) (n : Nat) (m x : W32) : (g.setp n m x).lpend = g.lpend := by unfold Group.setp; split <;> rfl
@[simp] theorem Group.setp_cpend (g : Group) (n : Nat) (m x : W32) : (g.setp n m x).cpend = g.cpend := by unfold Group.setp; split <;> rfl
@[simp] theorem Group.setp_region (g : Group) (n : Nat) (m x : W32) : (g.setp n m x).region = g.region := by unfold Group.setp; split <;> rfl
@[simp] theorem Group.setp_regionCnt (g : Group) (n : Nat) (m x : W32) : (g.setp n m x).regionCnt = g.regionCnt := by unfold Group.setp; split <;> rfl
@[simp] theorem Group.setp_arrivals (g : Group) (n : Nat) (m x : W32) : (g.setp n m x).arrivals = g.arrivals := by unfold Group.setp; split <;> rfl
@[simp] theorem Group.setp_childOut (g : Group) (n : Nat) (m x : W32) : (g.setp n m x).childOut = g.childOut := by unfold Group.setp; split <;> rfl
@[simp] theorem Group.setp_childDone (g : Group) (n : Nat) (m x : W32) : (g.setp n m x).childDone = g.childDone := by unfold Group.setp; split <;> rfl
@[simp] theorem Group.setp_childTrap (g : Group) (n : Nat) (m x : W32) : (g.setp n m x).childTrap = g.childTrap := by unfold Group.setp; split <;> rfl
@[simp] theorem Group.setp_pass (g : Group) (n : Nat) (m x : W32) : (g.setp n m x).pass = g.pass := by unfold Group.setp; split <;> rfl
@[simp] theorem Group.setp_parked (g : Group) (n : Nat) (m x : W32) : (g.setp n m x).parked = g.parked := by unfold Group.setp; split <;> rfl
@[simp] theorem Group.setp_stopRec (g : Group) (n : Nat) (m x : W32) : (g.setp n m x).stopRec = g.stopRec := by unfold Group.setp; split <;> rfl
@[simp] theorem Group.setp_laneHeld (g : Group) (n : Nat) (m x : W32) : (g.setp n m x).laneHeld = g.laneHeld := by unfold Group.setp; split <;> rfl
@[simp] theorem Group.setp_laneHolds (g : Group) (n : Nat) (m x : W32) : (g.setp n m x).laneHolds = g.laneHolds := by unfold Group.setp; split <;> rfl
@[simp] theorem Group.setp_ctlHeld (g : Group) (n : Nat) (m x : W32) : (g.setp n m x).ctlHeld = g.ctlHeld := by unfold Group.setp; split <;> rfl
@[simp] theorem Group.setp_laneRegen (g : Group) (n : Nat) (m x : W32) : (g.setp n m x).laneRegen = g.laneRegen := by unfold Group.setp; split <;> rfl
@[simp] theorem Group.setp_ctlRegen (g : Group) (n : Nat) (m x : W32) : (g.setp n m x).ctlRegen = g.ctlRegen := by unfold Group.setp; split <;> rfl
@[simp] theorem Group.setp_savedTiles (g : Group) (n : Nat) (m x : W32) : (g.setp n m x).savedTiles = g.savedTiles := by unfold Group.setp; split <;> rfl
@[simp] theorem Group.setp_savedSlots (g : Group) (n : Nat) (m x : W32) : (g.setp n m x).savedSlots = g.savedSlots := by unfold Group.setp; split <;> rfl
@[simp] theorem Group.setp_savedArr (g : Group) (n : Nat) (m x : W32) : (g.setp n m x).savedArr = g.savedArr := by unfold Group.setp; split <;> rfl
@[simp] theorem Group.setp_savedFills (g : Group) (n : Nat) (m x : W32) : (g.setp n m x).savedFills = g.savedFills := by unfold Group.setp; split <;> rfl
@[simp] theorem Group.setp_noResult (g : Group) (n : Nat) (m x : W32) : (g.setp n m x).noResult = g.noResult := by unfold Group.setp; split <;> rfl
@[simp] theorem Group.setp_chunkNos (g : Group) (n : Nat) (m x : W32) : (g.setp n m x).chunkNos = g.chunkNos := by unfold Group.setp; split <;> rfl

/-! ## Registers after a write -/

@[simp] theorem Group.rs_sets (g : Group) (n : Nat) (x : W64) (k : Nat) : (g.sets n x).rs k = if k = n then x else g.rs k := by
  simp [Group.rs, Group.sets]
@[simp] theorem Group.rxb_setxb (g : Group) (n : Nat) (x : XbReg) (k : Nat) : (g.setxb n x).rxb k = if k = n then x else g.rxb k := by
  simp [Group.rxb, Group.setxb]
@[simp] theorem Group.rmag_setmag (g : Group) (n : Nat) (x : W32) (k : Nat) : (g.setmag n x).rmag k = if k = n then x else g.rmag k := by
  simp [Group.rmag, Group.setmag]
@[simp] theorem Group.rsb_setsb (g : Group) (n x k : Nat) : (g.setsb n x).rsb k = if k = n then x else g.rsb k := by
  simp [Group.rsb, Group.setsb]
@[simp] theorem Group.rcnt_setcnt (g : Group) (c x k : Nat) : (g.setcnt c x).rcnt k = if k = c then x else g.rcnt k := by
  simp [Group.rcnt, Group.setcnt]
/-- A word of a v register after a word was written: the same lane of the same register, or another. -/
theorem Group.rv_setv (g : Group) (r l : Nat) (x : W32) (r' l' : Nat) (h : l < 32) (h' : l' < 32) :
    (g.setv r l x).rv r' l' = if r' = r ∧ l' = l then x else g.rv r' l' := by
  unfold Group.rv Group.setv
  by_cases hr : r' = r
  · subst hr
    by_cases hl : l' = l
    · subst hl; simp
    · simp [hl]
  · rw [Tab.getD_put_other _ _ _ _ _ _ (by omega)]
    simp [hr]
/-- p0 reads 1 in every lane after any write (R23). -/
@[simp] theorem Group.pmask_setp (g : Group) (n : Nat) (m x : W32) (k : Nat) :
    (g.setp n m x).pmask k = if k = n ∧ n ≠ 0 then (g.pmask n &&& ~~~ m) ||| (x &&& m) else g.pmask k := by
  unfold Group.setp
  by_cases hn : n = 0
  · simp [hn]
  · by_cases hk : k = n
    · subst hk; simp [hn, Group.pmask]
    · by_cases h0 : k = 0
      · simp [h0, Group.pmask, hn, Ne.symm hn]
      · simp [hn, hk, h0, Group.pmask]
/-- A v register keeps its words when an s register, a predicate or a count is written. -/
@[simp] theorem Group.rv_sets (g : Group) (n : Nat) (x : W64) (r l : Nat) : (g.sets n x).rv r l = g.rv r l := rfl
@[simp] theorem Group.rv_setsb (g : Group) (n x r l : Nat) : (g.setsb n x).rv r l = g.rv r l := rfl
@[simp] theorem Group.rv_updSplit (g : Group) (i : Nat) (f : Split → Split) (r l : Nat) : (g.updSplit i f).rv r l = g.rv r l := rfl
@[simp] theorem Group.rs_setv (g : Group) (r l : Nat) (x : W32) (n : Nat) : (g.setv r l x).rs n = g.rs n := rfl
@[simp] theorem Group.pmask_setv (g : Group) (r l : Nat) (x : W32) (n : Nat) : (g.setv r l x).pmask n = g.pmask n := rfl

end Sys2Proof.Machine
end

