-- ==== Sys2Proof/Laws/Control.lean ====
section
/-!
SUPPORT. What the shared operations of the control stream do: an event seen by sequencers, going on to an address,
waiting for registers, writing S[d], and waiting at an instruction.
-/

namespace Sys2Proof.Machine

/-- The trigger sequencers that see an event change nothing else. -/
theorem State.seqEvent_frame (s : State) (d src : Nat) (v : W64) (a : Nat) :
    s.seqEvent d src v a = { s with doms := (s.seqEvent d src v a).doms } ∧
    ∀ k, (s.seqEvent d src v a).dom k = { s.dom k with seqIn := ((s.seqEvent d src v a).dom k).seqIn } := by
  unfold State.seqEvent
  dsimp only
  split
  · refine ⟨rfl, fun k => ?_⟩
    simp only [State.dom_updDom]
    split
    · subst_vars; rfl
    · rfl
  · exact ⟨rfl, fun _ => rfl⟩

@[simp] theorem State.seqEvent_groups (s : State) (d src : Nat) (v : W64) (a : Nat) : (s.seqEvent d src v a).groups = s.groups := by
  rw [(s.seqEvent_frame d src v a).1]
@[simp] theorem State.seqEvent_cur (s : State) (d src : Nat) (v : W64) (a : Nat) : (s.seqEvent d src v a).cur = s.cur := by
  rw [(s.seqEvent_frame d src v a).1]
@[simp] theorem State.seqEvent_mem (s : State) (d src : Nat) (v : W64) (a : Nat) : (s.seqEvent d src v a).mem = s.mem := by
  rw [(s.seqEvent_frame d src v a).1]
@[simp] theorem State.seqEvent_cg (s : State) (d src : Nat) (v : W64) (a : Nat) : (s.seqEvent d src v a).cg = s.cg := by
  simp [State.cg, State.grp]
@[simp] theorem State.issued_groups (s : State) (k : Nat) (pc : W64) : (s.issued k pc).groups = s.groups := by simp [State.issued]
@[simp] theorem State.issued_cur (s : State) (k : Nat) (pc : W64) : (s.issued k pc).cur = s.cur := by simp [State.issued]
@[simp] theorem State.issued_mem (s : State) (k : Nat) (pc : W64) : (s.issued k pc).mem = s.mem := by simp [State.issued]
@[simp] theorem State.issued_cg (s : State) (k : Nat) (pc : W64) : (s.issued k pc).cg = s.cg := by simp [State.issued]
@[simp] theorem State.seqEvent_grp (s : State) (d src : Nat) (v : W64) (a k : Nat) : (s.seqEvent d src v a).grp k = s.grp k := by
  simp [State.grp]
@[simp] theorem State.issued_grp (s : State) (k : Nat) (pc : W64) (g : Nat) : (s.issued k pc).grp g = s.grp g := by simp [State.issued]

/-- A change of the chosen group alone. -/
theorem groupIs_setCg (s : State) (x : Group) : GroupIs s (s.setCg x) x := by
  refine ⟨⟨rfl, fun g hg => ?_, fun _ => rfl, fun _ => rfl⟩, by simp⟩
  simp [State.setCg, hg]

theorem groupIs_updCg (s : State) (f : Group → Group) : GroupIs s (s.updCg f) (f s.cg) := groupIs_setCg s _

/-- A change of the chosen group before and after an event that sequencers see. -/
theorem groupIs_issued (s : State) (f g : Group → Group) (k : Nat) (pc : W64) :
    GroupIs s (((s.updCg f).issued k pc).updCg g) (g (f s.cg)) := by
  have h := State.seqEvent_frame (s.updCg f) (coreDom (s.updCg f).cg.core) k pc (s.updCg f).casid
  refine ⟨⟨?_, fun n hn => ?_, fun d => ?_, fun a => ?_⟩, ?_⟩
  · unfold State.issued; rw [h.1]; rfl
  · rw [State.grp_updCg]
    simp [hn]
  · exact h.2 d
  · simp [State.issued]
  · simp

/-- The same with no change before the event. -/
theorem groupIs_issued_only (s : State) (g : Group → Group) (k : Nat) (pc : W64) : GroupIs s ((s.issued k pc).updCg g) (g s.cg) := by
  have h := State.seqEvent_frame s (coreDom s.cg.core) k pc s.casid
  refine ⟨⟨?_, fun n hn => ?_, fun d => ?_, fun a => ?_⟩, ?_⟩
  · unfold State.issued; rw [h.1]; rfl
  · rw [State.grp_updCg]
    simp [hn]
  · exact h.2 d
  · simp [State.issued]
  · simp

/-- The event of an issue, where there is one, changes the domains' sequencer inputs alone. -/
theorem State.issuedCtl_cases (s : State) : s.issuedCtl = s ∨ s.issuedCtl = s.issued 1 s.cg.cpc := by
  unfold State.issuedCtl; split
  · exact .inl rfl
  · exact .inr rfl
theorem groupIs_issuedCtl (s : State) (f : Group → Group) : GroupIs s (s.issuedCtl.updCg f) (f s.cg) := by
  rcases s.issuedCtl_cases with h | h <;> rw [h]
  · exact groupIs_updCg s f
  · exact groupIs_issued_only s f 1 _

/-- Going on to an address: the PC is there, a wait is over, and nothing else has changed (R104). -/
theorem groupIs_jump (s : State) (pc : W64) : GroupIs s (s.jump pc) (s.cg.at pc) := by
  have h := groupIs_issuedCtl s fun g => g.at pc
  simpa [State.jump, Group.at] using h
theorem groupIs_updCg_jump (s : State) (f : Group → Group) (pc : W64) : GroupIs s ((s.updCg f).jump pc) ((f s.cg).at pc) := by
  have two : GroupIs s ((s.updCg f).updCg fun g => g.at pc) ((f s.cg).at pc) := by
    refine ⟨⟨rfl, fun n hn => ?_, fun _ => rfl, fun _ => rfl⟩, by simp⟩
    simp [State.grp_updCg, hn]
  have := groupIs_issued s f (fun g => g.at pc) 1 (f s.cg).cpc
  rcases (s.updCg f).issuedCtl_cases with h | h
  · simpa [State.jump, Group.at, h] using two
  · simpa [State.jump, Group.at, h] using this
theorem groupIs_advance (s : State) : GroupIs s s.advance (s.cg.at (s.cg.cpc + 4#64)) := groupIs_jump s _
theorem groupIs_updCg_advance (s : State) (f : Group → Group) :
    GroupIs s (s.updCg f).advance ((f s.cg).at ((f s.cg).cpc + 4#64)) := by
  have := groupIs_updCg_jump s f ((f s.cg).cpc + 4#64)
  simpa [State.advance] using this

/-- An instruction whose registers no outstanding SLD writes goes to its effect; one that names such a register leaves
the state as it is (R95). -/
theorem State.ctlGo_quiet {s : State} {l : List Nat} {eff : State → State} (h : s.Quiet l) : s.ctlGo l eff = eff s := by
  unfold State.ctlGo
  rw [if_neg]
  intro hc
  obtain ⟨r, hr, hp⟩ := List.any_eq_true.mp hc
  obtain ⟨p, hp, he⟩ := List.any_eq_true.mp hp
  exact h p hp (by rw [eq_of_beq he]; exact hr)
theorem State.ctlGo_pending {s : State} {l : List Nat} {eff : State → State} (h : ¬ s.Quiet l) : s.ctlGo l eff = s := by
  unfold State.ctlGo
  rw [if_pos]
  simp only [State.Quiet, Classical.not_forall, Decidable.not_not] at h
  obtain ⟨p, hp, hd⟩ := h
  exact List.any_eq_true.mpr ⟨p.d, hd, List.any_eq_true.mpr ⟨p, hp, by simp⟩⟩

/-- Writing S[d] and going on to the next word. -/
theorem writes_ctlDone (s : State) (d : BitVec 6) (x : W64) : Writes (.next (s.ctlDone d.toNat x)) s d x := by
  have h := groupIs_updCg_advance s fun g => g.sets d.toNat x
  refine ⟨_, rfl, ⟨h.1, ?_⟩, fun r => ?_⟩
  · show (State.ctlDone _ _ _).cg = _
    unfold State.ctlDone
    rw [h.2]; rfl
  · unfold State.ctlDone
    rw [h.2]
    exact Group.rs_sets _ _ _ _

/-- Waiting at an instruction: the first time, the wait is recorded, and nothing else changes. -/
theorem groupIs_ctlWait (s : State) (w : CtlWait) (h : s.cg.wait = none) : GroupIs s (s.ctlWait w) (s.cg.waits w) := by
  refine (groupIs_updCg s _).imp_right fun e => e.trans ?_
  rw [h]; rfl

end Sys2Proof.Machine
end

