-- ==== Sys2Proof/Laws/Lane.lean ====
section
/-!
SUPPORT. What the shared operations of the lane stream do: masks of lanes, the waits and checks before an effect, the
issue of an instruction, and the writes of v registers and predicates that an issue follows.
-/

namespace Sys2Proof.Machine

/-! ## Masks and lists of lanes -/

theorem mem_lanes {l : Nat} : l ∈ lanes ↔ l < 32 := by simp [lanes]
theorem mem_maskLanes {m : W32} {l : Nat} : l ∈ maskLanes m ↔ l < 32 ∧ m.getLsbD l = true := by
  simp [maskLanes, mem_lanes]
theorem State.mem_execLanes {s : State} {e : LaneEnc} {l : Nat} : l ∈ s.execLanes e ↔ l < 32 ∧ s.executes e l = true :=
  mem_maskLanes
theorem nodup_lanes : lanes.Nodup := List.nodup_range
theorem nodup_maskLanes (m : W32) : (maskLanes m).Nodup := nodup_lanes.filter _

theorem getLsbD_laneMask_foldl (ls : List Nat) (m : W32) (l : Nat) (h : l < 32) :
    (ls.foldl (fun m k => m ||| (1#32 <<< k)) m).getLsbD l = (m.getLsbD l || ls.contains l) := by
  induction ls generalizing m with
  | nil => simp
  | cons k t ih =>
    rw [List.foldl_cons, ih]
    have : (m ||| 1#32 <<< k).getLsbD l = (m.getLsbD l || (l == k)) := by
      simp only [BitVec.getLsbD_or, BitVec.getLsbD_shiftLeft, h, decide_true, Bool.true_and]
      congr 1
      by_cases hk : l = k
      · subst hk; simp
      · by_cases hl : l < k
        · simp [hl, hk]
        · have : l - k ≠ 0 := by omega
          simp [hl, hk, this]
    rw [this, List.contains_cons, Bool.or_assoc]
/-- Bit l of the mask of a list of lanes. -/
theorem getLsbD_laneMask (ls : List Nat) (l : Nat) (h : l < 32) : (laneMask ls).getLsbD l = ls.contains l := by
  simp [laneMask, getLsbD_laneMask_foldl ls _ l h]

/-- The lowest lane of a mask is a lane of it, and no lower one is. -/
theorem lowLane_some {m : W32} {k : Nat} (h : lowLane m = some k) :
    k < 32 ∧ m.getLsbD k = true ∧ ∀ j, j < k → m.getLsbD j = false := by
  unfold lowLane lanes at h
  obtain ⟨hp, as, bs, hl, ha⟩ := List.find?_eq_some_iff_append.mp h
  have hk : k < 32 := List.mem_range.mp (by rw [hl]; simp)
  refine ⟨hk, hp, fun j hj => ?_⟩
  have hj' : j ∈ as := by
    have : List.range 32 = as ++ k :: bs := hl
    have hlen : as.length = k := by
      have h1 : (List.range 32)[as.length]? = some k := by rw [this]; simp
      rw [List.getElem?_eq_some_iff] at h1
      obtain ⟨h2, h3⟩ := h1
      simpa using h3
    have h4 : (List.range 32)[j]? = as[j]? := by rw [this, List.getElem?_append_left (by omega)]
    have h5 : (List.range 32)[j]? = some j := by rw [List.getElem?_eq_some_iff]; exact ⟨by simp; omega, by simp⟩
    rw [h5] at h4
    exact List.mem_of_getElem? h4.symm
  simpa using ha j hj'
/-- Lane 0 alone is in an instruction that only lane 0 executes, and so on: the lane that a `.u` instruction computes
from is one of the executed lanes. -/
theorem State.srcLane_lt (s : State) (e : LaneEnc) (l : Nat) (h : l < 32) : s.srcLane e l < 32 := by
  unfold State.srcLane
  split
  · cases hl : lowLane (s.execMask e) with
    | none => simp
    | some k => exact (lowLane_some hl).1
  · exact h

/-! ## Writes -/

/-- A group but for the registers and counts that an issue writes. -/
def Group.bare (g : Group) : Group := { g with v := [], badV := [], p := [], sb := [], ops := [], nextOp := 0, splits := [], run := none }
@[simp] theorem Group.bare_setv (g : Group) (r l : Nat) (x : W32) : (g.setv r l x).bare = g.bare := rfl
@[simp] theorem Group.bare_setv64 (g : Group) (r l : Nat) (x : W64) : (g.setv64 r l x).bare = g.bare := rfl
@[simp] theorem Group.bare_setp (g : Group) (n : Nat) (m x : W32) : (g.setp n m x).bare = g.bare := by
  unfold Group.setp; split <;> rfl

/-- A write of a word leaves no register with an error that had none. -/
theorem Group.badV_setv {g : Group} {r l : Nat} {x : W32} {k : Nat} (h : k ∈ (g.setv r l x).badV) : k ∈ g.badV :=
  (List.mem_filter.mp h).1
theorem Group.badV_setv64 {g : Group} {r l : Nat} {x : W64} {k : Nat} (h : k ∈ (g.setv64 r l x).badV) : k ∈ g.badV :=
  Group.badV_setv (Group.badV_setv h)

/-- The words after one register is written in a list of lanes. -/
theorem Group.writeLanes_frame (d : Nat) (f : Nat → W32) (ls : List Nat) (hl : ∀ l ∈ ls, l < 32) (g : Group) :
    (g.writeLanes d f ls) = { g with v := (g.writeLanes d f ls).v, badV := (g.writeLanes d f ls).badV } ∧
    (∀ k ∈ (g.writeLanes d f ls).badV, k ∈ g.badV) ∧
    ∀ r l, l < 32 → (g.writeLanes d f ls).rv r l = if r = d ∧ l ∈ ls then f l else g.rv r l := by
  induction ls generalizing g with
  | nil => exact ⟨rfl, fun _ h => h, fun r l _ => by simp [Group.writeLanes]⟩
  | cons k t ih =>
    have ih := ih (fun l h => hl l (List.mem_cons_of_mem _ h)) (g.setv d k (f k))
    have hk := hl k List.mem_cons_self
    refine ⟨ih.1, fun k h => Group.badV_setv (ih.2.1 k h), fun r l h => ?_⟩
    show (Group.writeLanes _ d f t).rv r l = _
    rw [ih.2.2 r l h, Group.rv_setv _ _ _ _ _ _ hk h]
    clear ih hk hl
    by_cases he : l = k
    · subst he; by_cases hr : r = d <;> by_cases hm : l ∈ t <;> simp [hr, hm]
    · by_cases hr : r = d <;> by_cases hm : l ∈ t <;> simp [hr, hm, he]

/-- The words after a register pair is written in a list of lanes. -/
theorem Group.writeLanes64_frame (d : Nat) (f : Nat → W64) (ls : List Nat) (hl : ∀ l ∈ ls, l < 32) (g : Group) :
    (g.writeLanes64 d f ls) = { g with v := (g.writeLanes64 d f ls).v, badV := (g.writeLanes64 d f ls).badV } ∧
    (∀ k ∈ (g.writeLanes64 d f ls).badV, k ∈ g.badV) ∧
    ∀ r l, l < 32 → (g.writeLanes64 d f ls).rv r l =
      if r = d ∧ l ∈ ls then (f l).extractLsb' 0 32 else if r = d + 1 ∧ l ∈ ls then (f l).extractLsb' 32 32 else g.rv r l := by
  induction ls generalizing g with
  | nil => exact ⟨rfl, fun _ h => h, fun r l _ => by simp [Group.writeLanes64]⟩
  | cons k t ih =>
    have ih := ih (fun l h => hl l (List.mem_cons_of_mem _ h)) (g.setv64 d k (f k))
    have hk := hl k List.mem_cons_self
    refine ⟨ih.1, fun k h => Group.badV_setv64 (ih.2.1 k h), fun r l h => ?_⟩
    show (Group.writeLanes64 _ d f t).rv r l = _
    rw [ih.2.2 r l h]
    unfold Group.setv64
    rw [Group.rv_setv _ _ _ _ _ _ hk h, Group.rv_setv _ _ _ _ _ _ hk h]
    clear ih hk hl
    by_cases hr : r = d
    · have hd : d ≠ d + 1 := by omega
      subst hr
      by_cases he : l = k
      · subst he; by_cases hm : l ∈ t <;> simp [hm]
      · by_cases hm : l ∈ t <;> simp [hm, he]
    · by_cases hr' : r = d + 1
      · subst hr'
        by_cases he : l = k
        · subst he; by_cases hm : l ∈ t <;> simp [hm]
        · by_cases hm : l ∈ t <;> simp [hm, he]
      · simp [hr, hr']

/-! ## The issue of an instruction -/

@[simp] theorem State.issued_csplit (s : State) (k : Nat) (pc : W64) : (s.issued k pc).csplit = s.csplit := by
  unfold State.csplit; rw [State.issued_cg, State.issued_cur]
@[simp] theorem State.seqEvent_csplit (s : State) (d src : Nat) (v : W64) (a : Nat) : (s.seqEvent d src v a).csplit = s.csplit := by
  unfold State.csplit; rw [State.seqEvent_cg, State.seqEvent_cur]
/-- The chosen split is the one that moves. -/
theorem Group.issue_frame (g : Group) (sp : Nat) (e : LaneEnc) (len : Nat) (m : W32) (pc : W64) (x : Issue) :
    g.issue sp e len m pc x =
      { g with sb := (g.issue sp e len m pc x).sb, ops := (g.issue sp e len m pc x).ops, nextOp := g.nextOp + 1,
               splits := (g.issue sp e len m pc x).splits, run := (g.issue sp e len m pc x).run } ∧
    (g.issue sp e len m pc x).splits = g.splits.map (fun y =>
      if y.id = sp then { y with pc := y.pc + BitVec.ofNat 64 len, wait := .ready, noBreak := false } else y) ∧
    ∀ k, (g.issue sp e len m pc x).rsb k = if k = e.sbs.toNat ∧ k ≠ 0 then g.rsb k + 1 else g.rsb k := by
  have hs : (g.issue sp e len m pc x).sb = if e.sbs.toNat == 0 then g.sb else (g.setsb e.sbs.toNat (g.rsb e.sbs.toNat + 1)).sb := by
    unfold Group.issue; dsimp only; split <;> rfl
  refine ⟨?_, ?_, fun k => ?_⟩
  · unfold Group.issue; dsimp only; split <;> rfl
  · unfold Group.issue; dsimp only; split <;> rfl
  · have hk : (g.issue sp e len m pc x).rsb k =
        if e.sbs.toNat == 0 then g.rsb k else (g.setsb e.sbs.toNat (g.rsb e.sbs.toNat + 1)).rsb k := by
      unfold Group.rsb at *
      rw [hs]; split <;> rfl
    rw [hk, Group.rsb_setsb]
    by_cases h : e.sbs.toNat = 0 <;> by_cases h' : k = e.sbs.toNat <;> simp [h, h']

/-- The issue of an instruction of a group that differs from the chosen one in v registers and predicates. -/
theorem laneNext_of_groupIs {s t : State} {e : LaneEnc} {len : Nat} {m : W32} {pc : W64} {x : Issue} {g : Group}
    (hg : g = { s.cg with v := g.v, badV := g.badV, p := g.p }) (hb : ∀ k ∈ g.badV, k ∈ s.cg.badV) (h : GroupIs s t (g.issue s.cur.split e len m pc x)) :
    LaneNext s t e len g.rv g.rp := by
  have hi := Group.issue_frame g s.cur.split e len m pc x
  generalize hG : g.issue s.cur.split e len m pc x = G at h hi
  have ht : t.cg = G := h.2
  have hv : G.v = g.v := by rw [hi.1]
  have hp : G.p = g.p := by rw [hi.1]
  have hbad : G.badV = g.badV := by rw [hi.1]
  refine ⟨⟨⟨h.1, ?_⟩, fun k hk => hb k (by rw [← hbad, ← ht]; exact hk)⟩, ?_, ?_, ?_, ?_⟩
  · rw [ht, hi.1, hg]
  · unfold Moved; rw [ht, hi.2.1, hg]
  · intro k; rw [ht, hi.2.2 k, hg]; rfl
  · intro r l _; rw [ht]; unfold Group.rv; rw [hv]
  · intro n l _; rw [ht]; unfold Group.rp Group.pmask; rw [hp]
/-- After a change of v registers and predicates of the chosen group, the issue of its instruction. -/
theorem laneNext_issue (s : State) (f : Group → Group) (e : LaneEnc) (len : Nat) (x : Issue)
    (hf : f s.cg = { s.cg with v := (f s.cg).v, badV := (f s.cg).badV, p := (f s.cg).p })
    (hb : ∀ k ∈ (f s.cg).badV, k ∈ s.cg.badV) :
    LaneNext s ((s.updCg f).issue e len x) e len (f s.cg).rv (f s.cg).rp := by
  have h := groupIs_issued s f
    (fun g => g.issue (s.updCg f).cur.split e len ((s.updCg f).execMask e) (s.updCg f).csplit.pc x) 2 (s.updCg f).csplit.pc
  exact laneNext_of_groupIs hf hb h
/-- The issue of an instruction that writes no register. -/
theorem laneNext_issue_only (s : State) (e : LaneEnc) (len : Nat) (x : Issue) :
    LaneNext s (s.issue e len x) e len s.cg.rv s.cg.rp :=
  laneNext_of_groupIs rfl (fun _ h => h) (groupIs_issued_only s (fun g => g.issue s.cur.split e len (s.execMask e) s.csplit.pc x) 2 s.csplit.pc)

/-! ## The shared forms -/

/-- A ready instruction goes to its effect. -/
theorem State.laneGo_ready {s : State} {e : LaneEnc} {flds : List Fld} {eff : State → State} {priv whole : Bool}
    (h : s.LaneReady e flds whole) (hp : priv = true → s.cg.laneSup = true) : s.laneGo e flds eff priv whole = eff s := by
  unfold State.laneGo
  rw [h.2.1, h.2.2.1, h.2.2.2]
  cases priv with
  | false => simp
  | true => simp [hp rfl]

/-- An instruction that writes V[d] lane by lane. -/
theorem writesV_laneV {s : State} {e : LaneEnc} {len : Nat} {flds : List Fld} {f : State → Nat → W32} {whole : Bool}
    (h : s.LaneReady e flds whole) : WritesV (.next (s.laneV e len flds f whole)) s e len (f s) := by
  refine ⟨_, rfl, ?_⟩
  unfold State.laneV
  rw [State.laneGo_ready h (by simp)]
  have hw := Group.writeLanes_frame e.dst.toNat (fun l => f s (s.srcLane e l)) (s.execLanes e)
    (fun l hl => (State.mem_execLanes.mp hl).1) s.cg
  have hn := laneNext_issue s (fun g => g.writeLanes e.dst.toNat (fun l => f s (s.srcLane e l)) (s.execLanes e)) e len
    { vw := [e.dst.toNat] } (by rw [hw.1]) hw.2.1
  refine ⟨hn.1, hn.2.1, hn.2.2.1, fun r l hl => (hn.2.2.2.1 r l hl).trans ?_, fun n l hl => (hn.2.2.2.2 n l hl).trans ?_⟩
  · dsimp only; rw [hw.2.2 r l hl]
    simp only [State.mem_execLanes, hl, true_and]
  · rw [hw.1]; rfl

/-- An instruction that writes V64[d] lane by lane. -/
theorem writesV64_laneV64 {s : State} {e : LaneEnc} {len : Nat} {flds : List Fld} {f : State → Nat → W64}
    (h : s.LaneReady e flds) : WritesV64 (.next (s.laneV64 e len flds f)) s e len (f s) := by
  refine ⟨_, rfl, ?_⟩
  unfold State.laneV64
  rw [State.laneGo_ready h (by simp)]
  have hw := Group.writeLanes64_frame e.dst.toNat (fun l => f s (s.srcLane e l)) (s.execLanes e)
    (fun l hl => (State.mem_execLanes.mp hl).1) s.cg
  have hn := laneNext_issue s (fun g => g.writeLanes64 e.dst.toNat (fun l => f s (s.srcLane e l)) (s.execLanes e)) e len
    { vw := [e.dst.toNat, e.dst.toNat + 1] } (by rw [hw.1]) hw.2.1
  refine ⟨hn.1, hn.2.1, hn.2.2.1, fun r l hl => (hn.2.2.2.1 r l hl).trans ?_, fun n l hl => (hn.2.2.2.2 n l hl).trans ?_⟩
  · dsimp only; rw [hw.2.2 r l hl]
    simp only [State.mem_execLanes, hl, true_and]
  · rw [hw.1]; rfl

/-- A predicate written in the executed lanes. -/
theorem State.rp_setp (s : State) (e : LaneEnc) (pd : Nat) (f : Nat → Bool) (n l : Nat) (h : l < 32) :
    (s.cg.setp pd (s.execMask e) (laneMask (lanes.filter f))).rp n l =
      if n = pd ∧ n ≠ 0 ∧ s.executes e l = true then f l else s.cg.rp n l := by
  unfold Group.rp
  rw [Group.pmask_setp]
  by_cases hn : n = pd
  · subst hn
    by_cases h0 : n = 0
    · simp [h0]
    · have hc : (List.filter f lanes).contains l = f l := by
        rw [Bool.eq_iff_iff, List.contains_iff_mem, List.mem_filter, mem_lanes]
        simp [h]
      simp only [h0, ne_eq, not_false_eq_true, true_and, and_self, if_true, BitVec.getLsbD_or, BitVec.getLsbD_and,
        BitVec.getLsbD_not, h, decide_true, Bool.true_and, getLsbD_laneMask _ _ h, hc]
      cases hx : s.executes e l <;> simp_all [State.executes]
  · simp [hn]
theorem Group.setp_frame (g : Group) (n : Nat) (m x : W32) : g.setp n m x = { g with p := (g.setp n m x).p } := by
  unfold Group.setp; split <;> rfl

/-- An instruction that writes a predicate lane by lane. -/
theorem writesP_laneP {s : State} {e : LaneEnc} {len pd : Nat} {flds : List Fld} {f : State → Nat → Bool} {whole : Bool}
    (h : s.LaneReady e flds whole) : WritesP (.next (s.laneP e len flds pd f whole)) s e len pd (f s) := by
  refine ⟨_, rfl, ?_⟩
  unfold State.laneP
  rw [State.laneGo_ready h (by simp)]
  have hn := laneNext_issue s (fun g => g.setp pd (s.execMask e) (laneMask (lanes.filter fun l => f s (s.srcLane e l)))) e len
    { pw := [pd] } (by rw [Group.setp_frame])
    (by rw [Group.setp_frame]; exact fun _ h => h)
  refine ⟨hn.1, hn.2.1, hn.2.2.1, fun r l hl => (hn.2.2.2.1 r l hl).trans ?_, fun n l hl => (hn.2.2.2.2 n l hl).trans ?_⟩
  · rw [Group.setp_frame]; rfl
  · exact s.rp_setp e pd (fun l => f s (s.srcLane e l)) n l hl

/-- The issue of an instruction that writes no register. -/
theorem writesNone_issue (s : State) (e : LaneEnc) (len : Nat) (x : Issue) : WritesNone (.next (s.issue e len x)) s e len :=
  ⟨_, rfl, laneNext_issue_only s e len x⟩

/-- The chosen split is the one of that number. -/
theorem State.csplit_id {s : State} (h : (s.cg.splits.any fun y => y.id == s.cur.split) = true) : s.csplit.id = s.cur.split := by
  unfold State.csplit
  cases hc : s.cg.splits.find? (·.id = s.cur.split) with
  | none =>
    obtain ⟨z, hz, he⟩ := List.any_eq_true.mp h
    exact absurd (by simpa using he) (by simpa using List.find?_eq_none.mp hc z hz)
  | some z => simpa using List.find?_some hc

/-- A flow instruction that waits for nothing goes to its effect (R81, R138). -/
theorem State.flowGo_ready {s : State} {e : LaneEnc} {flds : List Fld} {eff : State → State} {others : State → Bool}
    (h : s.FlowReady e flds others) : s.flowGo e flds eff others = eff (s.issued 2 s.csplit.pc) := by
  obtain ⟨hx, hf, hk, hd, ho⟩ := h
  have hkin : s.kin = [] := by
    unfold State.kin
    refine List.filter_eq_nil_iff.mpr fun y hy hc => ?_
    rw [State.csplit_id hx] at hc
    simp only [Bool.and_eq_true, bne_iff_ne, ne_eq, beq_iff_eq] at hc
    exact hk y hy hc.1 hc.2
  have hg : s.gather = (s, true) := by unfold State.gather; rw [hkin]; rfl
  unfold State.flowGo
  rw [hg]
  simp [hf, hd, ho]

end Sys2Proof.Machine
end

