-- ==== Sys2Proof/Laws/Paging.lean ====
section
/-!
SUPPORT. The leaves of a table (14_address_translation.md R323, R342): a table of which memory lists one entry is read
through that entry.
-/

namespace Sys2Proof.Machine

/-- A list that one number of a range alone contributes to. -/
theorem flatMap_one {α : Type} (f : Nat → List α) (n j : Nat) (hj : j < n) (h : ∀ k, k ≠ j → k < n → f k = []) :
    (List.range n).flatMap f = f j := by
  have : ∀ k, k ≤ n → (List.range k).flatMap f = if j < k then f j else [] := by
    intro k
    induction k with
    | zero => simp
    | succ k ih =>
      intro hk
      rw [List.range_succ, List.flatMap_append, ih (by omega)]
      by_cases e : k = j
      · subst e; simp
      · have := h k e (by omega)
        by_cases g : j < k
        · have : j < k + 1 := by omega
          simp [*]
        · have : ¬ j < k + 1 := by omega
          simp [*]
  simpa [hj] using this n (Nat.le_refl n)

/-- A table with one entry that memory lists is read through that entry alone. -/
theorem State.leaves_one (s : State) (fuel level table base j : Nat) (hj : j < 1024)
    (h : ∀ c ∈ s.mem, c.1 < table ∨ table + 8192 ≤ c.1 ∨ table + 8 * j ≤ c.1 ∧ c.1 < table + 8 * j + 8) :
    s.leaves (fuel + 1) level table base =
      (let a := table + 8 * j
       let e := s.mem.read a 8
       let page := base * 1024 + j
       if !pteP e then []
       else if level == 3 then (if leafOk 3 e then [(page, e, a)] else [])
       else if pteL e then []
       else match s.place (pteTable e) with
         | .dram _ _ => s.leaves fuel (level + 1) (pteTable e) page
         | _ => []) := by
  rw [State.leaves]
  refine (flatMap_one _ 1024 j hj ?_).trans rfl
  intro k hk hk2
  have : s.mem.read (table + 8 * k) 8 = 0 := Memory.read_unlisted _ _ _ fun c hc => by have := h c hc; omega
  simp [this, pteP, bitOf]

/-- The entry is a pointer. -/
theorem State.leaves_pointer (s : State) (fuel level table base j next d o : Nat) (hj : j < 1024)
    (h : ∀ c ∈ s.mem, c.1 < table ∨ table + 8192 ≤ c.1 ∨ table + 8 * j ≤ c.1 ∧ c.1 < table + 8 * j + 8)
    (hl : (level == 3) = false) (he : s.mem.read (table + 8 * j) 8 = next + 1)
    (hp : pteP (next + 1) = true ∧ pteL (next + 1) = false ∧ pteTable (next + 1) = next) (hd : s.place next = .dram d o) :
    s.leaves (fuel + 1) level table base = s.leaves fuel (level + 1) next (base * 1024 + j) := by
  rw [State.leaves_one s fuel level table base j hj h]
  simp [he, hl, hp, hd]

/-- The entry is a leaf. -/
theorem State.leaves_leaf (s : State) (fuel table base j e : Nat) (hj : j < 1024)
    (h : ∀ c ∈ s.mem, c.1 < table ∨ table + 8192 ≤ c.1 ∨ table + 8 * j ≤ c.1 ∧ c.1 < table + 8 * j + 8)
    (he : s.mem.read (table + 8 * j) 8 = e) (hp : pteP e = true ∧ leafOk 3 e = true) :
    s.leaves (fuel + 1) 3 table base = [(base * 1024 + j, e, table + 8 * j)] := by
  rw [State.leaves_one s fuel 3 table base j hj h]
  simp [he, hp]

end Sys2Proof.Machine
end

