-- ==== Sys2Proof/Tests/Slice0.lean ====
section
/-!
SUPPORT. Tests: ill-formed terms that the check refuses, words whose decoding the manual gives, and, for every statement
with hypotheses, states and operands that meet them.
-/

namespace Sys2Proof.Machine.Slice0Tests

set_option Elab.async false

/-! ## Small states -/

/-- A grid of one block of one group of 32 lanes on core 0, its code page mapped with every permission. -/
def lab (lane : Bool) : State :=
  let s := (State.reset.loadGroup lane).loadTables
  { s with cur := { g := 1, split := 1 } }
/-- The state whose chosen group is changed. -/
def labG (f : Group → Group) : State := (lab false).updCg f
def labL (f : Group → Group) : State := (lab true).updCg f
/-- s registers from a list of numbers and values. -/
def sregs (l : List (Nat × Nat)) (g : Group) : Group := l.foldl (fun g x => g.sets x.1 (BitVec.ofNat 64 x.2)) g
/-- The lab with s registers. -/
def labS (l : List (Nat × Nat)) : State := labG (sregs l)

/-! ## The control stream -/

theorem witness_scalar : (labS []).Quiet [8, 9, 10] ∧ (labS []).cg.rs 10 = 0#64 ∧ (labS [(10, 5)]).Quiet [8, 9, 10] ∧
    (labS [(10, 5)]).cg.rs 10 ≠ 0#64 ∧ conditionHolds .geu 5#64 5#64 ∧ ¬ conditionHolds .lt 5#64 5#64 ∧
    ¬ (labG fun g => { g with slds := [{ d := 9, value := 0 }] }).Quiet [8, 9] := by decide +kernel

theorem witness_branch : (labS [(9, 0x1000)]).Quiet [63] ∧ (labS [(9, 0x1000)]).Quiet [9, 10] ∧
    ((labS [(9, 0x1000)]).cg.rs 9).toNat % 4 = 0 ∧ conditionHolds .ne 0x1000#64 0#64 ∧ ¬ conditionHolds .eq 0x1000#64 0#64 := by decide +kernel

/-- Eight entries wait. -/
def fullQueue : State := labG fun g => { g with laneq := List.replicate 8 { pc := loadVa, runPc := loadVa } }

theorem witness_run : (labS [(9, 8)]).Quiet [9] ∧ ((labS [(9, 8)]).cg.rs 9 + BitVec.ofInt 64 (4 * (-2 : Int))).toNat % 4 = 0 ∧
    (labS []).cg.laneq.length < 8 ∧ fullQueue.Quiet [9] ∧ 8 ≤ fullQueue.cg.laneq.length ∧ fullQueue.cg.wait = none ∧
    (labS []).cg.laneq = [] ∧ (labS []).cg.laneBusy = false ∧ (labS []).cg.laneSup = false ∧ (labS []).cg.lpend = none ∧
    (lab true).cg.laneBusy = true ∧ (lab true).cg.wait = none := by decide +kernel

/-- Two operations of one engine counter are outstanding. -/
def twoOut : State := labG fun g => g.setcnt 1 2

theorem witness_counter_waits : (labS []).cg.rcnt 0 ≤ (0#8).toNat ∧ (255#8).toNat = 255 ∧ (1#8).toNat < twoOut.cg.rcnt (clsNum .gath) ∧
    (1#8).toNat ≠ 255 ∧ twoOut.cg.wait = none := by decide +kernel

/-- A translation answers an address at which a test holds. -/
def found (r : State × TrRes) (f : State → Nat → Nat → Bool) : Bool :=
  match r with
  | (t, .ok pa coh _ _ _ _) => f t pa coh
  | _ => false

/-- A register pointing into the page, and data. -/
def pointS : State := labS [(9, 0x10100), (8, 0xFFFFFFFFFFFFFFFE)]

theorem witness_scalar_load : pointS.Quiet [8, 9] ∧ pointS.CtlAddress (pointS.cg.rs 9 + BitVec.ofInt 64 (8#14).toInt) 8 ∧
    (found (pointS.ctlXlat 0x10108#64 .load) fun t pa coh => t.sysUp pa && !t.unheld.badCtl pa 8 coh &&
      (let u := (t.unheld.coreLoad t.cg.core pa 8 coh .none false).1
       decide (u.Unwatched 0x10108#64 8 true false))) = true ∧
    (labG fun g => { g with slds := [{ d := 63, value := 5 }] }).cg.slds = { d := 63, value := 5 } :: [] := by decide +kernel
/-- The group's next access is left for later; and one to the page's bytes has been left, a store or a load. -/
def lateCtl : State := pointS.updCg fun g => { g with late := true }
def leftStore : LateAcc := { op := 0, lane := 32, p := { pa := loadFrame + 0x108, off := 0, n := 8, coh := 0 }, v := 7, kind := .store, hint := .none }
def leftLoad : SldSrc := { va := 0x10108#64, pc := loadVa, pa := loadFrame + 0x108, n := 8, coh := 0 }
def leftS : State := pointS.updCg fun g => { g with lates := [leftStore] }
def unreadS : State := pointS.updCg fun g => { g with slds := [{ d := 63, value := 0#64, src := some leftLoad }] }
theorem witness_control_late : (found (pointS.ctlXlat 0x10108#64 .load) fun t pa _ => !t.cg.ctlHeldBack pa 8 && !t.cg.late) = true ∧
    (found (lateCtl.ctlXlat 0x10108#64 .load) fun t pa _ => !t.cg.ctlHeldBack pa 8 && t.cg.late && t.cached pa && decide (t.Unwatched 0x10108#64 8 true false)) = true ∧
    (found (leftS.ctlXlat 0x10108#64 .load) fun t pa _ => t.cg.ctlHeldBack pa 8) = true ∧
    (found (unreadS.ctlXlat 0x10108#64 .store) fun t pa _ => t.cg.ctlHeldBack pa 8) = true ∧
    unreadS.cg.slds = { d := 63, value := 0#64, src := some leftLoad } :: [] ∧
    (∀ c ∈ pieces leftLoad.pa leftLoad.n leftLoad.n, unreadS.badLoad 0 c.1 c.2 leftLoad.coh false = false) ∧ pointS.cg.sldsRead ∧
    (∀ y ∈ pointS.cg.lates, y.lane ≠ 32) ∧ ¬ (∀ y ∈ leftS.cg.lates, y.lane ≠ 32) ∧ anyOrder (.sldB64 8 9 0) = true := by decide +kernel
/-- R103, R282. The store left for later is performed before a RUN, and an SLD of other bytes passes it. -/
theorem test_control_order : ((leftS.ordered 1 (.run 9 0)).mem.read (loadFrame + 0x108) 8 = 7) ∧
    ((leftS.ordered 1 (.sldB64 8 9 0)).mem.read (loadFrame + 0x108) 8 = 0) := by decide +kernel

theorem witness_scalar_store : pointS.Quiet [8, 9] ∧ pointS.CtlAddress (pointS.cg.rs 9 + BitVec.ofInt 64 (-4 : Int)) 4 ∧
    (found (pointS.ctlXlat 0x100FC#64 .store) fun t pa coh => t.sysUp pa && pa % 4 == 0 && !ownCopy (coreDom t.cg.core) (pa / 128) coh &&
      decide (t.Clean (coreDom t.cg.core)) &&
      decide ((t.unheld.coreStore t.cg.core pa 4 0xFFFFFFFE coh .none).Unwatched 0x100FC#64 4 false true)) = true := by decide +kernel

theorem witness_xlat : pointS.Quiet [9] ∧ regenFailed pointS.cg.ctlRegen (pointS.cg.rs 9) = false ∧
    (found (pointS.ctlXlat (pointS.cg.rs 9) .bindXb) fun _ _ _ => true) = true := by decide +kernel

/-- A packet of one block that runs no lane code of its own, at 0x10100. -/
def packetLow : State := (List.range 8).foldl (fun s k =>
  s.poke (loadFrame + 0x100 + 8 * k) 8 ([loadPacket.d0, loadPacket.d1, loadPacket.d2, loadPacket.cbase, loadPacket.lbase,
    loadPacket.args, loadPacket.sig, loadPacket.d7].getD k 0#64).toNat) pointS
/-- The status of a LAUNCH of the packet, and whether its hypotheses hold. -/
def launchGives (s : State) (st : Nat) : Bool :=
  found (s.ctlXlat 0x10100#64 .load) fun t pa coh => t.sysUp pa && !t.unheld.badCtl pa 64 coh &&
    (let r := t.unheld.loadDwords pa coh 8
     launchStatus r.1 (packetOf r.2) == st)

/-- No lane of a packet, a quota of children, and a pool with room. -/
theorem witness_launch : packetLow.Quiet [8, 9] ∧ packetLow.CtlAddress (packetLow.cg.rs 9) 64 ∧
    launchGives { packetLow with ctxs := packetLow.ctxs.upd 1 {} fun c => { c with lquota := 1#64 } } 0 = true ∧
    launchGives { packetLow with ctxs := packetLow.ctxs.upd 1 {} fun c => { c with lquota := 0#64 } } 2 = true ∧
    launchGives pointS 4 = true := by decide +kernel

/-- A child is outstanding. -/
def childOut : State := labG fun g => { g with childOut := 1 }

theorem witness_waitchild : (labS []).Quiet [63] ∧ (labS []).cg.childOut = 0 ∧ childOut.Quiet [63] ∧ childOut.cg.childOut ≠ 0 ∧
    childOut.cg.wait = none := by decide +kernel

/-- Another group of the block, still running, and one that has ended. -/
def twoGroups (ended : Bool) : State :=
  let s := (labS []).setGrp 2 { live := true, exited := ended, grid := 1, block := 1, gidx := 1, slot := 1 }
  s.updBlk 1 fun b => { b with groups := [1, 2] }

theorem witness_exit : (labS []).cg.ctlSup = false ∧ (labS []).cg.laneIdle = true ∧ (∀ c, c < 4 → (labS []).cg.rcnt c = 0) ∧
    (labS []).cur.g ∈ ((labS []).blk (labS []).cg.block).groups ∧
    (∀ k ∈ ((labS []).blk 1).groups, k ≠ 1 → ((labS []).grp k).exited = true) ∧
    (∃ k ∈ ((twoGroups false).blk 1).groups, k ≠ 1 ∧ ((twoGroups false).grp k).exited = false) ∧
    (∀ k ∈ ((twoGroups true).blk 1).groups, k ≠ 1 → ((twoGroups true).grp k).exited = true) ∧
    (twoGroups false).cg.laneIdle = true ∧ 1 ∈ ((twoGroups false).blk 1).groups ∧
    ¬ (∀ c, c < 4 → twoOut.cg.rcnt c = 0) ∧ twoOut.cg.wait = none := by decide +kernel

/-- A block with a share of 8 KiB in each column. -/
def labScr (l : List (Nat × Nat)) : State := (labS l).updBlk 1 fun b => { b with share := 8192 }

/-- The counter of COPY chains is full. -/
def cntFull : State := (labScr [(9, 8160)]).updCg fun g => g.setcnt 0 255

/-- The queue of COPY chains is full, or half full; the group has counted its chain and waits for room. -/
def appending : CtlWait := { kind := .append, obj := 77 }
def engWith (n : Nat) (w : Option CtlWait) : State :=
  let s := (labScr [(9, 8160)]).updCg fun g => { g with wait := w }
  (List.range n).foldl (fun s k => s.setEngQueue 0 0 (s.engQueue 0 0 ++ [100 + k])) s
def engFull (w : Option CtlWait) : State := engWith 32 w
def engHalf (w : Option CtlWait) : State := engWith 16 w

theorem witness_engchain : (labScr [(9, 8160)]).Quiet [9] ∧
    headPlace (labScr [(9, 8160)]) ((labScr [(9, 8160)]).cg.rs 9) (scratchPa 0 8160) ∧
    (labScr [(9, 8160)]).cg.rcnt 0 < 255 ∧ ((labScr [(9, 8160)]).engQueue 0 0).length < 32 ∧ ((labScr [(9, 8160)]).engQueue 0 3).length < 512 ∧
    headPlace cntFull (cntFull.cg.rs 9) (scratchPa 0 8160) ∧ cntFull.Quiet [9] ∧ 255 ≤ cntFull.cg.rcnt 0 ∧ cntFull.cg.wait = none ∧
    (labScr [(9, 8160)]).cg.wait = none ∧ (engFull none).Quiet [9] ∧ headPlace (engFull none) ((engFull none).cg.rs 9) (scratchPa 0 8160) ∧
    (engFull none).cg.rcnt 0 < 255 ∧ 32 ≤ ((engFull none).engQueue 0 0).length ∧ (engFull none).cg.wait = none ∧
    (∀ s ∈ [engFull (some appending), engHalf (some appending)], s.cg.wait = some appending ∧ s.Quiet [9] ∧
      headPlace s (s.cg.rs 9) (scratchPa 0 8160)) ∧
    32 ≤ ((engFull (some appending)).engQueue 0 0).length ∧ ((engHalf (some appending)).engQueue 0 0).length < 32 := by decide +kernel

/-- A descriptor at 64 of a buffer of one element of 16 bytes at 0, made by CBINIT from s9 to s11. -/
def oneSlot : State := after (exec (.cbinit 8 9) (labScr [(8, 64), (9, 0), (10, 1), (11, 16), (12, 1)])) (labScr [])
/-- The buffer is full. -/
def fullSlot : State := after (exec (.cbadvProd 8 12) oneSlot) oneSlot

theorem witness_buffer : (labScr [(8, 64), (10, 1), (11, 16)]).Quiet [8, 9, 10, 11] ∧
    headPlace (labScr [(8, 64), (10, 1), (11, 16)]) 64#64 (scratchPa 0 64) ∧
    ((labScr [(8, 64), (10, 1), (11, 16)]).scratchPaAt 0 (1 * 16)).isSome = true ∧
    ((labScr []).scratchPaAt 4096 (1 * 4096)).isSome = true ∧ oneSlot.badIn (scratchPa 0 64) 32 = false ∧ fullSlot.badIn (scratchPa 0 64) 32 = false ∧
    oneSlot.Quiet [8, 12] ∧ headPlace oneSlot (oneSlot.cg.rs 8) (scratchPa 0 64) ∧ (oneSlot.readDesc (scratchPa 0 64)).tag = 0x43425546 ∧
    (oneSlot.cg.rs 12).toNat % 2 ^ 32 ≤ (oneSlot.readDesc (scratchPa 0 64)).room ∧
    headPlace fullSlot (fullSlot.cg.rs 8) (scratchPa 0 64) ∧ (fullSlot.readDesc (scratchPa 0 64)).tag = 0x43425546 ∧
    (fullSlot.cg.rs 12).toNat % 2 ^ 32 ≤ (fullSlot.readDesc (scratchPa 0 64)).filled := by decide +kernel

theorem witness_waitcmp : pointS.Quiet [8, 9, 10] ∧ pointS.cg.wait = none ∧ pointS.CtlAddress (pointS.cg.rs 9) 8 ∧
    (found (pointS.ctlXlat 0x10100#64 .load) fun t pa coh => t.sysUp pa && !t.unheld.badLoad t.cg.core pa 8 coh true &&
      (let r := (t.unheld.wordAtHome t.cg.core pa coh).homeRead pa 8
       r.2 == 0 && decide (r.1.Unwatched 0x10100#64 8 true false))) = true ∧
    conditionHolds .eq (BitVec.ofNat 64 0) (pointS.cg.rs 10) ∧ ¬ conditionHolds .ne (BitVec.ofNat 64 0) (pointS.cg.rs 10) := by decide +kernel

/-- An object at 32 that expects s10 arrivals. -/
def objLab (n : Nat) : State := after (exec (.binit 9 10) (labScr [(9, 32), (10, n), (11, 1)])) (labScr [])

theorem witness_quad_barrier : (objLab 2).Quiet [8, 9, 10] ∧ objectPlace (objLab 2) ((objLab 2).cg.rs 9) (scratchPa 0 32) ∧
    (objLab 2).badIn (scratchPa 0 32) 16 = false ∧ (objLab 1).badIn (scratchPa 0 32) 16 = false ∧ (objLab 0).badIn (scratchPa 0 32) 16 = false ∧
    ({ objLab 2 with bad := [scratchPa 0 33] } : State).badIn (scratchPa 0 32) 16 = true ∧
    objectIs (objLab 2) (scratchPa 0 32) 2 0 0 ∧ objectIs (objLab 1) (scratchPa 0 32) 1 0 0 ∧ objectIs (objLab 0) (scratchPa 0 32) 0 0 0 ∧
    ((objLab 1).cg.rs 11).toNat = 1 ∧ (objLab 1).cg.wait = none ∧
    (objLab 1).cg.arrivals.find? (fun y => y.1 == 32) = some (32, 0) ∧
    (let s := after (exec (.barv 9 11) (objLab 1)) (objLab 1)
     objectIs s (scratchPa 0 32) 1 0 1 ∧ s.cg.wait = none ∧ s.cg.arrivals.find? (fun y => y.1 == 32) = some (32, 0)) ∧
    (let s := after (exec (.barv 9 11) (objLab 2)) (objLab 2)
     objectIs s (scratchPa 0 32) 2 1 0 ∧ (s.cg.rs 11).toNat = 1 ∧ objectPlace s (s.cg.rs 9) (scratchPa 0 32)) := by decide +kernel

/-- A co-resident grid that has been granted the program channel. -/
def corLab : State := { (labS []).updGrid 1 fun n => { n with pkt := { n.pkt with d0 := n.pkt.d0 ||| 0x2000#64 } } with wbarGrid := some 1 }
/-- The group waits, and has been released. -/
def released (w : CtlWait) : State := labG fun g => { g with wait := some w }

theorem witness_dbar_wbar : corLab.Quiet [9] ∧ corLab.cg.wait = none ∧ (corLab.gridOf corLab.cg.grid).pkt.cor ≠ 0 ∧
    (((corLab.dom (coreDom corLab.cg.core)).dbars.get? (16 * corLab.casid + 5)).getD { grid := corLab.cg.grid }).grid = corLab.cg.grid ∧
    corLab.wbarGrid = some corLab.cg.grid ∧
    (released { kind := .dbar, woken := true }).cg.wait = some { kind := .dbar, woken := true } ∧
    (released { kind := .wbar, woken := true, n := 3 }).cg.wait = some { kind := .wbar, woken := true, n := 3 } ∧
    (released { kind := .wbar, woken := true, n := 3 }).Quiet [9] := by decide +kernel

/-- Episode 0 of Corrie core 0 is bound to the context, with its window in a free frame and payload slots of 64 bytes; its
STATUS, and the tails of the action ring and of the observation ring. -/
def epLab (status atail otail : Nat) (l : List (Nat × Nat)) : State :=
  let s := (labS l).updDom 0 fun m => { m with windows := m.windows.set 0 { asid := 1, gen := 1, psize := 1, size := 13, base := 0x200000 } }
  ((s.poke (0x200000 + 0x80) 8 status).poke 0x200000 8 atail).poke (0x200000 + 0x40) 8 otail
/-- The window of the episode. -/
def epWin : Window := { asid := 1, gen := 1, psize := 1, size := 13, base := 0x200000 }

/-- The transfer of a send of n bytes from 0x10100, and of a receipt into it. -/
def sendOk (s : State) (n : Nat) : Bool :=
  match s.engPages s.cg.core s.casid s.cg.grid s.cg.ctlRegen .load (n / 2 ^ 13 + 2) 0x10100#64 n with
  | (t, .inl l) =>
    let r := t.unheld.engGet t.cg.core (.mem l)
    (l.all fun y => !t.badRead t.cg.core y.pa y.n y.coh) && decide (r.1.Unwatched 0x10100#64 n true false)
  | _ => false
def receiveOk (s : State) (n : Nat) : Bool :=
  let t := s.acquire s.cg.core .wfr
  match t.engPages t.cg.core t.casid t.cg.grid t.cg.ctlRegen .store (n / 2 ^ 13 + 2) 0x10100#64 n with
  | (u, .inl l) => decide ((u.unheld.engPut u.cg.core (.mem l) (List.replicate n 0#8)).Unwatched 0x10100#64 n false true)
  | _ => false

theorem witness_mailbox : arbiterIdle (epLab 1 0 0 []) 0 ∧
    ((((epLab 1 0 0 []).updDom 0 fun m => { m with arbAt := some 0 }).dom 0).arbAt = some (epLab 1 0 0 []).now ∧
      ((epLab 1 0 0 []).updDom 0 fun m => { m with arbAt := some 0 }).cg.wait = none) ∧ (epLab 1 0 0 []).Quiet [8, 9, 10, 11] ∧ (epLab 1 0 0 []).badIn epWin.base 0x90 = false ∧ names (epLab 1 0 0 []) ((epLab 1 0 0 []).cg.rs 9) epWin ∧
    ((epLab 0 0 0 []).epRec epWin).status = 0 ∧ 3 ≤ ((epLab 3 0 0 []).epRec epWin).status ∧ (epLab 3 0 0 []).held epWin true = 0 ∧
    ((epLab 1 0 0 []).epRec epWin).status = 1 ∧ 16 ≤ (epLab 2 16 0 []).held epWin false ∧ ((epLab 2 16 0 []).epRec epWin).status = 2 ∧
    (epLab 2 15 0 []).held epWin false < 16 ∧ epWin.p < 65 ∧ 64 ≤ epWin.p ∧ (((epLab 1 0 0 []).epRec epWin).accept 0).isSome = true ∧
    sendOk (epLab 1 0 0 []) 64 = true ∧ (epLab 1 0 1 []).held epWin true ≠ 0 ∧ receiveOk (epLab 1 0 1 []) 64 = true ∧
    ((epLab 1 0 0 []).corriePresent 0 = true ∧ ((epLab 1 0 0 []).hart 0).gated = false) ∧
    ((epLab 1 0 0 []).updHart 0 fun x => { x with gated := true }).Quiet [8] ∧
    (((epLab 1 0 0 []).updHart 0 fun x => { x with gated := true }).hart 0).gated = true := by decide +kernel

/-- A group with a table, a tile, a quota of one slot, and the slots it holds. -/
def arrLab (held : List Nat) (l : List (Nat × Nat)) : State :=
  let s := (labScr l).updBlk 1 fun b => { b with nalg := 1, tables := [(0, [3])] }
  let s := s.updCore 0 fun c => { c with opslots := held.foldl (fun t k => t.set k { holder := 1 }) c.opslots }
  s.updCg fun g => { g with quota := 1, slots := held, accs := [5] }
/-- A fill of slot 0 is outstanding. -/
def fillLab : State := after (exec (.sfill 8 9 10 .x16 0 false .row) (arrLab [0] [(9, 0), (10, 128)])) (arrLab [0] [])

theorem witness_array_control : (arrLab [] [(9, 8064)]).Quiet [8, 9, 10] ∧ (0#3).toNat < (arrLab [] []).cblk.nalg ∧
    (arrLab [] []).scratchPaAt 8064 128 = some (scratchPa 0 8064) ∧ (arrLab [] []).badIn (scratchPa 0 8064) 128 = false ∧
    tabFault ((arrLab [] []).mem.bytes (scratchPa 0 8064) 128) = none ∧
    (arrLab [] []).cblk.tables.find? (fun x => x.1 == (arrLab [] []).cg.core) = some (0, [3]) ∧
    (arrLab [] []).cg.slots.length < (arrLab [] []).cg.quota ∧ ((arrLab [] []).core 0).sclmQ = [] ∧
    ((arrLab [] []).core 0).freeSlots = 0 :: ((arrLab [] []).core 0).freeSlots.tail ∧
    ((arrLab [0] [(9, 0)]).cg.rs 9).toNat ∈ (arrLab [0] []).cg.slots ∧ ((arrLab [0] []).core 0).slotIdle 0 = true ∧
    (fillLab.core 0).slotIdle 0 = false ∧ (fillLab.core 0).opslots.get? 0 = some { holder := 1 } ∧
    (∀ r, r < 32 → (arrLab [0] []).scratchPaAt (0 + r * 128) 128 = some (scratchPa 0 (r * 128)) ∧
      (arrLab [0] []).badIn (scratchPa 0 (r * 128)) 128 = false) ∧ (arrLab [0] []).cg.rcnt 2 < 255 ∧
    (0#2).toNat < (arrLab [] []).cg.accs.length := by decide +kernel

/-- At supervisor level. -/
def supLab (l : List (Nat × Nat)) : State := (labS l).updCg fun g => { g with ctlSup := true }
/-- The context is attached for debugging, or has checkpoint storage. -/
def ctxLab (s : State) (f : Context → Context) : State := { s with ctxs := s.ctxs.upd 1 {} f }

/-- A load whose data are on their way. -/
def flying : PendLoad := { id := 2, op := 4, split := 2, mask := 1#32, dst := 20, size := .b32, sx := false, addrs := [] }

theorem witness_system : (labS []).cg.ctlSup = false ∧ (supLab [(9, 5)]).cg.ctlSup = true ∧ (supLab [(9, 5)]).Quiet [8, 9, 10] ∧
    canonical ((supLab [(9, 0x10000)]).cg.rs 9) = true ∧ (supLab [(9, 0x10000)]).cg.rs 10 = 0#64 ∧
    (supLab [(9, 0x10000), (10, 0x2000)]).cg.rs 10 ≠ 0#64 ∧ (supLab [(9, 0x10000), (10, 0x2000)]).inFlight 1 = false ∧
    ((supLab [(9, 0x10000), (10, 0x2000)]).updCg fun g => { g with loads := [flying] }).inFlight 1 = true ∧ (supLab []).cctx.attached = false ∧
    (ctxLab (supLab []) fun c => { c with attached := true }).cctx.attached = true ∧
    (ctxLab (supLab []) fun c => { c with attached := true }).cg.ctlSup = true := by decide +kernel

theorem witness_requests : (labS []).Quiet [8] ∧ (labS []).cctx.ckptAddr = 0 ∧
    (ctxLab (labS []) fun c => { c with ckptAddr := 0x300000 }).cctx.ckptAddr ≠ 0 ∧
    (ctxLab (labS []) fun c => { c with ckptAddr := 0x300000 }).cg.wait = none ∧
    ((labS []).dom (coreDom (labS []).cg.core)).seqr.recording = false ∧ ((labS []).dom 0).cairnOut.length < 16 := by decide +kernel

/-! ## Traps of the control stream -/

/-- The handlers of both streams stand at the code page. -/
def handled (s : State) : State := ctxLab s fun c => { c with ctrapvec := loadVa, ltrapvec := loadVa }

theorem witness_control_trap : (handled (labS [])).cg.ctlSup = false ∧ (handled (labS [])).cg.laneSup = false ∧
    (handled (labS [])).debugTakes 1 { code := 1 } = false ∧ (handled (labS [])).cctx.attached = false ∧ (handled (labS [])).cg.slds = [] ∧
    (handled (labS [])).vecOk 0 1 (handled (labS [])).cctx.ctrapvec .ctlFetch = true ∧ (handled (labS [])).cg.parked = none ∧
    (labS []).vecOk 0 1 (labS []).cctx.ctrapvec .ctlFetch = false ∧ (handled (supLab [])).cg.ctlSup = true ∧
    (handled (supLab [])).debugTakes 1 { code := 1 } = false ∧ (handled (labS [])).stopsHere 1 = false ∧
    (handled (supLab [])).stopsHere 1 = false ∧ (labS []).stopsHere 1 = false ∧ (labS []).cg.slds = [] ∧
    (handled (supLab [])).cg.slds = [] := by decide +kernel

/-- In the control handler, with its shadow. -/
def inHandler : State := after (exec (.trap 7) (handled (labS [(63, 9)]))) (labS [])

theorem witness_tret : inHandler.cg.ctlSup = true ∧ inHandler.cg.slds = [] ∧ inHandler.cg.cshadow.isSome = true ∧
    inHandler.cg.lpend = none ∧ inHandler.heldChains 1 = [] ∧ inHandler.cg.parked = none := by decide +kernel

theorem witness_control_addresses : (labS [(9, 0x10101)]).Quiet [8, 9] ∧ ((labS [(9, 0x10101)]).cg.rs 9).toNat % 4 ≠ 0 ∧
    ((labS [(9, 0x10101)]).cg.rs 9 + BitVec.ofInt 64 (4 * (1 : Int))).toNat % 4 ≠ 0 ∧
    canonical ((labS [(9, 2 ^ 60)]).cg.rs 9 + 0#64) = false ∧ canonical ((labS [(9, 0x10104)]).cg.rs 9 + 0#64) = true ∧
    ((labS [(9, 0x10104)]).cg.rs 9).toNat % 8 ≠ 0 ∧ ((labS [(9, 0x10102)]).cg.rs 9).toNat % 4 ≠ 0 ∧
    canonical ((labS [(9, 0x10120)]).cg.rs 9) = true ∧ ((labS [(9, 0x10120)]).cg.rs 9).toNat % 64 ≠ 0 := by decide +kernel

/-! ## The lane stream -/

/-- Lane code of a split of all lanes. -/
def laneS : State := lab true
/-- The operand code of 1.0. -/
def one32 : BitVec 11 := 1681
/-- One pass of a lane instruction for all lanes, of two sources that hold 1.0. -/
def uni : LaneEnc := { plainLane 10 one32 one32 .l64 with u := true }
/-- The same in base L96R. -/
def uni3 : LaneEnc := { uni with form := thirdC one32 }

theorem witness_lane_integer : laneS.LaneReady (plainLane 10 11 12 .l64) (fldsTwo (plainLane 10 11 12 .l64)) ∧
    laneS.LaneReady (plainLane 95 11 12 (thirdC 13)) (fldsThree (plainLane 95 11 12 (thirdC 13))) ∧
    laneS.LaneReady (plainLane 0 0 95 .l64) (fldsOne (plainLane 0 0 95 .l64)) ∧
    laneS.LaneReady (plainLane 94 10 12 .l64)
      [Fld.dst 94 2 2, Fld.vsrc 10 2 2 false, Fld.b (plainLane 94 10 12 .l64), Fld.noHi false] ∧
    laneS.LaneReady (plainLane 10 0 0 .l64) [{ Fld.dst 10 with reads := [10] }] ∧
    laneS.LaneReady (l32Enc false 10 1642 false) (fldsOne (l32Enc false 10 1642 false)) := by decide +kernel

/-- The fields of the predicate and cross-lane instructions, with the highest predicate. -/
def predE : LaneEnc := plainLane 31 31 31 (thirdC 31)
def tileLab (t : Nat) : State := labL fun g => { g with tile := t }

theorem witness_lane_predicate :
    laneS.LaneReady predE [Fld.pred 31, Fld.a predE, Fld.b predE, Fld.noHi predE.hc] ∧
    laneS.LaneReady predE [Fld.pred 31, Fld.pred 31, Fld.pred 31, Fld.noHi (predE.ha || predE.hb || predE.hc)] ∧
    laneS.LaneReady predE [Fld.pred 31, Fld.pred 31, Fld.noHi (predE.ha || predE.hb || predE.hc)] true ∧
    laneS.LaneReady predE [Fld.pred 31, Fld.noHi predE.ha, Fld.b predE, Fld.noHi predE.hc] ∧
    laneS.LaneReady predE [Fld.dst 31, Fld.pred 31, Fld.noHi (predE.ha || predE.hb || predE.hc)] true ∧
    laneS.LaneReady predE [Fld.dst 31, Fld.a predE, Fld.b predE, Fld.pred 31, Fld.noHi predE.hc] ∧
    laneConditionHolds .ge true 0xFFFFFFFF#32 1#32 ∧ ¬ laneConditionHolds .ge false 0xFFFFFFFF#32 1#32 ∧
    (tileLab 5).cg.tile ≤ 5 ∧ (tileLab 1).LaneReady (plainLane 10 11 12 .l64) (fldsTwo (plainLane 10 11 12 .l64)) true ∧
    (tileLab 1).LaneReady (plainLane 10 11 0 (thirdC 0))
      [Fld.dst 10, Fld.a (plainLane 10 11 0 (thirdC 0)), Fld.noHi false] true := by decide +kernel

/-- Splits of one lane each, the first of them chosen, and p1 set in lane 0. -/
def splitLab (n : Nat) (pre : W32) : State :=
  labL fun g => { g with
    splits := (List.range n).map fun k => { id := k + 1, mask := if n = 1 then 0xFFFFFFFF#32 else 1#32 <<< k, pc := loadVa, family := k + 1 }
    nextSplit := n + 1, p := [(1, pre)] }
/-- A branch under p1. -/
def guarded : LaneEnc := { plainLane 0 0 0 .l64 with g := 1#5 }

theorem witness_flow : (splitLab 1 0).FlowReady (plainLane 0 0 1637 .l64) [Fld.noHi false, Fld.b (plainLane 0 0 1637 .l64), Fld.noHi false] ∧ (splitLab 1 0).cg.splits.length = 1 ∧
    (splitLab 1 0).csplit.mask ≠ 0#32 ∧
    (∀ l, l < 32 → (splitLab 1 0).csplit.mask.getLsbD l = true →
      (splitLab 1 0).opB (plainLane 0 0 1637 .l64) .f32 l = 5#32) ∧
    1 < (splitLab 2 0).cg.splits.length ∧ (splitLab 2 0).FlowReady guarded [Fld.noHi (guarded.ha || guarded.hb || guarded.hc)] ∧
    (splitLab 2 0).cg.laneSup = false ∧ ((splitLab 2 0).cg.splits.filter fun y => y.id != (splitLab 2 0).csplit.id) ≠ [] ∧
    ((splitLab 1 0).cg.splits.filter fun y => y.id != (splitLab 1 0).csplit.id) = [] ∧
    (splitLab 1 0xFFFFFFFF#32).csplit.mask &&& ~~~ (splitLab 1 0xFFFFFFFF#32).execMask guarded = 0#32 ∧
    (splitLab 1 0).execMask guarded = 0#32 ∧ (splitLab 1 1#32).execMask guarded = 1#32 ∧ (splitLab 1 1#32).FlowReady guarded [] ∧
    (let s := (splitLab 4 1#32).updCg fun g => { g with splits := g.splits.map fun y => if y.id = 1 then { y with mask := 0x11#32 } else y }
     s.FlowReady guarded [] ∧ 4 ≤ s.cg.splits.length ∧ 4 ≤ s.cg.branches ∧ s.execMask guarded = 1#32 ∧ s.csplit.mask &&& ~~~ s.execMask guarded ≠ 0#32) := by
  decide +kernel
/-- Four splits of three families. -/
def kinLab : State := (splitLab 4 1#32).updCg fun g => { g with splits := g.splits.map fun y =>
  { y with mask := if y.id = 1 then 0x11#32 else y.mask, family := min y.id 3 } }
theorem witness_flow_kin : kinLab.FlowReady guarded [] ∧ 4 ≤ kinLab.cg.splits.length ∧ kinLab.cg.branches < 4 ∧
    kinLab.execMask guarded = 1#32 ∧ kinLab.csplit.mask &&& ~~~ kinLab.execMask guarded ≠ 0#32 := by decide +kernel

/-- The conversions of the tests: from one format to another, with and without a max-magnitude register. -/
def cvtMod (sf df : Fmt) : ConvMod := { sfmt := sf, mg := true, mag := 3#2, sat := false, nf := false, dfmt := df }
/-- A conversion's fields are sound, and its sources hold no marker. -/
def cvtE (a c : BitVec 11) : LaneEnc := { plainLane 40 a 0 (thirdC c) with u := true }

/-- With no trap enabled. -/
def quietS : State := ctxLab laneS fun c => { c with trapen := 0#64 }

/-- Then no lane takes a floating-point trap, whatever its operands. -/
theorem witness_fp_quiet (e : LaneEnc) (srcs : Nat → List W32) (f : Nat → LaneRes) : quietS.FpQuiet e srcs f := by
  have h : quietS.cctx.trapen = 0#64 := by decide +kernel
  intro l _
  rw [h]
  have m : trapMask 0#64 = 0#5 := by decide
  exact ⟨fun c => by simp at c, by simp [fpTraps, m]⟩

theorem witness_float : quietS.LaneReady uni (fldsTwo uni) ∧ quietS.LaneReady uni3 (fldsThree uni3) ∧ quietS.LaneReady uni (fldsOne uni) ∧
    quietS.LaneReady uni [Fld.pred 31, Fld.a uni, Fld.b uni, Fld.noHi uni.hc] ∧
    quietS.LaneReady (plainLane 10 one32 0 (thirdC 0)) [Fld.dst 10, Fld.a (plainLane 10 one32 0 (thirdC 0)), Fld.noHi false] true ∧
    quietS.cg.tile ≤ 5 := by decide +kernel

/-- Encodings of FP16 for each case of an operation: NaNs, infinities of both signs, zeros and values that cancel. -/
theorem witness_arithmetic : isNanCode fp16 0x7E01 = true ∧ signals fp16 0x7D00 = true ∧ signals fp16 0x7E01 = false ∧
    (isInfCode fp16 0x7C00 = true ∧ isInfCode fp16 0xFC00 = true ∧ minus fp16 0xFC00 = true ∧ minus fp16 0x7C00 = false) ∧
    (isZeroCode fp16 0x8000 = true ∧ magCode fp16 0x8000 < topCode fp16 ∧ valueOf fp16 0x3C00 + valueOf fp16 0xBC00 = 0) ∧
    (valueOf fp16 0x3C00 + valueOf fp16 0x0001 ≠ 0 ∧ valueOf fp16 0x3C00 * valueOf fp16 0x8000 = 0 ∧ valueOf fp16 0x3C00 * valueOf fp16 0xBC00 ≠ 0) ∧
    (valueOf fp16 0x3C00 * valueOf fp16 0x3C00 + valueOf fp16 0xBC00 * 2 ^ (-fp16.qmin).toNat = 0 ∧ 0xFC00 < 2 ^ (1 + fp16.eb + fp16.mb)) ∧
    lessCode fp16 0x8000 0 = true ∧ lessCode fp16 0x7BFF 0x7C00 = true ∧ lessCode fp16 0 0x8000 = false := by decide +kernel
/-- Operands of FSET that are ordered, equal as zeros, and not ordered. -/
theorem witness_compare : valueOf fp32 0x80000000 = valueOf fp32 0 ∧ valueOf fp32 0xBF800000 < valueOf fp32 0x00000001 ∧
    isNanCode fp32 0x7FC00000 = true ∧ signals fp32 0x7FB00005 = true ∧ isNanCode fp32 0x7F800000 = false := by decide +kernel

theorem witness_rounding : isMagnitude fp32 1 0 (magnitude fp32 0x3F800000) ∧
    ¬ belowMagnitude fp32 (2 ^ 25 + 1) (-25) (magnitude fp32 0x3F800000) ∧ ¬ isMagnitude fp32 (2 ^ 25 + 1) (-25) (magnitude fp32 0x3F800000) ∧
    belowMagnitude fp32 (2 ^ 25 + 1) (-25) (magnitude fp32 0x3F800001) ∧
    isMagnitude fp32 (2 * (2 ^ 24 + 1)) (-24) (magnitude fp32 0x3F800000 + magnitude fp32 0x3F800001) ∧
    belowMagnitude fp32 (2 * (2 ^ 25 + 1)) (-25) (magnitude fp32 0x3F800000 + magnitude fp32 0x3F800001) ∧
    ¬ belowMagnitude fp32 (2 * (2 ^ 25 + 3)) (-25) (magnitude fp32 0x3F800000 + magnitude fp32 0x3F800001) ∧
    ¬ isMagnitude fp32 (2 * (2 ^ 25 + 3)) (-25) (magnitude fp32 0x3F800000 + magnitude fp32 0x3F800001) ∧
    belowMagnitude fp32 (2 ^ 25 + 3) (-25) (magnitude fp32 0x3F800001) ∧
    ¬ belowMagnitude fp16 1 16 (magnitude fp16 0x7C00) ∧
    ¬ belowMagnitude bf16 1 (-134) (magnitude bf16 0) ∧ belowMagnitude bf16 1 (-134) (magnitude bf16 1) ∧ ¬ isMagnitude bf16 1 (-134) 0 := by
  unfold isMagnitude belowMagnitude; decide +kernel

theorem witness_conversions : quietS.cg.tile ≤ 5 ∧
    (∀ c ∈ [cvtShape 32 32, cvtShape 32 16, cvtShape 32 8, cvtShape 32 4], quietS.LaneReady (cvtE one32 8) ((cvtShape c.ws 32).flds (cvtE one32 8))) ∧
    (∀ c ∈ [cvtShape 16 32, cvtShape 16 16, cvtShape 16 8, cvtShape 8 32, cvtShape 4 32], quietS.LaneReady (cvtE 16 8) (c.flds (cvtE 16 8))) ∧
    (∀ c ∈ [cvtShape 32 4, cvtShape 16 4, cvtShape 32 8], quietS.LaneReady (cvtE 16 8) (c.fldsScaled (cvtE 16 8)) true) ∧
    (cvtMod .f16 .bf16).sfmt ≠ .f32 ∧ (cvtMod .i32 .i8).sfmt.isInt = true ∧ (cvtMod .f32 .e4m3).sfmt.isInt = false := by decide +kernel

/-- An instruction that names mag3 is still outstanding. -/
def magLab : State := labL fun g => { g with
  ops := [{ id := 0, mag := some 3 }] }

theorem witness_magnitude : laneS.LaneReady (plainLane 10 0 0 .l64) [Fld.dst 10, Fld.noHi false] true ∧ laneS.LaneReady (plainLane 0 0 0 .l64) [Fld.noHi false] true ∧
    laneS.cg.ops = [] ∧ magLab.LaneReady (plainLane 10 0 0 .l64) [Fld.dst 10, Fld.noHi false] true ∧
    ¬ (∀ o ∈ magLab.cg.ops, o.done = false → o.mag ≠ some 3) := by decide +kernel

/-- A block with a table of the reals, and one with a table of dimension 4. -/
def algLab (l : AlgTable) : State :=
  let s := laneS.updBlk 1 fun b => { b with nalg := 1, tables := [(0, [3])] }
  s.updCore 0 fun c => { c with tables := c.tables.set 3 l }
/-- A table of dimension 4 whose products are 0. -/
def zeroFour : AlgTable := (List.replicate 128 0#8).set 64 2#8

theorem witness_algebra : tabDim ((algLab realTable).tableOf (algLab realTable).cg 0) = 1 ∧
    (algLab realTable).LaneReady (plainLane 10 one32 one32 (thirdC one32))
      [Fld.test false, Fld.dst 10 1 1, algFld one32 false 1, algFld one32 false 1, algFld one32 false 1, Fld.noHi false] ∧
    ((algLab realTable).cblk.nalg ≤ 0) = False ∧
    tabDim ((algLab zeroFour).tableOf (algLab zeroFour).cg 0) = 4 ∧
    (algLab zeroFour).LaneReady (plainLane 16 20 24 (thirdC 28))
      [Fld.test false, Fld.dst 16 4 4, algFld 20 false 4, algFld 24 false 4, algFld 28 false 4, Fld.noHi false] ∧
    (algLab zeroFour).LaneReady (plainLane 95 20 0 (thirdC 0)) [Fld.test false, Fld.dst 95, algFld 20 false 4, Fld.noHi false] := by
  refine ⟨by decide +kernel, by decide +kernel, ?_, by decide +kernel, by decide +kernel, by decide +kernel⟩
  exact eq_false (by decide +kernel)

/-! ## Memory -/

/-- Plain accesses of a size. -/
def plainMem (z : MSize) : MemMod := { xb := 0, size := z, sx := false, ord := .plain, scope := .grp, hint := .none }
/-- Two lanes at scratchpad or page offsets 0 and 128 in v11, with xb0 bound to 0x10100. -/
def memOn (f : State → State) : State :=
  let s := f ((labL (sregs [(9, 0x10100)])).updBlk 1 fun b => { b with share := 8192 })
  let s := s.updCg fun g =>
    let g : Group := { g with splits := g.splits.map fun y => { y with mask := 3#32 } }
    (g.setv 11 0 0#32).setv 11 1 128#32
  after (exec (.xlat 0 9) s) s
def memS : State := memOn id
/-- The data stand in L1 for lane 0 only. -/
def hitS : State := (memS.coreLoad 0 (loadFrame + 0x100) 4 0 .none false).1

theorem witness_scratchpad : memS.LaneReady (plainLane 20 11 0 (thirdC 0)) [Fld.dst 20 2 2, Fld.a (plainLane 20 11 0 (thirdC 0)), Fld.zero 0 false, Fld.noHi false] ∧
    (∀ l ∈ memS.accessLanes (plainLane 20 11 0 (thirdC 0)),
      memS.scratchPaAt (memS.scratchAddr (plainLane 20 11 0 (thirdC 0)) l) 8 = some (scratchPa 0 (128 * l)) ∧
      memS.scratchAddr (plainLane 20 11 0 (thirdC 0)) l % 8 = 0 ∧ memS.badIn (scratchPa 0 (128 * l)) 8 = false) ∧
    memS.LaneReady (plainLane 0 11 20 (thirdC 0)) [Fld.zero 0, Fld.a (plainLane 0 11 20 (thirdC 0)), Fld.b (plainLane 0 11 20 (thirdC 0)), Fld.noHi false] ∧
    memS.LaneReady (plainLane 0 11 20 (thirdC 0)) [Fld.zero 0, Fld.a (plainLane 0 11 20 (thirdC 0)), Fld.vsrc 20 4 4 false, Fld.noHi false] ∧
    memS.cg.memDone = true ∧ (memS.updCg fun g => { g with ops := [{ id := 0, mem := true }] }).cg.memDone = false ∧
    memS.LaneReady (plainLane 32 1632 0 (thirdC 0)) [Fld.dst 32 32 32, Fld.a (plainLane 32 1632 0 (thirdC 0)), Fld.zero 0 false, Fld.noHi false] true ∧
    memS.LaneReady (plainLane 0 1632 32 (thirdC 0)) [Fld.zero 0, Fld.a (plainLane 0 1632 32 (thirdC 0)), Fld.vsrc 32 32 32 false, Fld.noHi false] true ∧
    memS.cg.heldBack ((memS.accessLanes (plainLane 20 11 0 (thirdC 0))).map fun l => oneAcc (128 * l) (scratchPa 0 (128 * l)) 8 l) = false ∧
    memS.cg.heldBack ((memS.execLanes (plainLane 0 1632 32 (thirdC 0))).map (oneAcc 0 (scratchPa 0 0) 4096)) = false ∧ memS.cg.late = false ∧
    (∀ l ∈ memS.execLanes (plainLane 0 1632 32 (thirdC 0)), memS.scratchAddr (plainLane 0 1632 32 (thirdC 0)) l = 0) ∧
    memS.scratchPaAt 0 4096 = some (scratchPa 0 0) ∧ memS.bad = [] ∧
    memS.sttReads { size := .b8, order := .row, dim := 0 } (scratchPa 0 0) (memS.execLanes (plainLane 0 1632 32 (thirdC 0))) = [] := by decide +kernel

/-- The checks of a load that answer accesses for lanes 0 and 1, and which of them hit. -/
def loadChecks (s : State) (e : LaneEnc) (acc : Access) : Option (List Bool) :=
  match s.accLanes (fun s l => s.globalAcc e 0 4 acc false l) (s.accessLanes e) with
  | (t, as, []) => if (t.laneUnheld.badLanes false as).isEmpty then some (as.map fun a => a.fast && a.ps.all fun p => t.l1Hits 0 p.pa p.n) else none
  | _ => none

/-- Every lane of the load stands on the fast path; no piece of it is cached. -/
def loadAre (f : State → LaneAcc → Bool) (s : State) (e : LaneEnc) : Bool := match s.accLanes (fun s l => s.globalAcc e 0 4 .load false l) (s.accessLanes e) with
  | (t, as, []) => as.all (f t)
  | _ => false
/-- The page lies in host memory. -/
def awayS : State := memOn fun s => s.poke (0x106000 + 8 * tableIndex loadVa 3) 8 (loadLeaf - loadFrame + 2 ^ 48)
theorem witness_global_load : memS.LaneReady (plainLane 20 11 0 (thirdC 0)) [Fld.dst 20 1 1, Fld.a (plainLane 20 11 0 (thirdC 0)), Fld.zero 0 false, Fld.noHi false] ∧
    loadChecks memS (plainLane 20 11 0 (thirdC 0)) .load = some [false, false] ∧
    hitS.LaneReady (plainLane 20 11 0 (thirdC 0)) [Fld.dst 20 1 1, Fld.a (plainLane 20 11 0 (thirdC 0)), Fld.zero 0 false, Fld.noHi false] ∧
    loadChecks hitS (plainLane 20 11 0 (thirdC 0)) .load = some [true, false] ∧ hitS.cg.splits.length ≤ 3 ∧
    loadAre (fun _ a => a.fast) hitS (plainLane 20 11 0 (thirdC 0)) = true ∧ loadChecks awayS (plainLane 20 11 0 (thirdC 0)) .load = some [false, false] ∧
    loadAre (fun t a => a.ps.all fun p => !t.cached p.pa) awayS (plainLane 20 11 0 (thirdC 0)) = true ∧
    memS.cctx.wpctl = 0#64 := by decide +kernel

/-- The next plain access is left for later. -/
def lateS : State := memS.updCg fun g => { g with late := true }
theorem witness_late : lateS.LaneReady (plainLane 20 11 0 (thirdC 0)) [Fld.dst 20 1 1, Fld.a (plainLane 20 11 0 (thirdC 0)), Fld.zero 0 false, Fld.noHi false] ∧
    lateS.LaneReady (plainLane 0 11 20 (thirdC 0)) [Fld.zero 0, Fld.a (plainLane 0 11 20 (thirdC 0)), Fld.b (plainLane 0 11 20 (thirdC 0)), Fld.noHi false] ∧
    loadChecks lateS (plainLane 20 11 0 (thirdC 0)) .load = some [false, false] ∧ loadAre (fun t _ => t.cg.late && !t.cg.heldBack []) lateS (plainLane 20 11 0 (thirdC 0)) = true ∧
    loadAre (fun t a => !t.cg.heldBack [a]) memS (plainLane 20 11 0 (thirdC 0)) = true ∧ loadChecks lateS (plainLane 0 11 20 (thirdC 0)) .store = some [false, false] ∧
    lateS.cctx.wpctl = 0#64 := by decide +kernel

theorem witness_global_store : memS.LaneReady (plainLane 0 11 20 (thirdC 0)) [Fld.zero 0, Fld.a (plainLane 0 11 20 (thirdC 0)), Fld.b (plainLane 0 11 20 (thirdC 0)), Fld.noHi false] ∧
    loadChecks memS (plainLane 0 11 20 (thirdC 0)) .store = some [false, false] ∧ memS.cg.memDone = true ∧
    (memS.updCg fun g => { g with ops := [{ id := 0, mem := true }] }).cg.memDone = false ∧
    memS.Clean 0 ∧ memS.sysUp (loadFrame + 0x100) = true ∧ ownCopy 0 ((loadFrame + 0x100) / 128) 0 = false ∧
    pieces (loadFrame + 0x100) 16 4 = [(loadFrame + 0x100, 4)] := by decide +kernel

/-- A state whose group still has an access in flight, with the fence's fields. -/
def busyS : State := memS.updCg fun g => { g with ops := [{ id := 0, mem := true, windows := [], openEnded := true }] }

/-- WBR and INVR of 31 bytes from each lane's offset. -/
def rangeE : LaneEnc := plainLane 0 11 1663 (thirdC 0)
theorem witness_prefetch : memS.LaneReady (plainLane 0 11 0 (thirdC 0)) [Fld.zero 0, Fld.a (plainLane 0 11 0 (thirdC 0)), Fld.zero 0 false, Fld.noHi false] := by
  decide +kernel
theorem witness_ranges : memS.LaneReady rangeE [Fld.zero 0, Fld.a rangeE, Fld.b rangeE, Fld.noHi false] ∧
    memS.cg.memDone = true ∧ busyS.cg.memDone = false ∧ (memS.cg.rxb 0).v = true ∧ (memS.opB rangeE .f32 0).toNat = 31 ∧
    (∀ l ∈ memS.execLanes rangeE, insideXb (memS.cg.rxb 0) (memS.offsetOf rangeE l) ∧ insideXb (memS.cg.rxb 0) (memS.offsetOf rangeE l + 31 - 1) ∧
      memS.userPlace ((memS.cg.rxb 0).pbase.toNat + (memS.offsetOf rangeE l).toNat) = true ∧
      memS.userPlace ((memS.cg.rxb 0).pbase.toNat + (memS.offsetOf rangeE l + 31 - 1).toNat) = true) ∧
    (memS.cg.rxb 0).q = true ∧ (memS.cg.rxb 0).pbase.toNat % 128 = (memS.cg.rxb 0).vbase.toNat % 128 ∧
    memS.cached (memS.cg.rxb 0).pbase.toNat = true ∧ (memS.cg.rxb 0).coh ≠ 2#2 ∧
    busyS.LaneReady rangeE [Fld.zero 0, Fld.a rangeE, Fld.b rangeE, Fld.noHi false] := by decide +kernel
/-- An offset past LIMIT at which no page is mapped. -/
theorem witness_range_end : ¬ insideXb (memS.cg.rxb 0) 0x4000 ∧ canonical (xbVa (memS.cg.rxb 0) 0x4000) = true ∧
    memS.lookLeaf 0 1 (xbVa (memS.cg.rxb 0) 0x4000) = none := by decide +kernel
theorem witness_fence : memS.LaneReady (plainLane 0 0 0 (thirdC 0)) [Fld.zero 0, Fld.zero 0 false, Fld.zero 0 false, Fld.zero 0 false] ∧ memS.cg.loads = [] ∧
    memS.cg.memDone = true ∧ busyS.cg.memDone = false ∧
    busyS.LaneReady (plainLane 0 0 0 (thirdC 0)) [Fld.zero 0, Fld.zero 0 false, Fld.zero 0 false, Fld.zero 0 false] := by decide +kernel

/-- The checks of an atomic of 4 bytes answer accesses of whole pieces. -/
def atomChecks (s : State) (e : LaneEnc) (ret : Bool) (z : Nat) : Bool :=
  match s.accLanes (fun s l => s.atomAcc e 0 z ret true l) (s.accessLanes e) with
  | (t, as, []) => (t.laneUnheld.badLanes true as).isEmpty && as.all fun a => a.piece.n == z && t.sysUp a.piece.pa
  | _ => false
def scratchChecks (s : State) (e : LaneEnc) (z : Nat) : Bool :=
  match s.accLanes (fun s l => (s, s.scratchAcc e z l)) (s.accessLanes e) with
  | (t, as, []) => (t.laneUnheld.badLanes true as).isEmpty && as.all fun a => a.piece.n == z
  | _ => false

theorem witness_atomics :
    memS.LaneReady (plainLane 20 11 24 (thirdC 0)) [Fld.dst 20 1 1, Fld.a (plainLane 20 11 24 (thirdC 0)), Fld.b (plainLane 20 11 24 (thirdC 0)), Fld.noHi false] ∧
    memS.LaneReady (plainLane 20 11 24 (thirdC 0)) [Fld.dst 20 2 2, Fld.a (plainLane 20 11 24 (thirdC 0)), Fld.vsrc 24 4 4 false, Fld.noHi false] ∧
    memS.LaneReady (plainLane 0 11 24 (thirdC 0)) [Fld.zero 0, Fld.a (plainLane 0 11 24 (thirdC 0)), Fld.vsrc 24 2 2 false, Fld.noHi false] ∧
    memS.LaneReady (plainLane 0 11 24 (thirdC 0)) [Fld.zero 0, Fld.a (plainLane 0 11 24 (thirdC 0)), Fld.b (plainLane 0 11 24 (thirdC 0)), Fld.noHi false] ∧
    atomChecks memS (plainLane 20 11 24 (thirdC 0)) true 4 = true ∧ atomChecks memS (plainLane 0 11 24 (thirdC 0)) false 8 = true ∧
    scratchChecks memS (plainLane 20 11 24 (thirdC 0)) 8 = true ∧ memS.cctx.wpctl = 0#64 ∧ memS.cg.memDone = true ∧
    memS.Clean (coreDom 0) := by decide +kernel

/-! ## The array and the FIFOs -/

/-- Lane code with a tile and two slots, in s8 and s9. -/
def mmaS (q : List ArrEntry) : State :=
  let s := (labL (sregs [(8, 0), (9, 1)])).updCg fun g => { g with quota := 2, slots := [0, 1], accs := [5] }
  let s := s.updBlk 1 fun b => { b with nalg := 1, tables := [(0, [3])] }
  s.updCore 0 fun c => { c with opslots := (c.opslots.set 0 { holder := 1 }).set 1 { holder := 1 }, arrayQ := q }
/-- An MMA in BF16 on them. -/
def mmaM : MmaMod := { sel := 0, zc := true, nb := false, na := false, fmt := .bf16, handle := 0, sa := 8, sb := 9, tab := 0 }
def mmaE : LaneEnc := { plainLane 0 0 0 (thirdC 0) with la := 15, sbs := 1 }
/-- An entry of the array. -/
def arrE (id : Nat) : ArrEntry :=
  { id := id, g := 1, op := none, chain := none, fmt := .bf16, na := false, nb := false, zc := true, tile := 5, sa := 0, sb := 1
    table := realTable, rows := 1#32, ascale := [], bscale := [] }

theorem witness_array_lane : (mmaS []).LaneReady mmaE ((mmaS []).mmaFlds mmaE mmaM) true ∧ tabDim ((mmaS []).tableOf (mmaS []).cg 0) = 1 ∧
    (mmaS []).execMask mmaE ≠ 0#32 ∧ (splitLab 1 0).execMask { mmaE with g := 1 } = 0#32 ∧ (mmaS []).cg.rcnt 2 < 255 ∧ ((mmaS []).core 0).arrayQ.length < 8 ∧ ((mmaS []).core 0).arrWait = [] ∧
    ((mmaS ((List.range 8).map arrE)).core 0).arrWait = [] ∧ 8 ≤ ((mmaS ((List.range 8).map arrE)).core 0).arrayQ.length ∧ (mmaS ((List.range 8).map arrE)).LaneReady mmaE ((mmaS []).mmaFlds mmaE mmaM) true ∧
    (mmaS []).LaneReady (plainLane 0 0 0 .l64) [Fld.test false, Fld.noHi false] ∧
    (∀ x ∈ ((mmaS []).core 0).arrayQ, x.tile ≠ 5) ∧ ¬ (∀ x ∈ ((mmaS [arrE 0]).core 0).arrayQ, x.tile ≠ 5) ∧
    (mmaS []).LaneReady (plainLane 0 1663 20 .l64) [Fld.test false, Fld.a (plainLane 0 1663 20 .l64), Fld.b (plainLane 0 1663 20 .l64), Fld.noHi false] ∧
    (∀ l ∈ (mmaS []).execLanes (plainLane 0 1663 20 .l64), ((mmaS []).opA (plainLane 0 1663 20 .l64) .f32 l).toNat = 31) ∧
    (mmaS []).LaneReady (plainLane 20 1632 0 (thirdC 0)) [Fld.dst 20 64, Fld.a (plainLane 20 1632 0 (thirdC 0)), Fld.noHi false, Fld.test false] true ∧
    (∀ l ∈ (mmaS []).execLanes (plainLane 20 1632 0 (thirdC 0)), ((mmaS []).opA (plainLane 20 1632 0 (thirdC 0)) .f32 l).toNat = 0) := by decide +kernel

/-- A fill and a group that waits for a slot, which is free. -/
def fillS : State :=
  let s := (mmaS []).updCore 0 fun c => { c with fills := [{ g := 1, slot := 0, bytes := [], after := [], cnt := 7 }], sclmQ := [1] }
  s.updCg fun g => { g with wait := some { kind := .sclm, n := 8 } }

theorem witness_array_queue : (∀ y ∈ ((mmaS [arrE 0]).core 0).arrayQ, y.started = false) ∧
    ((mmaS [arrE 0]).core 0).arrayQ.find? ((mmaS [arrE 0]).core 0).entryReady = some (arrE 0) ∧
    ((mmaS [{ arrE 0 with started := true }]).core 0).arrayQ.find? (·.started) = some { arrE 0 with started := true } ∧
    0 + 1 < (mmaChunks .bf16 1).2 ∧ (mmaChunks .bf16 1).2 - 1 + 1 = (mmaChunks .bf16 1).2 ∧
    (fillS.core 0).fills.find? (fun f => !(fillS.core 0).arrayQ.any fun y => f.after.contains y.id) =
      some { g := 1, slot := 0, bytes := [], after := [], cnt := 7 } ∧
    (fillS.core 0).opslots.get? 0 = some { holder := 1 } ∧ (fillS.core 0).sclmQ = 1 :: [] ∧
    (fillS.core 0).freeSlots = 2 :: (fillS.core 0).freeSlots.tail ∧ (fillS.grp 1).wait = some { kind := .sclm, n := 8 } ∧
    (fillS.grp 1).parked = none ∧ (fillS.grp 1).core = 0 := by decide +kernel

/-- The hart of the core is gated; entries wait in the FIFOs. -/
def fifoS (gated : Bool) (down up : Nat) : State :=
  let s := laneS.updHart 0 fun x => { x with gated := gated }
  s.updCore 0 fun c => { c with down := List.replicate down (List.replicate 64 0#8), up := List.replicate up (List.replicate 64 7#8) }

theorem witness_fifo : (fifoS false 15 1).execMask (plainLane 0 0 20 .l64) ≠ 0#32 ∧ (fifoS false 15 1).farSide 0 = true ∧
    (fifoS false 15 1).LaneReady (plainLane 0 0 20 .l64) [Fld.noHi false, Fld.b (plainLane 0 0 20 .l64), Fld.noHi false] ∧
    (fifoS false 15 1).LaneReady (plainLane 20 0 0 .l64) [Fld.dst 20, Fld.noHi false] ∧
    (fifoS false 15 1).gatedAbove 0 = false ∧ ((fifoS false 15 1).core 0).down.length < 16 ∧
    ((fifoS false 15 1).core 0).up = List.replicate 64 7#8 :: [] ∧ 16 ≤ ((fifoS false 16 0).core 0).down.length ∧
    ((fifoS false 16 0).core 0).up = [] ∧ (fifoS true 0 0).gatedAbove 0 = true ∧ (fifoS true 0 0).farSide 0 = true := by decide +kernel

/-- In a lane handler; the page after the code page is a first-touch page, and the pool holds a frame. -/
def handS (pool : Nat) : State :=
  let s := ((lab true).poke (0x106000 + 8 * tableIndex loadVa 3 + 8) 8 2).poke (loadFrame + 0x800) 8 0x400000
  let s := ctxLab s fun c => { c with poolbase := 0x10800#64, poolcnt := BitVec.ofNat 64 pool }
  let y : LaneShadow := { v := [], p := [], splits := [{ id := 1, mask := 3#32, pc := loadVa, family := 1 }], tile := 5, flags := 0
                          resPc := loadVa, resSplit := 1, viaBreakReg := false }
  s.updCg fun g =>
    let g : Group := { g with laneSup := true, lshadow := some y, splits := g.splits.map fun y => { y with mask := 3#32 } }
    (g.setv64 20 0 0x14000#64).setv64 20 1 0x10000#64

theorem witness_lane_system : (handS 1).cg.laneSup = true ∧
    (handS 1).LaneReady (plainLane 94 0 0 .l64) [Fld.dst 94 2 2, Fld.noHi false] ∧
    (handS 1).LaneReady (plainLane 0 20 0 .l64) [Fld.vsrc 20 2 2 false, Fld.noHi false] ∧
    lowLane ((handS 1).execMask (plainLane 0 20 0 .l64)) = some 0 ∧ (splitLab 1 0).execMask guarded = 0#32 ∧
    (handS 1).LaneReady (plainLane 10 20 0 .l64) [Fld.dst 10, Fld.vsrc 20 2 2 false, Fld.noHi false] ∧
    (∀ l ∈ (handS 1).accessLanes (plainLane 10 20 0 .l64), canonical ((handS 1).cg.rv64 20 l) = true) ∧
    ((handS 1).mapLanes ((handS 1).cg.rv64 20) [0, 1]).2 = ([(0, 3), (1, 1)], none) ∧
    ((handS 1).walk 1 0x10000#64 matches .leaf _ _ _) = true ∧ ((handS 1).walk 1 0x12000#64 matches .absent 1 _ _) = true ∧
    ((handS 1).walk 1 0x14000#64 matches .absent 0 _ _) = true ∧ (handS 0).cctx.poolcnt = 0#64 ∧ (handS 1).cctx.poolcnt ≠ 0#64 ∧
    ((handS 1).poolTop (handS 1).casid).2.isSome = true := by decide +kernel

/-- With no frame in the pool, a mapped page, one of first touch and an absent one each give their status. -/
theorem witness_mapf_statuses : plainPages (handS 0) ((handS 0).cg.rv64 20) [0, 1] [(0, 3), (1, 1)] := by
  have h1 : (handS 0).walkAt (coreDom (handS 0).cg.core) (handS 0).casid ((handS 0).cg.rv64 20 0) =
    .absent 0 0 (0x106000 + 8 * 10) := by decide +kernel
  have h2 : ((handS 0).mapPage ((handS 0).cg.rv64 20 0)).1.walkAt (coreDom ((handS 0).mapPage ((handS 0).cg.rv64 20 0)).1.cg.core)
      ((handS 0).mapPage ((handS 0).cg.rv64 20 0)).1.casid ((handS 0).cg.rv64 20 1) =
    .leaf 3 loadLeaf (0x106000 + 8 * tableIndex loadVa 3) := by decide +kernel
  simp only [plainPages, h1, h2]
  exact ⟨nofun, nofun, [(1, 1)], rfl, nofun, nofun, [], rfl, rfl⟩
/-- One lane, whose page is of first touch. -/
def mapS : State := (handS 1).updCg fun g => { g.setv64 20 0 0x12000#64 with splits := g.splits.map fun y => { y with mask := 1#32 } }
theorem witness_mapf : mapS.cg.laneSup = true ∧ mapS.LaneReady (plainLane 10 20 0 .l64) [Fld.dst 10, Fld.vsrc 20 2 2 false, Fld.noHi false] ∧
    mapS.accessLanes (plainLane 10 20 0 .l64) = [0] ∧ canonical (mapS.cg.rv64 20 0) = true ∧
    mapS.walkAt (coreDom mapS.cg.core) mapS.casid (mapS.cg.rv64 20 0) = .absent 1 2 (0x106000 + 8 * tableIndex loadVa 3 + 8) ∧
    mapS.cached (0x106000 + 8 * tableIndex loadVa 3 + 8) = true ∧ mapS.cctx.poolcnt ≠ 0#64 ∧ regenFailed mapS.cg.laneRegen (mapS.poolVa mapS.casid) = false ∧
    (match (mapS.walkSeen (coreDom mapS.cg.core) mapS.casid (mapS.cg.rv64 20 0)).translate mapS.cg.core mapS.casid mapS.cg.grid (mapS.poolVa mapS.casid) .load with
     | (t, .ok pa coh _ _ _ _) => t.sysUp pa && !t.badLoad mapS.cg.core pa 8 coh true && (t.homeRead pa 8).2 == 0x400000 &&
       (t.homeRead pa 8).1.poolFrame 0x400000 == some 0x400000
     | _ => false) = true := by decide +kernel

theorem witness_lane_traps : (handled laneS).cg.lanesDone = true ∧ busyS.cg.lanesDone = false ∧ (handled laneS).cg.laneSup = false ∧
    (handled laneS).cg.ctlSup = false ∧ (handled laneS).debugTakes 1 { code := 1 } = false ∧ (handled laneS).stopsHere 1 = false ∧ (handled laneS).cg.parked = none ∧
    ((handled laneS).updCg fun g => { g with parked := some { reason := 1, ctl := true, trap := { code := 1 } } }).cg.parked ≠ none ∧
    ((handled laneS).updCtx 1 fun c => { c with ckptBusy := true }).stopsHere 1 = true ∧
    (handled laneS).vecOk 0 1 (handled laneS).cctx.ltrapvec .laneFetch = true ∧
    (laneS.updCg fun g => { g with ctlSup := true }).cg.ctlSup = true ∧
    laneS.LaneReady (plainLane 0 0 0 .l64) [Fld.noHi false] ∧ laneS.execMask (plainLane 0 0 0 .l64) ≠ 0#32 ∧
    (handS 1).LaneReady (plainLane 0 0 0 .l64) [Fld.noHi false] ∧ (handS 1).cg.lanesDone = true ∧ (handS 1).cg.lshadow.isSome = true ∧
    (handS 1).cg.cpend = none ∧
    laneS.cg.operandFault 1 (plainLane 10 11 1696 .l64) (fldsTwo (plainLane 10 11 1696 .l64)) = some 1696 ∧
    laneS.cg.operandFault 1 (plainLane 1536 0 12 .l64) (fldsOne (plainLane 1536 0 12 .l64)) = some 1536 := by decide +kernel

/-! ## Events -/

/-- One entry waits for the lane stream; a stream whose splits stand at a JOIN and at LSTOP, or all at LSTOP. -/
def queued : State := labG fun g => { g with laneq := [{ pc := loadVa, runPc := loadVa }] }
def joined (w : SplitWait) : State := labL fun g => { g with
  splits := [{ id := 1, mask := 1#32, pc := loadVa + 8#64, joinPc := loadVa, wait := w }, { id := 2, mask := 2#32, pc := loadVa, wait := .stop }] }
/-- An instruction is outstanding in slot 3. -/
def pendingOp : State := labL fun g => { g with ops := [{ id := 4, sbs := 3, flags := 1 }], sb := [(3, 1)] }

theorem witness_lane_events : queued.cg.laneq = { pc := loadVa, runPc := loadVa } :: [] ∧ queued.cg.laneBusy = false ∧ queued.cg.laneSup = false ∧
    queued.cg.lpend = none ∧ queued.cg.parked = none ∧ queued.cg.resident = true ∧ queued.cg.slds = [] ∧ queued.cg.present &&& ~~~queued.cg.gone ≠ 0#32 ∧
    (joined .join).cg.laneBusy = true ∧ (joined .join).cg.splits ≠ [] ∧ (∀ y ∈ (joined .join).cg.splits, y.wait = .join ∨ y.wait = .stop) ∧
    (∃ j ∈ (joined .join).cg.splits, j.wait = .join ∧ ∀ y ∈ (joined .join).cg.splits, y.wait = .join → j.joinPc.toNat ≤ y.joinPc.toNat) ∧
    (∀ y ∈ (joined .stop).cg.splits, y.wait = .stop) ∧
    pendingOp.cg.ops.find? (fun p => p.id == 4) = some { id := 4, sbs := 3, flags := 1 } ∧ (∀ l ∈ pendingOp.cg.loads, l.op ≠ 4) ∧ (∀ y ∈ pendingOp.cg.lates, y.op ≠ 4) ∧ laneS.gathered 1 = laneS ∧
    laneS.canStart 1 = true ∧ (laneS.core 0).slots = [(0, 1)] ∧ laneS.cg.slot = 0 ∧ laneS.onStrand 0 0 = none ∧
    (laneS.pickSplit laneS.cg).isSome = true := by decide +kernel

/-- Missing data of a load for lane 0, held by split 2. -/
def loading : State := labL fun g => { g with
  splits := [{ id := 1, mask := 2#32, pc := loadVa }, { id := 2, mask := 1#32, pc := loadVa, wait := .data }]
  ops := [{ id := 4, sbs := 3 }]
  loads := [{ id := 2, op := 4, split := 2, mask := 1#32, dst := 20, size := .b32, sx := false
              addrs := [(0, { pa := scratchPa 0 64, off := 0, n := 4, coh := 0 })] }] }
/-- A parked YIELD, a region past its limit, and a chain that has stopped with a fault. -/
def yielded : State := labG fun g => { g with wait := some { kind := .yield, obj := 1, n := 2, cont := loadVa } }
def overrun : State := labG fun g => { g with region := true, regionCnt := 2 ^ 21 }
def faulty : State :=
  let c : Chain := { g := 1, cls := 0, core := 0, block := 1, grid := 1, epc := loadVa, entry := 0, phase := 2, fault := some (17, 5, 1, 0#64) }
  { labS [] with chains := [(9, c)] }
/-- A trap is pending on each stream. -/
def pendCtl : State := (handled (labS [])).updCg fun g => { g with cpend := some { code := 17, pc := loadVa, resume := loadVa } }

theorem witness_boundary : loading.cg.loads.find? (fun l => l.id == 2) = loading.cg.loads.head? ∧ loading.cached (scratchPa 0 64) = false ∧
    pieces (scratchPa 0 64) 16 4 = [(scratchPa 0 64, 4)] ∧ loading.badIn (scratchPa 0 64) 4 = false ∧
    yielded.cg.wait = some { kind := .yield, obj := 1, n := 2, cont := loadVa } ∧ yielded.cg.rcnt 1 ≤ 2 ∧ yielded.cg.parked = none ∧
    overrun.cg.region = true ∧ (overrun.ctx (overrun.asidOf 1)).nplimit.toNat < overrun.cg.regionCnt ∧ overrun.cg.cpend = none ∧
    overrun.cg.parked = none ∧ overrun.cg.wait = none ∧
    faulty.cg.live = true ∧ faulty.cg.exited = false ∧ faulty.cg.resident = true ∧ faulty.cg.ctlSup = false ∧ faulty.cg.laneSup = false ∧
    faulty.cg.cpend = none ∧ faulty.cg.wait = none ∧ (faulty.faultyChain 1).isSome = true ∧ faulty.stopsHere 1 = false ∧ faulty.cg.parked = none ∧ pendCtl.cg.parked = none ∧
    (faulty.updCg fun g => { g with laneSup := true }).cg.laneSup = true ∧ (17 : Nat) ≠ 19 ∧
    ((loading.mem.read (scratchPa 0 64) 4) * 2 ^ 0 < 2 ^ (8 * bytesOf .b32)) ∧
    (labS []).seated 1 = true ∧ (labS []).stopsHere 1 = false ∧ pendCtl.stopsHere 1 = false ∧ (labS []).cg.parked = none ∧ pendCtl.mayCtl 1 = true ∧ pendCtl.cg.cpend.isSome = true ∧ pendCtl.cg.slds = [] ∧
    pendCtl.debugTakes 1 { code := 17, pc := loadVa, resume := loadVa } = false ∧
    pendCtl.vecOk 0 (pendCtl.asidOf 1) (pendCtl.ctx (pendCtl.asidOf 1)).ctrapvec .ctlFetch = true := by decide +kernel

/-- The group waits at WAITCMP, BWAIT or DBAR. -/
def waiting (w : CtlWait) : State := labG fun g => { g with wait := some w }
def cmpWait (woken : Bool) (limit age reread : Nat) (c : Cond) : CtlWait :=
  { kind := .waitcmp, woken := woken, limit := limit, age := age, reread := reread, va := 0x10100, pa := loadFrame + 0x100, cond := c, obj := 9 }

theorem witness_waits : (waiting (cmpWait true 0 0 0 .ne)).cg.wait = some (cmpWait true 0 0 0 .ne) ∧ (waiting (cmpWait true 0 0 0 .ne)).cg.parked = none ∧
    watchOf ((waiting (cmpWait true 0 0 0 .ne)).ctx 1) 0x10100#64 8 true false = none ∧ (cmpWait false 5 5 0 .ne).limit ≤ (cmpWait false 5 5 0 .ne).age ∧
    (waiting { kind := .dbar, limit := 7, age := 7 }).standsStill ((waiting { kind := .dbar, limit := 7, age := 7 }).grp 1) { kind := .dbar, limit := 7, age := 7 } = false ∧
    (cmpWait false 0 0 256 .ne).armed = false ∧ 256 ≤ (cmpWait false 0 0 256 .ne).reread ∧
    (waiting (cmpWait false 0 0 256 .ne)).badIn (loadFrame + 0x100) 8 = false ∧
    ((waiting (cmpWait false 0 0 256 .ne)).homeRead (loadFrame + 0x100) 8).2 = 0 ∧ conditionHolds .eq (BitVec.ofNat 64 0) 0#64 ∧
    ¬ conditionHolds .ne (BitVec.ofNat 64 0) 0#64 ∧ (waiting (cmpWait false 0 0 256 .ne)).sysUp (loadFrame + 0x100) = true ∧
    (waiting { kind := .bwait, limit := 7, age := 7, pa := scratchPa 0 32 }).barPhase (scratchPa 0 32) = 0 ∧
    (waiting { kind := .dbar, limit := 7, age := 7 }).cg.wait = some { kind := .dbar, limit := 7, age := 7 } ∧
    (waiting { kind := .dbar, limit := 7, age := 7 }).dbarCheck 0 1 0 = waiting { kind := .dbar, limit := 7, age := 7 } := by decide +kernel

/-- Every group of the grid has arrived at a domain barrier, or none of them; and so at the wafer barrier. -/
def atDbar (l : List Nat) : State := (labS []).updDom 0 fun m => { m with dbars := m.dbars.set 21 { grid := 1, arrived := l } }
def atWbar : State := { labS [] with wbarGrid := some 1, wbarArrived := [1] }

theorem witness_dbar_all : ((atDbar [1]).dom 0).dbars.get? (16 * 1 + (5#4).toNat) = some { grid := 1, arrived := [1] } ∧
    (∀ c ∈ (atDbar [1]).groups, c.2.live = true → c.2.exited = false → c.2.grid = 1 → coreDom c.2.core = 0 → c.1 ∈ [1]) := by
  decide +kernel
theorem witness_dbar_none : ((atDbar [7]).dom 0).dbars.get? (16 * 1 + (5#4).toNat) = some { grid := 1, arrived := [7] } ∧
    (∀ c ∈ (atDbar [7]).groups, c.2.live = true → c.2.exited = false → c.2.grid = 1 → coreDom c.2.core = 0 → c.1 ∉ [7]) := by
  decide +kernel

/-- The state of a heartbeat: the cycles since the last round, and the start of a round now taken. -/
def beat (since : Nat) (now : Option Nat) : State := { labS [] with sinceRound := since, heartbeat := now }

theorem witness_wbar : atWbar.wbarGrid = some 1 ∧ atWbar.wbarArrived ≠ [] ∧
    (∀ c ∈ atWbar.groups, c.2.live = true → c.2.exited = false → c.2.grid = 1 → c.1 ∈ atWbar.wbarArrived) ∧
    (labS []).heartbeat = none ∧ 2 ^ 22 ≤ (beat (2 ^ 22) none).sinceRound ∧
    (beat 0 (some 1999)).heartbeat = some 1999 ∧ (beat 0 (some 2000)).heartbeat = some 2000 := by decide +kernel

theorem witness_directory : (labS []).cached (128 * 0x3000) = true ∧ 1 ≠ homeOf (128 * 0x3000) ∧ (labS []).l2Line 1 0x3000 = none ∧
    (labS []).ownsLine 1 0x3000 = false ∧ (labS []).heldWays 0x3000 < 8 ∧
    (let s := after (exec (.dirReadRequest 0x3000 1) (labS [])) (labS [])
     (s.l2Line 1 0x3000).isSome = true ∧ (s.l2Line 1 0x3000).all (fun x => x.coh == 0) = true ∧ (s.dirEntry 0x3000).isSome = true) ∧
    (let s := after (exec (.dirHold 0x3000) (labS [])) (labS [])
     (s.dirEntry 0x3000).any (fun e => e.st == .h && e.mons == 0 && e.doms.isEmpty) = true) ∧
    (let s := after (exec (.dirReadRequest 0x3000 1) (labS [])) (labS [])
     let t := after (exec (.dirHold 0x3000) s) s
     (t.dirEntry 0x3000).any (fun e => e.st == .h && e.doms == [1]) = true) := by decide +kernel

/-! ## Chains -/

/-- A chain of a class stands at the entry at 64. -/
def aChain (cls : Nat) : Chain := { g := 1, cls := cls, core := 0, block := 1, grid := 1, epc := loadVa, entry := 64, phase := 1 }
def onChain (s : State) (cls : Nat) : State := { s with chains := [(9, aChain cls)], cur := { s.cur with chain := 9 } }
def chS (cls : Nat) : State := onChain (labScr []) cls
/-- An entry by its fields, and a scratchpad and a buffer operand. -/
def ent (flg : BitVec 8) (arg : BitVec 16) (q1 q2 q3 : Nat) : EntryEnc :=
  { prog := 0#32, arg := arg, flg := flg, q1 := BitVec.ofNat 64 q1, q2 := BitVec.ofNat 64 q2, q3 := BitVec.ofNat 64 q3 }
def scr (a : Nat) : Nat := 2 ^ 62 + a
def buf (a : Nat) : Nat := 2 ^ 63 + a
/-- The operands of an entry are sound and are placed, and the sources hold no error. -/
def placed (s : State) (c : Chain) (l : List (List Nat × Bool × Opd)) : Bool :=
  l.all (fun x => x.2.2.field x.1 x.2.1 && x.2.2.aligned) &&
  (match s.placeOpds c (l.map fun x => x.2.2) with
   | (t, .inl eps) => eps.length == l.length && eps.all fun e => match e with
     | .mem m => (t.segBad c.core m).isNone
     | _ => true
   | _ => false)

theorem witness_chain_queue :
    (let s := after (exec (.engchain 9 .copy) (labScr [(9, 64)])) (labScr [])
     s.engQueue 0 0 = (labScr []).nextId :: [] ∧ (s.engCtxs 0 0).length < 4 ∧ (s.chains.get? (labScr []).nextId).isSome = true ∧
     (let t := after (exec (.chainStart 0 .copy) s) s
      let u : State := { t with chains := t.chains.upd (labScr []).nextId (aChain 0) fun c => { c with idle := 4096 } }
      let v := after (exec (.engchain 9 .copy) u) u
      (v.chains.get? (labScr []).nextId).any (fun c => c.phase == 1 && c.busy.isNone && c.adv.isEmpty && 4096 ≤ c.idle) = true ∧
        (labScr []).nextId ∉ v.engQueue 0 0 ∧ v.engQueue 0 0 ≠ [])) := by
  decide +kernel

theorem witness_chain_places : progPlace (chS 0) (aChain 0) (scratchPa 0 68) ∧ jumpPlace (chS 0) (aChain 0) 0xFFFF#16 32 := by
  exact ⟨⟨by decide +kernel, by decide +kernel, 0, 68, by decide +kernel, rfl⟩, by decide +kernel, scratchPa 0 32, by decide +kernel⟩

theorem witness_loop_entry : chainStands (chS 2) (aChain 2) 8 ∧ (ent 0 0xFFFF 0 0 2).prog.toNat + 1 < (ent 0 0xFFFF 0 0 2).q3.toNat ∧
    (ent 0 0xFFFF 0 0 1).q3.toNat ≤ (ent 0 0xFFFF 0 0 1).prog.toNat + 1 := by decide +kernel
theorem witness_waitword_entry : chainStands (chS 3) (aChain 3) 9 ∧ Cond.ofCode ((2#8).extractLsb' 2 3) = some .eq ∧ (scr 128) / 2 ^ 25 = 2 ^ 37 ∧
    chainBytes (chS 3) (aChain 3) (128 : Nat) 8 (scratchPa 0 128) ∧ (chS 3).peek (scratchPa 0 128) 8 = 0 := by decide +kernel
theorem witness_waitbuf_entry : (buf 64) / 2 ^ 25 = 2 ^ 38 ∧ chainBytes (onChain oneSlot 3) (aChain 3) (64 : Nat) 32 (scratchPa 0 64) ∧
    (onChain oneSlot 3).peek (scratchPa 0 64) 4 = 0x43425546 ∧ chainStands (onChain oneSlot 3) (aChain 3) 9 := by decide +kernel
theorem witness_signal_entry : chainStands (chS 1) (aChain 1) 10 ∧ chainBytes (chS 1) (aChain 1) (256 : Nat) 8 (scratchPa 0 256) ∧
    apart (scratchPa 0 256) 8 (scratchPa 0 68) 4 ∧ chainStands (chS 0) (aChain 0) 0 := by decide +kernel

/-- The two operands of a copy of 16 bytes. -/
def copyOpds (a b : Nat) (n m : Nat) : List (List Nat × Bool × Opd) :=
  [([0, 1, 2], false, { q := BitVec.ofNat 64 a, n := n, dst := false }), ([0, 1, 2, 3], false, { q := BitVec.ofNat 64 b, n := m, dst := true })]
/-- A copy into a full buffer's watched object arrives. -/
def arriving (s : State) (c : Chain) (l : List Opd) (n : Nat) : Bool := match s.placeOpds c l with
  | (t, .inl [_, _, o]) => (allArrive n [o] t).isSome
  | _ => false
def arriveOpds : List Opd := [{ q := BitVec.ofNat 64 (scr 128), n := 16, dst := false }, { q := BitVec.ofNat 64 (scr 256), n := 16, dst := true },
  { q := BitVec.ofNat 64 (scr 32), n := 16, dst := true }]

theorem witness_copy_entry : chainStands (chS 0) (aChain 0) 1 ∧ placed (chS 0) (aChain 0) (copyOpds (scr 128) (scr 256) 16 16) = true ∧
    chainBytes (chS 0) (aChain 0) (128 : Nat) 16 (scratchPa 0 128) ∧ chainBytes (chS 0) (aChain 0) (256 : Nat) 16 (scratchPa 0 256) ∧
    apart (scratchPa 0 128) 16 (scratchPa 0 256) 16 ∧ apart (scratchPa 0 68) 4 (scratchPa 0 256) 16 ∧
    placed (chS 0) (aChain 0) (copyOpds 0x10100 0x10200 16 16) = true := by decide +kernel
theorem witness_convert_entry : chainStands (chS 0) (aChain 0) 3 ∧ Fmt.ofCode ((16#8).extractLsb' 0 4) = some .f32 ∧
    Fmt.ofCode ((16#8).extractLsb' 4 4) = some .f16 ∧ convPair .f32 .f16 = true ∧
    placed (chS 0) (aChain 0) (copyOpds (scr 128) (scr 256) 64 32) = true := by decide +kernel
/-- A buffer of one element that a COPY has filled, and whose pointer is still to advance: as the entry found it, moved on by
another producer, or reset by CBINIT since. -/
def owing (checked pptr : Nat) : State :=
  let a : Advance := { va := 64#64, pa := scratchPa 0 64, prod := true, n := 1, checked := checked, kind := 1 }
  { (onChain oneSlot 0).poke (scratchPa 0 80) 4 pptr with chains := [(9, { aChain 0 with adv := [a] })] }
theorem witness_owed_advances : (owing 0 0).chains.get? 9 = (owing 0 0).chains.head?.map (·.2) ∧ ((owing 0 0).readDesc (scratchPa 0 64)).room = 1 ∧
    ((owing 0 1).readDesc (scratchPa 0 64)).room = 0 ∧ (1 + 2 ^ 32 - 0) % 2 ^ 32 < 2 ^ 31 ∧ 2 ^ 31 ≤ (0 + 2 ^ 32 - 1) % 2 ^ 32 := by decide +kernel
/-- R252, R254. The pointer after each; the moved pointer stops the chain with reason 4. -/
theorem test_owed_advances : ((owing 0 0).advanceAll ((owing 0 0).chains.flatMap fun c => c.2.adv)).peek (scratchPa 0 80) 4 = 1 ∧
    ((owing 1 0).advanceAll ((owing 1 0).chains.flatMap fun c => c.2.adv)).peek (scratchPa 0 80) 4 = 1 ∧
    (((owing 0 1).advanceAll ((owing 0 1).chains.flatMap fun c => c.2.adv)).chains.get? 9).map (fun c => c.fault.map fun f => f.2.1) =
      some (some 4) := by decide +kernel
theorem witness_arrive_entry : chainStands (chS 0) (aChain 0) 2 ∧ chainStands (onChain (objLab 20) 0) (aChain 0) 2 ∧
    arriving (onChain (objLab 20) 0) (aChain 0) arriveOpds 16 = true := by decide +kernel

theorem witness_index_entries : chainStands (chS 1) (aChain 1) 4 ∧ chainStands (chS 1) (aChain 1) 5 ∧
    (chS 1).scrSeg 1 ((512 + 4 * 1 : Nat) : Int) 4 = .inl { va := BitVec.ofInt 64 (516 : Nat), pa := scratchPa 0 516, n := 4, coh := 0 } ∧
    (chS 1).peek (scratchPa 0 516) 4 = 0 ∧
    placed (chS 1) (aChain 1) [([0, 1, 2, 3], false, { q := BitVec.ofNat 64 (scr 256), n := 8, dst := true })] = true ∧
    placed (chS 1) (aChain 1) [([0, 1, 2], false, { q := BitVec.ofNat 64 (scr 256), n := 8, dst := false })] = true ∧
    (match (chS 1).indexed (aChain 1) { q := BitVec.ofNat 64 (scr 128), n := 4, dst := false } 4 [0, 0] with
     | (t, .inl l) => (t.segBad 0 l).isNone
     | _ => false) = true ∧
    (match (chS 1).indexed (aChain 1) { q := 0x10100#64, n := 4, dst := true } 4 [0, 0] with
     | (_, .inl _) => true
     | _ => false) = true := by decide +kernel

/-- Every operand of an entry is a source without error. -/
def sound (s : State) (c : Chain) (l : List Opd) (n : Nat) : Bool := match s.placeOpds c l with
  | (t, .inl eps) => eps.length == n && eps.all fun e => match e with
    | .mem m => (t.segBad c.core m).isNone
    | _ => true
  | _ => false
def redOpds : List Opd := [{ q := BitVec.ofNat 64 (scr 128), n := 64, dst := false }, { q := BitVec.ofNat 64 (scr 256), n := 64, dst := true }]
/-- A REDUCE of 64 bytes of U32, by rank 0 of two. -/
def redE : EntryEnc := ent 176 7 (scr 128) (scr 256) (64 + 2 ^ 48)
def oneContribution : Collective :=
  { grid := 1, scope := 0, inst := 0, id := 7, npart := 2, len := 64, op := 0, ty := 11
    parts := [{ rank := 1, chain := 9, dst := BitVec.ofNat 64 (scr 256), bytes := List.replicate 64 1#8 }] }
def collS : State := { chS 3 with colls := [oneContribution] }

theorem witness_reduce_entry : redE.flg.toNat % 4 ≠ 3 ∧ redE.flg.toNat / 4 % 4 ≠ 3 ∧ redE.flg.toNat / 16 ∈ [0, 1, 2, 11] ∧
    redE.q3.toNat / 2 ^ 25 % 2 ^ 7 = 0 ∧ redE.q3.toNat % 2 ^ 25 = 64 ∧ redE.q3.toNat / 2 ^ 48 + 1 = 2 ∧
    redOpds.map (fun o => o.field [1, 2] false || o.field [1, 3] false) = [true, true] ∧
    chainStands (chS 3) (aChain 3) 6 ∧ sound (chS 3) (aChain 3) redOpds 2 = true ∧ (chS 3).colls = [] := by decide +kernel
theorem witness_reduce_last : chainStands collS (aChain 3) 6 ∧ sound collS (aChain 3) redOpds 2 = true ∧ coreQuad 0 = 0 ∧
    collS.colls = [{ oneContribution with parts := oneContribution.parts }] ∧ (∀ y ∈ oneContribution.parts, y.rank ≠ 0) ∧
    oneContribution.parts.length + 1 = oneContribution.npart := by decide +kernel
theorem witness_reduce_delivery : collS.chains.get? 9 = some (aChain 3) ∧ (collS.grp 1).resident = true ∧
    (match collS.localEp 1 { q := BitVec.ofNat 64 (scr 256), n := 64, dst := true } with
     | .inl _ => true
     | _ => false) = true ∧ ({ oneContribution with npart := 3 } : Collective).parts.length = 1 := by decide +kernel

/-- A chain of ALGOPs of the lane code with slots, and one that loads slot 8 and slot 9 from the scratchpad. -/
def algS : State := { ((mmaS []).updBlk 1 fun b => { b with share := 8192 }) with chains := [(9, aChain 2)], cur := { g := 1, chain := 9 } }
def algE : EntryEnc := ent 0x11 3 (scr 0) 0 (2 ^ 8)
def algOpd : Opd := { q := BitVec.ofNat 64 (scr 0), n := 4096, dst := false }

theorem witness_algop_entry : (MFmt.ofCode (algE.arg.extractLsb' 0 4)).scaled = false ∧ algOpd.field [1, 2] false = true ∧ algOpd.aligned = true ∧
    (algS.core 0).slotIdle 0 = true ∧ spaceOf algE.q1 = 1 ∧ algE.q2 = 0#64 ∧ algE.q3.toNat % 2 ^ 7 = 0 ∧ algE.q3.toNat / 2 ^ 8 = 1 ∧
    algE.q3.getLsbD 7 = false ∧ algE.arg.toNat < 2 ^ 10 ∧ algE.arg.getLsbD 7 = false ∧ chainStands algS (aChain 2) 7 ∧ 0 ∈ (algS.grp 1).slots ∧ 1 ∈ (algS.grp 1).slots := by
  decide +kernel
theorem witness_algop_place : algE.arg.toNat / 2 ^ 8 < (algS.grp 1).accs.length ∧ algE.arg.toNat / 2 ^ 4 % 8 < (algS.blk 1).nalg ∧
    tabDim (algS.tableOf (algS.grp 1) 0) ≤ 1 ∧ (algS.core 0).arrayQ.length < 8 ∧ (algS.core 0).arrWait = [] ∧ sound algS (aChain 2) [algOpd] 1 = true ∧
    chainBytes algS (aChain 2) (0 : Nat) 4096 (scratchPa 0 0) ∧ ((algS.core 0).opslots.get? 0).isSome = true ∧
    algE.flg.getLsbD 0 = true ∧ algE.flg.getLsbD 1 = false := by decide +kernel

theorem witness_chain_faults : (chS 1).chains.get? 9 = some (aChain 1) ∧ (chS 1).chainRuns (aChain 1) = true ∧ (aChain 1).cls ≠ 0 ∧
    (ent 1 0 0 0 0).flg ≠ 0#8 := by decide +kernel

/-! ## Paging -/

/-- A walk of the code page for a load, which the TLBs have forgotten. -/
theorem witness_walk : canonical loadVa = true ∧ ((labS []).core 0).tlbFind 1 ((labS []).ctx 1).gen loadVa = none ∧
    (∀ x ∈ (labS []).quadTlb.getD (coreQuad 0) [], x.hits 1 ((labS []).ctx 1).gen loadVa = false) ∧
    ((labS []).walkFrom loadVa 4 ((labS []).walkStart (coreDom 0) 1 loadVa).1 ((labS []).walkStart (coreDom 0) 1 loadVa).2 []).1 =
      .leaf 3 loadLeaf (0x106000 + 8 * tableIndex loadVa 3) ∧
    pteCoh loadLeaf ≠ 2 ∧ permits .load loadLeaf = true ∧ (labS []).leafPlace loadVa 3 loadLeaf = some loadFrame ∧
    (labS []).cached (0x106000 + 8 * tableIndex loadVa 3) = true ∧ (labS []).mem.read (0x106000 + 8 * tableIndex loadVa 3) 8 = loadLeaf ∧
    dirties .store loadLeaf = true := by decide +kernel

/-- The entry of the page at 0x12000, and a regeneration of it that has ended; the frame list is in the code page. -/
def pageLeaf : Nat := 0x106000 + 8 * 9
def regen (failed : Bool) : Regen :=
  { asid := 1, va := 0x12000#64, leaf := pageLeaf, old := 4#64, frame := 0x400000, record := 0x10400#64, ended := true, failed := failed }
def listS : State := ctxLab (labS []) fun c => { c with poolbase := 0x10800#64, poolcnt := 2#64 }
def regenS (failed : Bool) : State := listS.updDom 0 fun m => { m with regens := [(5, regen failed)] }
def regenFree (failed : Bool) : State := (regenS failed).updDom 0 fun m => { m with regens := m.regens.erase 5 }

/-- The page's entry rewritten at its end, and restored. -/
def regenDone (s : State) : State :=
  ((s.cleanLines (0x400000 / 128) 64).homeWrite pageLeaf 8 (3 + 4 / 2 ^ 4 % 2 ^ 6 * 16 + 0x400000)).shootdown 1 (some (0x12000, 2 ^ 13))
def regenUndone (s : State) : State :=
  (s.poolPush 1 0x400000).homeWrite pageLeaf 8 ((s.poolPush 1 0x400000).regenEntry (regen true))

theorem witness_regeneration : ((regenS false).dom 0).regens.get? 5 = some (regen false) ∧ (regenS false).cached pageLeaf = true ∧
    (regenDone (regenFree false)).ctxAddr 1 0x10410#64 true = some (loadFrame + 0x410) ∧
    (((regenDone (regenFree false)).ctxLeaf 1 0x10410#64 true none).map fun x => x.2.2.2) = some (pageLeaf - 8) ∧
    (regenUndone (regenFree true)).ctxAddr 1 0x10410#64 true = some (loadFrame + 0x410) ∧
    (((regenUndone (regenFree true)).ctxLeaf 1 0x10410#64 true none).map fun x => x.2.2.2) = some (pageLeaf - 8) ∧
    (((regenFree true).poolPush 1 0x400000).ctxAddr 1 0x10408#64 true).isSome = true ∧
    apart (loadFrame + 0x410) 8 pageLeaf 8 ∧ apart (pageLeaf - 8) 8 pageLeaf 8 ∧ (regenS false).cached (loadFrame + 0x410) = true := by decide +kernel
theorem witness_regeneration_holds : (regenS true).asidOf 1 = 1 ∧ (0x12340#64).toNat / 2 ^ 13 = (0x12000#64).toNat / 2 ^ 13 ∧
    (((regenS true).updCg fun g => { g with laneHeld := some 0x12340#64 }).grp 1).laneHeld = some 0x12340#64 := by decide +kernel

/-- The page at 0x12000 has been evicted, and a free frame is on the list. -/
def evictedS : State :=
  let s := (listS.poke pageLeaf 8 8).poke (loadFrame + 0x808) 8 0x400000
  ctxLab s fun c => { c with evicted := [(9, { pa := 0x600000, owner := 5 })] }

theorem witness_evicted_page : canonical 0x12000#64 = true ∧ evictedS.walkLevel 1 0x12000#64 = (3, .absent 4 8 pageLeaf) ∧ evictedS.cached pageLeaf = true ∧
    (evictedS.ctx 1).evicted.get? ((0x12000#64).toNat % 2 ^ 53 / 2 ^ 13) = some { pa := 0x600000, owner := 5 } ∧ evictedS.sysUp 0x600000 = true ∧ Memory.wf evictedS.mem = true ∧
    (evictedS.ctx 1).poolcnt ≠ 0#64 ∧ (evictedS.poolTop 1).2 = some 0x400000 ∧ apart pageLeaf 8 0x400000 (2 ^ 13) ∧
    apart 0x600000 (2 ^ 13) 0x400000 (2 ^ 13) ∧ apart 0x600000 (2 ^ 13) pageLeaf 8 := by decide +kernel
theorem witness_attribute : (labS []).walk 1 loadVa = .leaf 3 loadLeaf (0x106000 + 8 * tableIndex loadVa 3) ∧
    (labS []).inFlight 1 = false ∧
    (labS []).specTranslate 0 1 0x12000#64 .load = none ∧ (labS []).specTranslate 0 1 loadVa .load =
      some ((.walk, 3, loadLeaf, 0x106000 + 8 * tableIndex loadVa 3), loadFrame) := by decide +kernel
/-- The sweep looks at one page, whose A is 1 or 0. -/
def sweepS (a : Bool) : State := if a then labS [] else (labS []).poke (0x106000 + 8 * tableIndex loadVa 3) 8 (loadLeaf - 2 ^ 10)
theorem sweep_leaves (a : Bool) : (sweepS a).leaves 4 0 loadRoot 0 =
    [(8, if a then loadLeaf else loadLeaf - 2 ^ 10, 0x106000 + 8 * tableIndex loadVa 3)] := by
  rw [State.leaves_pointer _ 3 0 _ 0 0 0x102000 0 0x102000, State.leaves_pointer _ 2 1 _ _ 0 0x104000 0 0x104000,
    State.leaves_pointer _ 1 2 _ _ 0 0x106000 0 0x106000, State.leaves_leaf _ 0 _ _ 8 (if a then loadLeaf else loadLeaf - 2 ^ 10)]
  all_goals revert a; decide +kernel
theorem witness_sweep : ((sweepS true).ctx 1).live = true ∧ (sweepS true).inFlight 1 = false ∧ (sweepS false).inFlight 1 = false ∧ ((sweepS true).ctx 1).root = loadRoot ∧ ((sweepS false).ctx 1).root = loadRoot ∧
    (sweepS true).sweepSkips 1 8 loadLeaf = false ∧ pteA loadLeaf = true ∧
    (sweepS false).sweepSkips 1 8 (loadLeaf - 2 ^ 10) = false ∧ pteA (loadLeaf - 2 ^ 10) = false := by decide +kernel

/-- As `sweepS`, where the host is there and the frame list lies in a page that a cached pointer of the crest domain leads to. -/
def listLeaf : Nat := loadLeaf - loadFrame + 0x202000
def sweepList (f : Context → Context) : State :=
  let s := (ctxLab ((sweepS false).poke 0x200000 8 listLeaf) fun c => f { c with poolbase := 0x800000#64, poolcnt := 2#64 }).updDom 27 fun m =>
    { m with walk := [{ asid := 1, gen := 1, level := 2, tag := 1, next := 0x200000, use := 0 }] }
  s.updRidge fun r => { r with linksUp := 0xFF#8 }
def remade (c : Context) : Context := { c with regened := [(8, 0x44#64)] }
def sweepE : Nat := loadLeaf - 2 ^ 10
def sweepAt : Nat := 0x106000 + 8 * tableIndex loadVa 3
theorem sweepList_leaves (a : Bool) : (sweepList (if a then remade else id)).leaves 4 0 loadRoot 0 = [(8, sweepE, sweepAt)] := by
  rw [State.leaves_pointer _ 3 0 _ 0 0 0x102000 0 0x102000, State.leaves_pointer _ 2 1 _ _ 0 0x104000 0 0x104000,
    State.leaves_pointer _ 1 2 _ _ 0 0x106000 0 0x106000, State.leaves_leaf _ 0 _ _ 8 sweepE]
  all_goals revert a; decide +kernel
theorem witness_sweep_list : ((sweepList id).ctx 1).live = true ∧ (sweepList id).inFlight 1 = false ∧ ((sweepList id).ctx 1).root = loadRoot ∧
    (sweepList id).sweepSkips 1 8 sweepE = false ∧ (sweepList remade).sweepSkips 1 8 sweepE = false ∧ (sweepList id).cached sweepAt = true ∧
    pteA sweepE = false ∧ ((sweepList remade).ctx 1).regened.get? 8 = some 0x44#64 ∧ ((sweepList id).ctx 1).regened.get? 8 = none ∧
    (sweepList id).pageOut = some (2 ^ 48 + 2 ^ 47) ∧ Memory.wf (sweepList id).mem = true ∧ apart (2 ^ 48 + 2 ^ 47) (2 ^ 13) loadFrame (2 ^ 13) ∧
    apart (2 ^ 48 + 2 ^ 47) (2 ^ 13) sweepAt 8 := by decide +kernel
/-- The state once the caches have given the page up, and the entry of the list's page. -/
def sweepW (f : Context → Context) : State :=
  (((sweepList f).homeWrite sweepAt 8 (sweepE / 2 ^ 4 % 2 ^ 6 * 2 ^ 4 + 10)).shootdown 1 (some ((pageVa 8).toNat, 2 ^ 13))).flushLines (pteFrame sweepE / 128) 64
theorem witness_sweep_push : (sweepW id).badIn (pteFrame sweepE) (2 ^ 13) = false ∧
    ((sweepW remade).homeWrite sweepAt 8 0x44).ctxAddr 1 0x800010#64 true = some 0x202010 ∧ (sweepList id).cached 0x202010 = true ∧
    (((sweepW remade).homeWrite sweepAt 8 0x44).ctxLeaf 1 0x800010#64 true none).map (fun x => x.2.2.2) = some 0x200000 ∧
    apart 0x202010 8 sweepAt 8 ∧ apart 0x200000 8 sweepAt 8 ∧
    ((((sweepW id).fresh.2.copyPage (pteFrame sweepE) (2 ^ 48 + 2 ^ 47)).homeWrite sweepAt 8 8).ctxAddr 1 0x800010#64 true) = some 0x202010 := by decide +kernel

/-! ## Scheduling -/

/-- A queue block of function 0 whose ring at 0 holds packets, one waiting or two. -/
def hostQueue (waiting : Nat) : Queue := { owner := some 0, enabled := true, sqlog := 4, cqlog := 4, sqtail := waiting }
/-- The module is ready, a queue has work, and host memory holds doublewords. -/
def queueS (waiting : Nat) (l : List (Nat × Nat)) : State :=
  let s := l.foldl (fun s x => s.poke (2 ^ 48 + 8 * x.1) 8 x.2) State.reset
  { s with ridge := { s.ridge with state := .ready, linksUp := 0xFF#8, queues := [(3, hostQueue waiting)] } }
def kernelWords : List (Nat × Nat) := [(0, loadPacket.d0.toNat), (1, loadPacket.d1.toNat), (3, 0x10000), (4, 0x10000)]

/-- The packet at the head of the queue's ring. -/
def headPacket (s : State) (q : Queue) : Packet := packetOf (q.slots.getD 0 (s.slotWords (q.slotPa 0 q.sqhead)))
theorem witness_activation : (queueS 1 kernelWords).ridge.state = .ready ∧ (queueS 1 kernelWords).gridEntries < 1024 ∧
    (queueS 1 kernelWords).nextRegen = none ∧ (queueS 1 kernelWords).ridge.queues = [(3, hostQueue 1)] ∧
    (hostQueue 1).waiting = 1 ∧ (queueS 1 kernelWords).ridge.linksUp.getLsbD 0 = true ∧ (queueS 1 kernelWords).depMon = [] ∧
    (queueS 1 kernelWords).gangs = [] ∧
    (let p := headPacket (queueS 1 kernelWords) (hostQueue 1)
     p.ty = 1 ∧ p.ndep = 0 ∧ p.cor ≠ 2 ∧ (queueS 1 kernelWords).packetOk p none = true) := by decide +kernel
/-- The domain has reported 64 cc ago, or later. -/
theorem witness_report : (State.reset.dom 3).sinceReport < 64 ∧ 64 ≤ ((State.reset.updDom 3 fun m => { m with sinceReport := 64 }).dom 3).sinceReport := by
  decide +kernel
theorem witness_activation_pools : ∀ p, (queueS 1 kernelWords).poolHead p = none := fun _ => rfl
theorem witness_activation_gang : 2 ≤ (hostQueue 2).waiting ∧
    (headPacket (queueS 2 [(0, 2 + 2 ^ 16)]) (hostQueue 2)).ty = 2 := by decide +kernel

/-- A regeneration that has not started, with a sound packet or a bad one. -/
def startS (ok : Bool) : State :=
  let r : Regen := { regen false with ended := false, pkt := if ok then loadPacket else {} }
  let s := (labS []).updDom 0 fun m => { m with regens := [(5, r)] }
  { s with ridge := { s.ridge with state := .ready } }
theorem witness_activation_regeneration : (startS true).nextRegen.isSome = true ∧ (startS false).nextRegen.isSome = true ∧
    (startS true).gridEntries < 1024 ∧ (startS true).ridge.state = .ready ∧ (startS true).packetOk loadPacket none = true ∧
    (startS false).packetOk {} none = false := by decide +kernel

/-- The lab's grid with its block unstarted. -/
def unstartedS : State := (labS []).updGrid 1 fun n => { n with nextBlock := 0 }
/-- The lab's block is out. -/
def outS : State := (labS []).swapOut 1
theorem witness_placement : unstartedS.markWoken.gridOrder = [] ++ 1 :: [] ∧ unstartedS.markWoken.placedAt ≠ some unstartedS.markWoken.now ∧
    unstartedS.markWoken.ridge.rebuildUnits = [] ∧ (unstartedS.markWoken.ctx 1).switched = false ∧
    (unstartedS.markWoken.resumeFirst (unstartedS.markWoken.resumeOrder 1)).isNone = true ∧ (unstartedS.markWoken.placeNext 1).isSome = true ∧ unstartedS.markWoken.freshBlocks 1 = [] ∧
    (outS.markWoken.resumeFirst (outS.markWoken.resumeOrder 1)).isSome = true ∧ outS.markWoken.gridOrder = [1] ∧
    (labS []).markWoken.gridOrder = [1] ∧ ((labS []).markWoken.resumeFirst ((labS []).markWoken.resumeOrder 1)).isNone = true ∧
    ((labS []).markWoken.placeNext 1).isNone = true ∧
    (unstartedS.findPlace loadPacket.need 0 fun _ => true).isSome = true := by decide +kernel

/-- A gang of one part of one domain, whose packet lies in the code page; its domain may be hot. -/
def gang (phase left : Nat) : Gang :=
  { seq := 7, asid := 1, fn := 0, q := 3, slot := 0, sig := 0#64, prio := 0, parts := [(0, 0, 1, 1, 0x10100#64)], phase := phase, left := left, round := 5 }
def gangS (x : Gang) (words : List (Nat × Nat)) (hot : Bool) : State :=
  let s := words.foldl (fun s x => s.poke (loadFrame + 0x100 + 8 * x.1) 8 x.2) (labS [])
  { (s.updDom 0 fun m => { m with hot := hot }) with gangs := [(7, x)] }
/-- The parts of the gang are sound, and the test holds of their reservation. -/
def reserves (s : State) (x : Gang) (ok : Bool) : Bool := match s.gangParts x x.parts with
  | (t, .inl ps) => (t.reserveParts x 0 (x.parts.zip ps)).isSome == ok
  | _ => false
def partsAre (s : State) (x : Gang) (e : Elig) : Bool := match s.gangParts x x.parts with
  | (_, .inr y) => y == e
  | _ => false

theorem witness_gang_found : (gangS (gang 0 1) kernelWords false).gangs.get? 7 = some (gang 0 1) ∧
    (gangS (gang 0 1) kernelWords false).gangs.find? (fun x => x.2.phase == 0) = some (7, gang 0 1) ∧
    (gangS (gang 0 1) kernelWords false).ridge.rebuildUnits = [] ∧
    ((gangS (gang 0 1) kernelWords false).updRidge fun r => { r with rebuildUnits := [.core 5 .scratchpad] }).ridge.rebuildUnits ≠ [] := by decide +kernel
theorem witness_gang_reserved : reserves (gangS (gang 0 1) kernelWords false) (gang 0 1) true = true := by decide +kernel
theorem witness_gang_retry : reserves (gangS (gang 0 1) kernelWords true) (gang 0 1) false = true := by decide +kernel
theorem witness_gang_bad : partsAre (gangS (gang 0 1) [] false) (gang 0 1) .bad = true := by decide +kernel
/-- The page of the part's packet is being changed. -/
def heldGang : State := (gangS (gang 0 1) [] false).poke (0x106000 + 8 * tableIndex loadVa 3) 8 10
theorem witness_gang_waits : partsAre heldGang (gang 0 1) .wait = true := by decide +kernel
theorem witness_gang_start : ∀ d, (gangS (gang 2 1) [] false).round.toNat ≠ (gang 2 1).round ∨
    8192 ≤ ((gangS (gang 2 1) [] false).dom d).stamp16 / 16 := fun _ => .inl (by decide +kernel)

/-- The lab's grid with all its blocks ended, of the host or of a group. -/
def endedS (o : Origin) : State := (labS []).updGrid 1 fun n => { n with live := 0, origin := o }
theorem witness_completion : ((endedS (.host 0 3 0)).gridOf 1).pkt.blocks ≤ ((endedS (.host 0 3 0)).gridOf 1).nextBlock ∧
    ((endedS (.host 0 3 0)).gridOf 1).live = 0 ∧ ((endedS (.host 0 3 0)).writeSignal 1 1 0 0#64).2 = true ∧
    ((endedS (.device 1 0)).groups.get? 1).isSome = true ∧ ((labS []).gridOf 1).live ≠ 0 ∧
    (gangS (gang 3 0) [] false).grids.get? 7 = none ∧ (gang 3 0).left = 0 ∧ (gang 3 0).phase = 3 ∧
    ((gangS (gang 3 0) [] false).writeSignal 1 7 0 0#64).2 = true := by decide +kernel
theorem witness_signal : (labS []).walkAt (labS []).ridge.crest 1 0x10100#64 = .leaf 3 loadLeaf (0x106000 + 8 * tableIndex loadVa 3) ∧ pteW loadLeaf = true ∧
    pteCoh loadLeaf ≠ 2 ∧ pteA loadLeaf = true ∧ pteD loadLeaf = true ∧ canonical 0x10100#64 = true ∧
    ((labS []).leafPlace 0x10100#64 3 loadLeaf).isSome = true ∧
    (labS []).cached (pteFrame loadLeaf + (0x10100#64).toNat % 2 ^ pageBits 3) = true := by decide +kernel

/-- The grid's block 1 has waited long; another block of the grid is out, pinned to cores of two domains. -/
def starvedS : State :=
  let s := (labS []).updBlk 1 fun b => { b with waitTime := 2 ^ 16 }
  let s := { s with blocks := s.blocks.set 2 { grid := 1, num := 1, resident := false, fifoCores := [0, 112] } }
  (s.updCore 0 fun c => { c with down := [[0#8]] }).updCore 112 fun c => { c with down := [[0#8]] }
theorem witness_swap_out : starvedS.gridOrder = [1] ∧ (starvedS.ctx 1).switched = false ∧ (starvedS.gridOf 1).whole = false ∧ starvedS.starved 1 = true ∧ (starvedS.blk 1).grid = 1 ∧
    (starvedS.blk 1).resident = true ∧ 2 ^ 16 ≤ (starvedS.blk 1).waitTime ∧ starvedS.atBoundary 1 = true ∧ starvedS.pinned 1 = false ∧
    (∀ y ∈ starvedS.blocks, y.1 ≠ 1 → y.2.grid = 1 → y.2.waitTime < (starvedS.blk 1).waitTime) ∧
    (∀ y ∈ starvedS.blocks, y.2.num < 2 ^ 63) ∧ starvedS.blocks.wf = true := by decide +kernel
theorem witness_swap_rest : ((labS []).blk 1).groups = [1] ∧ ((labS []).grp 1).loads = [] ∧ ((labS []).grp 1).lates = [] ∧ ((labS []).grp 1).slds = [] ∧
    ((labS []).grp 1).ops = [] ∧ ((labS []).blk 1).groups.Nodup ∧ ((labS []).grp 1).exited = false ∧ ((labS []).groups.get? 1).isSome = true := by
  decide +kernel
theorem witness_resume : outS.markWoken.gridOrder = [1] ∧ outS.markWoken.resumeOrder 1 = [] ++ 1 :: [] ∧
    (outS.markWoken.resumePlace 1).2.isSome = true := by decide +kernel
/-- Domain 0 is hot. -/
def hotS : State := (labS []).updDom 0 fun m => { m with hot := true }
/-- Its block's lane stream is in a run. -/
def runS : State := hotS.updCg fun g => { g with run := some (1, 1) }
/-- A rebuild waits in the hot module. -/
def faultS' : State := hotS.updRidge fun r => { r with rebuildUnits := [.core 5 .scratchpad] }
theorem witness_migration : ((labS []).dom 0).hot = false ∧ (hotS.dom 0).hot = true ∧ hotS.leaving 0 = [] ++ 1 :: [] ∧ (hotS.migrated 1).isSome = true ∧
    quadDom (hotS.blk 1).quad = 0 ∧ hotS.atBoundary 1 = true ∧ hotS.placedAt ≠ some hotS.now ∧ runS.atBoundary 1 = false ∧ runS.leaving 0 = [1] ∧ (runS.migrated 1).isSome = true ∧
    ((hotS.noteLeaving 0 [] (some 1)).migrated 1).isSome = true ∧ hotS.ridge.rebuildUnits = [] ∧ faultS'.ridge.rebuildUnits ≠ [] := by decide +kernel

/-! ## Health -/

/-- A hot domain whose block stands in a region. -/
def stuckS : State := hotS.updCg fun g => { g with region := true }
theorem witness_cooling : (stuckS.dom 0).hot = true ∧ 1 ∈ stuckS.residents 0 ∧ stuckS.inRegion 1 = true ∧ (stuckS.dom 0).clock ≤ 8 ∧
    ((labS []).updRidge fun r => { r with coolAge := 13000000 }).ridge.coolAge = 13000000 ∧ (labS []).ridge.coolAge < 13000000 ∧
    (labS []).ridge.hotLimit + (labS []).ridge.hotHyst + 1 ≠ 0 ∧ (labS []).ridge.shutdown < (labS []).ridge.shutdown + 1 ∧ (labS []).ridge.state ≠ .ready ∧ (startS true).ridge.state = .ready ∧
    ((labS []).grids.get? 1).isSome = true := by decide +kernel

/-- A fault of a core's memory has been found; a job is handed over, without and with an image. -/
def faultS : State := State.reset.updRidge fun r => { r with rebuildUnits := [.core 5 .scratchpad] }
def handedS : State := (ctxLab (labS []) fun c => { c with frames := [(0x100000, 0x10000)] }).updRidge fun r => { r with rebuildJobs := [(1, 19)] }
def imagedS : State :=
  let s := ctxLab handedS fun c => { c with ckptAddr := 0x200000 }
  let i : Image := { s.imageOf 1 with groups := [(1, s.cg)] }
  s.updRidge fun r => { r with images := [(3, i)] }
theorem witness_errors : (handedS.ctxs.get? 1).isSome = true ∧ (handedS.ctx 1).live = true ∧ (0x100000, 0x10000) ∈ (handedS.ctx 1).frames ∧
    State.reset.ridge.rebuildUnits = [] ∧ State.reset.ridge.rebuildJobs = [] ∧ faultS.ridge.rebuildUnits = [.core 5 .scratchpad] ∧
    faultS.ridge.rebuildJobs = [] ∧ faultS.blocks = [] := by decide +kernel
/-- The job's block stands in a region. -/
def busyJob : State := handedS.updCg fun g => { g with region := true }
theorem witness_rollback : (∀ b ∈ handedS.jobBlocks 1, handedS.hasStopped b = true) ∧ (∃ b ∈ (busyJob).jobBlocks 1, busyJob.hasStopped b = false) ∧
    busyJob.ridge.rebuildJobs = [(1, 19)] ∧ handedS.ridge.rebuildUnits = [] ∧ handedS.ridge.rebuildJobs = [(1, 19)] ∧ handedS.imageFor 1 = none ∧
    (handedS.gridOf 1).asid = 1 ∧ imagedS.ridge.rebuildJobs = [(1, 19)] ∧ (imagedS.imageFor 1).isSome = true ∧
    (imagedS.imageFor 1).any (fun i => i.groups.wf && ((i.groups.get? 1).any fun g => g.wait.isNone)) = true := by decide +kernel

/-- A checkpoint is due, and one is being taken. -/
def dueS (busy : Bool) : State := ctxLab (labS []) fun c =>
  { c with ckptAddr := 0x200000, ckptSize := 2 * Config.imageBytes 0, sinceCommit := 2 ^ 38, sinceTry := 2 ^ 38, ckptBusy := busy }
theorem witness_checkpoint : ((dueS false).ctx 1).live = true ∧ ((dueS false).ctx 1).ckptAddr ≠ 0 ∧ ((dueS false).ctx 1).ckptBusy = false ∧
    2 ^ 38 ≤ ((dueS false).ctx 1).sinceCommit ∧ 2 ^ 38 ≤ ((dueS false).ctx 1).sinceTry ∧
    (∀ j ∈ (dueS true).ridge.rebuildJobs, j.1 ≠ 1) ∧ (∃ j ∈ handedS.ridge.rebuildJobs, j.1 = 1) ∧ ((dueS true).ctx 1).live = true ∧ ((dueS true).ctx 1).ckptBusy = true := by decide +kernel
theorem witness_checkpoint_boundary : (∀ b ∈ (dueS true).jobBlocks 1, ((dueS true).blk b).resident = true → (dueS true).atBoundary b = true) ∧
    Config.imageBytes (((dueS true).ctx 1).frames.map fun f => f.2).sum ≤ ((dueS true).ctx 1).ckptSize / 2 := by
  refine ⟨by decide +kernel, ?_⟩
  have h1 : ((dueS true).ctx 1).frames = [] := by decide +kernel
  have h2 : ((dueS true).ctx 1).ckptSize = 2 * Config.imageBytes 0 := rfl
  rw [h1, h2]
  show Config.imageBytes 0 ≤ 2 * Config.imageBytes 0 / 2
  omega
/-- A stage of no bytes, whose signature is good or forged; and an image whose key, signatures and form are as given. -/
def stage (good : Bool) : BootStage :=
  { code := [], version := 0#32, sig := if good then Config.standards.sign (Config.sm3 []) else Config.standards.forged }
def image (k g f : Bool) : BootImage :=
  { key := if k then Config.standards.romKey else Config.standards.strangeKey, loader := stage g, ridge := stage true, defects := stage true
    monitor := stage true, debugOn := 0#64, formOk := f, certKey := 0#512, shutdown := 1600, hotLimit := 1400, hotHyst := 80, sites := []
    strands := [], corrieOff := [], linksDown := [], sliceMap := [], chanMap := [], found := [] }
theorem witness_start : (0x4#4) ≠ 0#4 ∧ Config.sm3 (image true true true).key = Config.sm3 Config.standards.romKey ∧
    Config.sm3 (image false true true).key ≠ Config.sm3 Config.standards.romKey ∧ (image true true true).formOk = true ∧
    (image true true false).formOk = false := ⟨by decide, rfl, Config.standards.strange, rfl, rfl⟩
theorem witness_signed (f : Bool) : ∀ x ∈ [(image true true f).loader, (image true true f).ridge, (image true true f).defects, (image true true f).monitor],
    Config.standards.verify (image true true f).key (Config.sm3 x.code) x.sig = true := by
  have h : Config.standards.verify Config.standards.romKey (Config.sm3 (stage true).code) (stage true).sig = true := Config.standards.signed _
  intro x hx
  have hx : x ∈ [stage true, stage true, stage true, stage true] := hx
  simp only [List.mem_cons, List.not_mem_nil, or_false, or_self] at hx
  subst hx
  exact h
theorem witness_unsigned : ¬ ∀ x ∈ [(image true false true).loader], Config.standards.verify (image true false true).key (Config.sm3 x.code) x.sig = true := by
  intro h
  have h1 : Config.standards.verify Config.standards.romKey (Config.sm3 []) Config.standards.forged = true := h _ (List.mem_singleton.2 rfl)
  rw [Config.standards.unsigned] at h1
  cases h1

/-! ## The host interface -/

/-- The module is ready; function 0 owns queue 3. -/
def hostS (x : Queue) : State := { State.reset with ridge := { State.reset.ridge with state := .ready, linksUp := 0xFF#8, queues := [(3, x)] } }
theorem witness_queue_owner : (hostS (hostQueue 0)).hostOn = true ∧ (hostS (hostQueue 0)).hq 0 3 = hostQueue 0 ∧ (hostQueue 0).owner = some 0 ∧
    ¬ (3 = 256 ∨ ((hostS (hostQueue 0)).hq 1 3).owner = none ∨ ((hostS (hostQueue 0)).hq 1 3).owner = some 1) ∧ State.reset.hostOn = false := by
  decide +kernel
/-- A queue that holds two completions, one that is full, and a disabled one whose grid runs. -/
def someUsed : Queue := { hostQueue 0 with used := 2, cqhead := 14 }
def allUsed : Queue := { hostQueue 0 with used := 16, cqhead := 5 }
def draining : Queue := { hostQueue 0 with enabled := false, active := 1 }
theorem witness_queue_registers : 0 % 2 ^ 12 < 2 ^ someUsed.cqlog ∧ someUsed.cqhead < 2 ^ someUsed.cqlog ∧ 2 ≤ someUsed.used ∧
    (someUsed.cqhead + 2) % 2 ^ someUsed.cqlog = 0 % 2 ^ 12 ∧ 2 < 2 ^ someUsed.cqlog ∧ 2 ^ someUsed.cqlog ≤ 16 % 2 ^ 12 ∧
    allUsed.used = 2 ^ allUsed.cqlog ∧ 5 % 2 ^ 12 = allUsed.cqhead ∧ draining.enabled = false ∧ draining.active ≠ 0 ∧
    ({} : Queue).enabled = false ∧ ({} : Queue).active = 0 ∧ (0x74 % 16 = 4 ∧ 0x74 / 16 % 16 = 7) ∧ 0x7D % 16 = 13 ∧
    (hostQueue 0).enabled = true := by decide +kernel
theorem witness_queue_reset : (hostS (hostQueue 0)).ridge.queues.get? 3 = some (hostQueue 0) ∧ 0x20000 + 8 * 255 < 0x20800 := by decide +kernel
/-- A vector with a count of two, after two completions, and after one whose timer has run out. -/
def vectorS (seen age : Nat) (masked pending : Bool) : State :=
  { State.reset with ridge := { State.reset.ridge with
      linksUp := 0xFF#8
      vectors := [(259, { count := 2, timer := 1, seen := seen, age := age, masked := masked, pending := pending })] } }
theorem witness_vector : ((vectorS 2 0 false false).ridge.vectors.getD 259 {}).count ≤ ((vectorS 2 0 false false).ridge.vectors.getD 259 {}).seen ∧
    ((vectorS 0 0 false false).ridge.vectors.getD 259 {}).seen = 0 ∧
    1300 * ((vectorS 1 1300 false false).ridge.vectors.getD 259 {}).timer ≤ ((vectorS 1 1300 false false).ridge.vectors.getD 259 {}).age ∧
    ((vectorS 1 0 true true).ridge.vectors.getD 259 {}).pending = true ∧ ((vectorS 1 0 true true).ridge.vectors.getD 259 {}).masked = true ∧
    ((vectorS 2 0 false false).ridge.vectors.getD 259 {}).masked = false ∧ (vectorS 2 0 false false).ridge.linksUp.getLsbD 1 = true ∧
    (vectorS 2 0 false false).sysUp (2 * 2 ^ 48 + ((vectorS 2 0 false false).ridge.vectors.getD 259 {}).addr.toNat % 2 ^ 48) = true ∧
    ({ State.reset.ridge with linksUp := 0#8 } : Ridge).linksUp.getLsbD 1 = false := by decide +kernel
/-- A completion has reached the writer. -/
def writerS : State :=
  let s := hostS { hostQueue 0 with active := 1 }
  { s with now := 8, ridge := { s.ridge with completions := [{ fn := 0, q := 3, entry := completionEntry 5 0 0 0 3 0, arrived := 0 }] } }
theorem witness_completion_write : writerS.ridge.completions = [{ fn := 0, q := 3, entry := completionEntry 5 0 0 0 3 0, arrived := 0 }] ∧
    writerS.ridge.writerAt ≤ writerS.now ∧ writerS.ridge.linksUp.getLsbD 0 = true ∧ (writerS.hq 0 3).used < 2 ^ (writerS.hq 0 3).cqlog ∧
    (completionEntry 5 0 0 0 3 0).getLsbD 32 = false ∧
    (let ring := (0 + 1) * 2 ^ 48 + ((writerS.hq 0 3).cqbase + BitVec.ofNat 64 (16 * (writerS.hq 0 3).cqtail)).toNat % 2 ^ 48
     writerS.sysUp ring = true ∧ writerS.sysUp (ring + 8) = true) ∧
    ((0 + 1) * 2 ^ 48 + ((writerS.hq 0 3).cqbase + BitVec.ofNat 64 (16 * (writerS.hq 0 3).cqtail)).toNat % 2 ^ 48) % 2 ^ 48 + 16 ≤ 2 ^ 48 := by
  decide +kernel
theorem witness_completion_new : 5 ∉ (writerS.ctx (Config.queueContext 0 3)).posted := by
  show 5 ∉ ([] : List Nat)
  simp
/-- A Traverse port has been trained by module 7; a byte holds an uncorrectable error. -/
def outerS : State := { hostS {} with ridge := { (hostS {}).ridge with tports := [(2, { up := true, peer := 7 })] }, bad := [0x2000] }
theorem witness_outer : (∀ k, k < 8 → (0x1000 + k) % 2 ^ 36 < 48 * 2 ^ 30 ∧ 0x1000 + k < 2 ^ 42) ∧ outerS.badIn 0x1000 8 = false ∧
    outerS.badIn 0x2000 4 = true ∧ outerS.ridge.linksUp.getLsbD 0 = true ∧ 0x1000 % 8 = 0 ∧
    (outerS.ridge.tports.get? 2).any (fun z => z.up && z.peer == 7) = true ∧
    ({ outerS.ridge with linksUp := 0#8 } : Ridge).linksUp.getLsbD 0 = false := by decide +kernel

/-! ## Admin commands -/

/-- An admin command of function 0. -/
def cmd (d1 d2 d3 d4 d5 : Nat) : AdminCmd :=
  { fn := 0, tag := 0x77#16, d1 := BitVec.ofNat 64 d1, d2 := BitVec.ofNat 64 d2, d3 := BitVec.ofNat 64 d3, d4 := BitVec.ofNat 64 d4
    d5 := BitVec.ofNat 64 d5, d6 := 0#64, d7 := 0#64 }
/-- Host memory holds one record, of a zeroed page at 0x40000000. -/
def recS : State := (((hostS {}).poke (2 ^ 48 + 0x1000) 8 0x40000000).poke (2 ^ 48 + 0x1008) 8 0x30).poke (2 ^ 48 + 0x1010) 8 0x2000
def createC : AdminCmd := cmd 0x1000 1 0 0 1
theorem witness_create : 0 < createC.d2.toNat ∧ createC.d2.toNat ≤ 2 ^ 20 ∧ createC.d1.toNat % 32 = 0 ∧ createC.d3.toNat % 2 ^ 13 = 0 ∧
    createC.d4.toNat < 2 ^ 48 ∧ createC.d5.toNat < 2 ^ 32 ∧ (∀ r ∈ recS.mapRecs 0 createC.d1 1, r.res0 = true ∧ r.ok = true) ∧
    disjointRecs (recS.mapRecs 0 createC.d1 1) = true ∧ recS.ridge.linksUp.getLsbD 0 = true ∧ recS.ridge.errPages = [] := by decide +kernel
theorem witness_create_free : (fromTo 1 65535).find? (fun a => !(recS.ctx a).live) = some 1 := by
  have h : ∀ n, (fromTo 1 (n + 1)).find? (fun a => !(recS.ctx a).live) = some 1 := by
    have h : (recS.ctx 1).live = false := by decide +kernel
    intro n
    rw [fromTo, List.range_succ_eq_map]
    simp [h]
  exact h 65534
theorem witness_create_build : (recS.buildContext createC 1 (recS.mapRecs 0 createC.d1 1)).isSome = true := by decide +kernel
theorem witness_destroy : ((labS []).ctx (cmd 1 0 0 0 0).d1.toNat).live = true ∧ ((labS []).ctx (cmd 2 0 0 0 0).d1.toNat).live = false ∧
    (labS []).ridge.linksUp.getLsbD 0 = true ∧ (labS []).ridge.errPages = [] ∧ (cmd 1 0 0 0 0).d1.toNat < 2 ^ 16 ∧ ({ cmd 0 0 0 0 0 with d6 := 1#64 } : AdminCmd).d6 ≠ 0#64 := by
  decide +kernel
/-- Binding the episode of slot 3 of Corrie core 2 of domain 1 to context 1. -/
def bindC : AdminCmd := cmd (256 + 19) 1 1 1 0
theorem witness_bind : bindC.d1.toNat < 2 ^ 14 ∧ bindC.d1.toNat / 8 % 32 < 28 ∧ ((labS []).ctx bindC.d2.toNat).live = true ∧ 1 ≤ bindC.d3.toNat ∧
    bindC.d3.toNat ≤ 1024 ∧ 1 ≤ bindC.d4.toNat ∧ bindC.d4.toNat ≤ 16384 ∧ 2 ^ 13 + 2048 * bindC.d4.toNat ≤ bindC.d3.toNat * 2 ^ 16 ∧
    (labS []).window bindC.d1.toNat = none := by decide +kernel
/-- Nothing is mapped in context 1, and three frames have been given back. -/
def freed (n : Nat) : List (Nat × Nat) := [(0x400000, 8192), (0x402000, 8192), (0x404000, 8192)].drop (3 - n)
def bindS : State := { hostS {} with ctxs := [(1, { live := true, root := 0x100000 })], ridge := { (hostS {}).ridge with freeFrames := freed 3 } }
/-- The window of the episode has its frames. -/
def roomS : State := bindS.updRidge fun r => { r with nextFrame := r.nextFrame.set 1 (2 ^ 34 + 2 ^ 16) }
theorem l2Set_ridge (s : State) (d l : Nat) (x : Line) : (s.l2Set d l x).ridge = s.ridge := by
  rw [State.l2Set]
  split <;> rfl
theorem l2Remove_ridge (s : State) (d l : Nat) : (s.l2Remove d l).ridge = s.ridge := by
  rw [State.l2Remove]
  split <;> rfl
theorem dropCopies_ridge (l : Nat) : ∀ (ds : List Nat) (s : State), (s.dropCopies l ds).ridge = s.ridge
  | [], _ => rfl
  | d :: ds, s => (dropCopies_ridge l ds (s.l2Remove d l)).trans (l2Remove_ridge s d l)
theorem dropTracked_ridge (s : State) (l : Nat) : (s.dropTracked l).ridge = s.ridge := by
  simp only [State.dropTracked]
  split
  · exact l2Set_ridge ..
  · rfl
theorem dirRelease_ridge (s : State) (l : Nat) (m : Bool) : (s.dirRelease l m).ridge = s.ridge := by
  simp only [State.dirRelease]
  repeat' split
  all_goals rfl
theorem dirHold_ridge (s : State) (l : Nat) (m : Bool) : (s.dirHold l m).ridge = s.ridge := by
  have h : (s.dirRoom l).ridge = s.ridge := by
    rw [State.dirRoom]
    repeat' split
    all_goals first | rfl | exact dropCopies_ridge ..
  simp only [State.dirHold]
  split
  · exact h
  · split
    · exact (dropCopies_ridge ..).trans h
    · exact h
theorem syncTake_ridge (s : State) (l : Nat) : (s.syncTake l).ridge = s.ridge := by
  have h : ∀ (ls : List Nat) (s : State), (foldState State.syncRelease ls s).ridge = s.ridge := fun ls => by
    induction ls with
    | nil => exact fun _ => rfl
    | cons x t ih => exact fun s => (ih _).trans (dirRelease_ridge ..)
  exact (h ..).trans (dirHold_ridge ..)
theorem dirHomeWrite_ridge (s : State) (l : Nat) : (s.dirHomeWrite l).ridge = s.ridge := by
  simp only [State.dirHomeWrite]
  split
  · exact dropTracked_ridge s l
  · split
    · exact (syncTake_ridge ..).trans ((dropCopies_ridge ..).trans (dropTracked_ridge s l))
    · exact (dropCopies_ridge ..).trans (dropTracked_ridge s l)
theorem homeWrite_freeFrames (s : State) (pa n v : Nat) : (s.homeWrite pa n v).ridge.freeFrames = s.ridge.freeFrames := by
  rw [State.homeWrite]
  split
  · exact congrArg Ridge.freeFrames (dirHomeWrite_ridge s _)
  · rw [State.pokeOut]
    by_cases h : s.sysUp pa = true
    · rw [if_pos h]; rfl
    · rw [if_neg h, State.logErr, State.ridge_updRidge]
theorem ctxFrame_freed (s : State) (asid m : Nat) (hm : m < 3) (h : s.ridge.freeFrames = freed (m + 1)) :
    ∃ f t, s.ctxFrame asid (2 ^ 13) = some (f, t) ∧ t.ridge.freeFrames = freed m := by
  have h3 : m = 0 ∨ m = 1 ∨ m = 2 := by omega
  rcases h3 with rfl | rfl | rfl <;> exact ⟨_, _, by simp only [State.ctxFrame, State.takeFrame, h]; rfl, (congrArg (List.filter _) h).trans rfl⟩
theorem mapEntry_freed (asid : Nat) (va : W64) (w : Nat) : ∀ (k : Nat) (s : State) (m level table : Nat), k ≤ m → m ≤ 3 →
    s.ridge.freeFrames = freed m → (s.mapEntry asid va w k level table).isSome = true
  | 0, _, _, _, _, _, _, _ => rfl
  | k + 1, s, m, level, table, hk, hm, h => by
    rw [State.mapEntry]
    split
    · exact mapEntry_freed asid va w k s m _ _ (by omega) hm h
    · obtain ⟨f, t, h1, h2⟩ := ctxFrame_freed s asid (m - 1) (by omega) (by rw [h]; congr 1; omega)
      rw [h1]
      exact mapEntry_freed asid va w k _ (m - 1) _ _ (by omega) (by omega) ((homeWrite_freeFrames ..).trans h2)
theorem read_nil (a : Nat) : ∀ n, Memory.read [] a n = 0
  | 0 => rfl
  | n + 1 => by rw [Memory.read, read_nil (a + 1) n]; rfl
theorem windowPageFor_nil (s : State) (e asid : Nat) (h : s.mem = []) (hb : s.bad = []) : (s.windowPageFor e asid).isSome = true := by
  rw [State.windowPageFor, List.find?_isSome]
  refine ⟨Config.windowPage e asid % 2 ^ 40, List.mem_map.2 ⟨0, List.mem_range.2 (by decide), rfl⟩, ?_⟩
  simp [State.walk, State.walkFrom, h, State.badIn, hb, read_nil, pteP, pteKind, kindAt, bitOf, bitsOf]
theorem witness_bind_room : bindS.ridge.errPages = [] ∧ (bindS.ctx bindC.d2.toNat).live = true ∧ bindS.window bindC.d1.toNat = none ∧
    bindS.windowRoom (bindC.d1.toNat / 2 ^ 8) (bindC.d3.toNat * 2 ^ 16) = some (2 ^ 36 + 2 ^ 34, roomS) ∧
    bindC.d1.toNat = 275 := by decide +kernel
theorem wipe_ridge (s : State) (f : Nat × Nat) : (s.wipe f).ridge = s.ridge := rfl
theorem updStep_ridge (s : State) (e : Nat) (f : StepRec → StepRec) : (s.updStep e f).ridge = s.ridge := rfl
theorem bindPage_binds (s : State) (e : Nat) (w : Window) (ho : s.windowOk e w = true) (hf : s.ridge.freeFrames = freed 3) :
    (s.bindPage e w).isSome = true := by
  rw [State.bindPage, ho]
  refine mapEntry_freed w.asid _ _ 3 _ 3 _ _ (Nat.le_refl 3) (Nat.le_refl 3) ?_
  rw [updStep_ridge, wipe_ridge, State.updDom_ridge]
  exact hf
theorem bind_binds (s : State) (e asid base size psize : Nat) (hm : s.mem = []) (hb : s.bad = [])
    (hw : (s.dom (epDom e)).windows.get? (8 * epCore e + epSlot e) = none)
    (ho : ∀ w : Window, w.base = base → w.size = size → w.psize = psize → s.windowOk e w = true) (hf : s.ridge.freeFrames = freed 3) :
    (s.bind e asid base size psize).isSome = true := by
  obtain ⟨p, hp⟩ := Option.isSome_iff_exists.1 (windowPageFor_nil s e asid hm hb)
  have hu : s.unbindSlot e = s := by rw [State.unbindSlot, hw]
  rw [State.bind, hu, hp]
  exact (Option.isSome_map ..).trans (bindPage_binds s e _ (ho _ rfl rfl rfl) hf)
theorem windowOk_room (w : Window) (h1 : w.base = 2 ^ 36 + 2 ^ 34) (h2 : w.size = 1) (h3 : w.psize = 1) : roomS.windowOk 275 w = true := by
  rw [State.windowOk, h1, h2, Window.p, h3]; decide +kernel
theorem witness_bind_bound : (roomS.bind 275 1 (2 ^ 36 + 2 ^ 34) 1 1).isSome = true :=
  bind_binds roomS 275 1 (2 ^ 36 + 2 ^ 34) 1 1 (by decide +kernel) rfl (by decide +kernel) windowOk_room (by decide +kernel)
/-- The log has a record, and the certificate is sound. -/
def loggedS : State := { hostS {} with ridge := { (hostS {}).ridge with certOk := true, errlog := [{ pa := 5 }] } }
theorem witness_quote : loggedS.ridge.certOk = true ∧ loggedS.ridge.linksUp.getLsbD 0 = true ∧ (cmd 0 1 0 0 0).d2 = 1#64 ∧
    loggedS.ridge.errlog.getLast? = some { pa := 5 } ∧ ({ loggedS.ridge with certOk := false } : Ridge).certOk = false ∧ loggedS.hostOn = true := by decide +kernel

/-- A debugger is attached; the group may be parked, its control stream or its lane stream stopped. -/
def debugS (p : Option Parked) : State := (ctxLab (labS []) fun c => { c with attached := true }).updCg fun g => { g with parked := p }
def parkAt (ctl : Bool) : Parked := { reason := 4, ctl := ctl, trap := { code := 0, pc := loadVa, resume := loadVa } }
def named : AdminCmd := { cmd 1 0 0 0 0 with d2 := (debugS none).handle 1 0 }
theorem handle_ne_zero (s : State) (a c : Nat) : s.handle a c ≠ 0#64 := by
  intro h
  have h0 := Config.handlePerm.inj _ _ (h.trans Config.handlePerm.zero.symm)
  have h1 := congrArg BitVec.toNat h0
  simp only [State.handleKey, BitVec.toNat_ofNat] at h1
  omega
theorem named_groups (p : Option Parked) : (debugS p).namedGroups 1 named.d2 0 = [1] := by
  have h1 : (debugS p).ctxGroups 1 = [1] := rfl
  have h2 : (debugS p).handle 1 0 = named.d2 := rfl
  have h3 : ((debugS p).grp 1).resident = true ∧ ((debugS p).grp 1).slot = 0 ∧ ((debugS p).grp 1).core = 0 := ⟨rfl, rfl, rfl⟩
  have h4 : named.d2 ≠ 0#64 := handle_ne_zero _ _ _
  simp [State.namedGroups, h1, h2, h3, h4]
theorem witness_debug : (debugS none).ridge.errPages = [] ∧ ((debugS none).ctx 1).live = true ∧ ((debugS none).ctx 1).attached = true ∧ named.d3.toNat < 64 ∧
    (debugS none).namedGroups 1 0#64 0 = [1] ∧ ((debugS none).grp 1).parked = none ∧ ((debugS (some (parkAt true))).grp 1).parked = some (parkAt true) ∧
    ((debugS (some (parkAt false))).grp 1).parked = some (parkAt false) ∧ ((debugS none).grp 1).nregs ≤ 12288 ∧
    (cmd 0 0 0 (0 + 4 * 5 + 2 ^ 13 * 6) 0).d4.toNat = 0 + 4 * 5 + 2 ^ 13 * 6 ∧ 5 < ((debugS none).grp 1).nregs := by decide +kernel

/-- A program with one rule: bit 0, on comparator 0, to state 2, recording on. -/
def prog : List Byte := (List.replicate 384 0#8).set 288 3#8 |>.set 289 0xC0#8
def cairn : Cairn := { tag := 1, origin := 2, stamp := 0#64 }
def seqS : State := (debugS none).updDom 0 fun m => { m with seqr := { prog := prog }, cairnIn := [cairn] }
theorem witness_trace : (debugS none).anyAttached = true ∧ (cmd 0 0x2000 7 0 0).d2.toNat % 2 ^ 13 = 0 ∧
    (cmd 0 0x2000 7 0 0).d2.toNat % 2 ^ 36 + 64 + 64 * 2 ^ 7 ≤ 48 * 2 ^ 30 ∧ progOk (List.replicate 384 0#8) = true ∧
    progOk (List.replicate 384 1#8) = false ∧ (seqS.dom 0).cairnIn = cairn :: [] ∧ (seqS.dom 0).seqr.prog ≠ [] ∧
    (progWord prog 288).testBit 0 = true ∧ (progWord prog 296).testBit 0 = false ∧ (progWord prog 288 / 2) % 2 ^ 8 = 1 := by decide +kernel

/-! ## The Corrie -/

/-- The hart of Corrie core 0 runs, and a step of slot 0 may be in progress. -/
def hartS (status atail otail : Nat) (k : StepRec) : State :=
  (epLab status atail otail []).updHart 0 fun x => { x with started := true, steps := [(0, k)] }
def busyStep : StepRec := { active := true, step := 4#64 }
theorem witness_bound (status atail otail : Nat) (k : StepRec) : bound (hartS status atail otail k) 0 0 epWin := by
  refine ⟨rfl, by decide, by decide, fun n hn => ?_⟩
  have : (hartS status atail otail k).place (epWin.base + n) = .dram ((epWin.base + n) / 2 ^ 36) ((epWin.base + n) % 2 ^ 36) := by
    have h1 : epWin.base + n < 2 ^ 42 := by simp only [epWin]; omega
    have h2 : (epWin.base + n) % 2 ^ 36 < dramSize := by simp only [epWin, dramSize]; omega
    rw [State.place, if_pos h1, if_pos h2]
  simp only [State.cached, this]
theorem witness_ports : (hartS 1 1 0 {}).hartOn 0 = true ∧ arbiterIdle (hartS 1 1 0 {}) (0 / 28) ∧
    (arbiterTaken (hartS 1 1 0 {}) 0).hartOn 0 = true ∧ ((arbiterTaken (hartS 1 1 0 {}) 0).dom (0 / 28)).arbAt = some (arbiterTaken (hartS 1 1 0 {}) 0).now ∧
    ((arbiterTaken (hartS 1 1 0 {}) 0).dom (0 / 28)).arb = [] ∧ (hartS 1 1 0 {}).mem.read (epWin.base + 0x80) 8 % 2 ^ 8 = 1 ∧
    (hartS 3 1 0 {}).mem.read (epWin.base + 0x80) 8 % 2 ^ 8 = 3 ∧ (hartS 1 1 0 {}).mem.read epWin.base 8 = 1 ∧
    (hartS 1 1 0 {}).mem.read (epWin.base + 8) 8 = 0 ∧ (((hartS 1 1 0 {}).hart 0).steps.getD 0 {}).active = false ∧
    (((hartS 1 1 0 busyStep).hart 0).steps.getD 0 {}).active = true ∧ (hartS 1 0 16 {}).mem.read (epWin.base + 0x40) 8 = 16 ∧
    (hartS 1 0 15 busyStep).mem.read (epWin.base + 0x40) 8 = 15 ∧ 64 * epWin.psize < (65#64).toNat % 2 ^ 24 ∧
    (0x1000040#64).toNat % 2 ^ 24 ≤ 64 * epWin.psize ∧ (0x1000040#64).getLsbD 24 = true := by decide +kernel
/-- A step that reached its budget in an earlier cycle; and one that expired 2^16 cc ago. -/
def overStep : StepRec := { busyStep with ins := 2 ^ 28, late := true }
def closeS : State := hartS 1 0 0 { busyStep with stopped := true, expired := some (2 ^ 16) }
theorem witness_episode : ((hartS 0 0 0 {}).hart 0).mepsel = 0 ∧ arbiterIdle (hartS 0 0 0 {}) (0 / 28) ∧ afterExpiry overStep ≠ overStep ∧
    overStep.late = true ∧ ({ busyStep with ins := 2 ^ 28 } : StepRec).late = false ∧ ((closeS.dom (0 / 28)).arbAt ≠ some closeS.now) ∧
    (closeS.dom (0 / 28)).arb = [] ∧ (∀ c ∈ closeS.dueCloses (0 / 28), c.1 = 0 % 8 + 8 * (0 % 28) + 256 * (0 / 28)) ∧ closeS.dueCloses 0 ≠ [] ∧ (0x20101#64).toNat % 16 = 1 ∧ (hartS 0 0 0 {}).mem.read (epWin.base + 0x80) 8 % 2 ^ 8 = 0 ∧
    (0x42#64).toNat % 16 = 2 ∧ (0x42#64).toNat / 16 % 16 = 4 ∧
    (({ busyStep with ins := 2 ^ 28 } : StepRec).insBud ≠ 0 ∧ ({ busyStep with ins := 2 ^ 28 } : StepRec).insBud ≤ 2 ^ 28) ∧
    busyStep.ins < busyStep.insBud ∧ busyStep.cyc < busyStep.cycBud ∧ ({ busyStep with expired := some (2 ^ 16) } : StepRec).expired = some (2 ^ 16) := by
  decide +kernel
/-- The FIFOs of column 1. -/
def fifo (down up : Nat) : State := (hartS 1 0 0 {}).updCore 1 fun c => { c with down := List.replicate down [1#8], up := List.replicate up [2#8] }
/-- The hart parks in WFI, and may have been asked to gate. -/
def stillS (park req : Bool) : State := (hartS 1 0 0 {}).updHart 0 fun x => { x with park := park, wfi := true, gateReq := req }
theorem witness_hart : (fifo 0 16).hartOn 0 = true ∧ ((fifo 0 16).core (4 * 0 + 1)).down = [] ∧ ((fifo 1 0).core (4 * 0 + 1)).down = [1#8] :: [] ∧
    16 ≤ ((fifo 0 16).core 1).up.length ∧ ((fifo 0 15).core 1).up.length < 16 ∧ ((stillS true false).hart 0).gateReq = false ∧
    ((stillS true false).hart 0).park = true ∧ ((stillS true false).hart 0).wfi = true ∧ (∀ e ∈ ((stillS true false).hart 0).steps, e.2.active = false) ∧
    (∀ j, j < 4 → ((stillS true false).core (4 * 0 + j)).down = [] ∧ ((stillS true false).core (4 * 0 + j)).up = []) ∧
    ((stillS false false).hart 0).park = false ∧ ((stillS true true).hart 0).gateReq = true := by decide +kernel
/-- A budget has expired while the hart runs in user mode. -/
def dogS : State := (hartS 1 0 0 { busyStep with expired := some 0, stopped := true }).updHart 0 fun x => { x with mode := .user, csr := [(0x305, 0x40000000100#64)] }
theorem witness_hart_interrupt : (dogS.hart 0).mwdog ≠ 0 ∧ (dogS.hart 0).mode ≠ .machine ∧ (dogS.hart 0).rcsr 0x305 &&& 3#64 = 0#64 ∧ dogS.hartOn 0 = true ∧
    (hartS 1 0 0 {}).platformPending 0 = [] ∧ ((hartS 1 0 0 {}).hart 0).rcsr 0x344 &&& 0x70000#64 = 0#64 := by decide +kernel

/-! ## Steps -/

/-- The group whose next control word is 0x04824A00, SADD, comes next in the plan, or one whose word is 0. -/
def fetchS (w : Nat) : State := State.reset.loadWord false w
/-- The state in which the act at the head of the plan is taken. -/
def acting (s : State) : State := { s with agenda := [], cur := { s.cur with g := 1 } }
theorem witness_step_control : (fetchS 0x04824A00).agenda = .ctl 1 :: [] ∧ ((fetchS 0x04824A00).groups.get? 1).isSome = true ∧
    (acting (fetchS 0x04824A00)).mayCtl 1 = true ∧ (acting (fetchS 0x04824A00)).cg.cpend = none ∧
    ({ fetchS 0x04824A00 with agenda := [] } : State).givesWay 1 = false ∧ (acting (fetchS 0x04824A00)).faultDue 1 = false ∧
    (acting (fetchS 0x04824A00)).overrunDue 1 = false ∧
    breakAt (acting (fetchS 0x04824A00)).cctx true (acting (fetchS 0x04824A00)).cg.cpc = none ∧
    (acting (fetchS 0x04824A00)).fetchCtl.2 = some 0x04824A00#32 ∧ (acting (fetchS 0)).fetchCtl.2 = some 0#32 ∧
    regenFailed (acting (fetchS 0)).cg.ctlRegen (acting (fetchS 0)).cg.cpc = false ∧
    (((acting (fetchS 0)).fetchWord true 0 1 1 loadVa).2 == .word 0#32) = true := by decide +kernel
/-- A second group of the core, in slot 1, that could issue; group 1 has given up its place (R111). -/
def rivals (given : Tab (List Nat)) : State :=
  let s := fetchS 0x04824A00
  let s := { s with groups := s.groups.set 2 { s.grp 1 with slot := 1 } }
  s.updCore 0 fun c => { c with slots := [(0, 1), (1, 2)], given := given }
/-- R111. It is not ready before the other group has issued once. -/
theorem test_yield_gives_way : (rivals [(0, [])]).givesWay 1 = true ∧ (rivals [(0, [1])]).givesWay 1 = false ∧
    ((rivals [(0, [])]).served 0 1 false |>.givesWay 1) = false := by decide +kernel
/-- R96. An LSYNC that finds the lane stream busy takes no cycle of the control unit, which has served slot 0 last. -/
theorem test_unmet_wait_takes_no_cycle :
    (let s := (fetchS (0x10 * 2 ^ 26)).updGrp 1 fun x => { x with laneBusy := true }
     s.ctlCould 1 || ((after (s.ctlRun 1) s).core 0).lastCtl == 0) = false := by decide +kernel
/-- A lane instruction of three words. -/
def fetchL (w : Nat) : State := State.reset.loadWord true w
def ffmaWord : Nat := 0xA831800A + 0x00801488 * 2 ^ 32 + 0x01400000 * 2 ^ 64
def actingL (s : State) : State := let a := (acting s).begun 1; { a with cur := { a.cur with split := 1 } }
/-- The words at the lane PC are refused with a reason. -/
def refused (l : Option (List W32)) (e : DecodeErr) : Bool := match l.map decodeLaneWords with
  | some (.error x) => x == e
  | _ => false
theorem witness_step_lane : (fetchL ffmaWord).agenda = .lane 1 :: [] ∧ (acting (fetchL ffmaWord)).mayLane 1 = true ∧
    (acting (fetchL ffmaWord)).cg.lpend = none ∧ ((acting (fetchL ffmaWord)).begun 1).cg.run.isSome = true ∧
    (((acting (fetchL ffmaWord)).begun 1).pickSplit ((acting (fetchL ffmaWord)).begun 1).cg).isSome = true ∧
    breakAt (actingL (fetchL ffmaWord)).cctx false (actingL (fetchL ffmaWord)).csplit.pc = none ∧
    (actingL (fetchL ffmaWord)).fetchLane.2 = some [0xA831800A#32, 0x00801488#32, 0x01400000#32] ∧
    (actingL (fetchL 0)).fetchLane.2 = some [0#32] ∧ refused (actingL (fetchL 0)).fetchLane.2 .illegalInstr = true ∧ refused (actingL (fetchL 0xC0000000)).fetchLane.2 .illegalLength = true := by
  decide +kernel
/-- The code cache of the control stream holds the line. -/
def heldLine : State := (acting (fetchS 0x04824A00)).fetchCtl.1
theorem witness_fetch : (found ((acting (fetchS 5)).translate 0 1 1 loadVa .ctlFetch) fun u pa coh =>
      pa == loadFrame && u.sysUp pa && !u.badRead 0 pa 4 coh && u.cached pa && !ownCopy (coreDom 0) (pa / 128) coh &&
      (codeFind ((u.core 0).code true) 1 (u.ctx 1).gen (loadVa.toNat / 128)).isNone) = true ∧
    (found (heldLine.translate 0 1 1 loadVa .ctlFetch) fun u _ _ => (codeFind ((u.core 0).code true) 1 (u.ctx 1).gen (loadVa.toNat / 128)).isSome) = true := by
  decide +kernel
/-- A chain stands at a SIGNAL entry. -/
def chainAct : State :=
  let s := ((onChain (labScr []) 0).poke (scratchPa 0 64) 8 0x20A).poke (scratchPa 0 (64 + 16)) 8 0x4000000000000140
  { (s.poke (scratchPa 0 (64 + 24)) 8 1).setEngCtxs 0 0 [9] with agenda := [.chain 9] }
theorem witness_step_chain : chainAct.agenda = .chain 9 :: [] ∧ chainAct.chains.get? 9 = some (aChain 0) ∧ chainAct.chainRuns (aChain 0) = true ∧
    chainAct.stopsHere 1 = false ∧ chainAct.scrSeg 1 64 32 = .inl { va := BitVec.ofInt 64 64, pa := scratchPa 0 64, n := 32, coh := 0 } ∧
    chainAct.badIn (scratchPa 0 64) 32 = false ∧ kindTaken 0 10 = true ∧ chainAct.mem.read (scratchPa 0 64) 8 % 16 = 10 ∧
    ({ chainAct with agenda := [] } : State).engineNext 0 0 = some 9 := by decide +kernel
theorem witness_step_advance : ({ owing 0 0 with agenda := [.chain 9] } : State).agenda = .chain 9 :: [] ∧ ((owing 0 0).grp 1).resident = true ∧
    ((owing 0 0).chains.get? 9).any (fun c => c.g == 1 && !c.adv.isEmpty) = true := by decide +kernel
theorem witness_step_event : ({ State.reset with agenda := [.ev .rebuild] } : State).agenda = .ev .rebuild :: [] ∧ isEvent .rebuild = true ∧
    State.reset.agenda = [] := by decide +kernel
/-- The chain's next data entry has been marked to move its bytes one by one; such an entry with its reads still to come; and a
descriptor that holds an error. -/
def apartChain : Chain := { aChain 0 with apart := true }
def apartS : State := { chS 0 with chains := [(9, apartChain)] }
def slowS : State :=
  let m : SlowEntry := { kind := 1, q := ent 0 0 (scr 128) (scr 256) 1, eps := [], owed := [] }
  { chS 0 with chains := [(9, { aChain 0 with slow := some m })], agenda := [.chain 9] }
def badDesc : State := { owing 0 0 with bad := [scratchPa 0 64] }
theorem witness_copy_apart : chainStands apartS apartChain 1 ∧ (match apartS.placeOpds apartChain ((copyOpds (scr 128) (scr 256) 16 16).map fun x => x.2.2) with
    | (t, .inl [.mem [x], _]) => (t.segBad 0 [x]).isNone && x.n == 16
    | _ => false) = true ∧ badDesc.badIn (scratchPa 0 64) 32 = true ∧ (owing 0 0).badIn (scratchPa 0 64) 32 = false ∧
    badDesc.chains.get? 9 = (owing 0 0).chains.get? 9 ∧ slowS.agenda = .chain 9 :: [] ∧
    (slowS.chains.get? 9).any (fun c => c.adv.isEmpty && c.slow.isSome && c.g == 1) = true ∧
    (slowS.grp 1).resident = true := by decide +kernel
/-- An ALGOP of two buffers with descriptors of their own. -/
def twoBuffers : State :=
  let d (s : State) (a base : Nat) : State := ((((((s.poke a 4 0x43425546).poke (a + 4) 4 base).poke (a + 8) 4 4096).poke (a + 12) 4 1).poke (a + 16) 4 1).poke (a + 20) 4 0)
  let s := (mmaS []).updBlk 1 fun b => { b with share := 32768 }
  { d (d s (scratchPa 0 16384) 0) (scratchPa 0 (16384 + 32)) 4096 with chains := [(9, aChain 2)], cur := { g := 1, chain := 9 } }
def bufOpd (a : Nat) : Opd := { q := BitVec.ofNat 64 (buf a), n := 4096, dst := false }
theorem witness_algop_buffers : chainStands twoBuffers (aChain 2) 7 ∧ spaceOf (BitVec.ofNat 64 (buf 16384)) = 2 ∧
    twoBuffers.scrSeg 1 (16384 : Nat) 32 = .inl { va := BitVec.ofInt 64 (16384 : Nat), pa := scratchPa 0 16384, n := 32, coh := 0 } ∧
    twoBuffers.scrSeg 1 (16416 : Nat) 32 = .inl { va := BitVec.ofInt 64 (16416 : Nat), pa := scratchPa 0 16416, n := 32, coh := 0 } ∧
    apart (scratchPa 0 16384) 32 (scratchPa 0 16416) 32 ∧ (twoBuffers.readDesc (scratchPa 0 16384)).esize = 4096 ∧
    (bufOpd 16416).field [1, 2] false = true ∧ (bufOpd 16416).aligned = true ∧
    (twoBuffers.core 0).slotIdle 0 = true ∧ (twoBuffers.core 0).slotIdle 1 = true ∧
    sound twoBuffers (aChain 2) [bufOpd 16384, bufOpd 16416] 2 = true := by decide +kernel
/-- A step from a canonical memory reaches a next state. -/
theorem witness_invariant : (fetchS 0x04824A00).Inv ∧ (match step (fetchS 0x04824A00) with
    | .next t => t.mem.wf && t.cg.cpc == loadVa + 4#64
    | _ => false) = true := by decide +kernel

/-! ## Further premises -/

/-- A packet of before a rollback stands at the head of what a context keeps (R432). -/
def replayS : State :=
  let s := queueS 0 []
  { s with ctxs := [(1, { replay := [.inl { seq := 5, asid := 1, ident := 1, pkt := headPacket (queueS 1 kernelWords) (hostQueue 1) }] })] }
theorem witness_replay : replayS.ridge.state = .ready ∧ replayS.gridEntries < 1024 ∧ replayS.nextRegen = none ∧
    (match replayS.ctxs with
      | [(_, c)] => match c.replay with
        | .inl n :: _ => n.pkt.ndep == 0 && n.pkt.cor != 2 && replayS.packetOk n.pkt none
        | _ => false
      | _ => false) = true ∧ (∀ c ∈ (queueS 1 kernelWords).ctxs, c.2.replay = []) := by decide +kernel
theorem witness_thermal : ({ State.reset.ridge with state := .loader } : Ridge).state = .loader ∧
    ({ State.reset.ridge with state := .firmware } : Ridge).state = .firmware ∧ State.reset.ridge.state = .rom := by decide +kernel
/-- Three corrected errors of a unit in the window. -/
def thirdS (u : FaultUnit) : State := State.reset.updRidge fun r => { r with errors := [(u, 3)], errPa := 0x1000 }
theorem witness_fourth_error : memUnit (.core 5 .scratchpad) = true ∧ memUnit (.core 5 .control) = false ∧
    (thirdS (.core 5 .scratchpad)).ridge.errWindow = ((thirdS (.core 5 .scratchpad)).dom (thirdS (.core 5 .scratchpad)).ridge.crest).cycles / 2 ^ 40 ∧
    ((thirdS (.core 5 .control)).ridge.errors.find? fun x => x.1 == .core 5 .control) = some (.core 5 .control, 3) := by decide +kernel
/-- The job to be checkpointed, its links up or down, and a register of its group with an uncorrectable error or none. -/
def slotS (up bad : Bool) : State :=
  ((dueS true).updRidge fun r => { r with linksUp := if up then 0xFF#8 else 0#8 }).updCg fun g => { g with badV := if bad then [33] else [] }
theorem witness_slot : (slotS true false).ridge.errPages = [] ∧ (slotS true false).ridge.linksUp.getLsbD ((slotS true false).ctx 1).ckptFn = true ∧
    (slotS false false).slotUp 1 ((slotS false false).ridge.ckptSlot.getD 1 0) = false ∧ (slotS true false).jobBad 1 = [] ∧
    (slotS true true).jobBad 1 ≠ [] := by decide +kernel
theorem witness_slot_up : (slotS true false).slotUp 1 ((slotS true false).ridge.ckptSlot.getD 1 0) = true := by
  have h := witness_slot
  rw [State.slotUp, h.1, h.2.1]
  rfl
/-- The link is down: an interrupt message is dropped and recorded. -/
def downS : State := (vectorS 2 0 false false).updRidge fun r => { r with linksUp := 0#8 }
theorem witness_message_dropped :
    downS.sysUp (2 * 2 ^ 48 + (downS.ridge.vectors.getD 259 {}).addr.toNat % 2 ^ 48) = false ∧ (downS.ridge.vectors.getD 259 {}).masked = false ∧
    (downS.ridge.vectors.getD 259 {}).count ≤ (downS.ridge.vectors.getD 259 {}).seen := by decide +kernel
/-- The sequencer records into a ring; and its first rule has been taken in the cycle before, or none has. -/
def recordS (taken : Option (Nat × List Nat)) : State :=
  seqS.updDom 0 fun m => { m with ring := some { base := 0x2000, log2 := 7 }, seqr := { m.seqr with recording := true, taken := taken } }
theorem witness_sequencer : ((recordS none).dom 0).seqr.recording = true ∧ ((recordS none).dom 0).ring.isSome = true ∧ cairn ∈ ((recordS none).dom 0).cairnIn ∧
    ((recordS none).dom 0).seqr.taken = none ∧ ((recordS (some (0, [0, 0, 0, 0]))).dom 0).seqr.taken = some (0, [0, 0, 0, 0]) ∧
    ((recordS none).dom 0).seqr.prog ≠ [] ∧ (State.reset.dom 0).seqr.prog = [] := by decide +kernel
/-- No trap is due in the lab's group, and the groups of the step tests have their turn, or had it in this cycle. -/
def servedS : State := (fetchS 0x04824A00).updCore 0 fun c => { c with ctlAt := some (fetchS 0x04824A00).now }
theorem witness_turn : (acting (fetchS 0x04824A00)).faultWaits 1 = false ∧ (acting (fetchS 0x04824A00)).laneTrapDue 1 = false ∧
    ({ fetchS 0x04824A00 with agenda := [] } : State).ctlTurn 1 = true ∧ ({ fetchS 0 with agenda := [] } : State).ctlTurn 1 = true ∧
    ({ servedS with agenda := [] } : State).ctlTurn 1 = false ∧ (acting (fetchL ffmaWord)).ctlTrapDue 1 = false := by decide +kernel
/-- A split stands at an LBRA, in a run or before one, and the other member of its family has arrived there, or not. -/
def familyS (arrived : Bool) : State :=
  (fetchL (0x4490C000 + 0x1400 * 2 ^ 32)).updGrp 1 fun g =>
    { g with run := if arrived then none else some (1, 1), splits := [{ id := 1, mask := 0xFFFF#32, pc := loadVa, family := 1 },
        { id := 2, mask := 0xFFFF0000#32, pc := loadVa, family := 1, wait := if arrived then .family else .ready }] }
theorem witness_family : (actingL (familyS true)).kin ≠ [] ∧ (actingL (familyS true)).atFlow = true ∧ (actingL (familyS true)).gather.2 = true ∧
    (actingL (familyS false)).kin ≠ [] ∧ (actingL (familyS false)).atFlow = true ∧ (actingL (familyS false)).gather.2 = false ∧
    ((acting (familyS false)).begun 1).cg.run.isSome = true ∧
    (((acting (familyS false)).begun 1).pickSplit ((acting (familyS false)).begun 1).cg).any (fun y => y.id == 1) = true := by decide +kernel
/-- Two blocks of the grid are out, and no place is found for the first. -/
def bothOut : State := (starvedS.swapOut 1).markWoken
theorem witness_resume_tried : bothOut.resumeOrder 1 = [2] ++ 1 :: [] ∧ (bothOut.resumePlace 2).2 = none ∧
    ((bothOut.resumePlace 2).1.resumePlace 1).2.isSome = true := by decide +kernel

/-! ## Well-formedness -/

def eU : LaneEnc := { plainLane 0 0 0 .l64 with u := true }
def eD : LaneEnc := plainLane 1 0 0 .l64
def eA : LaneEnc := plainLane 0 1 0 .l64
def eB : LaneEnc := plainLane 0 0 1 .l64
def eG : LaneEnc := { plainLane 0 0 0 .l64 with g := 1 }
def eL : LaneEnc := { plainLane 0 0 0 .l64 with la := 1 }
/-- The base L64 in a long form: a literal where b holds no operand, and a C field. -/
def eK : LaneEnc := plainLane 0 0 5 (.lit 7#32)
def eC : LaneEnc := plainLane 0 0 0 (thirdC 1)
def e0 : LaneEnc := plainLane 0 0 0 .l64
/-- An L96R instruction, and ones with a bit in a field. -/
def r0 : LaneEnc := plainLane 0 0 0 (thirdC 0)
def rU : LaneEnc := { r0 with u := true }
def rB : LaneEnc := plainLane 0 0 1 (thirdC 0)
def rG : LaneEnc := { r0 with gn := true }
def conv (s d : Fmt) : ConvMod := { sfmt := s, mg := false, mag := 0, sat := false, nf := false, dfmt := d }
def mem (z : MSize) : MemMod := { xb := 0, size := z, sx := false, ord := .plain, scope := .grp, hint := .none }

/-- Control words whose fields must be 0 or even (R194, R202, R206, R219). -/
theorem ill_control : ([.waitcmp 8 9 10 false .wfr .eq, .bwait 8 9 false, .mbxsend 8 9 11, .mbxrecv 8 9 11, .sfill 8 9 10 .x16 1 false .row, .sfill 8 9 10 .x4 0 true .row,
   .sfill 8 9 10 .x4 0 false .ilv] : List Instr).all (fun i => !WellFormed i) = true := by
  decide +kernel
/-- Lane integer, predicate and flow instructions (R86, R121). -/
theorem ill_int_1 : ([.iadd eC .wrap, .isub eK .wrap, .imul eC, .imulh eC true, .iaddw eC true, .idiv eC true, .irem eC true, .imin eC true, .imax eC true,
   .imad e0, .fshf e0 true, .bfi e0, .perm e0, .iabs eA false, .not eA, .popc eA, .clz eA, .brev eA, .mov eA] : List Instr).all (fun i => !WellFormed i) = true := by
  decide +kernel
theorem ill_int_2 : ([.and eC, .or eC, .xor eC, .shl eC true, .shr eC true, .sra eC true, .bfx eC true, .iset eD { x := false, cond := .lt, pd := 0 },
   .plop (plainLane 32 0 0 .l64) .and, .plop (plainLane 0 32 0 .l64) .and, .plop (plainLane 0 0 32 .l64) .and, .plop eK .and,
   .pmov eB true, .pmov (plainLane 0 32 0 .l64) true, .pmov eA false, .pmov (plainLane 32 0 0 .l64) false, .sel (plainLane 0 0 0 (thirdC 32)), .sel e0,
   .movk eC true 5, .movk eA true 5, .movk eB true 5] : List Instr).all (fun i => !WellFormed i) = true := by
  decide +kernel
theorem ill_int_3 : ([.vote eU .all, .vote eA .all, .vote (plainLane 0 0 32 .l64) .all, .vote (plainLane 32 0 0 .l64) .all, .vote eK .all, .shfl eU .idx, .shfl eC .idx,
   .iredux rU .add, .iredux rB .add, .iredux eC .add, .iredux e0 .add, .tile eU, .tile eG, .tile eD, .tile eA, .lbra eU 5, .lbra eC 5, .lbra eD 5,
   .lbra eA 5, .lbra eB 5, .lbra eL 5, .join eG, .lstop eU, .lexit eD, .join eA, .lstop eB, .lexit eL, .join eC] : List Instr).all (fun i => !WellFormed i) = true := by
  decide +kernel
/-- Floating point, conversions and algebra (R87, R144, R156). -/
theorem ill_float_1 : ([.fadd eC .f32 .rn, .fadd e0 .h2 .rz, .fsub e0 .bh2 .ru, .fmul e0 .h2 .rd, .ffma e0 .f32 .rn, .ffma r0 .h2 .rz, .fmin eC .f32 true, .fmax eC .f32 true,
   .fset eD { x := false, cond := .lt, pd := 0 }, .fset eC { x := false, cond := .lt, pd := 0 }, .fclass eA, .frcp eA .f32, .frsq eA .f32, .fsqrt eA .f32,
   .fdiv eC, .fex2 eA .f32, .flg2 eA .f32, .fsin eA .f32, .fcos eA .f32, .ftanh eA .f32, .frnd eA .f32 .ne, .fredux rU .f32 .add, .fredux rB .f32 .add,
   .fredux eC .f32 .add, .fredux e0 .f32 .add] : List Instr).all (fun i => !WellFormed i) = true := by
  decide +kernel
theorem ill_float_2 : ([.cvtfi r0 (conv .f32 .f16), .cvtfi rB (conv .f32 .i32), .cvtfi eC (conv .f32 .i32), .cvtfi e0 (conv .f32 .i32), .cvtif r0 (conv .f32 .f32),
   .cvtif rB (conv .i32 .f32), .cvtff r0 (conv .f32 .f32) 0, .cvtff r0 (conv .f32 .f16) 1, .cvtff eC (conv .f32 .f16) 0, .cvtn r0 (conv .i8 .i8),
   .cvtn r0 { conv .f32 .e2m1 with sat := true }, .cvtn eC (conv .f32 .e4m3), .cvtk4 r0 (conv .f32 .e4m3) 0, .cvtk4 rU (conv .f32 .k4) 0,
   .cvtk4 rB (conv .f32 .k4) 0, .cvtw r0 (conv .f32 .i8), .cvtw rU (conv .f32 .e4m3), .cvtw rB (conv .f32 .e4m3)] : List Instr).all (fun i => !WellFormed i) = true := by
  decide +kernel
theorem ill_float_3 : ([.magrd eA 0, .magrd eB 0, .magclr eU 0, .magclr eD 0, .magclr eA 0, .magclr eB 0, .amul eC .f32 0, .amul e0 .f32 0, .amad e0 .f32 0, .aconj rB .f32 0,
   .anorm eC .f32 0, .ainv e0 .f32 0] : List Instr).all (fun i => !WellFormed i) = true := by
  decide +kernel
/-- Memory and atomics (R164, R165, R187). -/
theorem ill_mem_1 : ([.ldg e0 (mem .b32), .ldg r0 { mem .b32 with sx := true }, .ldg r0 { mem .b32 with ord := .rel }, .ldg r0 { mem .b32 with scope := .dom },
   .stg r0 { mem .b8 with sx := true }, .stg r0 { mem .b32 with ord := .acq }, .lds r0 { mem .b32 with xb := 1 }, .lds r0 { mem .b32 with hint := .keep },
   .sts r0 { mem .b32 with xb := 1 }, .sts r0 { mem .b32 with hint := .keep }, .sts r0 { mem .b32 with ord := .acq },
   .ldt rU { size := .b16, order := .row, dim := 0 }, .ldt r0 { size := .b64, order := .row, dim := 0 }, .stt r0 { size := .b16, order := .row, dim := 1 },
   .stt r0 { size := .b8, order := .ilv, dim := 1 }] : List Instr).all (fun i => !WellFormed i) = true := by
  decide +kernel
theorem ill_mem_2 : ([.pfg r0 (mem .b16), .pfg rU (mem .b8), .wbr r0 { mem .b8 with hint := .keep }, .wbr rU (mem .b8), .invr r0 { mem .b8 with ord := .acq }, .invr e0 (mem .b8),
   .fence rG .plain .wfr, .fence rU .plain .wfr, .fence e0 .plain .wfr, .atom r0 (mem .b16) .add, .atom r0 { mem .b32 with hint := .keep } .add,
   .atom r0 { mem .b32 with sx := true } .add, .red r0 (mem .b32) .cas, .red r0 { mem .b32 with ord := .acq } .add, .atomf r0 (mem .b64) .add false,
   .redf r0 (mem .b64) .add false, .redf r0 { mem .b32 with ord := .acq } .add false, .atoms r0 { mem .b32 with xb := 1 } .add, .atoms r0 (mem .b8) .add] : List Instr).all (fun i => !WellFormed i) = true := by
  decide +kernel
/-- The array, the FIFOs and the system in lane code (R86, R222). -/
theorem ill_system_1 : ([.mma { r0 with u := true } mmaM, .mma (plainLane 1 0 0 (thirdC 0)) mmaM, .mma eC mmaM, .mma r0 { mmaM with sel := 1 }, .mma e0 mmaM, .accz eU 0, .accz eD 0, .accz eA 0,
   .accz eB 0, .accrd rU 0 0 false 0 .f32, .accrd rB 0 0 false 0 .f32, .accrd eC 0 0 false 0 .f32, .accwr eU 0, .accwr eD 0, .accwr eC 0,
   .vpush eU true, .vpush eD true, .vpush eA true, .vpop eU true, .vpop eA true, .vpop eB true] : List Instr).all (fun i => !WellFormed i) = true := by
  decide +kernel
theorem ill_system_2 : ([.trapLane eU 5, .trapLane eD 5, .bkptLane eA 5, .tretLane eB, .tretLane eC, .sysrdLane eA .cause, .sysrdLane eB .cause, .syswrLane eD .cause,
   .syswrLane eB .cause, .mapf eB] : List Instr).all (fun i => !WellFormed i) = true := by
  decide +kernel
/-- Events of units that do not exist (R3, R373, R393). -/
theorem ill_events_1 : ([.strandRunStart 7168 0, .strandRunStart 0 16, .domainBarrierCompletion 65536 0 0, .domainBarrierCompletion 0 64 0, .chainStart 7168 .copy, .mmaStart 7168, .mmaChunk 7168,
   .sfillComplete 7168, .sclmGrant 7168, .pageWalk 7168 0 0 .load, .pageWalk 0 65536 0 .load, .regenerationEnd 64 0, .regenerationEnd 0 64, .aggregatorMerge 64,
   .freeCountReport 64, .blockMigration 64, .domainHotMark 64 0, .dirReadRequest 0 64, .dirWriteRequest 0 64, .dirEvictionNotice 0 64] : List Instr).all (fun i => !WellFormed i) = true := by
  decide +kernel
theorem ill_events_2 : ([.periodicCheckpoint 65536, .checkpointCommit 65536, .sqtail 8 0 0, .cqhead 8 0 0, .queueEnable 8 0 0, .queueDisable 8 0 0, .qstatClear 8 0 0, .coal 8 0 0,
   .registerWrite 8 0 0, .functionLevelReset 8, .linkDown 8, .bar2Read 8 0 1, .bar2Write 8 0 [], .peerWrite 65536 0 [], .interruptMessage 8 0,
   .coalescingTimerExpiry 8 0, .createContext { cmd 0 0 0 0 0 with fn := 8 }, .traverseLinkChange 288 true 0 0] : List Instr).all (fun i => !WellFormed i) = true := by
  decide +kernel
theorem ill_events_3 : ([.cairnReceive 64, .sequencerRuleTaken 64 [], .take 1792 0 0, .take 0 8 0, .post 1792 0 0, .openEp 1792 0, .closeEp 1792 0, .stepWatchdogExpiry 0 8,
   .watchdogHardwareClose 1792 0, .pop 0 4, .push 1792 0, .fstatClear 0 4 0, .gateRequest 1792, .gateComplete 1792, .gateCancel 1792, .corrieHartStart 1792 []] : List Instr).all (fun i => !WellFormed i) = true := by
  decide +kernel
/-- Events above the number that a tag of compiled code has, so matched as terms. -/
theorem ill_events_late : WellFormed (.domainClockStep 64) = false ∧ WellFormed (.victimRemoval 65536) = false ∧
    WellFormed (.evictedPageReturn 65536 0) = false ∧ WellFormed (.attributeChange 65536 0 0) = false ∧ WellFormed (.bar2Atomicop 8 0 4 .swap 0 0) = false ∧
    WellFormed (.vectorUnmask 8 0) = false ∧ WellFormed (.speculativeAccess 7168 0 0) = false ∧ WellFormed (.platformInterrupt 1792) = false := by decide +kernel

/-! ## Encodings -/

/-- Words decode to an instruction. -/
def gives {ε : Type} (r : Except ε Instr) (i : Instr) : Bool := match r with
  | .ok x => x == i
  | _ => false
def refuses (r : Except DecodeErr Instr) (e : DecodeErr) : Bool := match r with
  | .error x => x == e
  | _ => false
theorem test_control_samples : controlSamples.all (fun p => gives (decodeCtl p.1) p.2) = true := by decide +kernel
theorem test_lane_samples : laneSamples.all (fun p => gives (decodeLaneWords p.1) p.2) = true := by decide +kernel
theorem test_entry_sample : gives (decodeEntry 0x20A#64 0#64 0x4000000000000140#64 1#64)
    (.signal { prog := 0, arg := 0, flg := 2, q1 := 0, q2 := 0x4000000000000140#64, q3 := 1 }) = true := by decide +kernel
/-- The words of the samples are those of the encoder. -/
theorem witness_control_words : controlSamples.all (fun p => WellFormed p.2 && (ctlWordOf p.2).isSome && encode p.2 == [p.1]) = true := by decide +kernel
theorem witness_lane_words : laneSamples.all (fun p => WellFormed p.2 && ((l32WordOf p.2).isSome || (longEncOf p.2).isSome) && encode p.2 == p.1) = true := by
  decide +kernel
theorem witness_entry_words : (encodeEntry (.signal (ent 2 0 0 0x4000000000000140 1))).isSome = true ∧
    gives (decodeEntry 0x20A#64 0#64 0x4000000000000140#64 1#64) (.signal (ent 2 0 0 0x4000000000000140 1)) = true := by decide +kernel
/-- Reserved control words: an unassigned code, ALU function, wide move, field, FLAGS source and system register. -/
theorem witness_reserved_control : [0x00000000#32, 0xE0000000#32, 0x04000006#32, 0x04000060#32, 0x08000006#32, 0x40000001#32, 0x5C000004#32,
    0xC0000100#32, 0xC00000FF#32, 0xC4000100#32, 0xC40000FF#32].all (fun w => refuses (decodeCtl w) .illegalInstr) = true := by decide +kernel
/-- Reserved lane words: a code of L32, a long code, a wide code in two words, a C field of an L64 instruction, a literal where b is
none, LBRA and the L64 flow forms with three words, a U bit, and a guard. -/
theorem witness_reserved_lane : [[0x00000000#32], [0x06000000#32], [0x5FF00000#32, 0#32], [0x40400000#32, 0#32], [0x80000000#32, 0#32, 0x00200000#32],
    [0x84000000#32, 0x001FFC00#32, 0#32], [0x84400000#32, 0#32, 0#32], [0x44502000#32, 0#32], [0x44804000#32, 0#32]].all (fun l => refuses (decodeLaneWords l) .illegalInstr) = true := by decide +kernel
theorem witness_reserved_length : refuses (decodeLaneWords [0xC0000000#32]) .illegalLength = true := by decide +kernel

/-! ## Values that the manual gives -/

/-- R126: the two examples of `BFX.sgn`. -/
theorem test_bfx_sgn : extractField false 0x0000F300#32 0x40C#32 = 0xFFFFFFFF#32 ∧ extractField false 0x0000F300#32 0x408#32 = 3#32 := by decide +kernel
/-- R127: z = 0x0123 reverses the bytes of x. -/
theorem test_perm_reverse : permBytes 0x11223344#32 0#32 0x0123#32 = 0x44332211#32 := by decide +kernel
/-- R123: a divisor of 0, and −2³¹ / −1. -/
theorem test_idiv_corners : divide32 false 7#32 0#32 = 0xFFFFFFFF#32 ∧ remain32 false 7#32 0#32 = 7#32 ∧
    divide32 false 0x80000000#32 0xFFFFFFFF#32 = 0x80000000#32 ∧ remain32 false 0x80000000#32 0xFFFFFFFF#32 = 0#32 := by decide +kernel
/-- R57: E4M3's 464 gives 448 with NX only, under either rule; E2M1's 6.875 gives 6, and 7 overflows; K4 type 00's −8.5 gives −8. -/
theorem test_overflow_points : (toFmt .e4m3 0 (.mode .rn) false (.fin false 464 0)).val = 0x7E ∧ (toFmt .e4m3 0 (.mode .rn) false (.fin false 464 0)).flags = fNX ∧
    (toFmt .e2m1 0 (.mode .rn) true (.fin false 55 (-3))).val = 7 ∧ (toFmt .e2m1 0 (.mode .rn) true (.fin false 55 (-3))).flags = fNX ∧
    (toFmt .e2m1 0 (.mode .rn) true (.fin false 7 0)).flags = fOF ||| fNX ∧ (toFmt .k4 0 (.mode .rn) true (.fin true 17 (-1))).val = 8 ∧
    (toFmt .k4 0 (.mode .rn) true (.fin true 17 (-1))).flags = fNX := by decide +kernel
/-- R62: under ties-away E2M1 takes 2.5 to 3, 0.25 to 0.5 and −5 to −6; ties-to-even takes 2.5 to 2 and 0.25 to 0. -/
theorem test_ties_away : (toFmt .e2m1 0 .away true (.fin false 5 (-1))).val = 5 ∧ (toFmt .e2m1 0 .away true (.fin false 1 (-2))).val = 1 ∧
    (toFmt .e2m1 0 .away true (.fin true 5 0)).val = 15 ∧ (toFmt .e2m1 0 (.mode .rn) true (.fin false 5 (-1))).val = 4 ∧
    (toFmt .e2m1 0 (.mode .rn) true (.fin false 1 (-2))).val = 0 := by decide +kernel
/-- The example after R322: where one DRAM byte and one scratchpad byte live. -/
theorem test_one_byte : State.reset.place 0x009023456780 = .dram 9 0x23456780 ∧ sliceOf 0x009023456780 = 66 ∧ State.reset.slice 9 0x009023456780 = 66 ∧
    State.reset.channel 0x009023456780 = 29 ∧ State.reset.place 0x925500100040 = .scratch (112 * 9 + 21) 0x100040 ∧
    scratchPa (112 * 9 + 21) 0x100040 = 0x925500100040 := by decide +kernel

/-! ## Single steps from the state after reset, with one word placed -/

/-- A test holds of the next state. -/
def nexts (o : Host.Outcome State Fault Refusal) (f : State → Bool) : Bool := match o with
  | .next t => f t
  | _ => false
/-- R98: `SMOVW.z s8, 0x1234, 2` leaves 0x0000_1234_0000_0000 in s8; the PC goes on. -/
theorem test_step_smovw : nexts (step (State.reset.withFetchWord 32 0x188A1234)) (fun t =>
    t.cg.rs 8 == 0x0000123400000000#64 && t.cg.cpc == loadVa + 4#64) = true := by decide +kernel
/-- R98: `SADD s8, s9, s10` of two zero registers. -/
theorem test_step_sadd : nexts (step (State.reset.withFetchWord 32 0x04824A00)) (fun t => t.cg.rs 8 == 0#64 && t.cg.cpc == loadVa + 4#64) = true := by
  decide +kernel
/-- R261: a word of no instruction traps; without a handler the grid ends TRAPPED, with cause 1. -/
theorem test_step_illegal : nexts (step { State.reset.withFetchWord 32 0 with agenda := [.ctl 1, .ev (.trapEntryControl 1)] }) (fun t =>
    nexts (step t) fun u => (u.gridOf 1).status == 3 && (u.gridOf 1).cause == 1) = true := by decide +kernel
/-- The L32 form of `MOV v1, 10` of the example after R143 writes 10 to lanes 0 and 31 of v1. -/
theorem test_step_mov : nexts (step (State.reset.withFetchWord 32 0x00801CD4)) (fun t => t.cg.rv 1 0 == 10#32 && t.cg.rv 1 31 == 10#32) = true := by
  decide +kernel
/-- R22, R33: a v register holds its marker at launch, and %tile is 5. -/
theorem test_launch_marker : (lab true).cg.rv 5 3 = 0x7FB00005#32 ∧ (lab true).cg.tile = 5 := by decide +kernel

end Sys2Proof.Machine.Slice0Tests
end

section
/-!
SUPPORT. The integer arithmetic of the lanes (05_lane_integer_and_flow.md R122 to R124): each function of the model is the one of
numbers that the rule states, and O20 follows.
-/

namespace Sys2Proof.Machine

/-! ## Instructions of one, two and three operands -/

theorem writesV_of_eq {o : Out} {s : State} {e : LaneEnc} {len : Nat} {f g : Nat → W32} (h : WritesV o s e len f)
    (hfg : ∀ l, f l = g l) : WritesV o s e len g := funext hfg ▸ h

theorem writesTwo_int2 {s : State} {e : LaneEnc} {f g : W32 → W32 → W32} (h : s.LaneReady e (fldsTwo e))
    (hfg : ∀ x y, f x y = g x y) : writesTwo (.next (s.int2 e f)) s e g :=
  writesV_of_eq (writesV_laneV h) fun _ => hfg _ _
theorem writesOne_int1 {s : State} {e : LaneEnc} {len : Nat} {f g : W32 → W32} (h : s.LaneReady e (fldsOne e))
    (hfg : ∀ y, f y = g y) : writesOne (.next (s.int1 e len f)) s e len g :=
  writesV_of_eq (writesV_laneV h) fun _ => hfg _
theorem writesThree_int3 {s : State} {e : LaneEnc} {f g : W32 → W32 → W32 → W32} (h : s.LaneReady e (fldsThree e))
    (hfg : ∀ x y z, f x y z = g x y z) : writesThree (.next (s.int3 e f)) s e g :=
  writesV_of_eq (writesV_laneV h) fun _ => hfg _ _ _

/-! ## The arithmetic functions (R122 to R124) -/

theorem saturated_eq_max_min {lo hi : Int} (h : lo ≤ hi) (x : Int) : max lo (min hi x) = saturated lo hi x := by
  unfold saturated; omega

theorem satAdd_wrap_add (x y : W32) : satAdd .wrap x y false = BitVec.ofNat 32 (x.toNat + y.toNat) :=
  BitVec.add_def x y
theorem satAdd_wrap_sub (x y : W32) : satAdd .wrap x y true = BitVec.ofInt 32 (x.toInt - y.toInt) := by
  show x - y = _
  exact BitVec.eq_of_toInt_eq (by rw [BitVec.toInt_sub, BitVec.toInt_ofInt])
theorem satAdd_sat_add (x y : W32) :
    satAdd .sat x y false = BitVec.ofInt 32 (saturated (-2 ^ 31) (2 ^ 31 - 1) (x.toInt + y.toInt)) :=
  congrArg (BitVec.ofInt 32) (saturated_eq_max_min (by decide) _)
theorem satAdd_sat_sub (x y : W32) :
    satAdd .sat x y true = BitVec.ofInt 32 (saturated (-2 ^ 31) (2 ^ 31 - 1) (x.toInt - y.toInt)) :=
  congrArg (BitVec.ofInt 32) (saturated_eq_max_min (by decide) _)
theorem satAdd_usat_add (x y : W32) :
    satAdd .usat x y false = BitVec.ofNat 32 (min (x.toNat + y.toNat) (2 ^ 32 - 1)) := by
  have : max 0 (min (2 ^ 32 - 1) ((x.toNat : Int) + y.toNat)) = (min (x.toNat + y.toNat) (2 ^ 32 - 1) : Nat) := by omega
  simp only [satAdd, Bool.false_eq_true, if_false, this, BitVec.ofInt_natCast]
/-- The unsigned difference stops at 0, as the subtraction of natural numbers does. -/
theorem satAdd_usat_sub (x y : W32) : satAdd .usat x y true = BitVec.ofNat 32 (x.toNat - y.toNat) := by
  have hx := x.isLt
  have : max 0 (min (2 ^ 32 - 1) ((x.toNat : Int) - y.toNat)) = (x.toNat - y.toNat : Nat) := by omega
  simp only [satAdd, if_true, this, BitVec.ofInt_natCast]


theorem divide32_unsigned (x y : W32) :
    divide32 true x y = if y = 0#32 then 0xFFFFFFFF#32 else BitVec.ofNat 32 (x.toNat / y.toNat) := by
  simp only [divide32, beq_iff_eq, if_true, BitVec.udiv_def]
theorem divide32_signed (x y : W32) :
    divide32 false x y = if y = 0#32 then 0xFFFFFFFF#32 else BitVec.ofInt 32 (x.toInt.tdiv y.toInt) := by
  have : x.sdiv y = BitVec.ofInt 32 (x.toInt.tdiv y.toInt) := by
    exact BitVec.eq_of_toInt_eq (by rw [BitVec.toInt_sdiv, BitVec.toInt_ofInt])
  simp only [divide32, beq_iff_eq, Bool.false_eq_true, if_false, this]
theorem remain32_unsigned (x y : W32) :
    remain32 true x y = if y = 0#32 then x else BitVec.ofNat 32 (x.toNat % y.toNat) := by
  simp only [remain32, beq_iff_eq, if_true, BitVec.umod_def]
theorem remain32_signed (x y : W32) :
    remain32 false x y = if y = 0#32 then x else BitVec.ofInt 32 (x.toInt.tmod y.toInt) := by
  simp only [remain32, beq_iff_eq, Bool.false_eq_true, if_false, ← BitVec.toInt_srem, BitVec.ofInt_toInt]

theorem lesser32_unsigned (x y : W32) : lesser32 true x y = if x.toNat < y.toNat then x else y := by
  simp [lesser32, BitVec.ult_eq_decide]
theorem lesser32_signed (x y : W32) : lesser32 false x y = if x.toInt < y.toInt then x else y := by
  simp [lesser32, BitVec.slt_eq_decide]
theorem greater32_unsigned (x y : W32) : greater32 true x y = if x.toNat < y.toNat then y else x := by
  simp [greater32, BitVec.ult_eq_decide]
theorem greater32_signed (x y : W32) : greater32 false x y = if x.toInt < y.toInt then y else x := by
  simp [greater32, BitVec.slt_eq_decide]

theorem abs32_wrap (y : W32) : abs32 false y = BitVec.ofInt 32 y.toInt.natAbs := by
  have hm : y.getLsbD 31 = decide (y.toInt < 0) := y.msb_eq_getLsbD_last.symm.trans BitVec.msb_eq_toInt
  simp only [abs32, Bool.and_false, Bool.false_eq_true, if_false, hm, decide_eq_true_eq]
  split
  · next h => rw [Int.ofNat_natAbs_of_nonpos (Int.le_of_lt h), BitVec.ofInt_neg, BitVec.ofInt_toInt, BitVec.zero_sub]
  · next h => rw [Int.natAbs_of_nonneg (Int.not_lt.mp h), BitVec.ofInt_toInt]
theorem abs32_sat (y : W32) : abs32 true y = BitVec.ofInt 32 (min y.toInt.natAbs (2 ^ 31 - 1)) := by
  by_cases h : y = 0x80000000#32
  · subst h; decide
  · have hn : y.toInt ≠ -2 ^ 31 := fun hc => h (BitVec.eq_of_toInt_eq hc)
    have hlo : -2 ^ 31 ≤ y.toInt := y.le_toInt
    have hhi : y.toInt < 2 ^ 31 := y.toInt_lt
    have : min (y.toInt.natAbs : Int) (2 ^ 31 - 1) = y.toInt.natAbs := by omega
    rw [this, ← abs32_wrap]
    simp [abs32, h]

/-- Adding the zero-extended operand adds the numbers (R124). -/
theorem add_setWidth (x : W64) (y : W32) : x + y.setWidth 64 = BitVec.ofNat 64 (x.toNat + y.toNat) := by
  apply BitVec.eq_of_toNat_eq
  simp
theorem add_signExtend (x : W64) (y : W32) : x + y.signExtend 64 = BitVec.ofInt 64 (x.toInt + y.toInt) := by
  apply BitVec.eq_of_toInt_eq
  rw [BitVec.toInt_add, BitVec.toInt_ofInt, BitVec.toInt_signExtend_of_le (by decide)]

theorem mul_add_eq_ofNat (x y z : W32) : x * y + z = BitVec.ofNat 32 (x.toNat * y.toNat + z.toNat) := by
  apply BitVec.eq_of_toNat_eq
  simp

/-- Settles O20: every form is an instruction of one, two or three operands whose function is, by the lemmas above, the one
that R122 to R124 state. -/
theorem laneArithmeticWritesItsResult : Obligations.LaneArithmeticWritesItsResult := by
  unfold Obligations.LaneArithmeticWritesItsResult
  intro s e
  refine ⟨fun h => ?_, fun h => ?_, fun h => ?_, fun h => ?_⟩
  · exact ⟨writesTwo_int2 h satAdd_wrap_add, writesTwo_int2 h satAdd_wrap_sub, writesTwo_int2 h satAdd_sat_add,
      writesTwo_int2 h satAdd_sat_sub, writesTwo_int2 h satAdd_usat_add, writesTwo_int2 h satAdd_usat_sub,
      writesTwo_int2 h fun _ _ => BitVec.mul_def, writesTwo_int2 h fun _ _ => rfl, writesTwo_int2 h fun _ _ => rfl,
      writesTwo_int2 h divide32_unsigned, writesTwo_int2 h divide32_signed, writesTwo_int2 h remain32_unsigned,
      writesTwo_int2 h remain32_signed, writesTwo_int2 h lesser32_unsigned, writesTwo_int2 h lesser32_signed,
      writesTwo_int2 h greater32_unsigned, writesTwo_int2 h greater32_signed⟩
  · exact writesThree_int3 h mul_add_eq_ofNat
  · exact ⟨writesOne_int1 h abs32_wrap, writesOne_int1 h abs32_sat⟩
  · simp only [← add_setWidth, ← add_signExtend]
    exact ⟨writesV64_laneV64 h, writesV64_laneV64 h⟩

end Sys2Proof.Machine
end

section
/-!
SUPPORT. The logic, shift, bit-field and byte instructions of the lanes (05_lane_integer_and_flow.md R125 to R127): what each function
of the model gives, as a number or bit by bit, and O21.
-/

namespace Sys2Proof.Machine

/-! ## Words that a predicate of the operands describes -/

theorem writesSuch_int1 {s : State} {e : LaneEnc} {len : Nat} {f : W32 → W32} {p : Nat → W32 → Prop}
    (h : s.LaneReady e (fldsOne e)) (hp : ∀ l, p l (f (s.opB e .f32 l))) : writesSuch (.next (s.int1 e len f)) s e len p :=
  ⟨_, writesV_laneV h, fun l _ => hp l⟩
theorem writesSuch_int2 {s : State} {e : LaneEnc} {f : W32 → W32 → W32} {p : Nat → W32 → Prop}
    (h : s.LaneReady e (fldsTwo e)) (hp : ∀ l, p l (f (s.opA e .f32 l) (s.opB e .f32 l))) :
    writesSuch (.next (s.int2 e f)) s e e.bytes p :=
  ⟨_, writesV_laneV h, fun l _ => hp l⟩
theorem writesSuch_int3 {s : State} {e : LaneEnc} {f : W32 → W32 → W32 → W32} {p : Nat → W32 → Prop}
    (h : s.LaneReady e (fldsThree e)) (hp : ∀ l, p l (f (s.opA e .f32 l) (s.opB e .f32 l) (s.opC e .f32 l))) :
    writesSuch (.next (s.int3 e f)) s e e.bytes p :=
  ⟨_, writesV_laneV h, fun l _ => hp l⟩

/-! ## Shifts (R125) -/

theorem shiftLeft_eq_ofNat (x : W32) (n : Nat) : x <<< n = BitVec.ofNat 32 (x.toNat * 2 ^ n) := by
  apply BitVec.eq_of_toNat_eq
  rw [BitVec.toNat_shiftLeft, BitVec.toNat_ofNat, Nat.shiftLeft_eq]
theorem ushiftRight_eq_ofNat (x : W32) (n : Nat) : x >>> n = BitVec.ofNat 32 (x.toNat / 2 ^ n) := by
  rw [← Nat.shiftRight_eq_div_pow, ← BitVec.toNat_ushiftRight, BitVec.ofNat_toNat, BitVec.setWidth_eq]
theorem sshiftRight_eq_ofInt (x : W32) (n : Nat) : x.sshiftRight n = BitVec.ofInt 32 (x.toInt / 2 ^ n) := by
  rw [BitVec.sshiftRight, Int.shiftRight_eq_div_pow]; norm_cast

theorem shiftBy_clamp_of_le {y : W32} (h : 32 ≤ y.toNat) : shiftBy true y = 32 := Nat.min_eq_left h
theorem shiftBy_clamp_of_lt {y : W32} (h : ¬ 32 ≤ y.toNat) : shiftBy true y = y.toNat := Nat.min_eq_right (by omega)

theorem shiftLeft_clamp (x y : W32) :
    x <<< shiftBy true y = if 32 ≤ y.toNat then 0#32 else BitVec.ofNat 32 (x.toNat * 2 ^ y.toNat) := by
  split
  · next h => rw [shiftBy_clamp_of_le h, BitVec.shiftLeft_eq_zero (by decide)]
  · next h => rw [shiftBy_clamp_of_lt h, shiftLeft_eq_ofNat]
theorem ushiftRight_clamp (x y : W32) :
    x >>> shiftBy true y = if 32 ≤ y.toNat then 0#32 else BitVec.ofNat 32 (x.toNat / 2 ^ y.toNat) := by
  split
  · next h => rw [shiftBy_clamp_of_le h, BitVec.ushiftRight_eq_zero (by decide)]
  · next h => rw [shiftBy_clamp_of_lt h, ushiftRight_eq_ofNat]
/-- A shift by 32 leaves copies of the sign alone. -/
theorem sshiftRight_clamp (x y : W32) :
    x.sshiftRight (shiftBy true y) =
      if 32 ≤ y.toNat then (if x.toInt < 0 then 0xFFFFFFFF#32 else 0#32) else BitVec.ofInt 32 (x.toInt / 2 ^ y.toNat) := by
  split
  · next h =>
    have hlo : -2 ^ 31 ≤ x.toInt := x.le_toInt
    have hhi : x.toInt < 2 ^ 31 := x.toInt_lt
    rw [shiftBy_clamp_of_le h, sshiftRight_eq_ofInt]
    split
    · next hn => rw [show x.toInt / 2 ^ 32 = -1 by omega]; rfl
    · next hn => rw [show x.toInt / 2 ^ 32 = 0 by omega]; rfl
  · next h => rw [shiftBy_clamp_of_lt h, sshiftRight_eq_ofInt]

/-- The 64-bit value that FSHF shifts. -/
theorem toNat_append_words (x y : W32) : (x ++ y : W64).toNat = x.toNat * 2 ^ 32 + y.toNat := by
  rw [BitVec.toNat_append, ← Nat.shiftLeft_add_eq_or_of_lt y.isLt, Nat.shiftLeft_eq]
theorem funnel_left (x y z : W32) :
    funnel false x y z = BitVec.ofNat 32 ((x.toNat * 2 ^ 32 + y.toNat) * 2 ^ (z.toNat % 32) / 2 ^ 32) := by
  apply BitVec.eq_of_toNat_eq
  simp only [funnel, Bool.false_eq_true, if_false, BitVec.extractLsb'_toNat, BitVec.toNat_shiftLeft, toNat_append_words,
    BitVec.toNat_ofNat, Nat.shiftLeft_eq, Nat.shiftRight_eq_div_pow]
  omega
theorem funnel_right (x y z : W32) :
    funnel true x y z = BitVec.ofNat 32 ((x.toNat * 2 ^ 32 + y.toNat) / 2 ^ (z.toNat % 32)) := by
  apply BitVec.eq_of_toNat_eq
  simp only [funnel, if_true, BitVec.extractLsb'_toNat, BitVec.toNat_ushiftRight, toNat_append_words, BitVec.toNat_ofNat,
    Nat.shiftRight_eq_div_pow, Nat.pow_zero, Nat.div_one]

/-! ## Bit fields (R126) -/

/-- A field of the bits of a word from a position on. -/
theorem getLsbD_ofNat_field (v : Nat) (x : W32) (pos w k : Nat) :
    (BitVec.ofNat v (x.toNat / 2 ^ pos % 2 ^ w)).getLsbD k = (decide (k < v) && (decide (k < w) && x.getLsbD (pos + k))) := by
  rw [BitVec.getLsbD_ofNat, Nat.testBit_mod_two_pow, Nat.testBit_div_two_pow, BitVec.testBit_toNat, Nat.add_comm]
/-- The signed value of w bits, as a word, is the sign extension of these bits. -/
theorem ofInt_signedOf {w : Nat} (hw : 0 < w) (v : Nat) :
    BitVec.ofInt 32 (signedOf w v) = (BitVec.ofNat w v).signExtend 32 := by
  obtain ⟨n, rfl⟩ : ∃ n, w = n + 1 := ⟨w - 1, by omega⟩
  have : signedOf (n + 1) v = (BitVec.ofNat (n + 1) v).toInt := by
    rw [BitVec.toInt_eq_toNat_cond, BitVec.toNat_ofNat, signedOf]
    have h2 : 2 ^ (n + 1) = 2 * 2 ^ n := Nat.pow_succ'
    have hc : v % 2 ^ (n + 1) < 2 ^ n ↔ 2 * (v % 2 ^ (n + 1)) < 2 ^ (n + 1) := by omega
    simp only [Nat.add_sub_cancel, hc]
    norm_cast
  rw [this]; rfl

theorem fieldOf_eq (y : W32) :
    fieldOf y = (y.toNat % 32, min (y.toNat / 256 % 64) (32 - y.toNat % 32)) := rfl

/-- BFX: the bits of the field, and above them 0 or copies of its top bit. -/
theorem getLsbD_extractField {pos w : Nat} {uns : Bool} {x y : W32} (hf : fieldOf y = (pos, w)) {k : Nat} (hk : k < 32) :
    (extractField uns x y).getLsbD k =
      if k < w then x.getLsbD (pos + k) else !uns && decide (0 < w) && x.getLsbD (pos + w - 1) := by
  simp only [extractField, hf, beq_iff_eq]
  by_cases h0 : w = 0
  · simp [h0]
  · have hw : 0 < w := by omega
    cases uns with
    | true => by_cases hkw : k < w <;> simp [h0, hk, hkw, getLsbD_ofNat_field, -BitVec.getLsbD_eq_getElem]
    | false =>
      have hm : w - 1 < w := by omega
      have hs : pos + (w - 1) = pos + w - 1 := by omega
      by_cases hkw : k < w <;> simp [h0, hk, hkw, hw, hm, hs, ofInt_signedOf hw, BitVec.getLsbD_signExtend,
        BitVec.msb_eq_getLsbD_last, getLsbD_ofNat_field, -BitVec.getLsbD_eq_getElem]
/-- BFI: the low bits of y at the field, and x elsewhere. -/
theorem getLsbD_insertField {pos w : Nat} {x y z : W32} (hf : fieldOf z = (pos, w)) {k : Nat} (hk : k < 32) :
    (insertField x y z).getLsbD k = if pos ≤ k ∧ k < pos + w then y.getLsbD (k - pos) else x.getLsbD k := by
  have hm : (BitVec.ofNat 32 ((2 ^ w - 1) * 2 ^ pos)).getLsbD k = decide (pos ≤ k ∧ k < pos + w) := by
    rw [BitVec.getLsbD_ofNat, Nat.testBit_mul_two_pow, Nat.testBit_two_pow_sub_one]
    simp only [hk, decide_true, Bool.true_and, ← Bool.decide_and]
    exact decide_eq_decide.mpr (by omega)
  by_cases h : pos ≤ k ∧ k < pos + w
  · simp [insertField, hf, hm, h, hk, -BitVec.getLsbD_eq_getElem]
  · simp only [insertField, hf, hm, h, hk, BitVec.getLsbD_or, BitVec.getLsbD_and, BitVec.getLsbD_not, decide_true, decide_false,
      Bool.not_false, Bool.and_true, Bool.and_false, Bool.or_false, if_false]

/-- The lanes' mask of the bits of a word from the top down. -/
theorem getLsbD_revBits (y : W32) {k : Nat} (hk : k < 32) : (revBits y).getLsbD k = y.getLsbD (31 - k) := by
  rw [revBits, getLsbD_laneMask _ _ hk, Bool.eq_iff_iff, List.contains_iff_mem, List.mem_filter, List.mem_range]
  simp [hk]

theorem length_filter_eq_sum_toNat {α : Type} (p : α → Bool) (l : List α) :
    (l.filter p).length = (l.map fun k => (p k).toNat).sum := by
  induction l with
  | nil => rfl
  | cons k t ih => cases hp : p k <;> simp [hp, ih, Nat.add_comm]
theorem toNat_popCount (y : W32) : (popCount y).toNat = ((List.range 32).map fun k => (y.getLsbD k).toNat).sum := by
  have : ((List.range 32).filter fun k => y.getLsbD k).length ≤ 32 := by
    simpa using List.length_filter_le (fun k => y.getLsbD k) (List.range 32)
  rw [popCount, BitVec.toNat_ofNat, Nat.mod_eq_of_lt (by omega), length_filter_eq_sum_toNat]

/-- A word whose n highest bits are clear. -/
theorem toNat_lt_of_high_bits_clear {y : W32} {n : Nat} (h : ∀ j, j < n → y.getLsbD (31 - j) = false) :
    y.toNat < 2 ^ (32 - n) := by
  refine Nat.lt_pow_two_of_testBit _ fun i hi => ?_
  rw [BitVec.testBit_toNat]
  by_cases h32 : i < 32
  · simpa [show 31 - (31 - i) = i by omega] using h (31 - i) (by omega)
  · exact BitVec.getLsbD_of_ge _ _ (by omega)
/-- CLZ: the first set bit from the top bounds the word from both sides, and 32 says that there is none. -/
theorem leadZeros_bounds (y : W32) :
    y.toNat < 2 ^ (32 - (leadZeros y).toNat) ∧ (leadZeros y).toNat ≤ 32 ∧
    ((leadZeros y).toNat < 32 → 2 ^ (31 - (leadZeros y).toNat) ≤ y.toNat) := by
  cases hf : (List.range 32).find? fun k => y.getLsbD (31 - k) with
  | none =>
    have hz : (leadZeros y).toNat = 32 := by simp [leadZeros, hf]
    rw [hz]
    have clear (j : Nat) (hj : j < 32) : y.getLsbD (31 - j) = false := by
      simpa using List.find?_eq_none.mp hf j (List.mem_range.mpr hj)
    exact ⟨toNat_lt_of_high_bits_clear clear, Nat.le_refl _, fun h => absurd h (by decide)⟩
  | some r =>
    obtain ⟨hb, hr, hlow⟩ := List.find?_range_eq_some.mp hf
    have hr := List.mem_range.mp hr
    have hz : (leadZeros y).toNat = r := by
      simp only [leadZeros, hf, Option.getD_some, BitVec.toNat_ofNat]; omega
    rw [hz]
    exact ⟨toNat_lt_of_high_bits_clear fun j hj => by simpa using hlow j hj, Nat.le_of_lt hr, fun _ => Nat.ge_two_pow_of_testBit hb⟩

/-! ## PERM (R127) -/

/-- The byte that PERM places at k. -/
def permByte (x y z : W32) (k : Nat) : Byte :=
  let n := bitsOf z.toNat (4 * k + 3) (4 * k)
  let b := (y ++ x : W64).extractLsb' (8 * (n % 8)) 8
  if n < 8 then b else if b.getLsbD 7 then 0xFF#8 else 0#8
theorem permBytes_eq (x y z : W32) :
    permBytes x y z = permByte x y z 3 ++ permByte x y z 2 ++ permByte x y z 1 ++ permByte x y z 0 := rfl

/-- Byte k of a word. -/
theorem toNat_byte {n : Nat} (x : BitVec n) (k : Nat) : (x.extractLsb' (8 * k) 8).toNat = x.toNat / 256 ^ k % 256 := by
  rw [BitVec.extractLsb'_toNat, Nat.shiftRight_eq_div_pow]
  exact congrArg (x.toNat / · % 256) (Nat.pow_mul 2 8 k)
theorem byte_append_four (b : Nat → Byte) {k : Nat} (hk : k < 4) :
    (b 3 ++ b 2 ++ b 1 ++ b 0 : W32).extractLsb' (8 * k) 8 = b k := by
  match k, hk with
  | 0, _ => exact BitVec.extractLsb'_append_eq_right
  | 1, _ => rw [BitVec.extractLsb'_append_eq_of_le (by decide)]; exact BitVec.extractLsb'_append_eq_right
  | 2, _ =>
    rw [BitVec.extractLsb'_append_eq_of_le (by decide), BitVec.extractLsb'_append_eq_of_le (by decide)]
    exact BitVec.extractLsb'_append_eq_right
  | 3, _ =>
    rw [BitVec.extractLsb'_append_eq_of_le (by decide), BitVec.extractLsb'_append_eq_of_le (by decide)]
    exact BitVec.extractLsb'_append_eq_left
/-- Bytes 0 to 3 of the source are those of x, bytes 4 to 7 those of y. -/
theorem toNat_byte_append_words (x y : W32) {m : Nat} (hm : m < 8) :
    ((y ++ x : W64).extractLsb' (8 * m) 8).toNat = (if m < 4 then x.toNat / 256 ^ m else y.toNat / 256 ^ (m - 4)) % 256 := by
  split
  · next h => rw [BitVec.extractLsb'_append_eq_of_add_le (by omega), toNat_byte]
  · next h => rw [BitVec.extractLsb'_append_eq_of_le (by omega), show 8 * m - 32 = 8 * (m - 4) by omega, toNat_byte]

/-- A source code of 8 to 15 replicates the sign of its byte. -/
theorem toNat_permByte (x y z : W32) (k : Nat) :
    let n := z.toNat / 16 ^ k % 16
    let byte := (if n % 8 < 4 then x.toNat / 256 ^ (n % 8) else y.toNat / 256 ^ (n % 8 - 4)) % 256
    (permByte x y z k).toNat = if n < 8 then byte else if 128 ≤ byte then 255 else 0 := by
  have hn : bitsOf z.toNat (4 * k + 3) (4 * k) = z.toNat / 16 ^ k % 16 := by
    rw [bitsOf, show 4 * k + 3 + 1 - 4 * k = 4 by omega]
    exact congrArg (z.toNat / · % 16) (Nat.pow_mul 2 4 k)
  have hb := toNat_byte_append_words x y (m := z.toNat / 16 ^ k % 16 % 8) (Nat.mod_lt _ (by decide))
  have hs (b : Byte) : b.getLsbD 7 = decide (128 ≤ b.toNat) := b.msb_eq_getLsbD_last.symm.trans b.msb_eq_decide
  simp only [permByte, hn, hs, hb, decide_eq_true_eq, apply_ite BitVec.toNat]
  rfl

/-- Settles O21: every form is an instruction of one, two or three operands, and the lemmas above describe its function as
R125 to R127 do, by a number or bit by bit. -/
theorem laneLogicWritesItsResult : Obligations.LaneLogicWritesItsResult := by
  unfold Obligations.LaneLogicWritesItsResult
  intro s e
  refine ⟨fun h => ?_, fun h => ?_, fun h => ?_⟩
  · exact ⟨writesTwo_int2 h fun _ _ => rfl, writesTwo_int2 h fun _ _ => rfl, writesTwo_int2 h fun _ _ => rfl,
      writesTwo_int2 h fun x _ => shiftLeft_eq_ofNat x _, writesTwo_int2 h fun x _ => ushiftRight_eq_ofNat x _,
      writesTwo_int2 h fun x _ => sshiftRight_eq_ofInt x _, writesTwo_int2 h shiftLeft_clamp,
      writesTwo_int2 h ushiftRight_clamp, writesTwo_int2 h sshiftRight_clamp,
      fun _ => writesSuch_int2 h fun _ _ hk => getLsbD_extractField (fieldOf_eq _) hk⟩
  · exact ⟨writesSuch_int1 h fun _ k hk => by simp only [BitVec.getLsbD_not, hk, decide_true, Bool.true_and],
      writesSuch_int1 h fun _ _ hk => getLsbD_revBits _ hk, writesSuch_int1 h fun _ => toNat_popCount _,
      writesSuch_int1 h fun _ => leadZeros_bounds _⟩
  · exact ⟨writesThree_int3 h funnel_left, writesThree_int3 h funnel_right,
      writesSuch_int3 h fun _ _ hk => getLsbD_insertField (fieldOf_eq _) hk, writesSuch_int3 h fun l k hk => by
        rw [permBytes_eq, ← toNat_byte, byte_append_four _ hk]; exact toNat_permByte _ _ _ k⟩

end Sys2Proof.Machine
end

section
/-!
SUPPORT. Compares, predicate logic, moves between predicates and registers, and the select (05_lane_integer_and_flow.md R128 to R130),
and O23.
-/

namespace Sys2Proof.Machine

/-! ## Predicates -/

/-- A predicate receives the truth of a proposition that a Boolean decides. -/
theorem writesTruth_laneP {s : State} {e : LaneEnc} {pd : Nat} {flds : List Fld} {f : State → Nat → Bool} {whole : Bool}
    {p : Nat → Prop} (h : s.LaneReady e flds whole) (hp : ∀ l, l < 32 → (f s l = true ↔ p l)) :
    writesTruth (.next (s.laneP e e.bytes flds pd f whole)) s e pd p :=
  ⟨f s, writesP_laneP h, hp⟩

/-- The number that an operand of a compare stands for (R87). -/
def compared (uns : Bool) (x : W32) : Int := if uns then x.toNat else x.toInt
theorem compared_inj (uns : Bool) (x y : W32) : x = y ↔ compared uns x = compared uns y := by
  cases uns with
  | true => exact (Int.ofNat_inj.trans BitVec.toNat_inj).symm
  | false => exact BitVec.toInt_inj.symm
theorem ult_or_slt_eq_compared (uns : Bool) (x y : W32) :
    (if uns then x.ult y else x.slt y) = decide (compared uns x < compared uns y) := by
  cases uns with
  | true => simp [compared, BitVec.ult_eq_decide]
  | false => exact BitVec.slt_eq_decide

/-- The conditions of a compare field, on the numbers that the operands stand for (R87, R128). -/
theorem intHolds_iff (c : LCond) (uns : Bool) (x y : W32) : intHolds c uns x y = true ↔ laneConditionHolds c uns x y := by
  have he := compared_inj uns x y
  have hl := ult_or_slt_eq_compared uns x y
  unfold compared at he hl
  unfold laneConditionHolds
  cases c <;> simp only [intHolds, hl, beq_iff_eq, bne_iff_ne, ne_eq, Bool.or_eq_true, Bool.not_eq_true', Bool.or_eq_false_iff,
    decide_eq_true_eq, decide_eq_false_iff_not, beq_eq_false_iff_ne, he] <;> omega

theorem exec_pmov_to_predicate (e : LaneEnc) (s : State) :
    exec (.pmov e false) s = .next (s.laneP e e.bytes [Fld.pred e.dst.toNat, Fld.noHi e.ha, Fld.b e, Fld.noHi e.hc] e.dst.toNat
      fun s l => s.opB e .f32 l != 0#32) := rfl
theorem exec_pmov_to_register (e : LaneEnc) (s : State) :
    exec (.pmov e true) s = .next (s.laneV e e.bytes [Fld.dst e.dst, Fld.pred e.a.toNat, noHis e]
      fun s l => if s.cg.rp e.a.toNat l then 1#32 else 0#32) := rfl

/-- Settles O23: the compares by `intHolds_iff`; predicate logic by the truth of each operation; the moves and the select write
the word or the truth that the model computes. -/
theorem lanePredicateInstructionsWriteTheirTruth : Obligations.LanePredicateInstructionsWriteTheirTruth := by
  unfold Obligations.LanePredicateInstructionsWriteTheirTruth
  refine ⟨fun s e f h => ?_, fun s e h => ?_, fun s e h => ?_, fun s e h => ?_, fun s e h => ?_⟩
  · exact writesTruth_laneP h fun l _ => intHolds_iff _ _ _ _
  · refine ⟨?_, ?_, ?_, ?_⟩ <;> refine writesTruth_laneP h fun l _ => ?_
    · simp only [predOp, Bool.and_eq_true]
    · simp only [predOp, Bool.or_eq_true]
    · simp only [predOp, bne_iff_ne, ne_eq, Bool.eq_iff_iff (b := s.cg.rp e.b.toNat l)]
    · simp only [predOp, Bool.and_eq_true, Bool.not_eq_true', Bool.not_eq_true]
  · rw [exec_pmov_to_predicate]
    exact writesTruth_laneP h fun l _ => bne_iff_ne
  · rw [exec_pmov_to_register]
    exact writesV_laneV h
  · exact writesV_laneV h

end Sys2Proof.Machine
end

section
/-!
SUPPORT. The cross-lane instructions (05_lane_integer_and_flow.md R131 to R134): the lanes of a tile, votes, the source lanes of SHFL and
reductions of nonempty lists, and O24.
-/

namespace Sys2Proof.Machine

/-! ## The lanes of a tile (R131) -/

theorem State.tileLanes_eq_partners (s : State) (e : LaneEnc) (l : Nat) : s.tileLanes e l = partners s e l := by
  unfold State.tileLanes partners State.execLanes maskLanes lanes
  rw [List.filter_filter]
  exact List.filter_congr fun k _ => Bool.and_comm _ _
theorem mem_partners {s : State} {e : LaneEnc} {l k : Nat} :
    k ∈ partners s e l ↔ (k < 32 ∧ s.executes e k = true) ∧ k / 2 ^ s.cg.tile = l / 2 ^ s.cg.tile := by
  simp only [partners, List.mem_filter, List.mem_range, Bool.and_eq_true, beq_iff_eq, and_assoc]
/-- A lane at an offset in the tile of another participates with it when it executes the instruction. -/
theorem mem_partners_of_offset {s : State} {e : LaneEnc} {l t : Nat} (ht : t < 2 ^ s.cg.tile) :
    l / 2 ^ s.cg.tile * 2 ^ s.cg.tile + t ∈ partners s e l ↔ l / 2 ^ s.cg.tile * 2 ^ s.cg.tile + t ∈ s.execLanes e := by
  rw [mem_partners, State.mem_execLanes]
  refine and_iff_left_of_imp fun _ => ?_
  rw [Nat.add_comm, Nat.add_mul_div_right _ _ (Nat.two_pow_pos _), Nat.div_eq_of_lt ht, Nat.zero_add]
/-- A lane's place is its tile's first lane and its offset there. -/
theorem eq_offset_of_mem_partners {s : State} {e : LaneEnc} {l j : Nat} (h : j ∈ partners s e l) :
    l / 2 ^ s.cg.tile * 2 ^ s.cg.tile + j % 2 ^ s.cg.tile = j := by
  rw [← (mem_partners.mp h).2, Nat.div_add_mod']

/-! ## VOTE (R132) -/

/-- All agree: all hold, or none does. -/
theorem all_or_not_any_iff (p : Nat → Bool) (ls : List Nat) :
    (ls.all p || !ls.any p) = true ↔ ∀ j ∈ ls, ∀ k ∈ ls, p j = true ↔ p k = true := by
  simp only [Bool.or_eq_true, List.all_eq_true, Bool.not_eq_true', List.any_eq_false]
  constructor
  · rintro (h | h) j hj k hk
    · exact iff_of_true (h j hj) (h k hk)
    · exact iff_of_false (h j hj) (h k hk)
  · intro h
    by_cases hx : ∃ j ∈ ls, p j = true
    · obtain ⟨j, hj, hp⟩ := hx
      exact .inl fun k hk => (h j hj k hk).mp hp
    · exact .inr fun k hk hp => hx ⟨k, hk, hp⟩

/-- Bit k of a ballot is the predicate of the participating lane at offset k. -/
theorem getLsbD_ballot (s : State) (e : LaneEnc) (p : Nat → Bool) (l : Nat) {k : Nat} (hk : k < 32) :
    (laneMask (((s.tileLanes e l).filter p).map fun j => j % s.cg.tileW)).getLsbD k =
      (decide (k < 2 ^ s.cg.tile) && (partners s e l).contains (l / 2 ^ s.cg.tile * 2 ^ s.cg.tile + k) &&
        p (l / 2 ^ s.cg.tile * 2 ^ s.cg.tile + k)) := by
  rw [getLsbD_laneMask _ _ hk, State.tileLanes_eq_partners, Bool.eq_iff_iff]
  simp only [List.contains_iff_mem, List.mem_map, List.mem_filter, Bool.and_eq_true, decide_eq_true_eq]
  constructor
  · rintro ⟨j, ⟨hj, hp⟩, rfl⟩
    have hj' := eq_offset_of_mem_partners hj
    exact ⟨⟨Nat.mod_lt _ (Nat.two_pow_pos _), by rwa [Group.tileW, hj']⟩, by rwa [Group.tileW, hj']⟩
  · rintro ⟨⟨hw, hm⟩, hp⟩
    exact ⟨_, ⟨hm, hp⟩, by rw [Group.tileW, Nat.mul_add_mod', Nat.mod_eq_of_lt hw]⟩

/-! ## SHFL (R133) -/

/-- The source lane lies in the tile. -/
theorem shflLane_lt {op : ShflOp} {n t y u : Nat} (ht : t < 2 ^ n) (h : shflLane op t (2 ^ n) y = some u) : u < 2 ^ n := by
  have hm : y % 2 ^ n < 2 ^ n := Nat.mod_lt _ (Nat.two_pow_pos n)
  cases op <;> simp only [shflLane, Option.ite_none_left_eq_some, Option.some.injEq] at h
  case idx => omega
  case up => omega
  case down => omega
  case xor => exact h ▸ Nat.xor_lt_two_pow ht hm

/-- The word that a lane receives from an offset of its tile: that lane's where it participates, else the lane's own. -/
def State.shflWord (s : State) (e : LaneEnc) (l : Nat) : Option Nat → W32
  | some t =>
    let k := l / 2 ^ s.cg.tile * 2 ^ s.cg.tile + t
    if k ∈ partners s e l then s.opA e .f32 k else s.opA e .f32 l
  | none => s.opA e .f32 l
theorem State.shflWord_some {s : State} {e : LaneEnc} {l t k : Nat} (h : l / 2 ^ s.cg.tile * 2 ^ s.cg.tile + t = k) :
    s.shflWord e l (some t) = if k ∈ partners s e l then s.opA e .f32 k else s.opA e .f32 l := h ▸ rfl
theorem State.shflWord_none (s : State) (e : LaneEnc) (l : Nat) : s.shflWord e l none = s.opA e .f32 l := rfl

/-- SHFL gives each executed lane the word of its source lane. -/
theorem writesV_shfl {s : State} {e : LaneEnc} {op : ShflOp} {f : Nat → W32} (h : s.LaneReady e (fldsTwo e) true)
    (hf : ∀ l, s.shflWord e l (shflLane op (l % 2 ^ s.cg.tile) (2 ^ s.cg.tile) (s.opB e .f32 l).toNat) = f l) :
    WritesV (exec (.shfl e op) s) s e e.bytes f := by
  refine writesV_of_eq (writesV_laneV h) fun l => ?_
  rw [← hf l]
  dsimp only [Group.tileW]
  cases hs : shflLane op (l % 2 ^ s.cg.tile) (2 ^ s.cg.tile) (s.opB e .f32 l).toNat with
  | none => rfl
  | some t =>
    have ht := shflLane_lt (Nat.mod_lt _ (Nat.two_pow_pos _)) hs
    simp only [State.shflWord, List.contains_iff_mem, mem_partners_of_offset ht]

/-! ## IREDUX (R134) -/

/-- A reduction gives the one word with the value of its list, where each step keeps that value. -/
theorem reduce1_keeps {α β : Type} {f : α → α → α} {v : α → β} {F : List α → β} (hone : ∀ x, F [x] = v x)
    (hstep : ∀ x y t, F (f x y :: t) = F (x :: y :: t)) (d : α) {xs : List α} (h : xs ≠ []) : v (reduce1 f d xs) = F xs := by
  obtain ⟨x, t, rfl⟩ := List.exists_cons_of_ne_nil h
  show v (t.foldl f x) = F (x :: t)
  clear h
  induction t generalizing x with
  | nil => exact (hone x).symm
  | cons y t ih => rw [List.foldl_cons, ih, hstep]
/-- A reduction that keeps one of its two operands, and the lower one in a preorder, gives a lowest element of its list. -/
theorem reduce1_selects {α : Type} {f : α → α → α} {r : α → α → Prop} (hr : ∀ x, r x x)
    (ht : ∀ {x y z}, r x y → r y z → r x z) (hf : ∀ x y, (f x y = x ∨ f x y = y) ∧ r (f x y) x ∧ r (f x y) y) (d : α)
    {xs : List α} (h : xs ≠ []) : reduce1 f d xs ∈ xs ∧ ∀ x ∈ xs, r (reduce1 f d xs) x := by
  obtain ⟨x, t, rfl⟩ := List.exists_cons_of_ne_nil h
  show t.foldl f x ∈ x :: t ∧ ∀ y ∈ x :: t, r (t.foldl f x) y
  clear h
  induction t generalizing x with
  | nil => simpa using hr x
  | cons y t ih =>
    obtain ⟨hm, hall⟩ := ih (f x y)
    obtain ⟨hs, hx, hy⟩ := hf x y
    have hle := hall _ List.mem_cons_self
    rw [List.foldl_cons]
    refine ⟨?_, ?_⟩
    · rcases List.mem_cons.mp hm with h | h
      · rw [h]; rcases hs with h | h <;> simp [h]
      · simp [h]
    · simp only [List.forall_mem_cons]
      exact ⟨ht hle hx, ht hle hy, fun z hz => hall z (List.mem_cons_of_mem _ hz)⟩

theorem lesser32_selects (uns : Bool) (x y : W32) :
    (lesser32 uns x y = x ∨ lesser32 uns x y = y) ∧ compared uns (lesser32 uns x y) ≤ compared uns x ∧
      compared uns (lesser32 uns x y) ≤ compared uns y := by
  rw [lesser32, ult_or_slt_eq_compared]
  by_cases h : compared uns x < compared uns y
  · simp [h, Int.le_of_lt h]
  · simp [h, Int.not_lt.mp h]
theorem greater32_selects (uns : Bool) (x y : W32) :
    (greater32 uns x y = x ∨ greater32 uns x y = y) ∧ compared uns x ≤ compared uns (greater32 uns x y) ∧
      compared uns y ≤ compared uns (greater32 uns x y) := by
  rw [greater32, ult_or_slt_eq_compared]
  by_cases h : compared uns x < compared uns y
  · simp [h, Int.le_of_lt h]
  · simp [h, Int.not_lt.mp h]

theorem reduce1_lesser (uns : Bool) {xs : List W32} (h : xs ≠ []) :
    reduce1 (lesser32 uns) 0#32 xs ∈ xs ∧ ∀ x ∈ xs, compared uns (reduce1 (lesser32 uns) 0#32 xs) ≤ compared uns x :=
  reduce1_selects (r := fun x y => compared uns x ≤ compared uns y) (fun _ => Int.le_refl _) Int.le_trans (lesser32_selects uns) _ h
theorem reduce1_greater (uns : Bool) {xs : List W32} (h : xs ≠ []) :
    reduce1 (greater32 uns) 0#32 xs ∈ xs ∧ ∀ x ∈ xs, compared uns x ≤ compared uns (reduce1 (greater32 uns) 0#32 xs) :=
  reduce1_selects (r := fun x y => compared uns y ≤ compared uns x) (fun _ => Int.le_refl _) (fun h h' => Int.le_trans h' h)
    (greater32_selects uns) _ h

theorem reduce1_add {xs : List W32} (h : xs ≠ []) : reduce1 (reduxOp .add) 0#32 xs = BitVec.ofNat 32 (xs.map (·.toNat)).sum := by
  refine reduce1_keeps (v := id) (F := fun xs => BitVec.ofNat 32 (xs.map (·.toNat)).sum) (fun x => ?_) (fun x y t => ?_) _ h
  · simp
  · apply BitVec.eq_of_toNat_eq
    simp [reduxOp, Nat.add_assoc]
theorem getLsbD_reduce1_and {xs : List W32} (h : xs ≠ []) (k : Nat) :
    (reduce1 (reduxOp .and) 0#32 xs).getLsbD k = xs.all fun x => x.getLsbD k :=
  reduce1_keeps (v := (·.getLsbD k)) (F := fun xs => xs.all (·.getLsbD k)) (by simp) (by simp [reduxOp, Bool.and_assoc]) _ h
theorem getLsbD_reduce1_or {xs : List W32} (h : xs ≠ []) (k : Nat) :
    (reduce1 (reduxOp .or) 0#32 xs).getLsbD k = xs.any fun x => x.getLsbD k :=
  reduce1_keeps (v := (·.getLsbD k)) (F := fun xs => xs.any (·.getLsbD k)) (by simp) (by simp [reduxOp, Bool.or_assoc]) _ h
/-- The parity of a count of Booleans is their exclusive or. -/
theorem toNat_xor_add_mod_two (a b : Bool) (n : Nat) : ((a ^^ b).toNat + n) % 2 = (a.toNat + (b.toNat + n)) % 2 := by
  cases a <;> cases b <;>
    simp only [Bool.false_xor, Bool.true_xor, Bool.not_false, Bool.not_true, Bool.toNat_false, Bool.toNat_true] <;> omega
theorem getLsbD_reduce1_xor {xs : List W32} (h : xs ≠ []) (k : Nat) :
    (reduce1 (reduxOp .xor) 0#32 xs).getLsbD k = ((xs.filter fun x => x.getLsbD k).length % 2 == 1) := by
  refine reduce1_keeps (v := (·.getLsbD k)) (F := fun xs => (xs.filter fun x => x.getLsbD k).length % 2 == 1)
    (fun x => ?_) (fun x y t => ?_) _ h
  · cases hx : x.getLsbD k <;> simp [hx]
  · have hxy : (reduxOp .xor x y).getLsbD k = (x.getLsbD k ^^ y.getLsbD k) := BitVec.getLsbD_xor
    simp only [length_filter_eq_sum_toNat, List.map_cons, List.sum_cons, hxy, toNat_xor_add_mod_two]

/-- IREDUX gives each executed lane the reduction of the words of the lanes that participate with it. -/
theorem writesV_iredux {s : State} {e : LaneEnc} {op : IRedOp}
    (h : s.LaneReady e [Fld.dst e.dst, Fld.a e, Fld.noHi (e.hb || e.hc)] true) :
    WritesV (exec (.iredux e op) s) s e e.bytes fun l => reduce1 (reduxOp op) 0#32 ((partners s e l).map fun k => s.opA e .f32 k) :=
  writesV_of_eq (writesV_laneV h) fun l => by rw [State.tileLanes_eq_partners]
/-- An executed lane participates with itself, so that its reduction has an operand. -/
theorem map_partners_ne_nil {s : State} {e : LaneEnc} {l : Nat} (hl : l < 32) (hx : s.executes e l = true) (f : Nat → W32) :
    (partners s e l).map f ≠ [] :=
  mt List.map_eq_nil_iff.mp (List.ne_nil_of_mem (mem_partners.mpr ⟨⟨hl, hx⟩, rfl⟩))

/-- Settles O24: votes and ballots by the participating lanes' predicates, SHFL by its source lane's word, and IREDUX by what a
reduction of a nonempty list gives. -/
theorem crossLaneInstructionsStayInTheirTile : Obligations.CrossLaneInstructionsStayInTheirTile := by
  unfold Obligations.CrossLaneInstructionsStayInTheirTile
  intro s e _
  refine ⟨fun h => ⟨?_, ?_, ?_⟩, fun h => ?_, fun h => ⟨?_, ?_, ?_, ?_⟩, fun h => ?_⟩
  · refine writesTruth_laneP h fun l _ => ?_
    simp only [State.tileLanes_eq_partners, List.all_map, List.all_eq_true, Function.comp_apply]
  · refine writesTruth_laneP h fun l _ => ?_
    simp only [State.tileLanes_eq_partners, List.any_map, List.any_eq_true, Function.comp_apply]
  · refine writesTruth_laneP h fun l _ => ?_
    simp only [State.tileLanes_eq_partners, List.all_map, List.any_map]
    exact all_or_not_any_iff _ _
  · exact ⟨_, writesV_laneV h, fun l _ k hk => getLsbD_ballot s e _ l hk⟩
  · exact writesV_shfl h fun l => s.shflWord_some rfl
  · refine writesV_shfl h fun l => ?_
    by_cases hy : l % 2 ^ s.cg.tile < (s.opB e .f32 l).toNat
    · simp only [shflLane, hy, if_true, State.shflWord_none]
    · simp only [shflLane, hy, if_false]
      exact s.shflWord_some (by have := Nat.div_add_mod' l (2 ^ s.cg.tile); omega)
  · refine writesV_shfl h fun l => ?_
    by_cases hy : 2 ^ s.cg.tile ≤ l % 2 ^ s.cg.tile + (s.opB e .f32 l).toNat
    · simp only [shflLane, hy, if_true, State.shflWord_none]
    · simp only [shflLane, hy, if_false]
      exact s.shflWord_some (by have := Nat.div_add_mod' l (2 ^ s.cg.tile); omega)
  · exact writesV_shfl h fun l => s.shflWord_some rfl
  · have hne l hl hx := map_partners_ne_nil (s := s) (e := e) (l := l) hl hx fun k => s.opA e .f32 k
    exact ⟨⟨_, writesV_iredux h, fun l hl hx => reduce1_add (hne l hl hx)⟩,
      ⟨_, writesV_iredux h, fun l hl hx => reduce1_lesser false (hne l hl hx)⟩,
      ⟨_, writesV_iredux h, fun l hl hx => reduce1_greater false (hne l hl hx)⟩,
      ⟨_, writesV_iredux h, fun l hl hx => reduce1_lesser true (hne l hl hx)⟩,
      ⟨_, writesV_iredux h, fun l hl hx => reduce1_greater true (hne l hl hx)⟩,
      ⟨_, writesV_iredux h, fun l hl hx k _ => getLsbD_reduce1_and (hne l hl hx) k⟩,
      ⟨_, writesV_iredux h, fun l hl hx k _ => getLsbD_reduce1_or (hne l hl hx) k⟩,
      ⟨_, writesV_iredux h, fun l hl hx k _ => getLsbD_reduce1_xor (hne l hl hx) k⟩⟩

end Sys2Proof.Machine
end

section
/-!
SUPPORT. The encodings of the formats with infinities (02_number_formats.md R45): which codes are NaNs, and the order of the values
that the others stand for.
-/

namespace Sys2Proof.Machine

/-! ## NaNs -/

theorem Format.maxCode_of_ieee {f : Format} (hf : f.special = .ieee) : f.maxCode = topCode f - 1 := by
  simp only [Format.maxCode, hf, topCode]
theorem fmtOf_special (w : FW) : (fmtOf w).special = .ieee := by cases w <;> rfl
theorem fmtOf_topCode_pos (w : FW) : 0 < topCode (fmtOf w) := by cases w <;> decide
theorem fmtOf_qnan (w : FW) : (fmtOf w).qnan = topCode (fmtOf w) + 2 ^ ((fmtOf w).mb - 1) := by cases w <;> rfl

/-- The mantissa of a code whose exponent is all ones is its distance from infinity. -/
theorem magCode_mod_of_topCode_le {f : Format} {x : Nat} (h : topCode f ≤ magCode f x) :
    magCode f x % 2 ^ f.mb = magCode f x - topCode f := by
  have hlt : magCode f x < 2 ^ f.eb * 2 ^ f.mb := Nat.pow_add 2 _ _ ▸ Nat.mod_lt x (Nat.two_pow_pos _)
  have htop : topCode f + 2 ^ f.mb = 2 ^ f.eb * 2 ^ f.mb := by
    rw [topCode, ← Nat.succ_mul, Nat.succ_eq_add_one, Nat.sub_add_cancel Nat.one_le_two_pow]
  obtain ⟨m, hm⟩ := Nat.exists_eq_add_of_le h
  rw [hm, Nat.add_sub_cancel_left, topCode, Nat.mul_add_mod', Nat.mod_eq_of_lt (by omega)]

/-- What a code of an ieee format decodes to, by its place beside the code of infinity (R45). -/
theorem Format.unpack_of_ieee {f : Format} (hf : f.special = .ieee) (ht : 0 < topCode f) (x : Nat) (mk : Bool) :
    f.unpack x mk =
      if magCode f x < topCode f then
        (if magCode f x / 2 ^ f.mb = 0 then .fin (bitOf x (f.eb + f.mb)) (magCode f x % 2 ^ f.mb) f.qmin
        else .fin (bitOf x (f.eb + f.mb)) (2 ^ f.mb + magCode f x % 2 ^ f.mb) (f.qmin + (magCode f x / 2 ^ f.mb : Nat) - 1))
      else if magCode f x = topCode f then .inf (bitOf x (f.eb + f.mb))
      else .nan (magCode f x < topCode f + 2 ^ (f.mb - 1)) mk := by
  have hc : x % 2 ^ (f.eb + f.mb) = magCode f x := rfl
  simp only [Format.unpack, hc, Format.maxCode_of_ieee hf, hf, beq_self_eq_true, Bool.true_and, beq_iff_eq]
  by_cases h : magCode f x < topCode f
  · rw [if_neg (by omega), if_pos h]
  · have hm := magCode_mod_of_topCode_le (Nat.not_lt.mp h)
    rw [if_pos (by omega), if_neg h, hm]
    by_cases he : magCode f x = topCode f
    · rw [if_pos (by omega), if_pos he]
    · rw [if_neg (by omega), if_neg he, decide_eq_decide.mpr (Nat.sub_lt_iff_lt_add' (Nat.not_lt.mp h))]

theorem FV.isNan_unpack {f : Format} (hf : f.special = .ieee) (ht : 0 < topCode f) (x : Nat) (mk : Bool) :
    (f.unpack x mk).isNan = isNanCode f x := by
  rw [Format.unpack_of_ieee hf ht, isNanCode]
  rcases Nat.lt_trichotomy (magCode f x) (topCode f) with h | h | h
  · rw [if_pos h]; split <;> simp [FV.isNan, Nat.le_of_lt h]
  · simp [FV.isNan, h]
  · simp [FV.isNan, h, Nat.not_lt_of_gt h, Nat.ne_of_gt h]
theorem FV.sig_unpack {f : Format} (hf : f.special = .ieee) (ht : 0 < topCode f) (x : Nat) (mk : Bool) :
    (f.unpack x mk).sig = signals f x := by
  rw [Format.unpack_of_ieee hf ht, signals, isNanCode]
  rcases Nat.lt_trichotomy (magCode f x) (topCode f) with h | h | h
  · rw [if_pos h]; split <;> simp [FV.sig, Nat.not_lt_of_gt h]
  · simp [FV.sig, h]
  · simp [FV.sig, h, Nat.not_lt_of_gt h, Nat.ne_of_gt h]

/-! ## The order of values -/

theorem minus_eq_bitOf {f : Format} {x : Nat} (h : x < 2 ^ (1 + f.eb + f.mb)) : minus f x = bitOf x (f.eb + f.mb) := by
  have hx : x < 2 ^ (f.eb + f.mb) * 2 := by rwa [← Nat.pow_succ, show (f.eb + f.mb).succ = 1 + f.eb + f.mb by omega]
  rw [minus, bitOf, Nat.mod_eq_of_lt (Nat.div_lt_of_lt_mul hx), Bool.eq_iff_iff, decide_eq_true_eq, beq_iff_eq]
  have := Nat.one_le_div_iff (a := x) (Nat.two_pow_pos (f.eb + f.mb))
  have := Nat.div_lt_of_lt_mul hx
  omega

theorem magnitude_of_lt {f : Format} {c : Nat} (h : c < 2 ^ f.mb) : magnitude f c = c := if_pos h
/-- The codes of one exponent, and the first code of the next one. -/
theorem magnitude_of_le (f : Format) (q : Nat) {m : Nat} (h : m ≤ 2 ^ f.mb) :
    magnitude f (2 ^ f.mb * (q + 1) + m) = (2 ^ f.mb + m) * 2 ^ q := by
  have hM : 0 < 2 ^ f.mb := Nat.two_pow_pos _
  have hge : ¬ 2 ^ f.mb * (q + 1) + m < 2 ^ f.mb := by rw [Nat.mul_succ]; omega
  rw [magnitude, if_neg hge, Nat.mul_add_mod, Nat.mul_add_div hM]
  rcases Nat.lt_or_eq_of_le h with h | h
  · rw [Nat.mod_eq_of_lt h, Nat.div_eq_of_lt h, Nat.add_zero, Nat.add_sub_cancel]
  · rw [h, Nat.mod_self, Nat.div_self hM, Nat.add_sub_cancel, Nat.pow_succ', ← Nat.mul_assoc, Nat.mul_two]; rfl
theorem magnitude_lt_succ (f : Format) (c : Nat) : magnitude f c < magnitude f (c + 1) := by
  have hM : 0 < 2 ^ f.mb := Nat.two_pow_pos _
  by_cases hc : c < 2 ^ f.mb
  · rw [magnitude_of_lt hc]
    by_cases hs : c + 1 < 2 ^ f.mb
    · rw [magnitude_of_lt hs]; omega
    · have := magnitude_of_le f 0 (Nat.zero_le _)
      rw [show c + 1 = 2 ^ f.mb * (0 + 1) + 0 by omega, this]; omega
  · obtain ⟨q, hq⟩ := Nat.exists_eq_add_of_le ((Nat.one_le_div_iff hM).mpr (Nat.not_lt.mp hc))
    have hm := Nat.mod_lt c hM
    rw [← Nat.div_add_mod c (2 ^ f.mb), hq, Nat.add_comm 1 q, Nat.add_assoc, magnitude_of_le f q (Nat.le_of_lt hm),
      magnitude_of_le f q hm]
    exact Nat.mul_lt_mul_of_pos_right (by omega) (Nat.two_pow_pos q)
theorem magnitude_lt_of_lt (f : Format) {a b : Nat} (h : a < b) : magnitude f a < magnitude f b := by
  induction h with
  | refl => exact magnitude_lt_succ f a
  | step _ ih => exact Nat.lt_trans ih (magnitude_lt_succ f _)
theorem magnitude_lt_iff (f : Format) (a b : Nat) : magnitude f a < magnitude f b ↔ a < b := by
  refine ⟨fun h => Nat.lt_of_not_le fun hba => ?_, magnitude_lt_of_lt f⟩
  rcases Nat.lt_or_eq_of_le hba with hlt | heq
  · exact Nat.lt_asymm h (magnitude_lt_of_lt f hlt)
  · exact Nat.lt_irrefl _ (heq ▸ h)

/-- The rank that FSET compares: that of `Format.rank`, but both zeros have rank 0 (R150). -/
def Format.valueRank (f : Format) (x : Nat) : Int := if magCode f x == 0 then 0 else f.rank x
theorem Format.valueRank_eq {f : Format} {x : Nat} (h : x < 2 ^ (1 + f.eb + f.mb)) :
    f.valueRank x = if magCode f x = 0 then 0 else if minus f x then -(magCode f x : Int) - 1 else magCode f x := by
  have hc : (magCode f x : Int) = (x : Int) % 2 ^ (f.eb + f.mb) := by rw [magCode, Int.natCast_emod, Int.natCast_pow]; rfl
  simp only [Format.valueRank, Format.rank, minus_eq_bitOf h, beq_iff_eq, hc]

/-- The ranks order the encodings as their values do. -/
theorem Format.valueRank_lt_iff {f : Format} {x y : Nat} (hx : x < 2 ^ (1 + f.eb + f.mb)) (hy : y < 2 ^ (1 + f.eb + f.mb)) :
    f.valueRank x < f.valueRank y ↔ valueOf f x < valueOf f y := by
  have h0 : magnitude f 0 = 0 := magnitude_of_lt (Nat.two_pow_pos _)
  have hpos c : c = 0 ∨ 0 < c ∧ 0 < magnitude f c :=
    c.eq_zero_or_pos.imp_right fun h => ⟨h, h0 ▸ magnitude_lt_of_lt f h⟩
  have hxy := magnitude_lt_iff f (magCode f x) (magCode f y)
  have hyx := magnitude_lt_iff f (magCode f y) (magCode f x)
  rw [Format.valueRank_eq hx, Format.valueRank_eq hy, valueOf, valueOf]
  rcases hpos (magCode f x) with hzx | ⟨hzx, hvx⟩ <;> rcases hpos (magCode f y) with hzy | ⟨hzy, hvy⟩
  · simp [hzx, hzy, h0]
  · simp only [hzx, h0, Nat.ne_of_gt hzy, if_true, if_false]
    split <;> split <;> omega
  · simp only [hzy, h0, Nat.ne_of_gt hzx, if_true, if_false]
    split <;> split <;> omega
  · simp only [Nat.ne_of_gt hzx, Nat.ne_of_gt hzy, if_false]
    split <;> split <;> omega
theorem Format.valueRank_eq_iff {f : Format} {x y : Nat} (hx : x < 2 ^ (1 + f.eb + f.mb)) (hy : y < 2 ^ (1 + f.eb + f.mb)) :
    f.valueRank x = f.valueRank y ↔ valueOf f x = valueOf f y := by
  have hxy := Format.valueRank_lt_iff hx hy
  have hyx := Format.valueRank_lt_iff hy hx
  omega

/-! ## FSET on two encodings (R150) -/

/-- The relation of a condition on two numbers. -/
def conditionRelates (c : LCond) (a b : Int) : Bool :=
  match c with
  | .eq => a == b
  | .ne => a != b
  | .lt => a < b
  | .le => a ≤ b
  | .gt => b < a
  | .ge => b ≤ a
theorem Format.holds_eq_conditionRelates (f : Format) (c : LCond) (x y : Nat) :
    f.holds c x y = conditionRelates c (f.valueRank x) (f.valueRank y) := by cases c <;> rfl

/-- A compare of NaNs that tests an order: neither equality nor its negation, and not a form that is true where unordered. -/
theorem ordered_eq_decide (c : CmpField) :
    (!c.x && c.cond != .eq && c.cond != .ne) =
      decide (c.x = false ∧ (c.cond = .lt ∨ c.cond = .le ∨ c.cond = .gt ∨ c.cond = .ge)) := by
  cases c.x <;> cases c.cond <;> rfl
/-- A quiet NaN is a cause of IV in an ordered compare, a signalling one in every compare. -/
theorem invalid_or_signals (o nx sx ny sy : Bool) (h : (nx || ny) = true) :
    (o && (nx && !sx || ny && !sy) || (sx || sy)) = (sx || sy || o) := by
  cases sx <;> cases sy <;> simp [h]

/-- Without a NaN, FSET tests the relation of its condition and raises nothing. -/
theorem fset_of_not_nan {c : CmpField} {x y : Nat} {kx ky : Bool} (hx : isNanCode fp32 x = false) (hy : isNanCode fp32 y = false) :
    fset fp32 c x (fp32.unpack x kx) y (fp32.unpack y ky) =
      { val := if conditionRelates c.cond (fp32.valueRank x) (fp32.valueRank y) then 1 else 0 } := by
  have hn z k := FV.isNan_unpack (f := fp32) rfl (by decide) z k
  simp only [fset, hn, hx, hy, Bool.or_self, Bool.false_eq_true, if_false, Format.holds_eq_conditionRelates]

theorem comparesValues_of_model : comparesValues := by
  intro c x y kx ky hx hy
  refine ⟨fun h => ?_, fun hnx hny => ?_⟩
  · have hn z k := FV.isNan_unpack (f := fp32) rfl (by decide) z k
    have hs z k := FV.sig_unpack (f := fp32) rfl (by decide) z k
    simp only [fset, hn, hs, h, if_true, ivRes, flagIf, List.any_cons, List.any_nil, Bool.or_false, BitVec.or_zero,
      ordered_eq_decide, invalid_or_signals _ _ _ _ _ h, Bool.or_eq_true, beq_iff_eq, and_self]
  · rw [fset_of_not_nan hnx hny]
    have hlt := Format.valueRank_lt_iff (f := fp32) hx hy
    have hgt := Format.valueRank_lt_iff (f := fp32) hy hx
    have heq := Format.valueRank_eq_iff (f := fp32) hx hy
    have hle := Int.not_lt.symm.trans ((not_congr hgt).trans Int.not_lt)
    have hge := Int.not_lt.symm.trans ((not_congr hlt).trans Int.not_lt)
    refine ⟨rfl, rfl, by dsimp only; split <;> decide, ?_⟩
    cases c.cond <;> simp only [conditionRelates, bne_iff_ne, ne_eq, beq_iff_eq, decide_eq_true_eq, hlt, hgt, heq, hle, hge,
      ite_eq_left_iff, Nat.zero_ne_one, imp_false, Decidable.not_not]

/-! ## FCLASS on an encoding (R151) -/

/-- The cases are those of R151: all-ones, zero and other exponents, and in the first an infinity or a NaN. -/
theorem classIs_classBit (x : W32) : classIs x (classBit x) := by
  have hx := x.isLt
  have hneg : bitOf x.toNat 31 = x.getLsbD 31 := by
    rw [bitOf, BitVec.getLsbD, Nat.testBit_eq_decide_div_mod_eq]; rfl
  unfold classIs classBit
  rw [Format.unpack_of_ieee rfl (by decide)]
  generalize x.getLsbD 31 = neg at hneg
  simp only [magCode, topCode, fp32, hneg, Nat.reduceAdd, Nat.reducePow, Nat.reduceSub, Nat.reduceMul]
  generalize x.toNat = n at hx
  by_cases hinf : n / 8388608 % 256 = 255
  · have h1 : ¬ n % 2147483648 < 2139095040 := by omega
    by_cases hm : n % 8388608 = 0
    · have h2 : n % 2147483648 = 2139095040 := by omega
      simp [hinf, hm, h2]
    · have h2 : n % 2147483648 ≠ 2139095040 := by omega
      have h3 : n % 2147483648 < 2143289344 ↔ n % 8388608 < 4194304 := by omega
      simp [hinf, hm, h1, h2, h3]
  · have h1 : n % 2147483648 < 2139095040 := by omega
    by_cases hsub : n / 8388608 % 256 = 0
    · have h2 : n % 2147483648 / 8388608 = 0 := by omega
      have h3 : n % 2147483648 < 8388608 := by omega
      have h4 : n % 2147483648 % 8388608 = n % 8388608 := by omega
      simp [hsub, h1, h2, h3, h4]
    · have h2 : n % 2147483648 / 8388608 ≠ 0 := by omega
      have h3 : ¬ n % 2147483648 < 8388608 := by omega
      simp [hinf, hsub, h1, h2, h3]

end Sys2Proof.Machine
end

section
/-!
SUPPORT. How a floating-point instruction issues (06_lane_float_conversion_algebra.md R146, R147; 01_machine_state.md R41, R44): the
lanes that compute, the flags that the issue leaves to raise, and the words and predicates that the executed lanes receive.
-/

namespace Sys2Proof.Machine

/-! ## The lanes that compute -/

/-- The lane that an executed lane takes its value from is one that computes (R44). -/
theorem State.srcLane_mem_calcLanes {s : State} {e : LaneEnc} {l : Nat} (hl : l < 32) (hx : s.executes e l = true) :
    s.srcLane e l ∈ s.calcLanes e := by
  have hm := State.mem_execLanes.mpr ⟨hl, hx⟩
  unfold State.srcLane State.calcLanes
  by_cases hu : e.u = true
  · have hlow : lowLane (s.execMask e) = (s.execLanes e).head? := List.head?_filter.symm
    obtain ⟨k, t, hk⟩ := List.exists_cons_of_ne_nil (List.ne_nil_of_mem hm)
    simp [hu, hlow, hk]
  · simpa [hu] using hm

theorem resOf_map {ls : List Nat} {f : Nat → LaneRes} {k : Nat} (hk : k ∈ ls) : resOf (ls.map fun l => (l, f l)) k = some (f k) := by
  obtain ⟨r, hr⟩ := Option.isSome_iff_exists.mp
    ((List.find?_isSome (p := (·.1 == k))).mpr ⟨(k, f k), List.mem_map_of_mem (f := fun l => (l, f l)) hk, beq_self_eq_true k⟩)
  have hkey : r.1 = k := eq_of_beq (List.find?_some hr :)
  obtain ⟨l, -, rfl⟩ := List.mem_map.mp (List.mem_of_find?_eq_some hr)
  subst hkey
  rw [resOf, hr]; rfl
/-- The result that an executed lane receives. -/
theorem State.resOf_byLane {s : State} {e : LaneEnc} {l : Nat} (f : State → Nat → LaneRes) (hl : l < 32) (hx : s.executes e l = true) :
    resOf (State.byLane e f s) (s.srcLane e l) = some (f s (s.srcLane e l)) :=
  resOf_map (State.srcLane_mem_calcLanes hl hx)

/-- With no enabled trap the results are written, and the flags are those of every lane that computes. -/
theorem State.fpTrapOr_byLane {s : State} {e : LaneEnc} {srcs : Nat → List (Nat × W32)} {f : State → Nat → LaneRes}
    {wr : BitVec 5 → State → State} (h : s.FpQuiet e (fun l => (srcs l).map (·.2)) (f s)) :
    s.fpTrapOr e srcs (State.byLane e f s) wr = wr (s.laneFlags e (f s)) s := by
  have hmark : s.cctx.trapen.getLsbD 0 = true → ((s.calcLanes e).filter fun l => !(markersOf (srcs l)).isEmpty) = [] := by
    intro ht
    refine List.filter_eq_nil_iff.mpr fun l hl => ?_
    have hm : markersOf (srcs l) = [] := by
      simp only [markersOf, List.map_eq_nil_iff, List.filter_eq_nil_iff, Bool.not_eq_true]
      exact fun c hc => (h l hl).1 ht _ (List.mem_map_of_mem hc)
    simp [hm]
  have hhit : ((State.byLane e f s).filter fun r => fpTraps s.cctx.trapen r.2.flags r.2.counts) = [] := by
    refine List.filter_eq_nil_iff.mpr fun r hr => ?_
    obtain ⟨l, hl, rfl⟩ := List.mem_map.mp hr
    simp [(h l hl).2]
  have hflags : (State.byLane e f s).foldl (fun x r => x ||| r.2.flags) 0#5 = s.laneFlags e (f s) := List.foldl_map
  unfold State.fpTrapOr
  rw [if_neg, hhit, hflags]
  · rfl
  · simp only [Bool.and_eq_true, Bool.not_eq_true', List.isEmpty_eq_false_iff, not_and, Decidable.not_not]
    exact hmark

/-! ## What the issue leaves outstanding -/

/-- The issued instruction is outstanding with its flags. -/
theorem Group.mem_ops_issue (g : Group) (sp : Nat) (e : LaneEnc) (len : Nat) (m : W32) (pc : W64) (x : Issue) :
    ∃ o ∈ (g.issue sp e len m pc x).ops, o.id = g.nextOp ∧ o.done = false ∧ o.flags = x.flags := by
  unfold Group.issue
  dsimp only
  split <;> exact ⟨_, List.mem_append_right _ List.mem_cons_self, rfl, rfl, rfl⟩
theorem raisesAtCompletion_issue (s : State) (f : Group → Group) (e : LaneEnc) (len : Nat) (x : Issue)
    (hf : (f s.cg).nextOp = s.cg.nextOp) : RaisesAtCompletion s ((s.updCg f).issue e len x) x.flags := by
  have h := groupIs_issued s f
    (fun g => g.issue (s.updCg f).cur.split e len ((s.updCg f).execMask e) (s.updCg f).csplit.pc x) 2 (s.updCg f).csplit.pc
  obtain ⟨o, ho, hid, hdone, hflags⟩ := Group.mem_ops_issue (f s.cg) (s.updCg f).cur.split e len ((s.updCg f).execMask e)
    (s.updCg f).csplit.pc x
  exact ⟨o, h.2 ▸ ho, hid.trans hf, hdone, hflags⟩

/-- An instruction that writes V[d] lane by lane without a flag. -/
theorem writesV_laneV_noFlags {s : State} {e : LaneEnc} {len : Nat} {flds : List Fld} {f : State → Nat → W32} {whole : Bool}
    (h : s.LaneReady e flds whole) : ∃ t, .next (s.laneV e len flds f whole) = (.next t : Out) ∧ RaisesAtCompletion s t 0#5 ∧
      LaneNext s t e len (fun r l => if r = e.dst.toNat ∧ s.executes e l then f s (s.srcLane e l) else s.cg.rv r l) s.cg.rp := by
  obtain ⟨t, ht, hn⟩ := writesV_laneV (len := len) (f := f) h
  refine ⟨t, ht, ?_, hn⟩
  have hw := Group.writeLanes_frame e.dst.toNat (fun l => f s (s.srcLane e l)) (s.execLanes e)
    (fun l hl => (State.mem_execLanes.mp hl).1) s.cg
  rw [← Host.Outcome.next.inj ht, State.laneV, State.laneGo_ready h (by simp)]
  exact raisesAtCompletion_issue s _ e len { vw := [e.dst.toNat] } (by rw [hw.1])

/-! ## Elements (R146) -/

theorem elemOf_eq_elementOf (w : FW) (h : Nat) (x : W32) : elemOf w h x = elementOf w h x := by
  cases w
  case f32 => rfl
  all_goals simp [elemOf, elementOf, bitsOf, Nat.add_assoc]
/-- The halves of a packed word. -/
theorem ofNat_halves (a b : Nat) : BitVec.ofNat 32 (a % 65536 + 65536 * (b % 65536)) = BitVec.ofNat 16 b ++ BitVec.ofNat 16 a := by
  apply BitVec.eq_of_toNat_eq
  rw [BitVec.toNat_append, ← Nat.shiftLeft_add_eq_or_of_lt (BitVec.isLt _), Nat.shiftLeft_eq]
  simp only [BitVec.toNat_ofNat]
  omega
/-- A word of results computed element by element. -/
theorem laneRes_eq_perElement (w : FW) (f : Nat → FpRes) :
    ({ vals := [joinElems w ((halves w).map f)], flags := flagsOf ((halves w).map f)
       counts := ((halves w).map f).any (·.counts) } : LaneRes) = perElement w f := by
  cases w
  case f32 => simp [halves, joinElems, flagsOf, perElement]
  all_goals simp [halves, joinElems, flagsOf, perElement, ofNat_halves]
theorem packed_eq_perElement (w : FW) (xs : List W32) (f : List Elem → FpRes) :
    packed w xs f = perElement w fun h => f (xs.map (elementOf w h)) := by
  simp only [← funext (elemOf_eq_elementOf w _)]
  exact laneRes_eq_perElement w _
/-- The one word of a lane's results. -/
def LaneRes.word (r : LaneRes) : W32 := r.vals.headD 0#32
theorem perElement_vals (w : FW) (f : Nat → FpRes) : (perElement w f).vals = [(perElement w f).word] := by cases w <;> rfl

/-! ## Writes -/

/-- Two folds whose steps agree on the elements of the list. -/
theorem foldl_eq_of_mem {α β : Type} {f g : β → α → β} {xs : List α} (h : ∀ b, ∀ x ∈ xs, f b x = g b x) (b : β) :
    xs.foldl f b = xs.foldl g b := by
  induction xs generalizing b with
  | nil => rfl
  | cons x t ih =>
    rw [List.foldl_cons, List.foldl_cons, h b x List.mem_cons_self]
    exact ih (fun b y hy => h b y (List.mem_cons_of_mem x hy)) _
theorem State.putRes_byLane {s : State} {e : LaneEnc} {f : State → Nat → LaneRes}
    (hone : ∀ l, (f s l).vals = [(f s l).word]) (d : Nat) (g : Group) :
    s.putRes e [d] (State.byLane e f s) g = g.writeLanes d (fun l => (f s (s.srcLane e l)).word) (s.execLanes e) := by
  refine foldl_eq_of_mem (fun g l hl => ?_) g
  obtain ⟨hl, hx⟩ := State.mem_execLanes.mp hl
  rw [State.resOf_byLane f hl hx]
  dsimp only
  rw [hone]; rfl
theorem State.wordAfter_one {s : State} {e : LaneEnc} {f : Nat → LaneRes} (hone : ∀ l, (f l).vals = [(f l).word]) (d r l : Nat) :
    s.wordAfter e [d] f r l = if r = d ∧ s.executes e l = true then (f (s.srcLane e l)).word else s.cg.rv r l := by
  rw [State.wordAfter, hone]
  by_cases hr : r = d
  · simp [hr]
  · simp [List.lookup, hr, beq_eq_false_iff_ne.mpr hr]

/-- An issue, with the words and predicates after it written another way. -/
theorem LaneNext.congr {s t : State} {e : LaneEnc} {len : Nat} {fv gv : Nat → Nat → W32} {fp gp : Nat → Nat → Bool}
    (h : LaneNext s t e len fv fp) (hv : ∀ r l, l < 32 → fv r l = gv r l) (hp : ∀ n l, l < 32 → fp n l = gp n l) :
    LaneNext s t e len gv gp := by
  obtain ⟨hrest, hmoved, hcount, hfv, hfp⟩ := h
  exact ⟨hrest, hmoved, hcount, fun r l hl => (hfv r l hl).trans (hv r l hl), fun n l hl => (hfp n l hl).trans (hp n l hl)⟩

/-- A floating-point instruction of one destination writes the word of its elements in every executed lane. -/
theorem writesFp_fpGo {s : State} {e : LaneEnc} {w : FW} {flds : List Fld} {srcs : State → Nat → List (Nat × W32)}
    {f : State → Nat → LaneRes} {r : Nat → Nat → FpRes} {whole : Bool} (h : s.LaneReady e flds whole)
    (hf : ∀ l, f s l = perElement w (r l)) (hq : s.FpQuiet e (fun l => (srcs s l).map (·.2)) fun l => perElement w (r l)) :
    WritesFp (.next (s.fpGo e flds [e.dst.toNat] srcs (State.byLane e f) (whole := whole))) s e [e.dst.toNat]
      fun l => perElement w (r l) := by
  rw [← funext hf] at hq ⊢
  have hone l : (f s l).vals = [(f s l).word] := hf l ▸ perElement_vals w (r l)
  have hw := Group.writeLanes_frame e.dst.toNat (fun l => (f s (s.srcLane e l)).word) (s.execLanes e)
    (fun l hl => (State.mem_execLanes.mp hl).1) s.cg
  refine ⟨_, rfl, ?_⟩
  rw [State.fpGo, State.laneGo_ready h (by simp)]
  dsimp only
  rw [State.fpTrapOr_byLane hq]
  have hput := State.putRes_byLane (e := e) hone e.dst.toNat s.cg
  refine ⟨(laneNext_issue s _ e e.bytes _ (by rw [hput, hw.1]) (by rw [hput]; exact hw.2.1)).congr (fun n l hl => ?_) (fun n l _ => ?_),
    raisesAtCompletion_issue s _ e e.bytes _ (by rw [hput, hw.1])⟩
  · rw [hput, hw.2.2 n l hl, State.wordAfter_one hone]
    simp only [State.mem_execLanes, hl, true_and]
  · rw [hput, hw.1]; rfl

/-! ## FSET (R150) -/

/-- What FSET computes in a lane. -/
def State.fsetResult (s : State) (e : LaneEnc) (f : CmpField) (l : Nat) : LaneRes :=
  perElement .f32 fun _ =>
    let x := elementOf .f32 0 (s.opA e .f32 l)
    let y := elementOf .f32 0 (s.opB e .f32 l)
    fset fp32 f x.bits x.v y.bits y.v
/-- FSET writes its predicate where its result is 1. -/
theorem exec_fset_of_ready {s : State} {e : LaneEnc} {f : CmpField}
    (h : s.LaneReady e [Fld.pred f.pd.toNat, Fld.a e, Fld.b e, Fld.noHi e.hc])
    (hq : s.FpQuiet e (fun l => [s.opA e .f32 l, s.opB e .f32 l]) (s.fsetResult e f)) :
    ∃ t, exec (.fset e f) s = .next t ∧ RaisesAtCompletion s t (s.laneFlags e (s.fsetResult e f)) ∧
      LaneNext s t e e.bytes s.cg.rv fun n l =>
        if n = f.pd.toNat ∧ n ≠ 0 ∧ s.executes e l then (s.fsetResult e f (s.srcLane e l)).vals == [1#32] else s.cg.rp n l := by
  refine ⟨_, rfl, ?_⟩
  rw [State.laneGo_ready h (by simp)]
  simp only [packed_eq_perElement]
  rw [State.fpTrapOr_byLane hq]
  refine ⟨raisesAtCompletion_issue s _ e e.bytes _ (by rw [Group.setp_frame]),
    (laneNext_issue s _ e e.bytes _ (by rw [Group.setp_frame]) (by rw [Group.setp_frame]; exact fun _ h => h)).congr
      (fun n l _ => by rw [Group.setp_frame]; rfl) (fun n l hl => ?_)⟩
  rw [State.rp_setp s e _ _ n l hl]
  split
  case isTrue hx => rw [State.resOf_byLane _ hl hx.2.2]; rfl
  case isFalse => rfl

end Sys2Proof.Machine
end

section
/-!
SUPPORT. FREDUX (06_lane_float_conversion_algebra.md R67, R154): the levels of the model's tree are the nodes that R67 numbers, its
root is the one that O27 names, and O27 follows.
-/

namespace Sys2Proof.Machine

/-! ## Levels of the tree (R67) -/

/-- Two neighbours joined: both combine, and one alone passes. -/
def joinSome {α : Type} (f : α → α → α) : Option α → Option α → Option α
  | some x, some y => some (f x y)
  | some x, none => some x
  | none, y => y
theorem treeLevel_cons_cons {α : Type} (f : α → α → α) (x y : Option α) (t : List (Option α)) :
    treeLevel f (x :: y :: t) = joinSome f x y :: treeLevel f t := by cases x <;> cases y <;> rfl
theorem treeLevel_singleton {α : Type} (f : α → α → α) (x : Option α) : treeLevel f [x] = [x] := by cases x <;> rfl

/-- A level of nodes by number becomes the next one. -/
theorem treeLevel_map_range' {α : Type} (f : α → α → α) (g : Nat → Option α) (a m : Nat) :
    treeLevel f ((List.range' (2 * a) (2 * m)).map g) = (List.range' a m).map fun j => joinSome f (g (2 * j)) (g (2 * j + 1)) := by
  induction m generalizing a with
  | zero => rfl
  | succ m ih =>
    have := ih (a + 1)
    simp only [Nat.mul_succ, List.range'_succ, List.map_cons, treeLevel_cons_cons, Nat.add_assoc] at this ⊢
    rw [this]

theorem combined_eq_redFloat (f : Format) (op : FRedOp) (x y : Elem) : combined f op x y = redFloat f op x y := by cases op <;> rfl
theorem treeNode_zero (f : Format) (op : FRedOp) (leaf : Nat → Option Elem) (i : Nat) :
    treeNode f op leaf 0 i = (leaf i).map fun x => (x, { val := x.bits }) := rfl
theorem treeNode_succ (f : Format) (op : FRedOp) (leaf : Nat → Option Elem) (n i : Nat) :
    treeNode f op leaf (n + 1) i =
      joinSome (joinNodes f op) (treeNode f op leaf n (2 * i)) (treeNode f op leaf n (2 * i + 1)) := by
  rw [treeNode]
  cases treeNode f op leaf n (2 * i) <;> cases treeNode f op leaf n (2 * i + 1) <;>
    simp only [joinSome, joinNodes, combined_eq_redFloat]

/-- n levels above level k leave the one node of level k + n over the nodes that they combine. -/
theorem iterN_treeLevel (f : Format) (op : FRedOp) (leaf : Nat → Option Elem) (n k i : Nat) :
    iterN (treeLevel (joinNodes f op)) n ((List.range' (2 ^ n * i) (2 ^ n)).map (treeNode f op leaf k)) =
      [treeNode f op leaf (k + n) i] := by
  induction n generalizing k with
  | zero => simp [iterN]
  | succ n ih =>
    have hl := treeLevel_map_range' (joinNodes f op) (treeNode f op leaf k) (2 ^ n * i) (2 ^ n)
    simp only [← treeNode_succ] at hl
    rw [iterN, Nat.pow_succ', Nat.mul_assoc, hl, ih, Nat.add_assoc, Nat.add_comm 1]
theorem iterN_treeLevel_singleton {α : Type} (f : α → α → α) (n : Nat) (x : Option α) : iterN (treeLevel f) n [x] = [x] := by
  induction n with
  | zero => rfl
  | succ n ih => rw [iterN, treeLevel_singleton, ih]
theorem iterN_add {α : Type} (f : α → α) (m n : Nat) (x : α) : iterN f (m + n) x = iterN f n (iterN f m x) := by
  induction m generalizing x with
  | zero => rw [Nat.zero_add]; rfl
  | succ m ih => rw [Nat.succ_add]; exact ih (f x)
/-- The root over the 2^n leaves of tile i, for n up to the five levels that the model takes. -/
theorem treeRoot_eq_treeNode (f : Format) (op : FRedOp) (leaf : Nat → Option Elem) {n : Nat} (hn : n ≤ 5) (i : Nat) :
    treeRoot (joinNodes f op) 5 ((List.range' (2 ^ n * i) (2 ^ n)).map (treeNode f op leaf 0)) = treeNode f op leaf n i := by
  rw [treeRoot, ← Nat.add_sub_cancel' hn, iterN_add, iterN_treeLevel, iterN_treeLevel_singleton, Nat.zero_add]

/-! ## The root as a result (R147, log entry 13) -/

/-- The element of a node is what its bits decode to. -/
def Elem.decoded (f : Format) (x : Elem) : Prop := ∃ mk, x.v = f.unpack x.bits mk
theorem decoded_elementOf (w : FW) (h : Nat) (x : W32) : (elementOf w h x).decoded (fmtOf w) := ⟨_, rfl⟩
theorem decoded_treeNode {f : Format} {op : FRedOp} {leaf : Nat → Option Elem} (hl : ∀ j, ∀ x ∈ leaf j, x.decoded f) (n i : Nat) :
    ∀ x ∈ treeNode f op leaf n i, x.1.decoded f := by
  induction n generalizing i with
  | zero =>
    intro x hx
    obtain ⟨y, hy, rfl⟩ := Option.map_eq_some_iff.mp hx
    exact hl i y hy
  | succ n ih =>
    rw [treeNode_succ]
    have hx := ih (2 * i)
    have hy := ih (2 * i + 1)
    cases hnx : treeNode f op leaf n (2 * i) with
    | none => exact hy
    | some x =>
      cases hny : treeNode f op leaf n (2 * i + 1) with
      | none => rw [hnx] at hx; exact hx
      | some y => intro z hz; rw [joinSome, Option.mem_some_iff] at hz; exact hz ▸ ⟨false, rfl⟩

theorem settle_eq_rootOf {w : FW} {x : Node} (hx : x.1.decoded (fmtOf w)) :
    settle (fmtOf w) x.1 x.2 = rootOf (fmtOf w) (some x) := by
  obtain ⟨mk, hv⟩ := hx
  have hn := FV.isNan_unpack (fmtOf_special w) (fmtOf_topCode_pos w) x.1.bits mk
  have hs := FV.sig_unpack (fmtOf_special w) (fmtOf_topCode_pos w) x.1.bits mk
  rw [← hv] at hn hs
  simp only [settle, rootOf, hn, hs, fmtOf_qnan, flagIf]
  cases signals (fmtOf w) x.1.bits <;> simp
theorem reduceFloat_eq_rootOf {w : FW} {op : FRedOp} {leaf : Nat → Option Elem}
    (hl : ∀ j, ∀ x ∈ leaf j, x.decoded (fmtOf w)) {n : Nat} (hn : n ≤ 5) (i : Nat) :
    reduceFloat (fmtOf w) op ((List.range' (2 ^ n * i) (2 ^ n)).map leaf) = rootOf (fmtOf w) (treeNode (fmtOf w) op leaf n i) := by
  have hleaves : ((List.range' (2 ^ n * i) (2 ^ n)).map leaf).map (fun x => x.map fun x => (x, { val := x.bits })) =
      (List.range' (2 ^ n * i) (2 ^ n)).map (treeNode (fmtOf w) op leaf 0) := List.map_map
  have hd := decoded_treeNode (op := op) hl n i
  rw [reduceFloat, hleaves, treeRoot_eq_treeNode _ _ _ hn]
  cases hx : treeNode (fmtOf w) op leaf n i with
  | none => rfl
  | some x => exact settle_eq_rootOf (hd x hx)

/-! ## FREDUX -/

theorem State.tileLeaves_map (s : State) (e : LaneEnc) (l : Nat) (g : Nat → Elem) :
    ((s.tileLeaves e l).map fun k => k.map g) =
      (List.range' (2 ^ s.cg.tile * (l / 2 ^ s.cg.tile)) (2 ^ s.cg.tile)).map fun j => if s.executes e j then some (g j) else none := by
  have hx j : (s.execLanes e).contains j = s.executes e j := by
    rw [Bool.eq_iff_iff, List.contains_iff_mem, State.mem_execLanes]
    exact and_iff_right_of_imp BitVec.lt_of_getLsbD
  rw [State.tileLeaves, fromTo, ← List.range'_eq_map_range, List.map_map, Group.tileW, Nat.mul_comm]
  refine List.map_congr_left fun j _ => ?_
  rw [Function.comp_apply, hx]
  split <;> rfl

/-- Settles O27: FSET by `comparesValues_of_model` and the write of its predicate, FCLASS by the class of its operand, FREDUX by the root
of its tree. -/
theorem floatTestsAndReductionsWriteTheirResult : Obligations.FloatTestsAndReductionsWriteTheirResult := by
  unfold Obligations.FloatTestsAndReductionsWriteTheirResult
  refine ⟨comparesValues_of_model, fun s e f h hq => exec_fset_of_ready h hq, fun s e h => ?_, fun s e w op h hn hq => ?_⟩
  · obtain ⟨t, ht, hr, hw⟩ :=
      writesV_laneV_noFlags (len := e.bytes) (f := fun s l => BitVec.ofNat 32 (2 ^ classBit (s.opB e .f32 l))) h
    exact ⟨t, _, ht, hr, hw, fun l _ => ⟨_, classIs_classBit _, rfl⟩⟩
  · refine writesFp_fpGo h (fun l => ?_) hq
    simp only [laneRes_eq_perElement, State.tileLeaves_map, elemOf_eq_elementOf]
    refine congrArg (perElement w) (funext fun h => reduceFloat_eq_rootOf (fun j x hx => ?_) hn _)
    obtain ⟨-, hx⟩ := Option.ite_none_right_eq_some.mp hx
    exact Option.some.inj hx ▸ decoded_elementOf w h _

end Sys2Proof.Machine
end
